-- ==== Sys2Proof/Word.lean ====
section
/-! DEFINITION. The word types of the device: bytes of memory, 32-bit registers and instruction words (R3, R26, R61). -/

namespace Sys2Proof

/-- One byte of memory or scratchpad (R3). -/
abbrev Byte := BitVec 8

/-- One register, one instruction word or one queue word: 32 bits (R26, R61). -/
abbrev Word := BitVec 32

/-- The word with the value `n` modulo 2^32. -/
def Word.ofNat (n : Nat) : Word := BitVec.ofNat 32 n

/-- The byte with the value `n` modulo 256. -/
def Byte.ofNat (n : Nat) : Byte := BitVec.ofNat 8 n

/-- A number from a list of words, lowest word first (R28, R61). -/
def Word.join : List Word → Nat
  | [] => 0
  | w :: ws => w.toNat + 2 ^ 32 * Word.join ws

/-- `n` words of a number, lowest word first (R28, R61). -/
def Word.split : Nat → Nat → List Word
  | 0, _ => []
  | n + 1, x => Word.ofNat x :: Word.split n (x / 2 ^ 32)

/-- A number from a list of bytes, lowest address first (R3). -/
def Byte.join : List Byte → Nat
  | [] => 0
  | b :: bs => b.toNat + 256 * Byte.join bs

/-- `n` bytes of a number, lowest address first (R3). -/
def Byte.split : Nat → Nat → List Byte
  | 0, _ => []
  | n + 1, x => Byte.ofNat x :: Byte.split n (x / 256)

end Sys2Proof
end

