-- ==== Sys2Proof/Config.lean ====
section
/-! DEFINITION. What the manual leaves open: constants without a body, applied to plain data. Nothing can be proved of a value of them. -/

namespace Sys2Proof.Config

/-- Whether the RSA-4096 signature over the SHA-512 digest of an image checks against the fused key (R388): the key is not in the manual. -/
opaque imageVerifies : List (Nat × Byte) → Nat → Bool

/-- A byte of the SHA-512 digest of bytes (R388, R390): the bytes that are not 0 with their places, their number, and the place in the digest. -/
opaque digestByte : List (Nat × Byte) → Nat → Nat → Byte

/-- The byte at a position of the attestation report that a signature, the serial number, the key or the certificate fills (R390): which report, which position. -/
opaque reportByte : Nat → Nat → Byte

/-- The certificate length, at most 1528 after the cut its reader makes (R390). -/
opaque certLength : Nat → Nat

/-- A free value for each number of a counter that the step reads and advances. -/
opaque freeValue : Nat → Word

/-- The body words of an event whose layout the manual does not give (R386): the event, a counter, what the event names, the word. -/
opaque eventWord : Nat → Nat → List Nat → Nat → Nat

/-- Whether a driver invalidation or `tlbi` also waits for accesses of the context that used no dropped translation (R232). -/
opaque dropWaits : Nat → Bool

/-- The number of this device in the pod (R18), which the management controller gives. -/
opaque deviceNumber : Nat

end Sys2Proof.Config
end

