-- ==== Sys2Proof/Machine/Bits.lean ====
section
/-! DEFINITION. Bit fields, sign extension, saturation and the other plain helpers of the manual's pseudocode (R3, R60). -/

namespace Sys2Proof.Machine

/-- The field [hi:lo] of a number, both ends included (R3). -/
def bits (x hi lo : Nat) : Nat := x / 2 ^ lo % 2 ^ (hi + 1 - lo)

/-- One bit of a number (R3). -/
def bit (x i : Nat) : Bool := x / 2 ^ i % 2 == 1

/-- A truth value as a bit. -/
def b2n (b : Bool) : Nat := if b then 1 else 0

/-- Zext of R60: the low `n` bits as an unsigned number. -/
def zext (x n : Nat) : Nat := x % 2 ^ n

/-- Sext of R60: the low `n` bits as a two's complement number. -/
def sext (x n : Nat) : Int :=
  if x % 2 ^ n < 2 ^ (n - 1) then (x % 2 ^ n : Nat) else (x % 2 ^ n : Nat) - (2 ^ n : Nat)

/-- Sat of R60. -/
def satI (x lo hi : Int) : Int := if x < lo then lo else if hi < x then hi else x

/-- An integer stored modulo 2^n: Write of R129. -/
def narrow (x : Int) (n : Nat) : Nat := (x % (2 ^ n : Nat)).toNat

/-- The integer whose n-bit form `x` wraps to: Sext of an unbounded integer. -/
def wrapS (x : Int) (n : Nat) : Int := sext (narrow x n) n

/-- Division of naturals rounding up. -/
def ceilDiv (a b : Nat) : Nat := (a + b - 1) / b

/-- Rounds `x` up to a multiple of `m`. -/
def roundUp (x m : Nat) : Nat := ceilDiv x m * m

/-- The number of bits of `x` that are 1 below bit `n` (R138). -/
def popCount : Nat → Nat → Nat
  | 0, _ => 0
  | n + 1, x => x % 2 + popCount n (x / 2)

/-- Trailing zeros of the `n`-bit value `x`, `n` for zero (R138). -/
def trailZeros : Nat → Nat → Nat
  | 0, _ => 0
  | n + 1, x => if x % 2 == 1 then 0 else 1 + trailZeros n (x / 2)

/-- Leading zeros of the `n`-bit value `x`, `n` for zero (R138). -/
def leadZeros : Nat → Nat → Nat
  | 0, _ => 0
  | n + 1, x => if bit x n then 0 else 1 + leadZeros n x

/-- The `n`-bit value `x` with bit i moved to bit n−1−i (R138). -/
def bitReverse : Nat → Nat → Nat
  | 0, _ => 0
  | n + 1, x => x % 2 * 2 ^ n + bitReverse n (x / 2)

/-- The bits set in `x` below `n`, ascending. -/
def setBits (x n : Nat) : List Nat := (List.range n).filter (bit x)

/-- A number whose bits are the members of a list (repeats count once). -/
def maskOf : List Nat → Nat
  | [] => 0
  | i :: is => 2 ^ i ||| maskOf is

/-- Every element of a list in order, with its position. -/
def indexed {α : Type} (xs : List α) : List (Nat × α) := (List.range xs.length).zip xs

end Sys2Proof.Machine
end

