-- ==== Sys2Proof/Machine/Maps.lean ====
section
/-! DEFINITION. Finite maps from numbers as sorted association lists: strictly rising keys, so that equal maps are equal data. -/

namespace Sys2Proof.Machine

/-- A finite map keyed by numbers, kept with strictly rising keys. -/
abbrev NMap (α : Type) := List (Nat × α)

/-- The entry at a key. -/
def NMap.find {α : Type} : NMap α → Nat → Option α
  | [], _ => none
  | (k, v) :: m, i => if i = k then some v else if i < k then none else NMap.find m i

/-- The entry at a key, or a default. -/
def NMap.get {α : Type} (m : NMap α) (i : Nat) (d : α) : α := (NMap.find m i).getD d

/-- Sets the entry at a key. -/
def NMap.put {α : Type} : NMap α → Nat → α → NMap α
  | [], i, x => [(i, x)]
  | (k, v) :: m, i, x =>
    if i = k then (i, x) :: m else if i < k then (i, x) :: (k, v) :: m else (k, v) :: NMap.put m i x

/-- Removes the entry at a key. -/
def NMap.del {α : Type} : NMap α → Nat → NMap α
  | [], _ => []
  | (k, v) :: m, i => if i = k then m else if i < k then (k, v) :: m else (k, v) :: NMap.del m i

/-- Sets an entry, or removes it where the value is the one an unlisted key reads as. -/
def NMap.store {α : Type} [DecidableEq α] (m : NMap α) (i : Nat) (x d : α) : NMap α :=
  if x = d then NMap.del m i else NMap.put m i x

/-- Changes the entry at a key, if there is one. -/
def NMap.edit {α : Type} (m : NMap α) (i : Nat) (f : α → α) : NMap α :=
  match NMap.find m i with
  | some x => NMap.put m i (f x)
  | none => m

/-- The keys, rising. -/
def NMap.keys {α : Type} (m : NMap α) : List Nat := m.map Prod.fst

/-- Keeps the entries whose key satisfies a test. -/
def NMap.keep {α : Type} (m : NMap α) (p : Nat → Bool) : NMap α := m.filter fun e => p e.1

/-- The entries with lo ≤ key < hi, their keys counted from lo. -/
def NMap.slice {α : Type} (m : NMap α) (lo hi : Nat) : NMap α :=
  (m.filter fun e => decide (lo ≤ e.1 ∧ e.1 < hi)).map fun e => (e.1 - lo, e.2)

/-- The map without the entries lo ≤ key < hi. -/
def NMap.clearRange {α : Type} (m : NMap α) (lo hi : Nat) : NMap α :=
  m.filter fun e => !decide (lo ≤ e.1 ∧ e.1 < hi)

/-- Puts every entry of a slice back, its keys counted from lo. -/
def NMap.paste {α : Type} (m : NMap α) (lo : Nat) : NMap α → NMap α
  | [] => m
  | (k, v) :: r => NMap.paste (NMap.put m (lo + k) v) lo r

/-- The map's form: strictly rising keys. -/
def NMap.wf {α : Type} : NMap α → Bool
  | [] => true
  | [_] => true
  | (k, _) :: (k', v') :: m => decide (k < k') && NMap.wf ((k', v') :: m)

end Sys2Proof.Machine
end

