-- ==== Sys2Proof/Syntax.lean ====
section
/-! DEFINITION. The instructions and the atomic events of the device: one constructor of `Instr` per row of the opcode table. -/

namespace Sys2Proof

/-- A source operand (R28, R40, R42): a register of the window, a queue register, vz, a literal (lowest word first) or a team-uniform register. -/
inductive Src where
  | v (n : Nat)
  | q (n : Nat)
  | vz
  | lit (ws : List Word)
  | s (n : Nat)
deriving DecidableEq, Repr

/-- A destination operand (R40, R41): a register, a queue register, vz, or none (127, X format only). -/
inductive Dst where
  | v (n : Nat)
  | q (n : Nat)
  | vz
  | none
deriving DecidableEq, Repr

/-- A predicate register p0 to p15 (R126). -/
abbrev Pred := Fin 16

/-- The forms of `iadd` and `isub` (R130). -/
inductive AddForm where
  | wrap | satS | satU | b64
deriving DecidableEq, Repr

/-- The forms of `imul` (R132). -/
inductive MulForm where
  | lo | wideS | wideU | b64
deriving DecidableEq, Repr

/-- The forms of `imulh` (R132). -/
inductive HighForm where
  | s | u | su
deriving DecidableEq, Repr

/-- The forms of `imad` (R132). -/
inductive MadForm where
  | lo | wideS | wideU
deriving DecidableEq, Repr

/-- Signedness and width of `idiv`, `irem`, `imin` and `imax` (R133, R134). -/
inductive IForm where
  | s32 | u32 | s64 | u64
deriving DecidableEq, Repr

/-- The eight bitwise functions of `lop` and `plop` (R135, R146). -/
inductive LogicOp where
  | and | or | xor | andn | orn | xnor | nand | nor
deriving DecidableEq, Repr

/-- The conditions of `icmp` (R139). -/
inductive ICond where
  | eq | ne | lt | le | gt | ge
deriving DecidableEq, Repr

/-- The widths of `mov` (R142). -/
inductive MovWidth where
  | b32 | b64 | b128
deriving DecidableEq, Repr

/-- The codes of `cvti` (R144). -/
inductive NarrowForm where
  | s8 | u8 | s16 | u16 | satS8 | satU8 | satS16 | satU16
deriving DecidableEq, Repr

/-- The forms of `pack` (R145). -/
inductive PackForm where
  | b16 | satS16 | satU16
deriving DecidableEq, Repr

/-- The forms of `unpk` (R145). -/
inductive UnpackForm where
  | s16 | u16 | s8 | u8
deriving DecidableEq, Repr

/-- The float formats of the vector instructions (R147). -/
inductive FloatForm where
  | f32 | f64 | f16x2 | bf16x2
deriving DecidableEq, Repr

/-- The formats of `fexp2`, `flog2`, `fsin`, `fcos` and `ftanh` (R157). -/
inductive ShortFloat where
  | f32 | f16x2 | bf16x2
deriving DecidableEq, Repr

/-- The conditions of `fcmp` (R150). -/
inductive FCond where
  | eq | ne | lt | le | gt | ge | un | ord
deriving DecidableEq, Repr

/-- The rounding codes of conversions and `frnd` (R65). -/
inductive RoundCode where
  | rne | rtz | rdn | rup | rna | dyn
deriving DecidableEq, Repr

/-- The conversions of `fcvt` (R75), named by source and result. -/
inductive FloatConv where
  | f32f64 | f64f32 | f32f16 | f16f32 | f32bf16 | bf16f32 | f32s32 | f32u32
  | s32f32 | u32f32 | f64s64 | f64u64 | s64f64 | u64f64 | f32bf16x2 | f32f16x2
deriving DecidableEq, Repr

/-- The conversions of `lcvt` (R77), named by source and result. -/
inductive LnsConv where
  | f32lns | lnsf32 | bf16lns | lnsbf16 | f16lns | lnsf16
deriving DecidableEq, Repr

/-- The modes of `vote` (R116). -/
inductive VoteMode where
  | every | some | same | odd
deriving DecidableEq, Repr

/-- The modes of `shfl` (R117). -/
inductive ShflMode where
  | pick | lower | upper | mirror | ring
deriving DecidableEq, Repr

/-- The reductions of `redux` (R117). -/
inductive ReduxOp where
  | add | minS | maxS | minU | maxU | and | or | xor
deriving DecidableEq, Repr

/-- The directions of `qswap` (R118). -/
inductive QuadDir where
  | h | v | d
deriving DecidableEq, Repr

/-- The reductions of `qred` (R118). -/
inductive QuadOp where
  | add | minS | maxS | fadd | fmin | fmax
deriving DecidableEq, Repr

/-- The access widths of the M format (R46). -/
inductive Size where
  | b8 | b16 | b32 | b64 | b128
deriving DecidableEq, Repr

/-- The atomic operations of the ordering word (R47). -/
inductive AtomOp where
  | add | min | max | and | or | xor | exch | cas
deriving DecidableEq, Repr

/-- The orders of the ordering word (R47). -/
inductive Order where
  | relaxed | acquire | release | acqRel
deriving DecidableEq, Repr

/-- The five scopes, narrowest first (R6). -/
inductive Scope where
  | team | cluster | die | device | system
deriving DecidableEq, Repr

/-- The ordering word of an M-format instruction with E = 1 (R47). -/
structure OrdWord where
  offs : BitVec 16
  fadd : Bool
  sgn : Bool
  atop : AtomOp
  ord : Order
  scope : Scope
deriving DecidableEq, Repr

/-- The results of `clk` (R233). -/
inductive ClkForm where
  | horizon | cycles | low
deriving DecidableEq, Repr

/-- The barrier levels (R331, R337). -/
inductive BarLevel where
  | team | die | pkg
deriving DecidableEq, Repr

/-- What a register write without behaviour of its own names: a special register of `csrwr` (R228) a BAR0 register by offset (R379), or a byte of the BAR2 staging window (R378). -/
inductive RegTarget where
  | csr (n : Nat) (a : Src)
  | bar0 (offset value : Nat)
  | bar2 (offset : Nat) (b : Byte)
deriving DecidableEq, Repr

/-- What a Quacy packet carries (R305, R312, R347, R352, R359, R360): bytes by offset in the window, a remote add, a signal, the reply of a remote add, the publication of a tile of a cross-device pipe, the DEPTH and SLOTB of the peer's end of a pipe, or a spill grant. -/
inductive PacketBody where
  | store (bytes : List (Nat × Byte))
  | add (offset addend replyEntry replyOffset : Nat)
  | sig (offset decrement : Nat)
  | reply (offset value : Nat)
  | publish (pipe num : Nat)
  | hello (pipe peerPipe depth slotb : Nat)
  | grant (pipe : Nat)
deriving DecidableEq, Repr

/-- A Quacy packet as it arrives (R355): the receive entry it names, the sending device and entry, its sequence number and its body. -/
structure Packet where
  entry : Nat
  device : Nat
  sender : Nat
  seq : Nat
  body : PacketBody
deriving DecidableEq, Repr

/-- The instructions and events of the device, in the order of the opcode table. -/
inductive Instr where
  -- 0x00 to 0x3D: integer, move and float instructions (R52, R130 to R157)
  | nop
  | iadd (f : AddForm) (a b : Src) (d : Dst)
  | isub (f : AddForm) (a b : Src) (d : Dst)
  | iaddc (k : Pred) (a b : Src) (d : Dst)
  | isubb (k : Pred) (a b : Src) (d : Dst)
  | imul (f : MulForm) (a b : Src) (d : Dst)
  | imulh (f : HighForm) (a b : Src) (d : Dst)
  | imad (f : MadForm) (a b : Src) (d : Dst)
  | idiv (f : IForm) (a b : Src) (d : Dst)
  | irem (f : IForm) (a b : Src) (d : Dst)
  | imin (f : IForm) (a b : Src) (d : Dst)
  | imax (f : IForm) (a b : Src) (d : Dst)
  | iabs (sat : Bool) (a : Src) (d : Dst)
  | ineg (sat : Bool) (a : Src) (d : Dst)
  | lop (op : LogicOp) (a b : Src) (d : Dst)
  | shl (wide : Bool) (a b : Src) (d : Dst)
  | shr (wide : Bool) (a b : Src) (d : Dst)
  | sar (wide : Bool) (a b : Src) (d : Dst)
  | rot (wide : Bool) (a b : Src) (d : Dst)
  | bfx (sgn : Bool) (a b : Src) (d : Dst)
  | bfi (a b : Src) (d : Dst)
  | popc (wide : Bool) (a : Src) (d : Dst)
  | clz (wide : Bool) (a : Src) (d : Dst)
  | ctz (wide : Bool) (a : Src) (d : Dst)
  | brev (wide : Bool) (a : Src) (d : Dst)
  | icmp (c : ICond) (uns wide : Bool) (a b : Src) (p : Pred)
  | isel (p : Pred) (a b : Src) (d : Dst)
  | lea (k : Fin 8) (a b : Src) (d : Dst)
  | mov (w : MovWidth) (b : Src) (d : Dst)
  | movi (imm : BitVec 18) (d : Dst)
  | movh (imm : BitVec 18) (d : Dst)
  | movs (wide : Bool) (b : Src) (sd : Nat)
  | cvti (f : NarrowForm) (a : Src) (d : Dst)
  | pack (f : PackForm) (a b : Src) (d : Dst)
  | unpk (f : UnpackForm) (a : Src) (d : Dst)
  | plop (op : LogicOp) (pa pb pd : Pred)
  | pmov (d : Dst)
  | pmovW (a : Src)
  | fmov (f : FloatForm) (neg : Bool) (a b : Src) (d : Dst)
  | fadd (f : FloatForm) (neg : Bool) (a b : Src) (d : Dst)
  | fsub (f : FloatForm) (neg : Bool) (a b : Src) (d : Dst)
  | fmul (f : FloatForm) (neg : Bool) (a b : Src) (d : Dst)
  | ffma (f : FloatForm) (neg : Bool) (a b : Src) (d : Dst)
  | fmin (f : FloatForm) (neg : Bool) (a b : Src) (d : Dst)
  | fmax (f : FloatForm) (neg : Bool) (a b : Src) (d : Dst)
  | fcmp (f : FloatForm) (neg : Bool) (c : FCond) (a b : Src) (p : Pred)
  | fcvt (c : FloatConv) (rm : RoundCode) (a : Src) (d : Dst)
  | frnd (f : FloatForm) (rm : RoundCode) (a : Src) (d : Dst)
  | fclass (f : FloatForm) (a : Src) (d : Dst)
  | fscale (f : FloatForm) (a b : Src) (d : Dst)
  | frcp (f : FloatForm) (a : Src) (d : Dst)
  | frsq (f : FloatForm) (a : Src) (d : Dst)
  | fsqrt (f : FloatForm) (a : Src) (d : Dst)
  | fdiv (f : FloatForm) (neg : Bool) (a b : Src) (d : Dst)
  | fexp2 (f : ShortFloat) (a : Src) (d : Dst)
  | flog2 (f : ShortFloat) (a : Src) (d : Dst)
  | fsin (f : ShortFloat) (a : Src) (d : Dst)
  | fcos (f : ShortFloat) (a : Src) (d : Dst)
  | ftanh (f : ShortFloat) (a : Src) (d : Dst)
  | lcvt (c : LnsConv) (rm : RoundCode) (a : Src) (d : Dst)
  -- 0x40 to 0x57: control, cross-lane and quad instructions (R107 to R118, R245)
  | bra (off : BitVec 21)
  | brp (p : Pred) (off : BitVec 21)
  | brx (a : Src)
  | call (w : Fin 16) (off : BitVec 21)
  | callx (w : Fin 16) (a : Src)
  | ret (w : Fin 16)
  | loop (c : Src) (off : BitVec 18)
  | loopi (sgn : Bool) (a b : Src) (d : Dst) (off : BitVec 18)
  | brk (p : Pred)
  | fork (w : Fin 16) (a : Src) (p : Pred)
  | exit
  | wbase (a : Src)
  | yield
  | elect (p : Pred)
  | vote (m : VoteMode) (ps pd : Pred)
  | ballot (ps : Pred) (d : Dst)
  | matchAny (wide : Bool) (a : Src) (d : Dst)
  | shfl (m : ShflMode) (a b : Src) (d : Dst)
  | redux (op : ReduxOp) (wide : Bool) (a : Src) (d : Dst)
  | qswap (dir : QuadDir) (a : Src) (d : Dst)
  | qbcast (k : Fin 4) (a : Src) (d : Dst)
  | qred (op : QuadOp) (a : Src) (d : Dst)
  | gset (k : Fin 8) (p : Pred)
  | gsetRun (k : Fin 8)
  | gsetDrop (k : Fin 8)
  -- 0x60 to 0x6B: memory instructions (R180 to R189)
  | ld (z : Size) (o : Option OrdWord) (a b : Src) (d : Dst)
  | st (z : Size) (o : Option OrdWord) (a b d : Src)
  | lds (z : Size) (o : Option OrdWord) (a b : Src) (d : Dst)
  | sts (z : Size) (o : Option OrdWord) (a b d : Src)
  | ldc (z : Size) (o : Option OrdWord) (a b : Src) (d : Dst)
  | atom (wide : Bool) (o : OrdWord) (a b : Src) (d : Dst)
  | atoms (wide : Bool) (o : OrdWord) (a b : Src) (d : Dst)
  | red (wide : Bool) (o : OrdWord) (a b d : Src)
  | fence (s : Scope)
  | cflush (o : Option OrdWord) (a b : Src)
  | cflushAll (o : Option OrdWord)
  | pref (o : Option OrdWord) (a b : Src)
  | prefBlk (o : Option OrdWord) (a b : Src)
  | waitaddr (wide : Bool) (o : Option OrdWord) (a b : Src) (d : Dst)
  -- 0x70 to 0x79: system instructions (R229 to R235, R337, R346)
  | trap (p : Pred) (k : BitVec 7)
  | eret
  | eretSkip
  | csrrd (n : BitVec 11) (d : Dst)
  | csrwr (n : BitVec 11) (a : Src)
  | bkpt (p : Pred) (k : BitVec 7)
  | tlbiVa (a : Src)
  | tlbiCtx
  | clk (f : ClkForm) (d : Dst)
  | perf (c : Fin 8) (d : Dst)
  | perfClr (c : Fin 8) (d : Dst)
  | bar (l : BarLevel) (i : Nat)
  | barArr (l : BarLevel) (i : Nat)
  | netclsBulk
  | netclsLat
  -- X format: engine commands (R253, R254, R284, R320 to R330, R358)
  | cpTile (a : Src)
  | cpStore (a : Src)
  | cpLin (a : Src)
  | cpGather (a : Src)
  | cpScatter (a : Src)
  | cpFill (a : Src)
  | cpSig (a : Src)
  | cpStat (a : Src) (d : Dst)
  | cpStatResume (a : Src) (d : Dst)
  | mxCfg (a : Src)
  | mxPass (a : Src) (d : Dst)
  | mxPair (a : Src) (d : Dst)
  | mxBq (b a : Src)
  | mxLut (a : Src)
  | mxFold (a : Src)
  | mxFoldSump (a : Src)
  | mxDrain (a : Src)
  | mxClr (a : Src)
  | acLd (a : Src)
  | acSt (a : Src)
  | mxStat (a : Src) (d : Dst)
  | mxStatResume (a : Src) (d : Dst)
  | mxDep (a b : Src)
  | pRsv (a : Src) (d : Dst)
  | pPub (a b : Src)
  | pAcq (a : Src) (d : Dst)
  | pRel (a b : Src)
  | pOcc (a : Src) (d : Dst)
  | pBind (a : Src)
  | pUnbind (a : Src)
  | rsInit (a : Src)
  | rsNext (a : Src) (d : Dst)
  | tSpawn (a b : Src) (d : Dst)
  | tDec (a : Src)
  | tPop (d : Dst)
  | launch (a : Src) (d : Dst)
  | tCntWr (a b : Src)
  | tCntRd (b : Src) (d : Dst)
  | fxAdd (a : Src)
  | fxSig (a : Src)
  | fxFence (d : Dst)
  | fxStat (a : Src) (d : Dst)
  -- writes of registers with behaviour of their own
  | fpctlWrite (a : Src)
  | poolcfgWrite (k : Fin 7) (a : Src)
  | spallocWrite (a : Src)
  | trootWrite (half : Bool) (a : Src)
  | netctlWrite (a : Src)
  | fxctlWrite (a : Src)
  | registerWrite (t : RegTarget)
  -- issue events (R34, R90 to R100, R113, R186 to R189, R224, R238, R242, R273); g is a group slot, f a fibre
  | clauseStart (g : Nat)
  | quadSplit (g : Nat)
  | groupSlotRelease (g : Nat)
  | groupPriorityBoost (g : Nat)
  | groupEviction (g : Nat)
  | operationComplete (op : Nat)
  | exitCommit (f : Nat)
  | fenceDone (f : Nat)
  | waitaddrWake (f : Nat)
  | queueWaitDone (f : Nat)
  | poolGrant (core : Nat)
  | trapTake (f : Nat)
  | sumpFull (f : Nat)
  | leaseRewalk (plan stage : Nat)
  -- memory events (R170 to R174, R407)
  | cisternRead (r : Nat)
  | cisternWrite (r : Nat)
  | cisternAtomic (r : Nat)
  | writeAck (r : Nat)
  | l1Fill (r : Nat)
  | windowRequest (r : Nat)
  -- mesh and barrier events (R334, R339 to R345)
  | routerCycle (layer router : Nat)
  | starve (core : Nat)
  | remapWrite (ctx vcore : Nat) (phys : Option Nat)
  | barrierArrivalMessage (k : Nat)
  | barrierRelease (k : Nat)
  | linkRetrain (router port : Nat)
  | linkRetrainDone (router port : Nat) (ok : Bool)
  -- copy and matrix engine events (R250, R253, R262 to R292, R414)
  | copyCommandHead (core : Nat)
  | copyStep (core : Nat)
  | copyComplete (core : Nat)
  | postEnterTable (q : Nat)
  | matrixCommandHead (q : Nat)
  | passGrant (core : Nat)
  | postPriorityRise (entry : Nat)
  | arrayCycle (core : Nat)
  | unitRetire (core : Nat)
  | foldMove (core : Nat)
  | foldWriteDone (core : Nat)
  | drainComplete (q : Nat)
  | acTransferComplete (q : Nat)
  -- plan, pipe and task events (R299 to R318)
  | planStart (plan : Nat)
  | teamLaunch (plan stage : Nat)
  | pipeCounterUpdate (pipe : Nat)
  | pumpPull (pipe : Nat)
  | pumpDeliver (pipe : Nat)
  | crossDeviceCredit (pipe rel : Nat)
  | deadlockScan
  | drainImageComplete (plan : Nat)
  | deadlockProbe (pipe originDev originPipe lowDev lowPipe crossed : Nat)
  | windlassInterval (plan : Nat)
  | rangeSteal (f : Nat)
  | taskUpdate (stage : Nat)
  -- fabric events (R347 to R361)
  | wcLineAge (core line : Nat)
  | packetEgress (entry : Nat)
  | quacyPacketReceive (p : Packet)
  | quacyPacketApply (p : Packet)
  | fxAddApply (p : Packet)
  | fxSigApply (p : Packet)
  | packetAckReceive (entry dest seq : Nat)
  | packetRefusal (entry dest seq : Nat)
  | resendRequest (entry dest seq : Nat)
  | windowAckTimeout (entry : Nat)
  | planeFailure (plane : Nat)
  | windowRebind (entry : Nat)
  | ualinkRead (addr : Nat)
  -- partition events (R367 to R377)
  | budgetPeriod
  | preemptRequest (plan stage clusters : Nat)
  | coreHalted (core : Nat)
  | coreSaved (core : Nat)
  | resumePlaced (image core : Nat)
  | coreRestored (core : Nat)
  | contextReset (ctx cause : Nat)
  | gangGraceExpire (k : Nat)
  | compaction (k : Nat)
  -- launch-channel messages and BAR0 writes (R379 to R392)
  | place
  | launchMessage
  | replayRetry
  | replayKill
  | invalVa
  | invalContext
  | mapwr
  | partwr
  | resetMessage
  | gang
  | unplace
  | attest
  | health
  | badtype
  | sqtail (v : Nat)
  | cqhead (v : Nat)
  | lcctlEnable (v : Nat)
  | restart
  | provcmd (n : Nat)
  | frhead (ctx v : Nat)
  | erhead (ctx v : Nat)
  | eventWrite
  -- boot, power and health events (R388 to R393)
  | deviceReset
  | imageVerify
  | powerThrottle (level : Nat)
  | thermalThrottle
  | thermalTrip
  | thermalRecover
  | healthSample (die : Nat) (drift : Int) (stress life junction : Nat)
  -- the rest of the table (R38, R232, R361)
  | illegalInstruction (w : Word)
  | translationDropDone (ctx : Nat)
  | fxFenceFail (f : Nat)
deriving DecidableEq, Repr

end Sys2Proof
end

