-- ==== Sys2Proof/Machine/State.lean ====
section
/-! DEFINITION. The state of the device as plain data, what a run can stop with, and the state after reset. -/

namespace Sys2Proof.Machine

/-- Why the machine stops. -/
inductive Fault where
  /-- Raised by the home-memory events for a device physical address at or above 768 GiB, which no stack holds (R22): the translation tables or an engine named it. Safe: the hardware has no such byte. -/
  | physicalAddressAbsent (addr : Nat)
deriving DecidableEq, Repr

/-- Why an instruction has no meaning. -/
inductive Refusal where
  /-- Raised by `exec` for an instruction whose meaning is not written. Safe: the machine stops. -/
  | notModelled (mnemonic : String)
deriving DecidableEq, Repr

/-- User mode or handler mode (R224, R230). -/
inductive Mode where
  | user | handler
deriving DecidableEq, Repr

/-- A place in memory: device HBM4E or host memory, by physical address (R159, R213). -/
structure Loc where
  host : Bool
  pa : Nat
deriving DecidableEq, Repr

/-- An entry of the loop stack (R109). The signedness of an indexed loop is in the sign of its numbers. -/
inductive LoopEntry where
  | count (start stop n : Nat)
  | index (start stop : Nat) (v bound step : Int) (reg : Nat)
deriving DecidableEq, Repr

/-- A trap to be delivered (R224, R225): class, position, kind, info and address, `naddr` the position after the trapping instruction's last extension word. -/
structure TrapInfo where
  cls : Nat
  pos : Nat
  kind : Nat
  info : Nat
  addr : Option Nat
  npos : Nat
deriving DecidableEq, Repr

/-- What holds a group at its instruction, or a fibre in the fibre table (R97, R413); `woken` is a lane of `waitaddr` that has read its value (R189). -/
inductive Wait where
  | flags
  | flagFull (f : Nat)
  | memory
  | wcLine
  | pool (inst n : Nat)
  | pop (q n : Nat)
  | push (q n : Nat)
  | fence
  | barrier
  | waitaddr (addr : Nat)
  | woken (value : Nat)
  | exit
  | tlbi (ctx : Nat)
  | reserve (pipe : Nat)
  | acquire (pipe : Nat)
  | spawn
  | parked (entry : Nat) (t : TrapInfo)
  | faultFull
  | handlerWindow (t : TrapInfo)
  | halted
deriving DecidableEq, Repr

/-- The release work of R186 and R205: the earlier memory instructions waited for, whether the scope is wider than team, and the write-backs under way once they are started. -/
structure Rel where
  waits : List Nat
  wide : Bool
  flush : Option (List Nat)
deriving DecidableEq, Repr

/-- READY, RUNNING or BLOCKED; a FREE slot holds no fibre (R90). -/
inductive FibreStatus where
  | ready | running | blocked
deriving DecidableEq, Repr

/-- The state of a fibre (R87), with what R36, R172, R198, R243, R333 and R346 add. `pos` is the next word of the clause (0 at a clause boundary), `npos` the word after the instruction being issued, `hdr` and `code` the clause's header and the places of its words; `fence` is the fence or barrier arrival under way (R186); `bars` the arrivals whose wait is not over: clause, position, id among the 28 names, phase (R336). `stampAt` is the cycle in which the ready stamp was taken and orders stamps of one nanosecond (R99, R115); `since` is the cycle in which it last became READY, which orders fibres of one stamp (R98, R101; log 26). `hidden` are the marks a handler does not see (R36); `cohort` the launch group a barrier has released it with (R103). -/
structure Fibre where
  team : Nat
  fibreId : Nat
  status : FibreStatus
  wait : Option Wait
  mode : Mode
  pc : Nat
  pos : Nat
  npos : Nat
  hdr : Nat
  code : List Loc
  preds : BitVec 16
  base : Nat
  win : Nat
  flags : List Nat
  guards : List Nat
  loops : List LoopEntry
  fpctl : Word
  stamp : Nat
  stampAt : Nat
  since : Nat
  lat : Bool
  ct : Nat
  ot : Nat
  phases : NMap Bool
  pend : List Nat
  hidden : List Nat
  sump : List Nat
  fence : Option Rel
  cohort : Option Nat
  bars : List (Nat × Nat × Nat × Bool)
deriving DecidableEq, Repr

/-- A group in a group slot (R91): its fibres in home-lane order, what holds it, and the counters of R95, R97, R99 and R100. -/
structure Group where
  members : List Nat
  stall : Option Wait
  waited : Nat
  ready : Nat
  starts : Nat
  boosted : Bool
deriving DecidableEq, Repr

/-- The trap registers and saved state of a held handler window (R224, R225). -/
structure HandlerWin where
  holder : Nat
  tpc : Nat
  tcause : Word
  taddr : Nat
  tbase : Word
  tpred : BitVec 16
  loops : List LoopEntry
  win : Nat
  npos : Nat
  sump : Bool
deriving DecidableEq, Repr

/-- A team in one of its core's 16 team slots (R88, R120, R124, R161, R255, R300, R332): its plan and stage, TEAMID, the fibre slots and register spans (home lane, first register, registers) it holds, its allotment registers, the units of scratchpad and the tiles that its launch took (first and number of each), its barrier units by id, and the die it belongs to (R331). `ended` marks a team whose tiles wait for its last matrix units (R415), and `serial` tells it from every other team. -/
structure Team where
  plan : Nat
  stage : Nat
  index : Nat
  prio : Nat
  slots : List Nat
  spans : List (Nat × Nat × Nat)
  spalloc : Word
  acalloc : Word
  area : Nat × Nat × Nat × Nat
  units : NMap Nat
  die : Nat
  ended : Bool
  serial : Nat
deriving DecidableEq, Repr

/-- A cached translation: a last-page register or a core TLB entry (R216). `home` is 0 for device-wide homing and 1 + d for die-local homing on die d (R15, R213). -/
structure PageEntry where
  ctx : Nat
  va : Nat
  size : Nat
  loc : Loc
  x : Bool
  w : Bool
  rd : Bool
  us : Bool
  home : Nat
deriving DecidableEq, Repr

/-- The record of a line at its home: the latest lease granted and the settle time (R170, R198). -/
structure LineRec where
  lease : Nat
  settle : Nat
deriving DecidableEq, Repr

/-- The scope tag of an L1 block (R171). -/
inductive BlockTag where
  | none | team | wide
deriving DecidableEq, Repr

/-- A byte of an L1 block (R171, R173, R179): its value, whether it is TEAM-dirty, the write-back that carries it home, whether an uncorrectable error came with it. -/
structure L1Byte where
  val : Byte
  dirty : Bool
  going : Option Nat
  bad : Bool
deriving DecidableEq, Repr

/-- An L1 block of 1, 2, 4 or 8 units of 32 bytes (R169 to R171): its first unit (`unitOf`), its size, the homing of its page (0 device-wide, 1 + d on die d), its valid bytes by `byteKey`, the lease and the settle time of each unit, the scope of its last write. -/
structure L1Block where
  first : Nat
  size : Nat
  homing : Nat
  bytes : NMap L1Byte
  lease : NMap Nat
  settle : NMap Nat
  tag : BlockTag
deriving DecidableEq, Repr

/-- One lane's part of an atomic: the operation it belongs to, its byte offset in the line, width and kind, operand and expected value (R183). -/
structure AtomicItem where
  op : Nat
  off : Nat
  wide : Bool
  fadd : Bool
  sgn : Bool
  atop : AtomOp
  operand : Nat
  expected : Nat
deriving DecidableEq, Repr

/-- An access of one lane that is still to be performed (R171, R174, R176): its place, whether it is performed beyond the L1, and what it does. -/
inductive Todo where
  | store (line home off : Nat) (wide : Bool) (bytes : NMap Byte)
  | atomic (line home : Nat) (wide : Bool) (item : AtomicItem)
  | spadStore (core off : Nat) (bytes : List Byte)
  | spadAtomic (core : Nat) (item : AtomicItem)
  | winStore (core line : Nat) (bytes : NMap Byte)
  | winAtomic (core line : Nat) (item : AtomicItem)
  | window (entry off : Nat) (bytes : NMap Byte)
deriving DecidableEq, Repr

/-- What a memory request does at its home (R170, R172, R174) or at a target scratchpad (R160): a read fills a block of the L1, named by its first unit and size, and `lead` is the request that counts the fill; a window read names its bytes. -/
inductive ReqKind where
  | read (first size : Nat) (lead : Bool)
  | write (bytes : NMap Byte)
  | atomic (items : List AtomicItem)
  | winRead (off n : Nat)
  | winWrite (bytes : NMap Byte)
  | winAtomic (items : List AtomicItem)
deriving DecidableEq, Repr

/-- Where a request stands: on the mesh to its home, at its home, on the mesh back, answered, or landed for an engine that has not taken it up. -/
inductive ReqStage where
  | out | home | reply | done | landed
deriving DecidableEq, Repr

/-- A memory request of a core: the line and its page's homing, or the line and the virtual core of a scratchpad; what it does; the operations it serves; the fibres whose CT its acknowledgment raises; whether it carries TEAM-dirty bytes; the class asked for and, with `low`, whether it went as bulk; the context and partition it acts for, and whether it began before its cistern meter was exhausted (R367); the copy command it serves; the cluster of its home die whose router it uses. `newer` are the bytes the core has written since it asked, `mine` those of them that its reads return, `ahead` those written beyond the L1; `void` keeps a fill out of the L1. Then the answer, `bad` the bytes with an uncorrectable error, `fixed` whether a lane of the same instruction has read the value (R177). -/
structure Req where
  core : Nat
  line : Nat
  home : Nat
  kind : ReqKind
  stage : ReqStage
  ops : List Nat
  fibres : List Nat
  back : Bool
  lat : Bool
  low : Bool
  ctx : Nat
  part : Nat
  begun : Bool
  eng : Option Nat
  via : Nat
  newer : NMap Byte
  mine : NMap Byte
  ahead : List Nat
  void : Bool
  data : NMap Byte
  bad : List Nat
  fixed : Bool
  results : List (Nat × Nat)
  comp : Nat
  settle : Nat
  refused : Bool
deriving DecidableEq, Repr

/-- The bytes a lane's memory access covers in lines: line and first byte, width. -/
structure Access where
  line : Nat
  off : Nat
  bytes : Nat
deriving DecidableEq, Repr

/-- The destination of an operation's result: physical registers of its home lane, a queue of its core, or nothing. -/
inductive ResDst where
  | regs (rs : List Nat)
  | queue (q : Nat)
  | none
deriving DecidableEq, Repr

/-- An outstanding variable-latency instruction of one lane (R33, R34, R36): its fibre, whether a handler issued it, the flag it counts on, the pool entries it holds by instance, its destination, the registers it keeps pending, its value once fixed, how many parts are still to be performed; for a memory instruction the bytes it touches, its roles in R195, the release it owes, what it does then and with which other lanes, an atomic to be performed on an L1 fill; the line of poisoned data it met, its guard slot and generation, and its clause header and position. -/
structure Op where
  fibre : Nat
  hand : Bool
  flag : Option Nat
  holds : List (Nat × Nat)
  dst : ResDst
  marks : List Nat
  value : Option (List Word)
  left : Nat
  acc : Option Access
  isMem : Bool
  isLoad : Bool
  isStore : Bool
  acquire : Bool
  release : Bool
  prefetch : Bool
  rel : Option Rel
  todo : Option Todo
  peers : List Nat
  poisoned : Option Nat
  tag : Option (Nat × Nat)
  at_ : Nat × Nat
deriving DecidableEq, Repr

/-- A guard tag (R243): fibre, slot, generation; and its resolution. -/
structure GuardTag where
  fibre : Nat
  slot : Nat
  gen : Nat
deriving DecidableEq, Repr

/-- A queued copy command (R246 to R252, R414, R415): function, descriptor words, operation, guard, issuing clause, the next step, the data kept for a step under way and how many of its bytes are written, the fault that parked it (class, address), the completion and settle times it has met, the instructions of its fibre it waits for, the reason it halts its queue for, and whether it ends with its step because its team has been ended. -/
structure CopyCmd where
  fn : Nat
  desc : List Word
  team : Nat
  op : Nat
  guard : Option GuardTag
  header : Nat
  started : Bool
  step : Nat
  held : Option (List Byte)
  put : Nat
  fault : Option (Nat × Nat)
  comp : Nat
  ot : Nat
  rel : Option Rel
  halt : Option Nat
  quit : Bool
deriving DecidableEq, Repr

/-- The copy engine's queue and status (R246, R254). `parked` names the wait-table entry of a parked fault. -/
structure CopyEngine where
  queue : List CopyCmd
  parked : Option Nat
  done : Nat
deriving DecidableEq, Repr

/-- A queued matrix command (R261): function, the block's words or the control value, second operand, operations of its lanes, issuing fibre, guard, issuing clause, whether it is under way at the head, when a post was first refused an entry (R262), and the instructions of its fibre it waits for. -/
structure MxCmd where
  fn : Nat
  block : List Word
  ctl : Nat
  arg : Nat
  ops : List Nat
  fibre : Nat
  guard : Option GuardTag
  header : Nat
  waiting : Bool
  asked : Option Nat
  rel : Option Rel
deriving DecidableEq, Repr

/-- An offer of a quarter of B (R263, R264): its QC position, register count, exponent words of 16 columns, the words of 32 lanes, and its operations. -/
structure Offer where
  qc : Nat
  count : Nat
  fibre : Nat
  exps : List Nat
  lanes : List (List Word)
  ops : List Nat
  guard : Option GuardTag
deriving DecidableEq, Repr

/-- A matrix queue with its configuration (R261, R263, R277, R280, R285, R293): the team's, or the core's handler queue. `halts` are the halting commands with their reasons, oldest first: a reservation-table entry, or the queue's head. `claims` are the posts in order with the offers each still takes per position; none stands for a post discarded as ill-formed. `lut` is the last `mx.lut`, by number, with its block, `regs` is the register count of `mx.bq`, `turn` the quarter of the handler's next offer, `done` the count of DONE. -/
structure MxQueue where
  cmds : List MxCmd
  halts : List (Nat × Option Nat)
  mctl : Word
  offers : List Offer
  claims : List (Option Nat × List Nat)
  lut : Option (Nat × List Word)
  regs : Nat
  turn : Nat
  done : Nat
deriving DecidableEq, Repr

/-- A post in the reservation table (R262, R265): its queue, the command, its physical tile, its configuration, units granted and retired, when its candidacy began, its effective priority, STALL folds. -/
structure Post where
  core : Nat
  queue : Nat
  cmd : MxCmd
  tile : Nat
  mctl : Word
  granted : Nat
  retired : Nat
  since : Option Nat
  prio : Nat
  folds : Nat
  discarded : Bool
deriving DecidableEq, Repr

/-- A granted pass unit on an array (R265 to R273): the table entry of its post, the leader's core, the other core of a pair, its index (for `mx.lut` its number), the next array cycle, whether it is paused under TRAP, the grant cycle, and the operands read: exponents and slots of rows and columns, poison of rows and columns, kept positions; the serial number of its team, the first cycle in which it may retire once its fold is written; `void` once its tile has been cleared after its grant. -/
structure PassUnit where
  entry : Nat
  leader : Nat
  mate : Option Nat
  index : Nat
  cyc : Nat
  last : Nat
  paused : Bool
  grantAt : Nat
  isLut : Bool
  mode : Nat
  rate : Nat
  plane : Nat
  ea : List Int
  eb : List Int
  rows : List (List Int)
  cols : List (List Int)
  kept : List (List Nat)
  rowBad : List Bool
  colBad : List Bool
  tile : Nat
  queue : Nat
  scale : Int
  owner : Nat
  outAt : Nat
  void : Bool
deriving DecidableEq, Repr

/-- The fold shadow (R270): the moved sums with their poison (none once the tile is cleared), the tile, mode and scales, the time the fold path is done, and the operations it completes. -/
structure Shadow where
  tile : Nat
  float : Bool
  sums : List (Nat × Int × Bool)
  scale : Int
  ea : List Int
  eb : List Int
  ready : Nat
  ops : List Nat
deriving DecidableEq, Repr

/-- What a tile holds besides its entries (R257): KIND, Σ, OVF, INV, and a dependence binding: counter, DEPAT, team. -/
structure Tile where
  kind : Option Bool
  sigma : Option Int
  ovf : Bool
  inv : Bool
  dep : Option (Nat × Bool × Nat)
deriving DecidableEq, Repr

/-- One array with its tiles (R257, R260, R265, R270, R272). `resident` is the tile, scale sum and team's serial number that the cells belong to; `lut` the queue and number of the `mx.lut` whose tables it holds. Cells, cell poison and sump counts are by cell index 64·row + column; entries and their poison by 4096·tile + cell. -/
structure ArrayUnit where
  cells : NMap Int
  bad : List Nat
  sump : NMap Int
  resident : Option (Nat × Int × Nat)
  shadow : Option Shadow
  units : List PassUnit
  opensAt : Nat
  lut : Option (Nat × Nat × Int × List (List Int))
  entries : NMap (BitVec 64)
  poison : List Nat
  tiles : NMap Tile
  drain : NMap Nat
deriving DecidableEq, Repr

/-- A slot of the range unit (R315). -/
structure RangeSlot where
  cur : Nat
  hi : Nat
  chunk : Nat
  stage : Nat
deriving DecidableEq, Repr

/-- A line of the write-combining buffer (R351, R352): transmit entry, line offset, bytes, the fibres and the copy commands that wrote it, the time it was opened, its stamp, whether it is closed, and the context that wrote it. -/
structure WcLine where
  entry : Nat
  off : Nat
  bytes : NMap Byte
  fibres : List Nat
  cmds : List Nat
  opened : Nat
  stamp : Nat
  closed : Bool
  ctx : Nat
deriving DecidableEq, Repr

/-- An entry of the wait table (R219): its key, generation, the fibres parked, the record's slot. `held` is false for a free entry. -/
structure WaitEntry where
  held : Bool
  gen : Nat
  ctx : Nat
  page : Nat
  size : Nat
  kind : Nat
  info : TrapInfo
  fibres : List Nat
  engine : Option Nat
deriving DecidableEq, Repr

/-- A queued pipe, range, task or fabric command, or a guarded status read (R236, R243, R254, R320, R358): its function code, the fibres it was issued for with the operation and the operand values of each, its guard, the issuing clause and the fibre's mode. -/
structure XCmd where
  fn : Nat
  lanes : List (Nat × Nat × List Nat)
  guard : Option GuardTag
  header : Nat
  handler : Bool
  rel : Option Rel
deriving DecidableEq, Repr

/-- The state of a core under pre-emption (R370). -/
inductive Phase where
  | running | halting | saving | vacated | restoring
deriving DecidableEq, Repr

/-- A core (R119, R169, R172, R216, R219, R234, R236, R237, R315, R331, R340, R352, R353, R370): the context that holds it, its engines, caches and registers. -/
structure Core where
  ctx : Option Nat
  phase : Phase
  since : Nat
  ev : Nat
  l1 : List L1Block
  tlb : List PageEntry
  pool : NMap Nat
  queues : NMap (List (List Word) × Nat)
  copy : CopyEngine
  arr : ArrayUnit
  hq : MxQueue
  ranges : NMap RangeSlot
  rangeq : List (Nat × Nat × Nat)
  wcb : List WcLine
  waits : NMap WaitEntry
  poolcfg : List Word
  netctl : Word
  fxctl : Word
  perfsel : List Word
  perfctl : Word
  perfcnt : List Nat
  starved : List Nat
  units : NMap (Nat × Bool × List Nat)
  plan : Option (Nat × Nat)
  pipeq : List XCmd
  fabq : List XCmd
  statq : List XCmd
deriving DecidableEq, Repr

/-- What a mesh message carries: a memory request or its answer, a barrier message, an update of a pipe on its way to the home, a tile a pump pulls to the home or delivers from it. -/
inductive Payload where
  | request (r : Nat)
  | answer (r : Nat)
  | barrier (k : Nat)
  | update (pipe id : Nat)
  | pull (pipe num : Nat)
  | push (pipe num : Nat)
deriving DecidableEq, Repr

/-- A message on the mesh: its source and destination, a core or 256 + a cluster for that cluster's router port, class, flits, how many have arrived, the context it belongs to and the partition its flits count against, what it carries. -/
structure Msg where
  src : Nat
  dst : Nat
  lat : Bool
  flits : Nat
  got : Nat
  layer : Nat
  ctx : Nat
  part : Nat
  body : Payload
deriving DecidableEq, Repr

/-- A flit in transit (R338): its message and number, its router, its age, and whether it has moved in this cycle. -/
structure Flit where
  msg : Nat
  num : Nat
  layer : Nat
  at_ : Nat
  age : Nat
  moved : Bool
deriving DecidableEq, Repr

/-- The drift mesh (R338 to R345, R406): messages, flits waiting at their core (key 4·core + layer), flits in transit, reassembly contexts and claims of routers, links (by `linkKey`: 2·failed attempts, plus 1 while retraining), refusals in a row, flits injected in the window of 64 cycles, the core of a router that injected last on a layer, remap tables (key 256·context + virtual core), and whether the last write of one was refused with BUSY (R344). -/
structure Mesh where
  msgs : NMap Msg
  outq : NMap (List (Nat × Nat))
  flits : List Flit
  contexts : NMap (List Nat)
  claims : NMap Nat
  links : NMap Nat
  starve : NMap Nat
  injected : NMap Nat
  turns : NMap Nat
  remap : NMap Nat
  busy : Bool
deriving DecidableEq, Repr

/-- A die or package barrier instance held by a stage (R332 to R334, R336): level, id, partition, die (0 for a package), stage, phase, the combining point of each die and of the package, the fibres arrived at the phase, the teams whose arrival message has left their core, those counted at their cluster, those their cluster has reported, those counted at their die's point, for a package the dies whose message has been sent and counted, and the clusters, each with a die, that the last release has not reached. -/
structure StageBar where
  level : BarLevel
  id : Nat
  part : Nat
  die : Nat
  stage : Nat
  phase : Bool
  points : List Nat
  top : Nat
  arrived : List Nat
  sent : List Nat
  inCluster : List Nat
  reported : List Nat
  counted : List Nat
  diesSent : List Nat
  dies : List Nat
  late : List (Nat × Nat)
deriving DecidableEq, Repr

/-- The steps of R334: a team's arrival at its cluster, a cluster's message at its die's point, a die's message at the package point, and downward a release at a die's point and at a cluster. -/
inductive BarStep where
  | team | cluster | die | toDie | toCluster
deriving DecidableEq, Repr

/-- A barrier message (R334): the instance, the die it is for, its step, the teams it stands for, the cluster it goes to, and whether the mesh has delivered it. -/
structure BarMsg where
  level : BarLevel
  id : Nat
  stage : Nat
  die : Nat
  step : BarStep
  teams : List Nat
  at_ : Nat
  there : Bool
deriving DecidableEq, Repr

/-- The states of a plan (R301). -/
inductive PlanState where
  | loaded | running | draining | done | stopped | ended
deriving DecidableEq, Repr

/-- A task of a stage's queue (R317, R318): entry, argument, the counter it waits on, whether it is READY and since when. -/
structure QTask where
  entry : Nat
  arg : Nat
  dep : Option Nat
  readyAt : Option Nat
deriving DecidableEq, Repr

/-- What an update at TQHOME does (R318, R328): spawn tasks, decrement or write a counter, or a binding of R279 that fires. -/
inductive TaskKind where
  | spawn | dec | write | fire
deriving DecidableEq, Repr

/-- An update on its way to TQHOME (R318, R319, R328): the operations it completes, what it does, the release work each fibre owes first, and what an error record of it says. -/
structure TaskUpd where
  ops : List Nat
  kind : TaskKind
  idx : Nat
  value : Nat
  tasks : List QTask
  rels : List (Nat × Rel)
  fibre : Nat
  core : Nat
  team : Nat
  header : Nat
  tile : Option Nat
deriving DecidableEq, Repr

/-- A stage of a loaded plan (R296, R299, R300, R317): clusters held, teams launched, completed, ended, since when it is blocked, its task queue, counters, updates under way and spawns that wait for room. -/
structure Stage where
  rec_ : List Word
  unif : List Word
  clusters : List Nat
  next : Nat
  live : List Nat
  finished : Nat
  ended : Nat
  saved : List Nat
  blocked : Option Nat
  tasks : List QTask
  counters : List Nat
  updates : List TaskUpd
  held : List TaskUpd
  rest : Nat
  pagesReady : Bool
deriving DecidableEq, Repr

/-- A plan of a context (R295, R301, R308 to R314): its number, state, record header, stages, the windlass's last pair, the times of its spill grants, the next interval, its place in launch order, and for a drain the cycle's stages, the unpublished tiles discarded and the time of the declaration; the greatest completion and settle time of its fibres, and the time its completion word waits for. -/
structure Plan where
  ctx : Nat
  number : Nat
  state : PlanState
  hdr : List Word
  stages : List Stage
  pair : Option (Nat × Nat)
  grants : List Nat
  nextInterval : Nat
  order : Nat
  cycle : Nat
  lost : Nat
  drainAt : Nat
  settle : Nat
  doneAt : Option Nat
deriving DecidableEq, Repr

/-- A ring bound to a pipe (R303): outbox or inbox, team, ring place, slots with the tile each holds, and for an inbox its sequence word and count. Slot states: 0 FREE; 1 RESERVED or DELIVERED; 2 ACQUIRED; 3 published or released, its update under way. -/
structure Ring where
  inbox : Bool
  team : Nat
  base : Nat
  seqAt : Nat
  seq : Nat
  slots : List (Nat × Nat)
deriving DecidableEq, Repr

/-- A published tile of a pipe (R304, R305): publication number, its bytes once pulled, the team, slot and operations it is pulled from and completes until then, whether it holds the spill slot, whether it stands in an inbox, whether DLV has counted it, whether its pull is on the mesh, and how many of its lines have left for the peer. -/
structure PipeTile where
  num : Nat
  data : Option (List Byte)
  src : Option (Nat × Nat × List Nat)
  spill : Bool
  delivered : Bool
  counted : Bool
  moving : Bool
  lines : Nat
deriving DecidableEq, Repr

/-- A wait of R302 and R321: a fibre held before issue, or a queued command that waits at its pipe with its operations. -/
structure PipeWait where
  fibre : Nat
  acquire : Bool
  ops : List Nat
deriving DecidableEq, Repr

/-- An update of a pipe on its way to the home, by number: a publication or a release of a tile, the release work it owes first, and whether it has reached the home's die. -/
structure PipeUpd where
  publish : Bool
  team : Nat
  slot : Nat
  num : Nat
  ops : List Nat
  fibre : Nat
  rel : Option Rel
  id : Nat
  there : Bool
deriving DecidableEq, Repr

/-- A pipe (R302 to R306): its descriptor, counters (unbounded, R302 reads them modulo 2^32), state, tiles by publication number, rings in order of binding, the next inbox, waiting reservations, updates under way, and across devices the releases credited and those told to the peer. -/
structure Pipe where
  desc : List Word
  rsv : Nat
  pub : Nat
  dlv : Nat
  rel : Nat
  extended : Bool
  drained : Bool
  tiles : List PipeTile
  rings : List Ring
  turn : Nat
  waiting : List PipeWait
  updates : List PipeUpd
  credit : Nat
  told : Nat
deriving DecidableEq, Repr

/-- A placed context (R363, R381, R416): its partition, the values of its descriptor, its rings in host memory, its virtual cores. -/
structure Ctx where
  part : Nat
  troot0 : BitVec 64
  troot1 : BitVec 64
  tvec : BitVec 64
  hctl : Word
  frBase : Nat
  frSize : Nat
  frHead : Nat
  frTail : Nat
  erBase : Nat
  erSize : Nat
  erHead : Nat
  erTail : Nat
  vmap : NMap Nat
  dropping : Bool
  dropOp : List Nat
deriving DecidableEq, Repr

/-- A partition (R364, R367): its allotment record, the meters in the smallest unit, the holds, a record that takes effect at the next period boundary, and the period the meters count. -/
structure Part where
  rec_ : List Word
  meters : List Nat
  held : List Bool
  pendingRec : Option (List Word)
  period : Nat
deriving DecidableEq, Repr

/-- The states of a window entry (R357). -/
inductive WinState where
  | free | live | error
deriving DecidableEq, Repr

/-- A packet kept by the sender until it is acknowledged (R355): destination index, sequence number, body, the fibres and the copy commands it reflects, the operation it completes, its core and how many FABRIC entries it holds, whether it has left, whether it is acknowledged (a remote add stays until its reply has landed, R358), its stamp (R354), since when its destination has acknowledged nothing, and the context that wrote it. -/
structure SentPacket where
  dest : Nat
  seq : Nat
  body : PacketBody
  fibres : List Nat
  cmds : List Nat
  op : Option Nat
  core : Nat
  entries : Nat
  sent : Bool
  acked : Bool
  stamp : Nat
  at_ : Nat
  ctx : Nat
deriving DecidableEq, Repr

/-- An entry of the window map (R348, R355, R357). -/
structure WinEntry where
  words : List Word
  part : Nat
  state : WinState
  reason : Nat
  plane : Nat
  nextSeq : List Nat
  packets : List SentPacket
  expected : List (Nat × Nat × Nat × Nat)
  lastFrom : Option (Nat × Nat)
deriving DecidableEq, Repr

/-- What the device has handed to a plane for a peer (R312, R347, R349, R355, R359): a packet of a transmit entry, an acknowledgment, a refusal, a request to resend, the reply of a remote add, an error completion of a read, a deadlock probe, a grant, the releases of a cross-device pipe, or what an end of one holds. -/
inductive FabMsg where
  | packet (plane device entry sender seq : Nat) (body : PacketBody)
  | ack (device sender seq : Nat)
  | refuse (device sender seq : Nat)
  | resend (device sender seq : Nat)
  | reply (plane device entry offset value : Nat)
  | readError (addr : Nat)
  | probe (device pipe originDev originPipe lowDev lowPipe crossed : Nat)
  | grant (device pipe : Nat)
  | release (device pipe rel : Nat)
  | hello (device pipe ownPipe depth slotb : Nat)
deriving DecidableEq, Repr

/-- A fence of `fx.fence` under way (R361): fibre, operation, entries it has seen in ERROR, entries it covers, and since when. -/
structure FxFence where
  fibre : Nat
  op : Nat
  failed : List Nat
  covered : List Nat
  since : Nat
deriving DecidableEq, Repr

/-- A core's image in shadow storage (R371): its number (what it holds stands in State under core number 4096 + num), context, plan and stage, the physical core it left and its virtual number, whether the whole context was swapped out, where it is being restored, and the whole messages that came for it meanwhile (R342). -/
structure Image where
  num : Nat
  ctx : Nat
  plan : Nat
  stage : Nat
  from_ : Nat
  vcore : Nat
  whole : Bool
  placed : Option Nat
  msgs : List Msg
deriving DecidableEq, Repr

/-- A pre-emption request (R370): the plan and stage that give up clusters; how many, or 0 where they are named; the clusters, chosen when the request is served; whether the whole context leaves, and who receives. -/
structure Preempt where
  part : Nat
  ctx : Nat
  plan : Nat
  stage : Nat
  count : Nat
  clusters : List Nat
  whole : Bool
  started : Bool
  receiver : Option (Nat × Nat)
deriving DecidableEq, Repr

/-- A gang waiting for its clusters (R375 to R377). -/
structure Gang where
  ctx : Nat
  plan : Nat
  since : Nat
  victim : Option Nat
  compacting : Bool
deriving DecidableEq, Repr

/-- The host link (R378 to R388): BAR0 registers, the retained completions, the queue of events, completions that wait for a slot, the entries to write again after a restart, the registers written since a restart, the invalidations accepted and not complete (context, HSEQ), the last values written to the ring heads (FRHEAD c at c, ERHEAD c at 16 + c), the staging window BAR2, and the firmware image with its length. -/
structure HostLink where
  en : Bool
  restart : Bool
  sqbase : Nat
  sqlog : Nat
  sqtail : Nat
  sqhead : Nat
  cqbase : Nat
  cqlog : Nat
  cqhead : Nat
  cqtail : Nat
  hack : Nat
  dseqw : Nat
  cqreplay : Nat
  evlost : Nat
  provcmd : Nat
  written : List Nat
  invals : List (Nat × Nat)
  heads : NMap Nat
  retained : List (List Word)
  events : List (List Word)
  replay : List (List Word)
  due : List (List Word)
  staging : NMap Byte
  image : NMap Byte
  imageLen : Nat
deriving DecidableEq, Repr

/-- The states of the boot controller (R388). -/
inductive Boot where
  | reset | verify | ready | recovery
deriving DecidableEq, Repr

/-- Health, power and thermal state (R21, R391 to R393). -/
structure Health where
  drift : Int
  stress : Nat
  life : Nat
  junction : Nat
deriving DecidableEq, Repr

/-- One turn of the machine: a group slot issues, an event of the table happens, or cycles pass. -/
inductive Turn where
  | issue (g : Nat)
  | happen (e : Instr)
  | elapse (n : Nat)
deriving DecidableEq, Repr

/-- A pool request that was refused and waits (R238): core, queue instance, entries, and who waits: a group slot, or an engine or operation of `waiter`. -/
structure PoolReq where
  core : Nat
  inst : Nat
  n : Nat
  who : Nat
deriving DecidableEq, Repr

/-- A result of a fixed-latency instruction that has not landed (R122, R127): the register's key, the fibre that wrote it, the value, the cycle in which it lands. -/
structure Flight where
  key : Nat
  fibre : Nat
  value : Word
  due : Nat
deriving DecidableEq, Repr

/-- What a byte of memory that nothing has written reads as (device or host). DESIGN CHOICE (log 3), unsafe: the spec gives no contents of HBM4E or host memory after power-on. -/
def blankByte : Byte := 0

/-- An empty matrix queue with MCTL at its start value (R285). -/
def MxQueue.empty : MxQueue := { cmds := [], halts := [], mctl := 0, offers := [], claims := [], lut := none, regs := 8, turn := 0, done := 0 }

/-- An array with nothing in it (R257). -/
def ArrayUnit.empty : ArrayUnit :=
  { cells := [], bad := [], sump := [], resident := none, shadow := none, units := [], opensAt := 0, lut := none,
    entries := [], poison := [], tiles := [], drain := [] }

/-- A tile after `mx.clr` or on passing to a context: KIND unset, VALID (R257, R276). -/
def Tile.clear : Tile := { kind := none, sigma := none, ovf := false, inv := false, dep := none }

/-- POOLCFG0 to POOLCFG6 at reset (R237): CAP in [27:16], MIN in [11:0]. -/
def poolcfgReset : List Word :=
  [512 * 65536 + 64, 512 * 65536 + 32, 64 * 65536 + 8, 64 * 65536 + 16, 64 * 65536 + 32, 64 * 65536 + 16, 512 * 65536 + 64]

/-- A core at reset: held by no context, every register at its reset value (R234, R237, R340, R353). -/
def Core.init : Core :=
  { ctx := none, phase := .running, since := 0, ev := 0, l1 := [], tlb := [], pool := [], queues := [],
    copy := { queue := [], parked := none, done := 0 }, arr := ArrayUnit.empty, hq := MxQueue.empty,
    ranges := [], rangeq := [], wcb := [], waits := [], poolcfg := poolcfgReset, netctl := 0x00080040, fxctl := 2000,
    perfsel := List.replicate 8 0, perfctl := 0, perfcnt := List.replicate 8 0, starved := [], units := [], plan := none, pipeq := [], fabq := [], statq := [] }

/-- A wait-table entry that is free at generation 0 (R219). -/
def WaitEntry.free : WaitEntry :=
  { held := false, gen := 0, ctx := 0, page := 0, size := 0, kind := 0,
    info := { cls := 0, pos := 0, kind := 0, info := 0, addr := none, npos := 0 }, fibres := [], engine := none }

/-- The mesh at reset: nothing in flight, every link up, no remap entry valid. -/
def Mesh.empty : Mesh :=
  { msgs := [], outq := [], flits := [], contexts := [], claims := [], links := [], starve := [], injected := [], turns := [], remap := [], busy := false }

/-- A window-map entry that is FREE (R348). -/
def WinEntry.empty : WinEntry :=
  { words := List.replicate 16 0, part := 0, state := .free, reason := 0, plane := 0, nextSeq := [], packets := [],
    expected := [], lastFrom := none }

/-- The host link at reset: the channel disabled, every count at 0 (R379). -/
def HostLink.init : HostLink :=
  { en := false, restart := false, sqbase := 0, sqlog := 0, sqtail := 0, sqhead := 0, cqbase := 0, cqlog := 0, cqhead := 0,
    cqtail := 0, hack := 0, dseqw := 0, cqreplay := 0, evlost := 0, provcmd := 0, written := [], invals := [], heads := [], retained := [], events := [], replay := [],
    due := [], staging := [], image := [], imageLen := 0 }

/-- The state of the device. Register files, scratchpads and tables are maps whose unlisted entries read as their reset values. Keys: core c; QC q = 4c + p; home lane h = 32q + L; fibre 8h + slot; the image of number n is core 4096 + n; register 512h + n; scratchpad byte 2^19·c + o; team 16c + slot; s register 64·team + n; group slot 16q + slot; plan 16·context + number; pipe 4096·plan + index; table entry 64·cluster + entry. `tilesIn` and `grantsIn` are what has arrived from peers for cross-device pipes (R305, R312); `throttle` is 0 for none, 1 when matrix grants are withheld, 2 when issue is withheld too, 3 while the domains are powered down (R21, R393); `withdrawn` are the clusters taken from partitions by a partition fault (R366). The fields `agenda`, `cur`, `fresh` and `nextId` are the model's own. -/
structure State where
  cycle : Nat
  agenda : List Turn
  cur : Option Nat
  fresh : Nat
  nextId : Nat
  mem : List Host.Cell
  hmem : List Host.Cell
  poison : List Nat
  lines : NMap LineRec
  spad : NMap Byte
  regs : NMap Word
  flying : List Flight
  uregs : NMap Word
  fibres : NMap Fibre
  groups : NMap Group
  teams : NMap Team
  hwins : NMap HandlerWin
  lprs : NMap PageEntry
  cores : NMap Core
  tables : NMap Post
  mxq : NMap MxQueue
  ops : NMap Op
  reqs : NMap Req
  poolq : List PoolReq
  mesh : Mesh
  sbars : List StageBar
  bmsgs : NMap BarMsg
  plans : NMap Plan
  pipes : NMap Pipe
  ctxs : NMap Ctx
  parts : NMap Part
  images : List Image
  preempts : List Preempt
  gangs : List Gang
  wins : NMap WinEntry
  planesDown : List Nat
  inbox : List Packet
  fxf : List FxFence
  fabOut : List FabMsg
  tilesIn : List (Nat × Nat × List Byte)
  grantsIn : List Nat
  peerEnds : List (Nat × Nat × Nat × Nat × Nat)
  host : HostLink
  boot : Boot
  health : NMap Health
  throttle : Nat
  warned : Bool
  withdrawn : List Nat
deriving DecidableEq, Repr

/-- The device right after reset: boot state RESET (R388), no partition, context, team or fibre, every register at its reset value, memory with nothing listed. -/
def State.reset : State :=
  { cycle := 0, agenda := [], cur := none, fresh := 0, nextId := 0, mem := [], hmem := [], poison := [], lines := [], spad := [],
    regs := [], flying := [], uregs := [], fibres := [], groups := [], teams := [], hwins := [], lprs := [], cores := [], tables := [],
    mxq := [], ops := [], reqs := [], poolq := [], mesh := Mesh.empty, sbars := [], bmsgs := [], plans := [], pipes := [],
    ctxs := [], parts := [], images := [], preempts := [], gangs := [], wins := [], planesDown := [], inbox := [], fxf := [], fabOut := [], tilesIn := [],
    grantsIn := [], peerEnds := [], host := HostLink.init, boot := .reset, health := [], throttle := 0, warned := false, withdrawn := [] }

end Sys2Proof.Machine
end

