-- ==== Sys2Proof/Machine/Base.lean ====
section
/-! DEFINITION. Access to the parts of the state: time, numbering of units, registers, fibres, cores, memory bytes, the decoupling pool, events and error records. -/

namespace Sys2Proof.Machine

/-- A next state. -/
abbrev Out := Host.Outcome State Fault Refusal

/-- Horizon time in nanoseconds at 2.1 GHz (R5, R20); every place reads the same count. DESIGN CHOICE (log 5). -/
def State.horizon (s : State) : Nat := s.cycle * 10 / 21

/-! Numbering of units (R14). -/

def hlOf (f : Nat) : Nat := f / 8
def laneOf (f : Nat) : Nat := f / 8 % 32
def qcOf (f : Nat) : Nat := f / 256
/-- The core of a fibre; the fibres of an image in shadow storage are those of core 4096 + its number. -/
def coreOf (f : Nat) : Nat := f / 1024 % 2 ^ 30
def clusterOf (core : Nat) : Nat := core / 4
def clusterX (cl : Nat) : Nat := cl % 8
def clusterY (cl : Nat) : Nat := cl / 8
def dieOfCluster (cl : Nat) : Nat := clusterX cl / 4 + 2 * (clusterY cl / 4)
def dieOf (core : Nat) : Nat := dieOfCluster (clusterOf core)
/-- Hops between two clusters' routers. -/
def hops (a b : Nat) : Nat :=
  (clusterX a - clusterX b) + (clusterX b - clusterX a) + ((clusterY a - clusterY b) + (clusterY b - clusterY a))

/-! Registers (R119, R124). -/

/-- The key of a physical register: a number the file does not have wraps, which only a base written into TBASE can name (log 13). -/
def regKey (hl n : Nat) : Nat := hl * 512 + n % 512
def State.reg (s : State) (hl n : Nat) : Word := NMap.get s.regs (regKey hl n) 0
def State.setReg (s : State) (hl n : Nat) (x : Word) : State := { s with regs := NMap.store s.regs (regKey hl n) x 0 }
/-- Writes consecutive words to physical registers from n. -/
def State.setRegs (s : State) (hl n : Nat) : List Word → State
  | [] => s
  | w :: ws => State.setRegs (s.setReg hl n w) hl (n + 1) ws
/-- A result of a fixed-latency instruction leaves for a register: it lands after its latency, and not before an earlier result of the fibre for the same register (R122, R127). -/
def State.flyReg (s : State) (f n lat : Nat) (x : Word) : State :=
  let k := regKey (hlOf f) n
  let before := match s.flying.find? fun e => e.key == k && e.fibre == f with | some e => e.due | none => 0
  { s with flying := { key := k, fibre := f, value := x, due := max (s.cycle + lat) before } :: s.flying }
/-- The results of a fixed-latency instruction leave for consecutive registers from n. -/
def State.flyRegs (s : State) (f n lat : Nat) : List Word → State
  | [] => s
  | w :: ws => State.flyRegs (s.flyReg f n lat w) f (n + 1) lat ws
/-- What a fibre reads in a physical register: its own last result, which it waits for, or what the register holds (R33, R122). -/
def State.view (s : State) (f n : Nat) : Word :=
  match s.flying.find? fun e => e.key == regKey (hlOf f) n && e.fibre == f with
  | some e => e.value
  | none => s.reg (hlOf f) n
/-- Writes a register for a fibre at once: its own earlier results for it have landed before (R127), those of other fibres land later (R122). -/
def State.putReg (s : State) (f n : Nat) (x : Word) : State :=
  let k := regKey (hlOf f) n
  State.setReg { s with flying := s.flying.filter fun e => !(e.key == k && e.fibre == f) } (hlOf f) n x
/-- Writes consecutive words to registers of a fibre at once. -/
def State.putRegs (s : State) (f n : Nat) : List Word → State
  | [] => s
  | w :: ws => State.putRegs (s.putReg f n w) f (n + 1) ws
def State.ureg (s : State) (team n : Nat) : Word := NMap.get s.uregs (team * 64 + n) 0
def State.setUreg (s : State) (team n : Nat) (x : Word) : State := { s with uregs := NMap.store s.uregs (team * 64 + n) x 0 }

/-! Fibres, groups, teams, cores. -/

/-- A fibre as a launch starts it, before its own values are set (R87). -/
def Fibre.blank : Fibre :=
  { team := 0, fibreId := 0, status := .ready, wait := none, mode := .user, pc := 0, pos := 0, npos := 0, hdr := 0, code := [],
    preds := 0, base := 0, win := 8, flags := List.replicate 12 0, guards := List.replicate 8 0, loops := [], fpctl := 0,
    stamp := 0, stampAt := 0, since := 0, lat := false, ct := 0, ot := 0, phases := [], pend := [], hidden := [], sump := [], fence := none,
    cohort := none, bars := [] }

/-- A team before its launch fills it. -/
def Team.blank : Team :=
  { plan := 0, stage := 0, index := 0, prio := 0, slots := [], spans := [], spalloc := 0, acalloc := 0, area := (0, 0, 0, 0), units := [],
    die := 0, ended := false, serial := 0 }

def State.fibre (s : State) (f : Nat) : Fibre := NMap.get s.fibres f Fibre.blank
def State.modFibre (s : State) (f : Nat) (k : Fibre → Fibre) : State := { s with fibres := NMap.edit s.fibres f k }
def State.modFibres (s : State) (fs : List Nat) (k : Fibre → Fibre) : State := fs.foldl (fun t f => t.modFibre f k) s
def State.group (s : State) (g : Nat) : Group :=
  NMap.get s.groups g { members := [], stall := none, waited := 0, ready := 0, starts := 0, boosted := false }
def State.modGroup (s : State) (g : Nat) (k : Group → Group) : State := { s with groups := NMap.edit s.groups g k }
def State.team (s : State) (t : Nat) : Team := NMap.get s.teams t Team.blank
def State.modTeam (s : State) (t : Nat) (k : Team → Team) : State := { s with teams := NMap.edit s.teams t k }
def State.core (s : State) (c : Nat) : Core := NMap.get s.cores c Core.init
def State.setCore (s : State) (c : Nat) (x : Core) : State := { s with cores := NMap.put s.cores c x }
def State.modCore (s : State) (c : Nat) (k : Core → Core) : State := s.setCore c (k (s.core c))
def State.plan? (s : State) (p : Nat) : Option Plan := NMap.find s.plans p
def State.modPlan (s : State) (p : Nat) (k : Plan → Plan) : State := { s with plans := NMap.edit s.plans p k }
def State.modOp (s : State) (o : Nat) (k : Op → Op) : State := { s with ops := NMap.edit s.ops o k }
def State.modReq (s : State) (r : Nat) (k : Req → Req) : State := { s with reqs := NMap.edit s.reqs r k }
def State.ctx? (s : State) (c : Nat) : Option Ctx := NMap.find s.ctxs c
def State.modCtx (s : State) (c : Nat) (k : Ctx → Ctx) : State := { s with ctxs := NMap.edit s.ctxs c k }
def State.mxQueue (s : State) (q : Nat) : MxQueue := NMap.get s.mxq q MxQueue.empty

/-- The group slot that holds a fibre. -/
def State.groupOf (s : State) (f : Nat) : Option Nat :=
  (s.groups.find? fun e => e.2.members.contains f).map Prod.fst

/-- The fibres of a team. -/
def State.teamFibres (s : State) (t : Nat) : List Nat := (s.fibres.filter fun e => e.2.team == t).map Prod.fst

/-- The context of a fibre: its plan's. -/
def State.ctxOf (s : State) (f : Nat) : Nat := (s.team (s.fibre f).team).plan / 16
/-- The context of a team. -/
def State.teamCtx (s : State) (t : Nat) : Nat := (s.team t).plan / 16
/-- The partition of a context. -/
def State.partOf (s : State) (c : Nat) : Nat := match s.ctx? c with | some x => x.part | none => 0
/-- A stage of a plan. -/
def State.stage? (s : State) (p i : Nat) : Option Stage := (s.plan? p).bind fun x => x.stages[i]?
def State.modStage (s : State) (p i : Nat) (k : Stage → Stage) : State :=
  s.modPlan p fun x => { x with stages := x.stages.modify i k }
/-- Word w of a record, 0 past its end. -/
def wordAt (ws : List Word) (i : Nat) : Nat := (ws.getD i 0).toNat
/-- The 64-bit number in words i and i+1. -/
def dwordAt (ws : List Word) (i : Nat) : Nat := wordAt ws i + 2 ^ 32 * wordAt ws (i + 1)
/-- STAGEID: 16 × plan number + stage index (R295). -/
def stageId (plan stage : Nat) : Nat := 16 * (plan % 16) + stage
/-- Whether a team's stage is leased (R222, R296). -/
def State.teamLeased (s : State) (t : Nat) : Bool :=
  match s.stage? (s.team t).plan (s.team t).stage with
  | some g => bit (wordAt g.rec_ 3) 24
  | none => false
/-- Whether a team's stage is RESIDENT (R296). -/
def State.teamResident (s : State) (t : Nat) : Bool :=
  match s.stage? (s.team t).plan (s.team t).stage with
  | some g => bit (wordAt g.rec_ 3) 25
  | none => false

/-- A number not given before. -/
def State.bump (s : State) : Nat × State := (s.nextId, { s with nextId := s.nextId + 1 })

/-! Memory bytes: device HBM4E, host memory, scratchpad. -/

/-- Device bytes: 16 stacks of 48 GiB (R22). -/
def deviceBytes : Nat := 768 * 2 ^ 30

/-- The canonical form of a memory: addresses strictly rising, no entry equal to what an unlisted address reads as. -/
def Memory.wf (m : List Host.Cell) : Bool := NMap.wf m && m.all fun e => decide (e.2 ≠ blankByte)

def Memory.read (m : List Host.Cell) (a : Nat) : Byte := NMap.get m a blankByte
def Memory.write (m : List Host.Cell) (a : Nat) (b : Byte) : List Host.Cell := NMap.store m a b blankByte

/-- Reads one byte of memory. -/
def State.byteAt (s : State) (l : Loc) : Byte := if l.host then Memory.read s.hmem l.pa else Memory.read s.mem l.pa
/-- How `State.poison` names a byte with an uncorrectable error: of the device (tag 0), of the host (1), of a scratchpad (2). -/
def poisonKey (tag a : Nat) : Nat := 4 * a + tag
def Loc.poisonKey (l : Loc) : Nat := Machine.poisonKey (b2n l.host) l.pa
/-- Clears the poison of a byte that is written (R179). -/
def State.heal (s : State) (k : Nat) : State := { s with poison := s.poison.filter (· != k) }
/-- Writes one byte of memory; a store over a poisoned byte clears its poison (R179). -/
def State.setByte (s : State) (l : Loc) (b : Byte) : State :=
  let s1 := s.heal l.poisonKey
  if l.host then { s1 with hmem := Memory.write s.hmem l.pa b } else { s1 with mem := Memory.write s.mem l.pa b }
def Loc.plus (l : Loc) (n : Nat) : Loc := { l with pa := l.pa + n }
/-- Reads n bytes from a place. -/
def State.bytesAt (s : State) (l : Loc) (n : Nat) : List Byte := (List.range n).map fun i => s.byteAt (l.plus i)
/-- Writes bytes from a place. -/
def State.setBytes (s : State) (l : Loc) : List Byte → State
  | [] => s
  | b :: bs => State.setBytes (s.setByte l b) (l.plus 1) bs
/-- Writes bytes given by offset from a place. -/
def State.setMap (s : State) (l : Loc) (m : NMap Byte) : State := m.foldl (fun t e => t.setByte (l.plus e.1) e.2) s
/-- The key of a line: device lines even, host lines odd. -/
def lineKey (l : Loc) : Nat := 2 * (l.pa / 64) + b2n l.host
/-- The place of a line. -/
def lineLoc (k : Nat) : Loc := { host := k % 2 == 1, pa := k / 2 * 64 }
/-- The little-endian number in n bytes of host memory. -/
def State.hostNum (s : State) (a n : Nat) : Nat := Byte.join (s.bytesAt ⟨true, a⟩ n)
/-- Words of host memory. -/
def State.hostWords (s : State) (a n : Nat) : List Word := (List.range n).map fun i => Word.ofNat (s.hostNum (a + 4 * i) 4)
/-- The bytes of words, little-endian. -/
def bytesOf (ws : List Word) : List Byte := ws.flatMap fun w => Byte.split 4 w.toNat
/-- Writes words into host memory. -/
def State.setHostWords (s : State) (a : Nat) (ws : List Word) : State := s.setBytes ⟨true, a⟩ (bytesOf ws)

/-- Scratchpad bytes (R161): 512 KiB per core. -/
def spadBytes : Nat := 524288
def State.spadAt (s : State) (c o : Nat) : Byte := NMap.get s.spad (c * spadBytes + o) 0
def State.setSpad (s : State) (c o : Nat) (b : Byte) : State :=
  { s.heal (poisonKey 2 (c * spadBytes + o)) with spad := NMap.store s.spad (c * spadBytes + o) b 0 }
/-- Whether a run of scratchpad bytes holds one with an uncorrectable error. -/
def State.spadBad (s : State) (c o n : Nat) : Bool :=
  s.poison.any fun k => k % 4 == 2 && decide (c * spadBytes + o ≤ k / 4 ∧ k / 4 < c * spadBytes + o + n)
def State.spadRead (s : State) (c o n : Nat) : List Byte := (List.range n).map fun i => s.spadAt c (o + i)
def State.spadWrite (s : State) (c o : Nat) : List Byte → State
  | [] => s
  | b :: bs => State.spadWrite (s.setSpad c o b) c (o + 1) bs
def State.spadNum (s : State) (c o n : Nat) : Nat := Byte.join (s.spadRead c o n)
/-- Words of the scratchpad. -/
def State.spadWords (s : State) (c o n : Nat) : List Word := (List.range n).map fun i => Word.ofNat (s.spadNum c (o + 4 * i) 4)

/-- BASE × 4096 of a team's allotment (R161, R162). -/
def State.spBase (s : State) (t : Nat) : Nat := bits (s.team t).spalloc.toNat 6 0 * 4096
/-- Length of a team's allotment in bytes, cut at the end of the scratchpad (R161, R162). -/
def State.spSize (s : State) (t : Nat) : Nat :=
  min (bits (s.team t).spalloc.toNat 6 0 + bits (s.team t).spalloc.toNat 15 8) 128 * 4096 - s.spBase t
/-- First physical tile of a team's run (R255). -/
def State.acBase (s : State) (t : Nat) : Nat := bits (s.team t).acalloc.toNat 5 0
/-- Length of a team's run, cut at tile 47 (R255). -/
def State.acSize (s : State) (t : Nat) : Nat :=
  min (s.acBase t + bits (s.team t).acalloc.toNat 13 8) 48 - s.acBase t

/-! The decoupling pool (R236 to R238). Instances: LDRET 0–3, STORE 4–7, QREG 8–31, COPY 32, MXPOST 33, PIPE 34, FABRIC 35. -/

def instLdret (qcPos : Nat) : Nat := qcPos
def instStore (qcPos : Nat) : Nat := 4 + qcPos
def instQreg (q : Nat) : Nat := 8 + q
def instCopy : Nat := 32
def instMxpost : Nat := 33
def instPipe : Nat := 34
def instFabric : Nat := 35
/-- The class of an instance (R236). -/
def classOf (i : Nat) : Nat :=
  if i < 4 then 0 else if i < 8 then 1 else if i < 32 then 2 else i - 29
def Core.used (c : Core) (i : Nat) : Nat := NMap.get c.pool i 0
def Core.minOf (c : Core) (k : Nat) : Nat := bits (wordAt c.poolcfg k) 11 0
def Core.capOf (c : Core) (k : Nat) : Nat := bits (wordAt c.poolcfg k) 27 16
/-- The entries held or kept for the minima, and the free figure of R238, below zero where a raised MIN finds the entries taken. -/
def Core.poolKept (c : Core) : Nat := ((List.range 36).map fun i => max (c.used i) (c.minOf (classOf i))).sum
def Core.poolFree (c : Core) : Int := 2048 - (c.poolKept : Int)
/-- Whether Grant of R238 admits n entries more for an instance. -/
def Core.admits (c : Core) (i n : Nat) : Bool :=
  let k := classOf i
  let after := c.used i + n
  decide (after ≤ c.capOf k) &&
    decide ((((after - c.minOf k) - (c.used i - c.minOf k) : Nat) : Int) ≤ c.poolFree)
/-- Takes or returns entries. -/
def State.poolTake (s : State) (c i n : Nat) : State :=
  s.modCore c fun x => { x with pool := NMap.store x.pool i (x.used i + n) 0 }
def State.poolGive (s : State) (c i n : Nat) : State :=
  s.modCore c fun x => { x with pool := NMap.store x.pool i (x.used i - n) 0 }

/-! Performance counters (R234). -/

/-- Adds n events of a code to the counters of a core that count it. -/
def State.count (s : State) (c ev n : Nat) : State :=
  if (s.core c).perfsel.any (fun w => bit w.toNat 8 && bits w.toNat 5 0 == ev) then
    s.modCore c fun x =>
      { x with perfcnt := (x.perfsel.zip x.perfcnt).map fun p =>
          if bit p.1.toNat 8 && bits p.1.toNat 5 0 == ev then (p.2 + n) % 2 ^ 64 else p.2 }
  else s

/-! Events and error records (R382, R385 to R387). -/

/-- Queues an event of the completion ring, or counts it lost (R385): code and the words from w4 on. -/
def State.event (s : State) (code : Nat) (body : List Nat) : State :=
  let e := (Word.ofNat (2 ^ 24 + code * 2 ^ 16) :: 0 :: 0 :: 0 :: (body ++ List.replicate (12 - body.length) 0).map Word.ofNat)
  if s.host.events.length < 256 then { s with host := { s.host with events := s.host.events ++ [e] } }
  else { s with host := { s.host with evlost := min (s.host.evlost + 1) 0xFFFFFFFF } }

/-- An event whose body the manual does not lay out (R386): twelve words, free functions of what it names. -/
def State.eventNaming (s : State) (code : Nat) (names : List Nat) : State :=
  State.event { s with fresh := s.fresh + 1 } code ((List.range 12).map fun i => Config.eventWord code s.fresh names i)
def State.eventOpen (s : State) (code : Nat) : State := s.eventNaming code []

/-- The number of this device in the pod: 0 to 1023 (R18). -/
def ownDevice : Nat := Config.deviceNumber % 1024

/-- The low and high word of a number. -/
def lowHigh (x : Nat) : List Nat := [x % 2 ^ 32, x / 2 ^ 32 % 2 ^ 32]

/-- What an error record says of where it arose (R387): core, STAGEID, TEAMID, FIBREID, each with its "none" value. -/
structure Origin where
  core : Nat
  stage : Nat
  team : Nat
  fibre : Nat
deriving DecidableEq, Repr

def Origin.none : Origin := ⟨0xFF, 0xFFFF, 0xFFFFFF, 0xFFFF⟩

/-- The origin of a fibre. -/
def State.originOf (s : State) (f : Nat) : Origin :=
  let x := s.fibre f
  let t := s.team x.team
  ⟨coreOf f, stageId t.plan t.stage, t.index, x.fibreId⟩

/-- The origin of a team, with no fibre. -/
def State.originTeam (s : State) (t : Nat) : Origin :=
  ⟨t / 16, stageId (s.team t).plan (s.team t).stage, (s.team t).index, 0xFFFF⟩

/-- Writes an error record into a context's error ring, or counts it in EVLOST when the ring is full (R386, R387), and raises ERROR_RECORD. `tail` holds w8 onward. -/
def State.errorRecord (s : State) (ctx cls : Nat) (o : Origin) (tail : List Nat) : State :=
  match s.ctx? ctx with
  | none => s
  | some c =>
    if c.erTail - c.erHead ≥ c.erSize then { s with host := { s.host with evlost := min (s.host.evlost + 1) 0xFFFFFFFF } }
    else
      let slot := c.erTail % c.erSize
      let ws := [cls, ctx] ++ lowHigh s.horizon ++ [o.core + c.part * 2 ^ 8, o.stage, o.team, o.fibre] ++ tail
      let ws' := (ws ++ List.replicate (32 - ws.length) 0).map Word.ofNat
      ((s.setHostWords (c.erBase + 128 * slot) ws').modCtx ctx fun y => { y with erTail := y.erTail + 1 }).eventOpen 0x05

end Sys2Proof.Machine
end

