-- ==== Sys2Proof/Machine/Translate.lean ====
section
/-! DEFINITION. Address translation: the walk, permissions, last-page registers and the core TLB (R158, R160, R212 to R216). -/

namespace Sys2Proof.Machine

/-- Trap class codes (R226). -/
def clsIllegalClause : Nat := 0x01
def clsIllegalInstruction : Nat := 0x02
def clsPrivilege : Nat := 0x03
def clsIllegalOperand : Nat := 0x04
def clsSchedule : Nat := 0x05
def clsAddressRange : Nat := 0x06
def clsTranslation : Nat := 0x07
def clsPermission : Nat := 0x08
def clsTableError : Nat := 0x09
def clsMisaligned : Nat := 0x0A
def clsScratchBounds : Nat := 0x0B
def clsWindowOverflow : Nat := 0x0C
def clsWindowUnderflow : Nat := 0x0D
def clsLoopOverflow : Nat := 0x0E
def clsLoopUnderflow : Nat := 0x0F
def clsUserTrap : Nat := 0x10
def clsBreakpoint : Nat := 0x11
def clsSumpFull : Nat := 0x12
def clsTileInvalid : Nat := 0x13

/-- Kinds of access (R220). -/
inductive AccKind where
  | read | write | atomic | fetch
deriving DecidableEq, Repr

def AccKind.code : AccKind → Nat
  | .read => 0 | .write => 1 | .atomic => 2 | .fetch => 3

/-- What a translation answers: an entry, a fault with its class, page and page size (R219), or a physical address no stack holds. -/
inductive Walk where
  | ok (e : PageEntry)
  | fault (cls page size : Nat)
  | absent (pa : Nat)
deriving DecidableEq, Repr

/-- First address of the die scratchpad window (R158, R160). -/
def windowBase : Nat := 0x1FFFFFFFE000000

/-- Whether a 57-bit address lies in the die scratchpad window. -/
def inWindow (x : Nat) : Bool := decide (windowBase ≤ x ∧ x < 2 ^ 57)

/-- Whether the table entry breaks the layout whatever its type (R213). -/
def entryBad (e lvl : Nat) : Bool :=
  bits e 63 62 != 0 || bits e 56 52 != 0 || bits e 10 7 != 0 || bit e 2 || bits e 1 0 == 3 || decide (2 ≤ bits e 61 60)
    || (bit e 57 && bits e 61 60 != 0) || (bit e 11 && !(lvl == 0 && bits e 1 0 == 2))

/-- The leaf size of a level (R213): 0 where a leaf may not stand. -/
def leafSize (e lvl : Nat) : Nat :=
  if lvl = 2 then 2 ^ 30 else if lvl = 1 then 2 ^ 21 else if lvl = 0 then (if bit e 11 then 2 ^ 16 else 2 ^ 12) else 0

/-- The walk from level `lvl`, the table at `t` (R213). -/
def State.walkFrom (s : State) (ctx x : Nat) : Nat → Nat → Walk
  | lvl, t =>
    if deviceBytes < t + 4096 then .absent t else
    let idx := if lvl = 4 then bits x 55 48 else x / 2 ^ (12 + 9 * lvl) % 512
    let e := Byte.join (s.bytesAt ⟨false, t + 8 * idx⟩ 8)
    let page := x / 4096 * 4096
    let bad : Walk := .fault clsTableError page 4096
    if entryBad e lvl then bad
    else if bits e 1 0 = 0 then .fault clsTranslation page 4096
    else if bits e 1 0 = 1 then
      match lvl with
      | 0 => bad
      | l + 1 => State.walkFrom s ctx x l (bits e 51 12 * 4096)
    else
      let size := leafSize e lvl
      let pa := bits e 51 12 * 4096
      if size = 0 then bad
      else if pa % size ≠ 0 then bad
      else
        let first := t + 8 * (idx / 16 * 16)
        if bit e 11 && (List.range 16).any fun i => Byte.join (s.bytesAt ⟨false, first + 8 * i⟩ 8) != e then bad
        else
          .ok { ctx := ctx, va := x / size * size, size := size, loc := ⟨bit e 57, pa⟩, x := bit e 6, w := bit e 5,
                rd := bit e 4, us := bit e 3, home := if bits e 61 60 = 1 then 1 + bits e 59 58 else 0 }

/-- Translate of R213 without the permission check. -/
def State.walk (s : State) (ctx x : Nat) : Walk :=
  match s.ctx? ctx with
  | none => .fault clsTranslation (x / 4096 * 4096) 4096
  | some c =>
    let root := (if bit x 56 then c.troot1 else c.troot0).toNat
    if bit root 0 then s.walkFrom ctx x 4 (bits root 51 12 * 4096)
    else .fault clsTranslation (x / 4096 * 4096) 4096

/-- Whether a leaf permits an access (R214). -/
def PageEntry.permits (e : PageEntry) (k : AccKind) (user : Bool) : Bool :=
  (match k with
   | .read => e.rd
   | .write => e.w
   | .atomic => e.rd && e.w
   | .fetch => e.x) && (!user || e.us)

def PageEntry.covers (e : PageEntry) (ctx x : Nat) : Bool := e.ctx == ctx && decide (e.va ≤ x ∧ x < e.va + e.size)

/-- The physical place of an address in a page. -/
def PageEntry.place (e : PageEntry) (x : Nat) : Loc := e.loc.plus (x - e.va)

/-- A translation through the caches of R216: the lane's last-page register where one is given, the core TLB, then a walk. -/
def State.lookup (s : State) (core : Nat) (hl : Option Nat) (ctx x : Nat) : Walk :=
  match (hl.bind fun h => NMap.find s.lprs h).filter (fun e => e.covers ctx x) with
  | some e => .ok e
  | none =>
    match (s.core core).tlb.find? (fun e => e.covers ctx x) with
    | some e => .ok e
    | none => s.walk ctx x

/-- Ways and sets of the core TLB: 2048 entries in 8 ways (R216). -/
def tlbWays : Nat := 8
def tlbSets : Nat := 256
/-- The set of a page. DESIGN CHOICE (log 105): the spec does not say how a page chooses its set; the model takes its number. -/
def PageEntry.tlbSet (e : PageEntry) : Nat := e.va / e.size % tlbSets
/-- The core TLB with an entry as its most recently used; the least recently used of a full set goes (R216). -/
def tlbPut (e : PageEntry) (t : List PageEntry) : List PageEntry :=
  let rest := t.filter (· != e)
  let mine := rest.filter fun x => x.tlbSet == e.tlbSet
  e :: if mine.length < tlbWays then rest else match mine.getLast? with | some y => rest.filter (· != y) | none => rest

/-- Fills the caches after a translation: a lane that hits its last-page register bypasses the core TLB, any other loads the register with what it used (R216, R234). -/
def State.cacheEntry (s : State) (core : Nat) (hl : Option Nat) (e : PageEntry) : State :=
  if (hl.bind fun h => NMap.find s.lprs h) = some e then s.count core 0x07 1
  else
    let s1 := if (s.core core).tlb.contains e then s else s.count core 0x08 1
    let s2 := s1.modCore core fun c => { c with tlb := tlbPut e c.tlb }
    match hl with
    | none => s2
    | some h => { s2 with lprs := NMap.put s2.lprs h e }

/-- A checked translation: address range, walk, permission. The answer is the place, or the class with the page of the key. -/
inductive Xlat where
  | ok (l : Loc) (e : PageEntry)
  | fault (cls page size : Nat)
  | absent (pa : Nat)
deriving DecidableEq, Repr

/-- Translates one address for an access of a core (R213, R214), `user` for user mode. -/
def State.translate (s : State) (core : Nat) (hl : Option Nat) (ctx x : Nat) (k : AccKind) (user : Bool) : Xlat :=
  if 2 ^ 57 ≤ x then .fault clsAddressRange 0 0
  else
    match s.lookup core hl ctx x with
    | .absent pa => .absent pa
    | .fault c p z => .fault c p z
    | .ok e =>
      if !e.permits k user then .fault clsPermission e.va e.size
      else
        let l := e.place x
        if !l.host && decide (deviceBytes ≤ l.pa) then .absent l.pa else .ok l e

/-- The home cistern of a line (R15, R159), by its page's homing. -/
def homeCistern (l : Loc) (home : Nat) : Nat :=
  if l.host ∨ home = 0 then l.pa / 64 % 16 else 4 * (home - 1) + l.pa / 64 % 4

/-- Drops the cached translations of a context that a test selects, on every core and lane (R232). -/
def State.dropPages (s : State) (p : PageEntry → Bool) : State :=
  { s with lprs := s.lprs.filter (fun e => !p e.2),
           cores := s.cores.map fun e => (e.1, { e.2 with tlb := e.2.tlb.filter fun x => !p x }) }

end Sys2Proof.Machine
end

