-- ==== Sys2Proof/Machine/Groups.lean ====
section
/-! DEFINITION. Groups and group slots: forming, splitting, filling, the loop check, and the move from one clause to the next (R90 to R100, R109, R413). -/

namespace Sys2Proof.Machine

/-- The mark in `pos` of a fibre that has left a clause and is arriving at the boundary `pc`, held by a pending induction register (R109). -/
def arriving : Nat := 16

/-- The group slots of a QC that hold no group, ascending. -/
def State.freeGroups (s : State) (q : Nat) : List Nat :=
  ((List.range 16).map (16 * q + ·)).filter fun g => (NMap.find s.groups g).isNone

/-- A group just formed: every counter zero (R99, R100). -/
def Group.fresh (members : List Nat) : Group :=
  { members := members, stall := none, waited := 0, ready := 0, starts := 0, boosted := false }

/-- Puts fibres into a group slot as a new group. -/
def State.seat (s : State) (g : Nat) (fs : List Nat) : State :=
  { s.modFibres fs (fun x => { x with status := .running, wait := none, cohort := none }) with
    groups := NMap.put s.groups g (Group.fresh fs) }

/-- Leaves fibres READY in the fibre table. -/
def State.unseat (s : State) (fs : List Nat) : State :=
  s.modFibres fs fun x => { x with status := .ready, wait := none, since := if x.status = .ready then x.since else s.cycle }

/-- Two fibres may stand in one group (R91, R224): one team, one boundary, one mode, different home lanes. -/
def State.mates (s : State) (f h : Nat) : Bool :=
  let a := s.fibre f
  let b := s.fibre h
  a.team == b.team && a.pc == b.pc && a.pos == 0 && b.pos == 0 && decide (a.mode = b.mode) && f / 8 != h / 8

/-- Inserts by a key, lowest first, after those of the same key. -/
def insertBy (k : Nat → Nat) (x : Nat) : List Nat → List Nat
  | [] => [x]
  | y :: ys => if k x < k y then x :: y :: ys else y :: insertBy k x ys

def sortBy (k : Nat → Nat) (xs : List Nat) : List Nat := xs.foldl (fun acc x => insertBy k x acc) []

/-- Members of a group in home-lane order. -/
def byLane (fs : List Nat) : List Nat := sortBy (fun f => f / 8) fs

/-- The READY fibres of a QC, oldest stamp first; of one stamp, the one that has been READY longest (log 26). -/
def State.readyOf (s : State) (q : Nat) : List Nat :=
  sortBy (fun f => (s.fibre f).stampAt) (sortBy (fun f => (s.fibre f).since)
    ((s.fibres.filter fun e => e.1 / 256 == q && decide (e.2.status = .ready)).map Prod.fst))

/-- Whether a core's groups may change and issue: held by a context and not halting (R370). -/
def State.coreRuns (s : State) (c : Nat) : Bool := decide ((s.core c).phase = .running)

/-- The READY fibres that join the first under R98: at one boundary and on home lanes not taken before. -/
def State.joiners (s : State) (f : Nat) (cands : List Nat) : List Nat :=
  cands.foldl (fun acc h => if s.mates f h && acc.all (fun k => k / 8 != h / 8) then acc ++ [h] else acc) [f]

/-- The place of a fibre among those one barrier has released: its launch group; a fibre it has not released comes last (R103). -/
def Fibre.cohortKey (x : Fibre) : Nat := x.cohort.getD (2 ^ 32)

/-- The launch group of a fibre (R89); forked fibres belong to none and come after the launched ones (R103). -/
def Fibre.launchGroup (x : Fibre) : Nat := if x.fibreId < 1024 then x.fibreId / 32 else 2 ^ 16

/-- Whether two fibres stand at one boundary of one team (R98). -/
def State.together (s : State) (f h : Nat) : Bool :=
  let a := s.fibre f
  let b := s.fibre h
  a.team == b.team && a.pc == b.pc && a.pos == 0 && b.pos == 0 && decide (a.mode = b.mode)

/-- The READY fibre taken first: highest team priority, then oldest stamp (R98); of fibres a barrier has released at one boundary, the first launch group (R103). -/
def State.bestReady (s : State) (q : Nat) : Option Nat :=
  let cands := s.readyOf q
  let top := (cands.map fun f => (s.team (s.fibre f).team).prio).foldl max 0
  match cands.find? fun f => (s.team (s.fibre f).team).prio == top with
  | none => none
  | some f => if (s.fibre f).cohort.isNone then some f else (sortBy (fun h => (s.fibre h).cohortKey) (cands.filter (s.together f))).head?

/-- The candidates to join a fibre, in the order they are taken: by ready stamp (R98), its own launch group first after a barrier's release (R103). -/
def State.joinOrder (s : State) (f : Nat) (cands : List Nat) : List Nat :=
  let x := s.fibre f
  if x.cohort.isNone then cands
  else sortBy (fun h => if (s.fibre h).cohort = x.cohort then 0 else 1 + (s.fibre h).cohortKey) cands

/-- Fills free group slots of a QC from its READY fibres (R98), at most `n` of them. -/
def State.fillSlots (s : State) (q : Nat) : Nat → State
  | 0 => s
  | n + 1 =>
    match s.freeGroups q, s.bestReady q with
    | g :: _, some f =>
      let fs := if (s.fibre f).pos = 0 then byLane (s.joiners f (s.joinOrder f ((s.readyOf q).filter (· != f)))) else [f]
      State.fillSlots (s.seat g fs) q n
    | _, _ => s

/-- Whether a READY fibre of a QC finds no free slot (R97, R100). -/
def State.crowded (s : State) (q : Nat) : Bool := (s.freeGroups q).isEmpty && !(s.readyOf q).isEmpty

/-- The groups of a QC count no clauses once every READY fibre finds a slot (R100). -/
def State.lapse (s : State) (q : Nat) : State :=
  if s.crowded q then s
  else { s with groups := s.groups.map fun (e : Nat × Group) => if e.1 / 16 = q then (e.1, { e.2 with starts := 0 }) else e }

/-- Fills every free slot of a QC. -/
def State.refill (s : State) (q : Nat) : State := (s.fillSlots q 16).lapse q

/-- Frees a group slot. -/
def State.dropGroup (s : State) (g : Nat) : State :=
  { s with groups := NMap.del s.groups g, cur := if s.cur = some g then none else s.cur,
           poolq := s.poolq.filter (fun r => r.who != g) }

/-- Takes fibres out of their group; an emptied slot is freed. -/
def State.leave (s : State) (g : Nat) (fs : List Nat) : State :=
  let rest := (s.group g).members.filter fun f => !fs.contains f
  if rest.isEmpty then s.dropGroup g else s.modGroup g fun x => { x with members := rest }

/-- Seats a part in a free slot of its QC, or leaves it READY (R92). -/
def State.seatOrWait (s : State) (q : Nat) (fs : List Nat) : State :=
  if fs.isEmpty then s else
  match s.freeGroups q with
  | g :: _ => s.seat g fs
  | [] => s.unseat fs

/-- The parts of a list by a key, in order of first appearance. -/
def partsBy (k : Nat → Nat) : List Nat → List (List Nat)
  | [] => []
  | f :: fs =>
    let ps := partsBy k fs
    match ps.findIdx? (fun p => p.head?.map k == some (k f)) with
    | some i => (f :: ps.getD i []) :: ps.eraseIdx i
    | none => [f] :: ps

/-- The part with most fibres, on a tie the one of lowest home lane (R92); parts stand in order of lowest lane. -/
def largest (ps : List (List Nat)) : List Nat :=
  ps.foldl (fun b p => if b.length < p.length then p else b) []

/-- Splits a group at a boundary by next program counter (R92). DESIGN CHOICE (log 99): the part that keeps the slot is no newly formed group for R100 and keeps its count of clause starts. -/
def State.splitByPc (s : State) (g : Nat) : State :=
  let ps := partsBy (fun f => (s.fibre f).pc) (s.group g).members
  match ps with
  | [] => s
  | [_] => s
  | _ =>
    let keep := largest ps
    let others := ps.filter (· != keep)
    let s1 := s.modGroup g fun x => { x with members := keep }
    (others.foldl (fun t p => t.seatOrWait (g / 16) p) s1)

/-! The loop check (R109). -/

/-- What the loop check does with one arrival: the next clause, the stack left, and the induction register to write. -/
structure LoopRes where
  pc : Nat
  loops : List LoopEntry
  write : List (Nat × Nat)
deriving DecidableEq, Repr

/-- LoopCheck of R109 on a loop stack, its top first. -/
def loopCheck (x : Nat) : List LoopEntry → LoopRes
  | [] => ⟨x, [], []⟩
  | .count st en n :: ls =>
    if en ≠ x then ⟨x, .count st en n :: ls, []⟩
    else if n - 1 ≠ 0 then ⟨st, .count st en (n - 1) :: ls, []⟩
    else loopCheck x ls
  | .index st en v bound step r :: ls =>
    if en ≠ x then ⟨x, .index st en v bound step r :: ls, []⟩
    else
      let nv := v + step
      if (0 < step ∧ nv ≤ bound) ∨ (step < 0 ∧ bound ≤ nv) then
        ⟨st, .index st en nv bound step r :: ls, [(r, narrow nv 32)]⟩
      else loopCheck x ls

/-- Whether a fibre's arrival would write a pending induction register. -/
def Fibre.arrivalHeld (f : Fibre) : Bool :=
  (loopCheck f.pc f.loops).write.any fun w => f.pend.contains w.1

/-- Makes one fibre arrive at its boundary. -/
def State.arriveOne (s : State) (f : Nat) : State :=
  let x := s.fibre f
  let r := loopCheck x.pc x.loops
  let s1 := r.write.foldl (fun t w => t.putReg f w.1 (Word.ofNat w.2)) s
  s1.modFibre f fun y => { y with pc := r.pc, pos := 0, loops := r.loops }

/-- Makes a group arrive at its boundaries, or holds it while a back-edge waits for its induction register; then splits it (R92, R109). -/
def State.arrive (s : State) (g : Nat) : State :=
  let fs := (s.group g).members
  if fs.any fun f => (s.fibre f).arrivalHeld then s.modGroup g fun x => { x with stall := some .memory }
  else
    let s1 := fs.foldl State.arriveOne s
    State.splitByPc (s1.modGroup g fun x => { x with stall := none, waited := 0, boosted := false }) g

/-- Ends a group's clause: each member's next program counter is given, then it arrives (R29, R92, R109). -/
def State.endClause (s : State) (g : Nat) (tgt : Nat → Nat) : State :=
  let s1 := (s.group g).members.foldl (fun t f => t.modFibre f fun x => { x with pc := tgt f, pos := arriving, code := [] })
    (s.modGroup g fun x => { x with ready := 0 })
  s1.arrive g

/-- The clause after a header in memory (R26, R106). -/
def nextClause (h hdr : Nat) : Nat := h + 4 * (1 + hdr % 16)

/-- Moves a group past the instruction it has issued: to the next word, or past its clause (R29). -/
def State.advance (s : State) (g : Nat) : State :=
  let s0 := s.modGroup g fun x => { x with stall := none, waited := 0, ready := 0 }
  match (s0.group g).members with
  | [] => s0
  | f :: _ =>
    let x := s0.fibre f
    if x.npos ≤ x.hdr % 16 then
      s0.modFibres (s0.group g).members fun y => { y with pos := y.npos }
    else s0.endClause g fun f => nextClause (s0.fibre f).pc (s0.fibre f).hdr

/-- Holds a group at its instruction; its count of ready cycles pauses (R99). -/
def State.hold (s : State) (g : Nat) (w : Wait) : State := s.modGroup g fun x => { x with stall := some w }

/-- A group starts over after what held it: it may issue again. -/
def State.unhold (s : State) (g : Nat) : State := s.modGroup g fun x => { x with stall := none }

/-- A fibre goes on: the group that holds it may issue again, or a BLOCKED fibre becomes READY (R90, R413). -/
def State.wake (s : State) (f : Nat) : State :=
  match s.groupOf f with
  | some g => s.unhold g
  | none =>
    if (s.fibre f).status = .blocked then
      State.refill (s.modFibre f fun x => { x with status := .ready, wait := none, since := s.cycle }) (qcOf f)
    else s

end Sys2Proof.Machine
end

