-- ==== Sys2Proof/Machine/Complete.lean ====
section
/-! DEFINITION. Completion and discarding of outstanding instructions, and the resolution of guards (R34, R36, R238, R243, R244). -/

namespace Sys2Proof.Machine

/-- The number that stands for a dead fibre of a core in its remaining operations. -/
def deadFibre (core : Nat) : Nat := 2 ^ 40 + core * 1024

/-- Whether every flag named in a header's WAIT stands at zero for a fibre (R34). -/
def Fibre.waitClear (x : Fibre) (hdr : Nat) : Bool :=
  (indexed x.flags).all fun e => !bit hdr (4 + e.1) || e.2 == 0

/-- Wakes a BLOCKED fibre whose flag condition of R413 holds. -/
def State.wakeFlags (s : State) (f : Nat) : State :=
  match NMap.find s.fibres f with
  | none => s
  | some x =>
    match x.wait with
    | some .flags => if x.waitClear x.hdr then s.wake f else s
    | some (.flagFull i) => if x.flags.getD i 0 < 63 then s.wake f else s
    | _ => s

/-- Wakes the BLOCKED fibres of a core that wait for entries of a pool instance (R413). -/
def State.wakePool (s : State) (core inst : Nat) : State :=
  ((s.fibres.filter fun e => coreOf e.1 == core && decide (e.2.status = .blocked) &&
      (match e.2.wait with | some (.pool i _) => i == inst | _ => false)).map Prod.fst).foldl State.wake s

/-- Returns pool entries and wakes those that wait for them. -/
def State.poolReturn (s : State) (core inst n : Nat) : State :=
  if n = 0 then s else (s.poolGive core inst n).wakePool core inst

/-- Writes a value into physical registers of a fibre's home lane. -/
def State.writeRegs (s : State) (f : Nat) : List Nat → List Word → State
  | r :: rs, w :: ws => State.writeRegs (s.putReg f r w) f rs ws
  | _, _ => s

/-- Returns the pool entries of an operation. Those of a memory instruction pass on to a lane of it that is still outstanding (R175); each engine command has its own (R236, R243). -/
def State.dropHolds (s : State) (x : Op) : State :=
  match x.peers.find? (fun p => x.isMem && (NMap.find s.ops p).isSome) with
  | some p => s.modOp p fun y => { y with holds := y.holds ++ x.holds }
  | none => x.holds.foldl (fun t h => t.poolReturn (coreOf x.fibre) h.1 h.2) s

/-- Takes an instruction's marks off a fibre, from those hidden from a handler where a user-mode instruction set them (R36). -/
def Fibre.unmark (x : Fibre) (hand : Bool) (marks : List Nat) : Fibre :=
  if x.mode = .handler ∧ hand = false then { x with hidden := x.hidden.diff marks } else { x with pend := x.pend.diff marks }

/-- Completes an outstanding instruction of one lane (R34, R36): its value, if it has one, is written to its registers, its marks are cleared, its flag is decremented, its pool entries return. -/
def State.completeOp (s : State) (o : Nat) : State :=
  match NMap.find s.ops o with
  | none => s
  | some x =>
    let s1 := { s with ops := NMap.del s.ops o }
    let s2 := match x.dst, x.value with
      | .regs rs, some ws => s1.writeRegs x.fibre rs ws
      | _, _ => s1
    let s3 := s2.modFibre x.fibre fun y =>
      { (y.unmark x.hand x.marks) with flags := match x.flag with | some i => y.flags.modify i (· - 1) | none => y.flags }
    (s3.dropHolds x).wakeFlags x.fibre

/-- Completes an instruction with a value. -/
def State.completeWith (s : State) (o : Nat) (ws : List Word) : State :=
  (s.modOp o fun x => { x with value := some ws }).completeOp o

/-- Fixes the value of an instruction; `operationComplete` completes it. -/
def State.answerOp (s : State) (o : Nat) (ws : List Word) : State :=
  s.modOp o fun x => { x with value := some ws, left := 0 }

/-- Discards a command (R243): it writes nothing, its destination keeps its value, its flag and pool entry return. -/
def State.discardOp (s : State) (o : Nat) : State := (s.modOp o fun x => { x with value := none }).completeOp o

def State.discardOps (s : State) (os : List Nat) : State := os.foldl State.discardOp s

/-- Discards a pipe or fabric command for every lane it serves. -/
def State.discardX (s : State) (c : XCmd) : State := s.discardOps (c.lanes.map fun l => l.2.1)

/-- Whether a guard is one of those a test selects. -/
def guardIn (p : GuardTag → Bool) : Option GuardTag → Bool
  | some g => p g
  | none => false

/-- The matrix queue of a core's handlers has this number; teams' queues have the team's (R261). -/
def handlerBase : Nat := 2 ^ 60
def handlerQueue (core : Nat) : Nat := handlerBase + core

/-- The matrix queue of a number. -/
def State.mxGet (s : State) (q : Nat) : MxQueue :=
  if q < handlerBase then s.mxQueue q else (s.core (q - handlerBase)).hq
def State.mxSet (s : State) (q : Nat) (x : MxQueue) : State :=
  if q < handlerBase then { s with mxq := NMap.store s.mxq q x MxQueue.empty } else s.modCore (q - handlerBase) fun c => { c with hq := x }
def State.mxMod (s : State) (q : Nat) (k : MxQueue → MxQueue) : State := s.mxSet q (k (s.mxGet q))
/-- The core of a matrix queue. -/
def mxCore (q : Nat) : Nat := if q < handlerBase then q / 16 else q - handlerBase
/-- The matrix queues of a core. -/
def coreQueues (core : Nat) : List Nat := (List.range 16).map (16 * core + ·) ++ [handlerQueue core]

/-! Matrix commands and the tiles they name (R256, R279, R284). -/

/-- Whether a command is a post (R262). -/
def MxCmd.isPost (c : MxCmd) : Bool := c.fn == 0x11 || c.fn == 0x12 || c.fn == 0x14
/-- Whether a command names a tile. -/
def MxCmd.hasTile (c : MxCmd) : Bool := c.fn != 0x10 && c.fn != 0x14
/-- The tile a command names. -/
def MxCmd.tileNo (c : MxCmd) : Nat :=
  if c.fn = 0x11 ∨ c.fn = 0x12 then bits (wordAt c.block 0) 29 24
  else if c.fn = 0x16 ∨ c.fn = 0x18 ∨ c.fn = 0x19 then bits (wordAt c.block 0) 31 26
  else c.ctl % 64
/-- LAST of a post (R286). -/
def MxCmd.last (c : MxCmd) : Bool := (c.fn == 0x11 || c.fn == 0x12) && bit (wordAt c.block 0) 30

/-- The team a command of a matrix queue acts for. -/
def State.mxTeam (s : State) (q : Nat) (c : MxCmd) : Nat := if q < handlerBase then q else (s.fibre c.fibre).team

/-- The physical tile a tile number names in a queue, where it lies within the allotment (R256). -/
def State.tileAt (s : State) (q n : Nat) : Option Nat :=
  if handlerBase ≤ q then (if n = 47 then some 47 else none)
  else if n < s.acSize q then some (s.acBase q + n) else none

/-- A tile of a core. -/
def State.tile (s : State) (core t : Nat) : Tile := NMap.get (s.core core).arr.tiles t Tile.clear
def State.modTile (s : State) (core t : Nat) (k : Tile → Tile) : State :=
  s.modCore core fun c => { c with arr := { c.arr with tiles := NMap.store c.arr.tiles t (k (NMap.get c.arr.tiles t Tile.clear)) Tile.clear } }

/-- Fires the binding of a tile (R279): a decrement travels to the task queue home of the team that made it. -/
def State.fireDep (s : State) (core t tileNo : Nat) : State :=
  match (s.tile core t).dep with
  | none => s
  | some (idx, _, team) =>
    (s.modTile core t fun x => { x with dep := none }).modStage (s.team team).plan (s.team team).stage fun g =>
      { g with updates := g.updates ++ [{ ops := [], kind := .fire, idx := idx, value := 0, tasks := [], rels := [], fibre := deadFibre core,
                                          core := core, team := team, header := 0, tile := some tileNo }] }

/-- Whether a command is one that a binding under DEPAT waits for. -/
def MxCmd.fires (c : MxCmd) (depat : Bool) : Bool := if depat then c.fn == 0x16 else c.last

/-- A command is discarded: it fires its tile's binding if it is the command the binding waits for (R277, R279). -/
def State.fireDiscard (s : State) (q : Nat) (c : MxCmd) : State :=
  match s.tileAt q c.tileNo with
  | none => s
  | some t =>
    match (s.tile (mxCore q) t).dep with
    | none => s
    | some (_, depat, _) =>
      let mine := s.tables.filter fun e => e.2.queue == q && !e.2.discarded
      let age (k : Nat) : Nat := match NMap.find mine k with | some p => p.cmd.ops.headD 0 | none => 0
      let posts := (sortBy age (mine.map Prod.fst)).filterMap fun k => (NMap.find mine k).map Post.cmd
      let next := (posts ++ (s.mxGet q).cmds).find? fun x => x.tileNo == c.tileNo && x.hasTile && (x.fires depat || x.fn == 0x1B)
      if next = some c ∧ c.fn ≠ 0x1B then s.fireDep (mxCore q) t c.tileNo else s

/-- Resolves to run the commands of a core whose tag a test selects (R243). -/
def State.guardsRun (s : State) (core : Nat) (p : GuardTag → Bool) : State :=
  let free (g : Option GuardTag) : Option GuardTag := if guardIn p g then none else g
  let s1 := s.modCore core fun c =>
    { c with copy := { c.copy with queue := c.copy.queue.map fun x => { x with guard := free x.guard } },
             pipeq := c.pipeq.map fun x => { x with guard := free x.guard },
             fabq := c.fabq.map fun x => { x with guard := free x.guard },
             statq := c.statq.map fun x => { x with guard := free x.guard } }
  (coreQueues core).foldl (fun t q => t.mxMod q fun m =>
    { m with cmds := m.cmds.map (fun x => { x with guard := free x.guard }),
             offers := m.offers.map fun x => { x with guard := free x.guard } }) s1

/-- Removes from a matrix queue the commands and offers whose tag a test selects, and discards them. -/
def State.guardsDropMx (s : State) (q : Nat) (p : GuardTag → Bool) : State :=
  let m := s.mxGet q
  let gone := (m.cmds.filter fun x => guardIn p x.guard).flatMap MxCmd.ops ++
    (m.offers.filter fun x => guardIn p x.guard).flatMap Offer.ops
  if (m.cmds.any fun x => guardIn p x.guard) = false ∧ (m.offers.any fun x => guardIn p x.guard) = false then s else
  let s1 := (m.cmds.filter fun x => guardIn p x.guard).foldl (fun t x => t.fireDiscard q x) s
  let m1 : MxQueue := { m with cmds := m.cmds.filter (fun x => !guardIn p x.guard), offers := m.offers.filter fun x => !guardIn p x.guard }
  State.discardOps (s1.mxSet q m1) gone

/-- Resolves to discard the commands of a core whose tag a test selects, wherever they stand (R243). -/
def State.guardsDrop (s : State) (core : Nat) (p : GuardTag → Bool) : State :=
  let c := s.core core
  let gone := (c.copy.queue.filter fun x => guardIn p x.guard).map CopyCmd.op ++
    (c.pipeq ++ c.fabq ++ c.statq).flatMap fun x => if guardIn p x.guard then x.lanes.map fun l => l.2.1 else []
  let s1 := s.modCore core fun c =>
    { c with copy := { c.copy with queue := c.copy.queue.filter fun x => !guardIn p x.guard },
             pipeq := c.pipeq.filter fun x => !guardIn p x.guard,
             fabq := c.fabq.filter fun x => !guardIn p x.guard,
             statq := c.statq.filter fun x => !guardIn p x.guard }
  (coreQueues core).foldl (fun t q => t.guardsDropMx q p) (s1.discardOps gone)

/-- The tags of a core's commands still unresolved. -/
def State.openTags (s : State) (core : Nat) : List GuardTag :=
  let c := s.core core
  (c.copy.queue.filterMap CopyCmd.guard) ++ ((c.pipeq ++ c.fabq ++ c.statq).filterMap XCmd.guard) ++
    (coreQueues core).flatMap fun q => ((s.mxGet q).cmds.filterMap MxCmd.guard) ++ (s.mxGet q).offers.filterMap Offer.guard

/-- Detaches the outstanding instructions of a fibre that is killed: they finish writing nothing for it. -/
def State.detachOps (s : State) (f : Nat) : State :=
  { s with ops := s.ops.map fun e =>
      if e.2.fibre = f then (e.1, { e.2 with fibre := deadFibre (coreOf f), flag := none, dst := .none, marks := [] }) else e }

/-- Releases the handler window a fibre holds. -/
def State.dropWindow (s : State) (f : Nat) : State :=
  match NMap.find s.hwins (hlOf f) with
  | some w => if w.holder = f then { s with hwins := NMap.del s.hwins (hlOf f) } else s
  | none => s

/-- Removes a fibre: it leaves its group, its slot, its window and every list it waits in; its plan keeps its completion and settle times (R198, R301). -/
def State.killFibre (s : State) (f : Nat) : State :=
  let s1 := match s.groupOf f with
    | some g => s.leave g [f]
    | none => s
  let x := s.fibre f
  let s2 := ((s1.detachOps f).dropWindow f).modPlan (s.team x.team).plan fun p => { p with settle := max p.settle (max x.ct x.ot) }
  { s2 with fibres := NMap.del s2.fibres f,
            fxf := s2.fxf.filter (fun x => x.fibre != f),
            reqs := s2.reqs.map (fun (e : Nat × Req) => (e.1, { e.2 with fibres := e.2.fibres.filter (· != f) })),
            pipes := s2.pipes.map (fun e => (e.1, { e.2 with waiting := e.2.waiting.filter (fun w => w.fibre != f) })),
            wins := s2.wins.map (fun (e : Nat × WinEntry) =>
              (e.1, { e.2 with packets := e.2.packets.map fun p => { p with fibres := p.fibres.filter (· != f) } })),
            cores := s2.cores.map fun (e : Nat × Core) =>
              (e.1, { e.2 with waits := e.2.waits.map (fun w => (w.1, { w.2 with fibres := w.2.fibres.filter (· != f) })),
                               wcb := e.2.wcb.map fun l => { l with fibres := l.fibres.filter (· != f) } }) }

end Sys2Proof.Machine
end

