-- ==== Sys2Proof/Machine/Numfmt.lean ====
section
/-! DEFINITION. Number formats: rounding, IEEE values and their arithmetic, LNS6, conversions, and the cell and drain arithmetic of the arrays (R60 to R85). -/

namespace Sys2Proof.Machine

/-- The five rounding modes (R65). -/
inductive RMode where
  | rne | rtz | rdn | rup | rna
deriving DecidableEq, Repr

/-- The rounding mode of a code 0 to 4 (R65); the codes that name no mode are refused before this is read. -/
def RMode.ofCode (n : Nat) : RMode :=
  if n = 1 then .rtz else if n = 2 then .rdn else if n = 3 then .rup else if n = 4 then .rna else .rne

/-- A float format (R62): fraction bits, exponent bits; bias, Emin and Emax follow. -/
structure Fmt where
  frac : Nat
  expo : Nat
deriving DecidableEq, Repr

def fp16 : Fmt := ⟨10, 5⟩
def bf16 : Fmt := ⟨7, 8⟩
def fp32 : Fmt := ⟨23, 8⟩
def fp64 : Fmt := ⟨52, 11⟩

/-- Width of a format in bits. -/
def Fmt.width (f : Fmt) : Nat := f.frac + f.expo + 1
/-- Bias of a format, which is also its Emax (R62). -/
def Fmt.bias (f : Fmt) : Nat := 2 ^ (f.expo - 1) - 1
/-- Significant bits of a format (R62). -/
def Fmt.prec (f : Fmt) : Nat := f.frac + 1
/-- Emin of a format (R62). -/
def Fmt.emin (f : Fmt) : Int := 1 - (f.bias : Int)

/-- Flag bits of FPCTL (R66). -/
def flagNX : Nat := 1
def flagUF : Nat := 2
def flagOF : Nat := 4
def flagDZ : Nat := 8
def flagNV : Nat := 16
def flagNR : Nat := 32

/-- A float value taken apart (R62): a NaN (signalling or quiet), an infinity, or the finite number (−1)^neg · m · 2^e. -/
inductive FVal where
  | nan (signalling : Bool)
  | inf (neg : Bool)
  | fin (neg : Bool) (m : Nat) (e : Int)
deriving DecidableEq, Repr

/-- Reads a value of a format (R62). -/
def Fmt.read (f : Fmt) (x : Nat) : FVal :=
  let neg := bit x (f.frac + f.expo)
  let ex := bits x (f.frac + f.expo - 1) f.frac
  let fr := x % 2 ^ f.frac
  if ex = 2 ^ f.expo - 1 then (if fr = 0 then .inf neg else .nan (!bit fr (f.frac - 1)))
  else if ex = 0 then .fin neg fr (f.emin - f.frac)
  else .fin neg (2 ^ f.frac + fr) ((ex : Int) - f.bias - f.frac)

/-- The default NaN (R64). -/
def Fmt.nan (f : Fmt) : Nat := (2 ^ f.expo - 1) * 2 ^ f.frac + 2 ^ (f.frac - 1)
/-- The infinity of a sign. -/
def Fmt.inf (f : Fmt) (neg : Bool) : Nat := b2n neg * 2 ^ (f.frac + f.expo) + (2 ^ f.expo - 1) * 2 ^ f.frac
/-- The zero of a sign. -/
def Fmt.zero (f : Fmt) (neg : Bool) : Nat := b2n neg * 2 ^ (f.frac + f.expo)
/-- The largest finite value of a sign. -/
def Fmt.big (f : Fmt) (neg : Bool) : Nat := f.inf neg - 1

/-- Number of bits of a number, 0 for 0. -/
def bitLen (n : Nat) : Nat := if n = 0 then 0 else Nat.log2 n + 1

/-- Whether a magnitude cut to n, with remainder `r` of `h` halves below the last place and more below that when `sticky`, is rounded up in magnitude (R60). `r` and `half` are in one unit; `half` = 0 means nothing but the sticky part was cut. -/
def roundsUp (rm : RMode) (neg : Bool) (n r half : Nat) (sticky : Bool) : Bool :=
  let exact := r == 0 && !sticky
  match rm with
  | .rtz => false
  | .rdn => neg && !exact
  | .rup => !neg && !exact
  | .rne => half != 0 && (decide (half < r) || (r == half && (sticky || n % 2 == 1)))
  | .rna => half != 0 && decide (half ≤ r)

/-- A magnitude m · 2^e (plus less than one unit of m when `sticky`) cut to a multiple of 2^q and rounded: the multiple, and whether anything was lost. -/
def cutAt (rm : RMode) (neg : Bool) (m : Nat) (e : Int) (sticky : Bool) (q : Int) : Nat × Bool :=
  if q ≤ e then
    let n := m * 2 ^ (e - q).toNat
    (n + b2n (roundsUp rm neg n 0 0 sticky), sticky)
  else if (bitLen m : Int) + 1 < q - e then
    -- less than a quarter of the last place: nothing but the sticky part is left
    let x := m != 0 || sticky
    (b2n (roundsUp rm neg 0 0 0 x), x)
  else
    let k := (q - e).toNat
    let n := m / 2 ^ k
    let r := m % 2 ^ k
    (n + b2n (roundsUp rm neg n r (2 ^ (k - 1)) sticky), r != 0 || sticky)

/-- RoundInt of R60 on ±m · 2^e: the integer and whether it differs from the value. -/
def roundInt (rm : RMode) (neg : Bool) (m : Nat) (e : Int) : Int × Bool :=
  let (n, x) := cutAt rm neg m e false 0
  (if neg then -(n : Int) else n, x)

/-- Round of R60 with the flags of R68 for a non-zero magnitude m · 2^e, `sticky` as in `cutAt`. -/
def Fmt.roundMag (f : Fmt) (rm : RMode) (neg : Bool) (m : Nat) (e : Int) (sticky : Bool) : Nat × Nat :=
  let top : Int := (bitLen m : Int) - 1 + e
  let qn := top - f.frac
  let qs := f.emin - f.frac
  let q := if qn < qs then qs else qn
  let (n, inexact) := cutAt rm neg m e sticky q
  let emax : Int := f.bias
  if emax < (bitLen n : Int) - 1 + q then
    let toInf := match rm with
      | .rne | .rna => true
      | .rtz => false
      | .rdn => neg
      | .rup => !neg
    (if toInf then f.inf neg else f.big neg, flagOF + flagNX)
  else
    let (nu, _) := cutAt rm neg m e sticky qn
    let tiny := decide ((bitLen nu : Int) - 1 + qn < f.emin)
    let flags := b2n inexact * flagNX + b2n (tiny && inexact) * flagUF
    let body :=
      if n < 2 ^ f.frac then n
      else
        let l := bitLen n
        let ex : Int := (l : Int) - 1 + q
        (ex + f.bias).toNat * 2 ^ f.frac + (n / 2 ^ (l - f.prec) - 2 ^ f.frac)
    (f.zero neg + body, flags)

/-- Round of R60 of an exact ±m · 2^e; a zero takes the sign given. -/
def Fmt.round (f : Fmt) (rm : RMode) (neg : Bool) (m : Nat) (e : Int) : Nat × Nat :=
  if m = 0 then (f.zero neg, 0) else f.roundMag rm neg m e false

/-- NV where an operand is a signalling NaN (R68). -/
def FVal.snan : FVal → Bool
  | .nan s => s
  | _ => false

def FVal.isNaN : FVal → Bool
  | .nan _ => true
  | _ => false

/-- The value with the sign inverted. -/
def FVal.neg : FVal → FVal
  | .nan s => .nan s
  | .inf n => .inf (!n)
  | .fin n m e => .fin (!n) m e

/-- A signed mantissa. -/
def smant (neg : Bool) (m : Nat) : Int := if neg then -(m : Int) else m

/-- A result NaN: the default NaN, NV when `nv` (R64, R68). -/
def Fmt.nanR (f : Fmt) (nv : Bool) : Nat × Nat := (f.nan, b2n nv * flagNV)

/-- Sum of two values with one rounding, the sign of an exact zero by R147. -/
def Fmt.add (f : Fmt) (rm : RMode) (x y : FVal) : Nat × Nat :=
  let s := x.snan || y.snan
  match x, y with
  | .nan _, _ => f.nanR s
  | _, .nan _ => f.nanR s
  | .inf a, .inf b => if a = b then (f.inf a, 0) else f.nanR true
  | .inf a, .fin _ _ _ => (f.inf a, 0)
  | .fin _ _ _, .inf b => (f.inf b, 0)
  | .fin na ma ea, .fin nb mb eb =>
    let e := if ea < eb then ea else eb
    let v := smant na ma * (2 ^ (ea - e).toNat : Nat) + smant nb mb * (2 ^ (eb - e).toNat : Nat)
    if v = 0 then (f.zero (if ma = 0 ∧ mb = 0 ∧ na = nb then na else decide (rm = .rdn)), 0)
    else f.roundMag rm (decide (v < 0)) v.natAbs e false

/-- Exact product of two values, none for 0 × Inf. -/
def FVal.mul (x y : FVal) : Option FVal :=
  match x, y with
  | .nan s, .nan t => some (.nan (s || t))
  | .nan s, _ => some (.nan s)
  | _, .nan t => some (.nan t)
  | .inf a, .inf b => some (.inf (a != b))
  | .inf a, .fin b m _ => if m = 0 then none else some (.inf (a != b))
  | .fin a m _, .inf b => if m = 0 then none else some (.inf (a != b))
  | .fin a m e, .fin b n g => some (.fin (a != b) (m * n) (e + g))

/-- Product with one rounding (R148). -/
def Fmt.mul (f : Fmt) (rm : RMode) (x y : FVal) : Nat × Nat :=
  match FVal.mul x y with
  | none => f.nanR true
  | some (.nan _) => f.nanR (x.snan || y.snan)
  | some (.inf a) => (f.inf a, 0)
  | some (.fin a m e) => f.round rm a m e

/-- x · y + z with one rounding; 0 × Inf sets NV even when z is a quiet NaN (R148). -/
def Fmt.fma (f : Fmt) (rm : RMode) (x y z : FVal) : Nat × Nat :=
  match FVal.mul x y with
  | none => f.nanR true
  | some (.nan _) => f.nanR (x.snan || y.snan || z.snan)
  | some p => f.add rm p z

/-- Quotient, correctly rounded (R156). -/
def Fmt.div (f : Fmt) (rm : RMode) (x y : FVal) : Nat × Nat :=
  let s := x.snan || y.snan
  match x, y with
  | .nan _, _ => f.nanR s
  | _, .nan _ => f.nanR s
  | .inf _, .inf _ => f.nanR true
  | .inf a, .fin b _ _ => (f.inf (a != b), 0)
  | .fin a _ _, .inf b => (f.zero (a != b), 0)
  | .fin a m e, .fin b n g =>
    if n = 0 then (if m = 0 then f.nanR true else (f.inf (a != b), flagDZ))
    else if m = 0 then (f.zero (a != b), 0)
    else
      let k := f.prec + 3 + bitLen n - bitLen m
      let q := m * 2 ^ k / n
      f.roundMag rm (a != b) q (e - g - k) (m * 2 ^ k % n != 0)

/-- The greatest r below 2^k with r² ≤ n, found bit by bit on top of `acc`. -/
def isqrtFrom (n : Nat) : Nat → Nat → Nat
  | 0, acc => acc
  | k + 1, acc =>
    let t := acc + 2 ^ k
    isqrtFrom n k (if t * t ≤ n then t else acc)

/-- The integer square root, rounded down. -/
def isqrt (n : Nat) : Nat := isqrtFrom n (bitLen n / 2 + 1) 0

/-- Square root, correctly rounded (R156). -/
def Fmt.sqrt (f : Fmt) (rm : RMode) (x : FVal) : Nat × Nat :=
  match x with
  | .nan s => f.nanR s
  | .inf true => f.nanR true
  | .inf false => (f.inf false, 0)
  | .fin neg m e =>
    if m = 0 then (f.zero neg, 0)
    else if neg then f.nanR true
    else
      let k0 := 2 * (f.prec + 3)
      let k := if (e - k0) % 2 = 0 then k0 else k0 + 1
      let n := m * 2 ^ k
      let r := isqrt n
      f.roundMag rm false r ((e - k) / 2) (r * r != n)

/-- Reciprocal square root, correctly rounded (R156). -/
def Fmt.rsqrt (f : Fmt) (rm : RMode) (x : FVal) : Nat × Nat :=
  match x with
  | .nan s => f.nanR s
  | .inf true => f.nanR true
  | .inf false => (f.zero false, 0)
  | .fin neg m e =>
    if m = 0 then (f.inf neg, flagDZ)
    else if neg then f.nanR true
    else
      -- value = 1 / sqrt(m · 2^e) with e made even: r = floor(2^K / sqrt m')
      let m' := if e % 2 = 0 then m else 2 * m
      let e' := if e % 2 = 0 then e else e - 1
      let k := f.prec + 3 + bitLen m'
      let n := 2 ^ (2 * k)
      let r := isqrt (n / m')
      f.roundMag rm false r (-(e' / 2) - k) (r * r * m' != n)

/-- Reciprocal (R156). -/
def Fmt.rcp (f : Fmt) (rm : RMode) (x : FVal) : Nat × Nat :=
  match x with
  | .fin neg m _ => if m = 0 then (f.inf neg, flagDZ) else f.div rm (.fin false 1 0) x
  | _ => f.div rm (.fin false 1 0) x

/-- Order of two values that are no NaN: −1, 0 or 1, with −0 equal to +0. -/
def FVal.cmp (x y : FVal) : Int :=
  match x, y with
  | .inf a, .inf b => if a = b then 0 else if a then -1 else 1
  | .inf a, _ => if a then -1 else 1
  | _, .inf b => if b then 1 else -1
  | .fin na ma ea, .fin nb mb eb =>
    let e := if ea < eb then ea else eb
    let v := smant na ma * (2 ^ (ea - e).toNat : Nat) - smant nb mb * (2 ^ (eb - e).toNat : Nat)
    if v < 0 then -1 else if 0 < v then 1 else 0
  | _, _ => 0

/-- Whether a value is negative by its sign. -/
def FVal.sign : FVal → Bool
  | .nan _ => false
  | .inf n => n
  | .fin n _ _ => n

/-- x below y with −0 below +0 (R149). -/
def FVal.below (x y : FVal) : Bool :=
  let c := FVal.cmp x y
  decide (c < 0) || (c == 0 && x.sign && !y.sign)

/-- `fmin` and `fmax` of R149 on the values with their bits. -/
def Fmt.minMax (f : Fmt) (max : Bool) (a b : Nat) : Nat × Nat :=
  let x := f.read a
  let y := f.read b
  let nv := b2n (x.snan || y.snan) * flagNV
  if x.isNaN && y.isNaN then (f.nan, nv)
  else if x.isNaN then (b, nv)
  else if y.isNaN then (a, nv)
  else (if FVal.below (if max then y else x) (if max then x else y) then a else b, nv)

/-- `fcmp` of R150 on one element: the condition and the flags. -/
def fcmpOne (f : Fmt) (c : FCond) (a b : Nat) : Bool × Nat :=
  let x := f.read a
  let y := f.read b
  let n := x.isNaN || y.isNaN
  let s := x.snan || y.snan
  let o := FVal.cmp x y
  match c with
  | .eq => (!n && o == 0, b2n s * flagNV)
  | .ne => (n || o != 0, b2n s * flagNV)
  | .lt => (!n && decide (o < 0), b2n n * flagNV)
  | .le => (!n && decide (o ≤ 0), b2n n * flagNV)
  | .gt => (!n && decide (0 < o), b2n n * flagNV)
  | .ge => (!n && decide (0 ≤ o), b2n n * flagNV)
  | .un => (n, b2n s * flagNV)
  | .ord => (!n, b2n s * flagNV)

/-- `frnd` of R153 on one element. -/
def Fmt.rnd (f : Fmt) (rm : RMode) (a : Nat) : Nat × Nat :=
  match f.read a with
  | .nan s => f.nanR s
  | .inf n => (f.inf n, 0)
  | .fin neg m e =>
    let (n, _) := cutAt rm neg m e false 0
    ((f.round .rne neg n 0).1, 0)

/-- The class mask of R154. -/
def Fmt.classMask (f : Fmt) (a : Nat) : Nat :=
  match f.read a with
  | .inf true => 2 ^ 0
  | .inf false => 2 ^ 7
  | .nan true => 2 ^ 8
  | .nan false => 2 ^ 9
  | .fin neg m _ =>
    if m = 0 then (if neg then 2 ^ 3 else 2 ^ 4)
    else if m < 2 ^ f.frac then (if neg then 2 ^ 2 else 2 ^ 5)
    else (if neg then 2 ^ 1 else 2 ^ 6)

/-- `fscale` of R155 on one element. -/
def Fmt.scale (f : Fmt) (rm : RMode) (a : Nat) (k : Int) : Nat × Nat :=
  match f.read a with
  | .nan s => f.nanR s
  | .inf n => (f.inf n, 0)
  | .fin neg m e => f.round rm neg m (e + k)

/-- `fmov` of R151 on one element: a with the sign bit of b, b inverted where `neg`. -/
def Fmt.copySign (f : Fmt) (neg : Bool) (a b : Nat) : Nat :=
  a % 2 ^ (f.width - 1) + b2n (bit b (f.width - 1) != neg) * 2 ^ (f.width - 1)

/-- Float to float (R76). DESIGN CHOICE (log 102): a zero keeps the operand's sign. -/
def cvtFloat (src dst : Fmt) (rm : RMode) (a : Nat) : Nat × Nat :=
  match src.read a with
  | .nan s => dst.nanR s
  | .inf n => (dst.inf n, 0)
  | .fin neg m e => dst.round rm neg m e

/-- Float to an integer of n bits (R76). -/
def cvtToInt (src : Fmt) (n : Nat) (sgn : Bool) (rm : RMode) (a : Nat) : Nat × Nat :=
  let lo : Int := if sgn then -(2 ^ (n - 1) : Nat) else 0
  let hi : Int := if sgn then (2 ^ (n - 1) : Nat) - 1 else (2 ^ n : Nat) - 1
  match src.read a with
  | .nan _ => (0, flagNV)
  | .inf neg => (narrow (if neg then lo else hi) n, flagNV)
  | .fin neg m e =>
    let (v, x) := roundInt rm neg m e
    if v < lo ∨ hi < v then (narrow (satI v lo hi) n, flagNV)
    else (narrow v n, b2n x * flagNX)

/-- Integer to float (R76). -/
def cvtFromInt (dst : Fmt) (rm : RMode) (v : Int) : Nat × Nat := dst.round rm (decide (v < 0)) v.natAbs 0

/-! LNS6 (R69 to R74, R77). -/

/-- The table T of R70. -/
def lnsT (f : Nat) : Nat := if f = 0 then 256 else if f = 1 then 304 else if f = 2 then 362 else 431

/-- L(m) of R70 in units of 2^−12: T[f] · 2^(i + 4). -/
def lnsMag (m : Nat) : Nat := if m = 0 then 0 else lnsT (m % 4) * 2 ^ (m / 4)

/-- L(m) is `lnsMag m` · 2^−12: i − 8 = m div 4 − 12 (R70). -/
def lnsExp : Int := -12

/-- Whether a code is NaR (R69). -/
def lnsIsNaR (c : Nat) : Bool := c % 64 == 32

/-- Compares L(m) with k · 2^e: −1, 0 or 1. -/
def lnsCmp (m k : Nat) (e : Int) : Int := FVal.cmp (.fin false (lnsMag m) lnsExp) (.fin false k e)

/-- The greatest magnitude code up to `n` whose linear value is at most k · 2^e (R73). -/
def lnsFloor (k : Nat) (e : Int) : Nat → Nat
  | 0 => 0
  | n + 1 => if lnsCmp (n + 1) k e ≤ 0 then n + 1 else lnsFloor k e n

/-- The magnitude code chosen for k · 2^e > 0 (R73). -/
def lnsChoose (rm : RMode) (neg : Bool) (k : Nat) (e : Int) : Nat :=
  let lo := lnsFloor k e 31
  if lnsCmp lo k e = 0 ∨ lo = 31 then lo
  else
    -- twice the value against the sum of the neighbours
    let c := FVal.cmp (.fin false k (e + 1)) (.fin false (lnsMag lo + lnsMag (lo + 1)) lnsExp)
    match rm with
    | .rne => if c < 0 then lo else if 0 < c then lo + 1 else if lo % 2 = 0 then lo else lo + 1
    | .rna => if c < 0 then lo else lo + 1
    | .rtz => lo
    | .rdn => if neg then lo + 1 else lo
    | .rup => if neg then lo else lo + 1

/-- Encoding into LNS6 (R73): the code and the flags. -/
def lnsEncode (rm : RMode) (x : FVal) : Nat × Nat :=
  match x with
  | .nan _ => (32, flagNV + flagNR)
  | .inf _ => (32, flagNV + flagNR)
  | .fin neg k e =>
    if k = 0 then (0, 0)
    else if lnsCmp 31 k e < 0 then (b2n neg * 32 + 31, flagOF + flagNX)
    else
      let m := lnsChoose rm neg k e
      if m = 0 then (0, flagUF + flagNX)
      else (b2n neg * 32 + m, b2n (lnsCmp m k e != 0) * flagNX)

/-- The value of an LNS6 code that is no NaR (R70). -/
def lnsValue (c : Nat) : FVal := .fin (bit c 5 && c % 32 != 0) (lnsMag (c % 32)) lnsExp

/-- LNS6 to float (R77). -/
def lnsDecode (dst : Fmt) (rm : RMode) (c : Nat) : Nat × Nat :=
  if lnsIsNaR c then (dst.nan, flagNR + flagNV)
  else if c % 64 = 0 then (dst.zero false, 0)
  else cvtFloatVal dst rm (lnsValue c)
where
  /-- Rounds a finite value into a format. -/
  cvtFloatVal (dst : Fmt) (rm : RMode) (v : FVal) : Nat × Nat :=
    match v with
    | .fin n m e => dst.round rm n m e
    | _ => (dst.nan, 0)

/-- P of R74, the product of two codes that are no NaR, in units of 2^−16. -/
def lnsProduct (a b : Nat) : Int :=
  if a % 32 = 0 ∨ b % 32 = 0 then 0
  else
    let s := a % 32 + b % 32
    -- e = s − 32, i = s div 4 − 8, P = T[f] · 2^(i + 8)
    smant (bit a 5 != bit b 5) (lnsT (s % 4) * 2 ^ (s / 4))

/-! Canonical slices (R78 to R80), folds and drains (R82, R85). -/

/-- The exponent of the leading 1 of a finite value. -/
def leadExp (m : Nat) (e : Int) : Int := (bitLen m : Int) - 1 + e

/-- The greatest leading exponent among the finite non-zero values (R79). -/
def sliceMax : List FVal → Option Int
  | [] => none
  | .fin _ m e :: xs =>
    if m = 0 then sliceMax xs
    else
      match sliceMax xs with
      | none => some (leadExp m e)
      | some g => some (if g < leadExp m e then leadExp m e else g)
  | _ :: xs => sliceMax xs

/-- One float slot of a slice of maximum exponent E (R79). -/
def floatSlot (maxExp : Int) : FVal → Int
  | .fin neg m e => (roundInt .rne neg m (e + 14 - maxExp)).1
  | _ => 0

/-- A float slice: exponent word and slots (R78, R79). -/
def floatSlice (xs : List FVal) : Nat × List Int :=
  let spc := xs.any fun x => match x with | .fin _ _ _ => false | _ => true
  match sliceMax xs with
  | none => (b2n spc * 2 ^ 15 + 2 ^ 14, xs.map fun _ => 0)
  | some g => (b2n spc * 2 ^ 15 + narrow g 12, xs.map (floatSlot g))

/-- An FP64 entry after a float fold of v · 2^x (R82). DESIGN CHOICE (log 102): v = 0 adds +0, so the sign of a zero result is that of the sum with +0. -/
def foldFloat (entry : Nat) (v : Int) (x : Int) : Nat :=
  if v = 0 then (fp64.add .rne (fp64.read entry) (.fin false 0 0)).1
  else (fp64.add .rne (fp64.read entry) (.fin (decide (v < 0)) v.natAbs x)).1

/-- The targets of a drain (R85, R290). -/
inductive DrainFmt where
  | fp32 | bf16 | fp16 | int32 | int8 | lns6
deriving DecidableEq, Repr

/-- Drains a value that is not poisoned (R85). DESIGN CHOICE (log 102): a zero drained to a float format keeps the entry's sign; an integer or LNS6 tile gives +0. -/
def drainValue (t : DrainFmt) (rm : RMode) (x : FVal) : Nat :=
  let toInt (n : Nat) : Nat :=
    let lo : Int := -(2 ^ (n - 1) : Nat)
    let hi : Int := (2 ^ (n - 1) : Nat) - 1
    match x with
    | .nan _ => 2 ^ (n - 1)
    | .inf neg => narrow (if neg then lo else hi) n
    | .fin neg m e => narrow (satI (roundInt rm neg m e).1 lo hi) n
  let toFloat (f : Fmt) : Nat :=
    match x with
    | .nan _ => f.nan
    | .inf n => f.inf n
    | .fin neg m e => (f.round rm neg m e).1
  match t with
  | .fp32 => toFloat Sys2Proof.Machine.fp32
  | .bf16 => toFloat Sys2Proof.Machine.bf16
  | .fp16 => toFloat Sys2Proof.Machine.fp16
  | .int32 => toInt 32
  | .int8 => toInt 8
  | .lns6 => (lnsEncode rm x).1

/-- What a poisoned entry drains to (R85). -/
def drainPoison : DrainFmt → Nat
  | .fp32 => Sys2Proof.Machine.fp32.nan
  | .bf16 => Sys2Proof.Machine.bf16.nan
  | .fp16 => Sys2Proof.Machine.fp16.nan
  | .int32 => 2 ^ 31
  | .int8 => 2 ^ 7
  | .lns6 => 32

end Sys2Proof.Machine
end

