-- ==== Sys2Proof/Machine/Mem.lean ====
section
/-! DEFINITION. Memory beneath the instructions: homes and leases, the L1, requests, release work, and the performing of accesses (R160, R169 to R178, R183, R186, R190 to R198, R205). -/

namespace Sys2Proof.Machine

/-! Meters (R367). -/

/-- The smallest units of one budget unit of each activity. -/
def meterUnit : Nat → Nat
  | 4 => 64
  | 5 => 65536
  | _ => 1024

/-- Whether an activity is unmetered or stays below its budget. -/
def Part.under (p : Part) (a : Nat) : Bool :=
  wordAt p.rec_ (16 + a) == 0xFFFFFFFF || decide (p.meters.getD a 0 < wordAt p.rec_ (16 + a) * meterUnit a)

/-- Counts consumption of a partition, and holds the activity once its budget is reached. -/
def State.meter (s : State) (part a n : Nat) : State :=
  { s with parts := NMap.edit s.parts part fun p =>
      let p1 := { p with meters := p.meters.modify a (· + n) }
      { p1 with held := if p1.under a then p1.held else p1.held.set a true } }

/-- Whether an activity of a partition is held in this period. -/
def State.heldAct (s : State) (part a : Nat) : Bool :=
  match NMap.find s.parts part with
  | some p => p.held.getD a false
  | none => false

/-- Counts a line read or written at a cistern, and for a line of the device the lines of HBM4E it costs: whether it misses, and whether a miss writes another back, depends on what the cistern caches, a free number of at most two, and none while the HBM4E meter is held, when misses wait; a line of the host is never cached (R22, R159, R367; log 89). -/
def State.meterLine (s : State) (part line : Nat) : State :=
  let s1 := s.meter part 1 1
  if (lineLoc line).host then s1
  else
    let lines := if s1.heldAct part 2 then 0 else (Config.freeValue s1.fresh).toNat % 3
    { s1.meter part 2 lines with fresh := s1.fresh + 1 }
/-- Counts several lines. -/
def State.meterLines (s : State) (part : Nat) (lines : List Nat) : State := lines.foldl (fun t k => t.meterLine part k) s

/-- The partition that holds a core. -/
def State.partOfCore (s : State) (core : Nat) : Nat :=
  match (s.core core).ctx with | some c => s.partOf c | none => 0

/-- The read-lease length of a core's partition in nanoseconds (R364). -/
def State.leaseLen (s : State) (core : Nat) : Nat :=
  match NMap.find s.parts (s.partOfCore core) with
  | some p => if wordAt p.rec_ 5 = 0 then 4000 else wordAt p.rec_ 5
  | none => 4000

/-! Homes (R170, R172, R198). -/

def State.lineRec (s : State) (line : Nat) : LineRec := NMap.get s.lines line { lease := 0, settle := 0 }

/-- Grants a read lease: the expiry. -/
def State.grantLease (s : State) (core line : Nat) : Nat × State :=
  let e := s.horizon + s.leaseLen core
  let x := s.lineRec line
  (e, { s with lines := NMap.put s.lines line { x with lease := max x.lease e } })

/-- Records a write at a home: its completion time (R172). -/
def State.homeWrite (s : State) (line : Nat) : Nat × State :=
  let x := s.lineRec line
  let c := max s.horizon x.lease + 2
  (c, { s with lines := NMap.put s.lines line { x with settle := max x.settle c } })

/-- The bytes of a line at its home. -/
def State.lineBytes (s : State) (line : Nat) : NMap Byte := indexed (s.bytesAt (lineLoc line) 64)

/-- The poisoned bytes of a line, by offset (R179). -/
def State.lineBad (s : State) (line : Nat) : List Nat :=
  (List.range 64).filter fun i => s.poison.contains ((lineLoc line).plus i).poisonKey
/-- Whether a range of a line holds a poisoned byte (R179). -/
def State.poisonedIn (s : State) (line off n : Nat) : Bool := (s.lineBad line).any fun i => decide (off ≤ i ∧ i < off + n)

/-! Atomics (R183). -/

/-- The new value of an atomic from the old one. -/
def AtomicItem.apply (x : AtomicItem) (old : Nat) : Nat :=
  let n := if x.wide then 64 else 32
  let a := old % 2 ^ n
  let b := x.operand % 2 ^ n
  let less := if x.sgn then decide (sext a n < sext b n) else decide (a < b)
  match x.atop with
  | .add =>
    if x.fadd then
      let f := if x.wide then fp64 else fp32
      (f.add .rne (f.read a) (f.read b)).1
    else (a + b) % 2 ^ n
  | .min => if less then a else b
  | .max => if less then b else a
  | .and => a &&& b
  | .or => a ||| b
  | .xor => a ^^^ b
  | .exch => b
  | .cas => if a = x.expected % 2 ^ n then b else a

/-- Bytes an atomic touches. -/
def AtomicItem.width (x : AtomicItem) : Nat := if x.wide then 8 else 4

/-- Whether an atomic leaves its location unwritten: a `cas` whose comparison fails (R195). -/
def AtomicItem.idle (x : AtomicItem) (old : Nat) : Bool :=
  decide (x.atop = .cas) && old % 2 ^ (8 * x.width) != x.expected % 2 ^ (8 * x.width)

/-- Reads a number from a byte map. -/
def mapNum (m : NMap Byte) (off n : Nat) : Nat := Byte.join ((List.range n).map fun i => NMap.get m (off + i) 0)
/-- Writes a list of bytes into a byte map. -/
def mapWrite (m : NMap Byte) (off : Nat) : List Byte → NMap Byte
  | [] => m
  | b :: bs => mapWrite (NMap.put m off b) (off + 1) bs
/-- Lays one byte map over another. -/
def mapOver (m : NMap Byte) (n : NMap Byte) : NMap Byte := n.foldl (fun a e => NMap.put a e.1 e.2) m

/-- The result words of a value of n bits. -/
def valueWords (wide : Bool) (x : Nat) : List Word := Word.split (if wide then 2 else 1) x

/-! Operations: what they still wait for. -/

/-- One part fewer to be performed. -/
def State.opDone (s : State) (o : Nat) : State := s.modOp o fun x => { x with left := x.left - 1 }
/-- Fixes a load's value and raises its fibre's OT (R190, R198). -/
def State.opValue (s : State) (o : Nat) (ws : List Word) (settle : Nat) : State :=
  match NMap.find s.ops o with
  | none => s
  | some x => (s.modOp o fun y => { y with value := some ws, left := y.left - 1, todo := none }).modFibre x.fibre fun f => { f with ot := max f.ot settle }

/-- The unperformed operations of a fibre. -/
def State.openOps (s : State) (f : Nat) : List (Nat × Op) := s.ops.filter fun e => e.2.fibre == f && decide (0 < e.2.left)

/-- The memory instructions a fence of a fibre waits for: all that have not completed, `pref` excepted (R186). -/
def State.memOps (s : State) (f : Nat) : List Nat :=
  (s.ops.filter fun e => e.2.fibre == f && e.2.isMem && !e.2.prefetch).map Prod.fst

/-- Whether a memory instruction may issue for a fibre: no acquire and no release is still to be performed and, for a store, no load (R176, R195). -/
def State.memReady (s : State) (f : Nat) (isStore : Bool) : Bool :=
  (s.openOps f).all fun e => e.2.prefetch || !(e.2.acquire || e.2.release || (isStore && e.2.isLoad))

/-- An operation has met data with an uncorrectable error: it writes nothing, and its completion ends the context (R179). -/
def State.opPoison (s : State) (o line : Nat) : State :=
  s.modOp o fun x => { x with poisoned := some line, value := none, left := 0, todo := none }

/-! Messages of the mesh (R17, R338, R340). -/

/-- The number by which the mesh knows the port of a cluster's router that serves its riser and its barrier unit; no core has it. -/
def portOf (cluster : Nat) : Nat := 256 + cluster

/-- LATLIM of a core. -/
def Core.latLim (c : Core) : Nat := bits c.netctl.toNat 23 16

/-- Whether a core may have one more latency-class message in flight (R340). -/
def State.latFits (s : State) (src : Nat) : Bool :=
  decide ((s.mesh.msgs.filter fun e => e.2.src == src && e.2.lat).length < (s.core src).latLim)

/-- Hands a message to the injection queue of a layer at its source. -/
def State.meshSend (s : State) (m : Msg) : State :=
  let key := 4 * m.src + m.layer
  let q := NMap.get s.mesh.outq key []
  { s with nextId := s.nextId + 1,
           mesh := { s.mesh with msgs := NMap.put s.mesh.msgs s.nextId m,
                                 outq := NMap.put s.mesh.outq key (q ++ (List.range m.flits).map fun i => (s.nextId, i)) } }

/-! Requests (R15, R16, R170 to R174). -/

/-- The context of a core. -/
def State.ctxOfCore (s : State) (core : Nat) : Nat := (s.core core).ctx.getD 0

/-- Whether a request reads a line. -/
def Req.isRead (x : Req) : Bool := match x.kind with | .read .. => true | _ => false
/-- Whether a request writes, at a home or at a scratchpad. -/
def Req.isWrite (x : Req) : Bool := match x.kind with | .read .. => false | .winRead .. => false | _ => true
/-- Whether the access of a request is still to be performed. -/
def Req.unperformed (x : Req) : Bool := decide (x.stage = .out ∨ x.stage = .home)

/-- A request of a core with nothing answered. -/
def Req.new (core line home : Nat) (kind : ReqKind) (ops fibres : List Nat) (back lat : Bool) : Req :=
  { core := core, line := line, home := home, kind := kind, stage := .home, ops := ops, fibres := fibres, back := back,
    lat := lat, low := false, ctx := 0, part := 0, begun := true, eng := none, via := 0, newer := [], mine := [], ahead := [], void := false,
    data := [], bad := [], fixed := false, results := [], comp := 0, settle := 0, refused := false }

/-- The die of a request's home cistern. -/
def Req.die (x : Req) : Nat := homeCistern (lineLoc x.line) x.home / 4

/-- A cluster of a die by its place there. -/
def dieCluster (die i : Nat) : Nat := 8 * (4 * (die / 2) + i / 4 % 4) + (4 * (die % 2) + i % 4)

/-- The mesh layer of a line: bits [7:6] of its physical address (R17). -/
def layerOf (line : Nat) : Nat := line / 2 % 4

/-- Files a request under a number with what its core says of it, and sends it to its home: over a riser on its own die, otherwise as a flit to the router of a cluster of the home's die, whose riser carries it on (R16, R17). DESIGN CHOICE (log 106): the spec does not say which cluster; it is a free one. -/
def State.addAs (s : State) (r : Nat) (x : Req) : State :=
  let ctx := s.ctxOfCore x.core
  let part := s.partOf ctx
  let y := { x with ctx := ctx, part := part, begun := !s.heldAct part 1 }
  if x.die = dieOf x.core then { s with reqs := NMap.put s.reqs r y }
  else
    let via := dieCluster x.die ((Config.freeValue s.fresh).toNat % 16)
    let lat := x.lat && s.latFits x.core
    State.meshSend { s with fresh := s.fresh + 1, reqs := NMap.put s.reqs r { y with stage := .out, via := via, low := x.lat && !lat } }
      { src := x.core, dst := portOf via, lat := lat, flits := 1, got := 0, layer := layerOf x.line, ctx := ctx, part := part, body := .request r }

/-- Sends a request under a new number. -/
def State.addReq (s : State) (x : Req) : Nat × State := (s.nextId, State.addAs { s with nextId := s.nextId + 1 } s.nextId x)

/-- Drops a request. -/
def State.dropReq (s : State) (r : Nat) : State := { s with reqs := NMap.del s.reqs r }

/-- Whether a copy command has a request under way. -/
def State.engBusy (s : State) (core op : Nat) : Bool :=
  (s.reqs.any fun e => e.2.eng == some op && e.2.core == core) || (s.cores.any fun c => c.2.wcb.any fun l => l.cmds.contains op) ||
    s.wins.any fun e => e.2.packets.any fun p => p.cmds.contains op

/-- Drops the reads a copy command has under way. -/
def State.engDrop (s : State) (core op : Nat) : State := { s with reqs := s.reqs.filter fun e => !(e.2.eng == some op && e.2.core == core && !e.2.isWrite) }

/-- Changes the requests of a core for a line that read it and have not landed. -/
def State.modReads (s : State) (core line : Nat) (k : Req → Req) : State :=
  { s with reqs := s.reqs.map fun e =>
      if e.2.core == core && e.2.line == line && e.2.isRead && decide (e.2.stage ≠ .landed) then (e.1, k e.2) else e }

/-- The core writes bytes of a line in its L1: reads of it under way return them, and leave them in the L1 (R192). -/
def State.noteTeam (s : State) (core line : Nat) (m : NMap Byte) : State :=
  s.modReads core line fun x =>
    { x with newer := mapOver x.newer m, mine := mapOver x.mine m, ahead := x.ahead.filter fun i => !(NMap.keys m).contains i }

/-- The core writes bytes of a line beyond its L1: reads of it under way leave them in the L1, and are performed at the home before them (R192, R193). -/
def State.noteWide (s : State) (core line : Nat) (m : NMap Byte) : State :=
  s.modReads core line fun x =>
    { x with newer := mapOver x.newer m, mine := NMap.keep x.mine fun i => !(NMap.keys m).contains i, ahead := (x.ahead ++ NMap.keys m).dedup }

/-- Whether bytes of a line may be read in the L1: no older read of the core that must return what stood before them is still to be performed (R192). -/
def State.l1Clear (s : State) (core line off n : Nat) : Bool :=
  !(s.reqs.any fun e => e.2.core == core && e.2.line == line && e.2.isRead && e.2.unperformed && e.2.ahead.any fun i => decide (off ≤ i ∧ i < off + n))

/-- Whether the core itself has written bytes that a read returns, every one, so that the home's settle time does not bear on them (R198). -/
def Req.own (x : Req) (off n : Nat) : Bool := (List.range n).all fun i => (NMap.find x.mine (off + i)).isSome

/-- Fibres that read bytes the core is writing beyond its L1 share the write: its completion time is theirs (R196, R198, R200; log 107). -/
def State.joinWrites (s : State) (core line off n : Nat) (fs : List Nat) : State :=
  { s with reqs := s.reqs.map fun e =>
      match e.2.kind with
      | .write m => if e.2.core == core && e.2.line == line && (NMap.keys m).any fun i => decide (off ≤ i ∧ i < off + n) then
          (e.1, { e.2 with fibres := (e.2.fibres ++ fs).dedup }) else e
      | _ => e }

/-! The L1 (R169 to R173). -/

/-- The number of the 32-byte unit that holds a byte of a line: units of the device even, of the host odd. -/
def unitOf (line off : Nat) : Nat := 4 * (line / 2) + 2 * (off / 32) + line % 2
/-- The line of a unit. -/
def lineOfUnit (u : Nat) : Nat := 2 * (u / 4) + u % 2
/-- The key of a byte of a line in a block. -/
def byteKey (line off : Nat) : Nat := 32 * unitOf line off + off % 32
/-- The L1 set of a unit: address bits [16:8] (R169). -/
def l1Set (u : Nat) : Nat := u / 16 % 512
/-- Units of 32 bytes a set holds. -/
def l1Units : Nat := 16

/-- The units of a run of some size. -/
def unitsFrom (first size : Nat) : List Nat := (List.range size).map fun i => first + 2 * i
/-- The lines of a run of units. -/
def unitLines (first size : Nat) : List Nat := ((unitsFrom first size).map lineOfUnit).dedup
def L1Block.covers (b : L1Block) (u : Nat) : Bool := (unitsFrom b.first b.size).contains u
/-- A block with nothing valid, without a lease (R171). -/
def L1Block.blank (first size homing : Nat) : L1Block :=
  { first := first, size := size, homing := homing, bytes := [], lease := [], settle := [], tag := .none }
/-- Whether a block has dirty bytes. -/
def L1Block.isDirty (b : L1Block) : Bool := b.bytes.any fun e => e.2.dirty
/-- The bytes of a line that a block holds and a test selects, by offset in the line. -/
def L1Block.lineBytes (b : L1Block) (line : Nat) (p : L1Byte → Bool) : NMap Byte :=
  b.bytes.filterMap fun e => if lineOfUnit (e.1 / 32) == line && p e.2 then some (32 * (e.1 / 64 % 2) + e.1 % 32, e.2.val) else none

/-- The block of a core that covers a unit. -/
def Core.block? (c : Core) (u : Nat) : Option L1Block := c.l1.find? fun b => b.covers u
/-- A byte of a line in a core's L1, with its block. -/
def Core.byte? (c : Core) (line off : Nat) : Option (L1Block × L1Byte) :=
  (c.block? (unitOf line off)).bind fun b => (NMap.find b.bytes (byteKey line off)).map fun x => (b, x)
/-- Whether a byte may be read in the L1 at a time: it is dirty, or under an unexpired lease (R170, R171). -/
def Core.holds (c : Core) (now line off : Nat) : Bool :=
  match c.byte? line off with
  | some e => e.2.dirty || decide (now < NMap.get e.1.lease (unitOf line off) 0)
  | none => false
def Core.hits (c : Core) (now line off n : Nat) : Bool := (List.range n).all fun i => c.holds now line (off + i)
/-- The bytes of a line that the L1 holds from an offset on, by offset. -/
def Core.l1Map (c : Core) (line off n : Nat) : NMap Byte :=
  (List.range n).filterMap fun i => (c.byte? line (off + i)).map fun e => (off + i, e.2.val)
/-- The settle time a read of bytes in the L1 carries: none for dirty bytes (R198). -/
def Core.settleOf (c : Core) (line off n : Nat) : Nat :=
  (List.range n).foldl (fun m i => match c.byte? line (off + i) with
    | some e => if e.2.dirty then m else max m (NMap.get e.1.settle (unitOf line (off + i)) 0)
    | none => m) 0
/-- Whether bytes in the L1 carry an uncorrectable error. -/
def Core.badIn (c : Core) (line off n : Nat) : Bool :=
  (List.range n).any fun i => match c.byte? line (off + i) with | some e => e.2.bad | none => false
/-- The dirty bytes of a line that the L1 holds. -/
def Core.dirtyIn (c : Core) (line : Nat) : NMap Byte := c.l1.foldl (fun m b => mapOver m (b.lineBytes line L1Byte.dirty)) []

/-- Changes a core's block of a first unit. -/
def State.modBlock (s : State) (core first : Nat) (k : L1Block → L1Block) : State :=
  s.modCore core fun c => { c with l1 := c.l1.map fun b => if b.first == first then k b else b }

/-- Marks the dirty bytes of a line that are not on their way home yet as carried by a request. -/
def L1Block.sent (r line : Nat) (b : L1Block) : L1Block :=
  let mark (e : Nat × L1Byte) : Nat × L1Byte :=
    if lineOfUnit (e.1 / 32) == line && e.2.dirty && e.2.going.isNone then (e.1, { e.2 with going := some r }) else e
  { b with bytes := b.bytes.map mark }

/-- Starts the write-back of the dirty bytes of one line of a block that are not on their way home yet (R173). -/
def State.backLine (core : Nat) (b : L1Block) (fibres : List Nat) (lat : Bool) (p : State × List Nat) (line : Nat) : State × List Nat :=
  let m := b.lineBytes line fun x => x.dirty && x.going.isNone
  if m.isEmpty then p
  else
    let q := p.1.addReq (Req.new core line b.homing (.write m) [] fibres true lat)
    (q.2.modBlock core b.first (L1Block.sent q.1 line), p.2 ++ [q.1])

/-- Starts the write-back of a block: one write of its dirty bytes to each home of its lines. -/
def State.writeBack (s : State) (core : Nat) (b : L1Block) (fibres : List Nat) (lat : Bool) : State × List Nat :=
  (unitLines b.first b.size).foldl (State.backLine core b fibres lat) (s, [])

/-- The blocks to evict, the least recently used first, so that a set holds no more than some units. -/
def overflow : Nat → List L1Block → List L1Block
  | room, bs => (bs.foldl (fun (p : Nat × List L1Block) b => if p.1 + b.size ≤ room then (p.1 + b.size, p.2) else (room, p.2 ++ [b])) (0, [])).2

/-- Drops a block, writing its dirty bytes back (R173). -/
def State.evictBlock (core : Nat) (s : State) (b : L1Block) : State :=
  (s.writeBack core b [] false).1.modCore core fun c => { c with l1 := c.l1.filter fun x => x.first != b.first }

/-- Puts a new block into the L1 as the most recently used; the least recently used of its set give way (R169). -/
def State.putBlock (s : State) (core : Nat) (b : L1Block) : State :=
  let mine := (s.core core).l1.filter fun x => l1Set x.first == l1Set b.first
  ((overflow (l1Units - b.size) mine).foldl (State.evictBlock core) s).modCore core fun c => { c with l1 := b :: c.l1 }

/-- Marks the block of a unit as the most recently used. -/
def State.touchBlock (s : State) (core u : Nat) : State :=
  match (s.core core).block? u with
  | none => s
  | some b => s.modCore core fun c => { c with l1 := b :: c.l1.filter fun x => x.first != b.first }

/-- Whether a run of units meets a block of the core. -/
def Core.meets (c : Core) (first size : Nat) : Bool := (unitsFrom first size).any fun u => (c.block? u).isSome

/-- The aligned run of 2^k units that holds a unit. -/
def runFirst (u k : Nat) : Nat := 2 * (u / 2 / 2 ^ k * 2 ^ k) + u % 2

/-- The block that a fill of a unit makes: the one present, else the greatest run up to the size wanted that meets no block present. -/
def Core.fillRun (c : Core) (u want : Nat) : Nat × Nat :=
  match c.block? u with
  | some b => (b.first, b.size)
  | none =>
    match (((List.range 4).reverse).filter fun k => decide (k ≤ want)).find? fun k => !c.meets (runFirst u k) (2 ^ k) with
    | some k => (runFirst u k, 2 ^ k)
    | none => (u, 1)

/-- Makes sure a block covers a unit: of the run given where nothing of it is present, else of the unit alone. -/
def State.needBlock (s : State) (core u homing : Nat) (run : Nat × Nat) : State :=
  if ((s.core core).block? u).isSome then s
  else if (s.core core).meets run.1 run.2 || !(unitsFrom run.1 run.2).contains u then s.putBlock core (L1Block.blank u 1 homing)
  else s.putBlock core (L1Block.blank run.1 run.2 homing)

/-- Lays bytes of a line into the block of a unit. -/
def L1Block.lay (b : L1Block) (line u : Nat) (mk : Nat → Byte → L1Byte) (m : NMap Byte) : L1Block :=
  { b with bytes := (m.filter fun e => unitOf line e.1 == u).foldl (fun x e => NMap.put x (byteKey line e.1) (mk e.1 e.2)) b.bytes }

/-- Changes the block that covers a unit. -/
def State.modUnit (s : State) (core u : Nat) (k : L1Block → L1Block) : State :=
  match (s.core core).block? u with
  | some b => s.modBlock core b.first k
  | none => s

/-- The units of a line. -/
def lineUnits (line : Nat) : List Nat := [unitOf line 0, unitOf line 32]

/-- Writes bytes of a line at team scope: dirty in the L1, in a block of one unit where none is present (R171; log 108). -/
def State.teamWrite (s : State) (core line homing : Nat) (m : NMap Byte) : State :=
  ((lineUnits line).filter fun u => m.any fun e => unitOf line e.1 == u).foldl (fun t u =>
    ((t.needBlock core u homing (u, 1)).modUnit core u fun b =>
      { b.lay line u (fun _ x => { val := x, dirty := true, going := none, bad := false }) m with tag := .team }).touchBlock core u)
    (s.noteTeam core line m)

/-- The blocks that hold bytes of a line which a write touches. -/
def Core.touched (c : Core) (line : Nat) (offs : List Nat) : List L1Block := c.l1.filter fun b => offs.any fun i => b.covers (unitOf line i)

/-- Writes bytes of a line beyond the L1: a present copy is written and tagged WIDE, and the write takes the dirty bytes of its blocks with it, those of other lines as writes of their own (R171, R173). Answers the bytes to send, and whether some of them were dirty. -/
def State.wideWrite (s : State) (core line : Nat) (fibres : List Nat) (lat : Bool) (m : NMap Byte) (r : Nat) : State × NMap Byte × Bool :=
  let bs := (s.core core).touched line (NMap.keys m)
  let own := bs.foldl (fun x b => mapOver x (b.lineBytes line fun y => y.dirty && y.going.isNone)) []
  let kept := NMap.keep own fun i => !(NMap.keys m).contains i
  let mark (b : L1Block) : L1Block := { b.sent r line with tag := .wide }
  let s1 := bs.foldl (fun t b =>
    (unitLines b.first b.size).foldl (fun u l => if l = line then u else (State.backLine core b fibres lat (u, []) l).1) t) (s.noteWide core line m)
  let s2 := bs.foldl (fun t b => t.modBlock core b.first fun x =>
    (lineUnits line).foldl (fun y u => if y.covers u then y.lay line u (fun _ v => { val := v, dirty := false, going := none, bad := false }) m else y) (mark x)) s1
  (s2, mapOver kept m, !kept.isEmpty)

/-- A wide atomic or `red` on bytes of a line: its blocks' dirty bytes are written back and the copies dropped, and a fill under way stays out (R171). -/
def State.dropCopies (s : State) (core line : Nat) (offs : List Nat) (fibres : List Nat) (lat : Bool) : State :=
  let bs := (s.core core).touched line offs
  (bs.foldl (fun t b => (t.writeBack core b fibres lat).1.modCore core fun c => { c with l1 := c.l1.filter fun x => x.first != b.first }) s).modReads core line
    fun x => { x with void := true }

/-- Installs the units of a line that a fill brings (R170, R171): it writes the bytes that are not dirty, with what the core has written since, under the lease and settle time that came with it. -/
def State.install (s : State) (core : Nat) (x : Req) : State :=
  match x.kind with
  | .read first size _ =>
    if x.void then s
    else
      ((lineUnits x.line).filter fun u => (unitsFrom first size).contains u).foldl (fun t u =>
        ((t.needBlock core u x.home (first, size)).modUnit core u fun b =>
          let fresh := NMap.keep (mapOver x.data x.newer) fun i => match NMap.find b.bytes (byteKey x.line i) with | some y => !y.dirty | none => true
          { b.lay x.line u (fun i v => { val := v, dirty := false, going := none, bad := x.bad.contains i && (NMap.find x.newer i).isNone }) fresh with
            lease := NMap.put b.lease u x.comp, settle := NMap.put b.settle u (max (NMap.get b.settle u 0) x.settle) }).touchBlock core u) s
  | _ => s

/-- A write that carried dirty bytes is acknowledged: the bytes it carried are clean (R173); the settle time of what it wrote rises to its completion time (R198, R200; log 107). -/
def L1Block.acked (r line comp : Nat) (m : NMap Byte) (b : L1Block) : L1Block :=
  let bs := b.bytes.map fun e => if e.2.going = some r then (e.1, { e.2 with dirty := false, going := none }) else e
  let us := (lineUnits line).filter fun u => b.covers u && m.any fun e => unitOf line e.1 == u
  { b with bytes := bs, tag := if b.tag = .team ∧ (bs.any fun e => e.2.dirty) = false then .none else b.tag,
           settle := us.foldl (fun x u => NMap.put x u (max (NMap.get x u 0) comp)) b.settle }

/-- Whether a request is the oldest of its core to its line, so that its home may perform it (R193). -/
def State.reqFirst (s : State) (r : Nat) (x : Req) : Bool :=
  s.reqs.all fun e => decide (r ≤ e.1) || e.2.core != x.core || e.2.line != x.line || decide (e.2.stage = .landed)

/-! Write-combining (R351, R352). -/

/-- Closes the lines of a core's write-combining buffer that a test selects. -/
def State.closeLines (s : State) (core : Nat) (p : WcLine → Bool) : State :=
  s.modCore core fun c => { c with wcb := c.wcb.map fun l => if p l then { l with closed := true } else l }

/-- Closes the oldest open line of a core. -/
def State.closeOldest (s : State) (core : Nat) : State :=
  match ((s.core core).wcb.filter fun l => !l.closed).map WcLine.stamp with
  | [] => s
  | x :: xs => let m := xs.foldl min x; s.closeLines core fun l => l.stamp == m

/-- Items added to a list that holds each once. -/
def joinNew (xs ys : List Nat) : List Nat := xs ++ ys.filter fun y => !xs.contains y

/-- Enters bytes of one line of a transmit window into the write-combining buffer for fibres and copy commands: they merge into the open line, or close it and open a new one; a full line closes. -/
def State.combine (s : State) (core ctx entry off : Nat) (m : NMap Byte) (fs cmds : List Nat) : State :=
  let mine (l : WcLine) : Bool := l.entry == entry && !l.closed
  let full (x : NMap Byte) : Bool := decide (64 ≤ x.length)
  let s1 : State := { s with nextId := s.nextId + 1 }
  s1.modCore core fun c =>
    if c.wcb.any fun l => mine l && l.off == off then
      { c with wcb := c.wcb.map fun l => if mine l && l.off == off then
          let b := mapOver l.bytes m
          { l with bytes := b, closed := full b, fibres := joinNew l.fibres fs, cmds := joinNew l.cmds cmds } else l }
    else
      { c with wcb := (c.wcb.map fun l => if mine l then { l with closed := true } else l) ++
                 [{ entry := entry, off := off, bytes := m, fibres := fs, cmds := cmds, opened := s.horizon, stamp := s.nextId, closed := full m, ctx := ctx }] }

/-- Lines a core's buffer holds (R22, R352). -/
def wcCapacity : Nat := 64

/-- Whether a core's buffer holds no more lines than it has. -/
def State.wcFits (s : State) (core : Nat) : Bool := decide ((s.core core).wcb.length ≤ wcCapacity)

/-! Release work (R186, R205). -/

/-- Starts the write-back of every TEAM-dirty block of a core for a fibre; answers every write of dirty bytes then under way. -/
def State.flushAll (s : State) (core f : Nat) : List Nat × State :=
  let s1 := (s.core core).l1.foldl (fun t b => (t.writeBack core b [f] (s.fibre f).lat).1) s
  ((s1.reqs.filter fun e => e.2.core == core && e.2.back).map Prod.fst, s1)

/-- The release work of a fibre as it starts. -/
def State.relFor (s : State) (f : Nat) (wide : Bool) : Rel := { waits := s.memOps f, wide := wide, flush := none }

/-- The time a fence wider than team waits for (R186, R198). -/
def State.fenceTime (s : State) (core f : Nat) : Nat := max (max (s.fibre f).ct (s.core core).ev) (s.fibre f).ot

/-- Whether the instructions waited for have completed. -/
def State.relWaited (s : State) (r : Rel) : Bool := r.waits.all fun o => (NMap.find s.ops o).isNone

/-- Whether a write that a fibre has made, or has read in the L1, is still on its way (R196, R200). -/
def State.writesOpen (s : State) (core f : Nat) : Bool :=
  s.reqs.any fun e => e.2.core == core && e.2.isWrite && e.2.fibres.contains f

/-- Advances release work: the state, the work, and whether it is done; CT and OT are reset when it is, and the drain of the fibre's write-combining lines starts (R186, R198). -/
def State.relTick (s : State) (core f : Nat) (r : Rel) : State × Rel × Bool :=
  if !s.relWaited r then (s, r, false)
  else if !r.wide then (s, r, true)
  else
    let started := match r.flush with
      | some q => (q, s)
      | none => s.flushAll core f
    let s1 := started.2
    let r1 := { r with flush := some started.1 }
    if (started.1.any fun q => (NMap.find s1.reqs q).isSome) || s1.writesOpen core f then (s1, r1, false)
    else if s1.horizon < s1.fenceTime core f then (s1, r1, false)
    else ((s1.modFibre f fun x => { x with ct := 0, ot := 0 }).closeLines core fun l => l.fibres.contains f, r1, true)

/-! Acknowledgments and values (R172, R179, R198). -/

/-- Raises CT of the fibres of an acknowledged write; EV of the core for one that carried dirty bytes, or that no fibre made; the completion time of the copy command that made it (R172, R196, R205; log 107). -/
def State.ackTimes (s : State) (x : Req) : State :=
  let s1 := s.modFibres x.fibres.dedup fun y => { y with ct := max y.ct x.comp }
  s1.modCore x.core fun c =>
    let c1 := if x.back && c.ctx == some x.ctx then { c with ev := max c.ev x.comp } else c
    match x.eng with
    | some o => { c1 with copy := { c1.copy with queue := c1.copy.queue.map fun y => if y.op = o then { y with comp := max y.comp x.comp } else y } }
    | none => c1

/-- Gives the operations of an atomic their old values. -/
def State.giveResults (s : State) (items : List AtomicItem) (results : List (Nat × Nat)) (settle : Nat) : State :=
  (items.zip results).foldl (fun t e =>
    match (NMap.find t.ops e.1.op).bind Op.poisoned with
    | some l => t.opPoison e.1.op l
    | none => t.opValue e.1.op (valueWords e.1.wide e.2.2) settle) s

/-- The bytes a read of some width takes from a byte map, as words. -/
def readWords (m : NMap Byte) (off width : Nat) : List Word := Word.split (ceilDiv width 4) (mapNum m off width)

/-! Scratchpad accesses (R164, R179, R183). -/

/-- Wakes BLOCKED fibres that watch a scratchpad word, and lets held groups read again (R189). -/
def State.wakeWatch (s : State) (core off n : Nat) : State :=
  ((s.fibres.filter fun e => coreOf e.1 == core && (match e.2.wait with
      | some (.waitaddr a) => decide (a < off + n ∧ off < a + 8)
      | _ => false)).map Prod.fst).foldl State.wake s

/-- Writes scratchpad bytes and wakes those that watch them. -/
def State.spadStore (s : State) (core off : Nat) (bs : List Byte) : State := (s.spadWrite core off bs).wakeWatch core off bs.length

/-- What an error record names as the physical line of a scratchpad byte. DESIGN CHOICE (log 109): the spec gives it none; a free number. -/
def State.spadLine (s : State) : Nat × State := (2 * (Config.freeValue s.fresh).toNat, { s with fresh := s.fresh + 1 })

/-- An operation has met a scratchpad byte with an uncorrectable error (R179). -/
def State.opSpadBad (s : State) (o : Nat) : State := s.spadLine.2.opPoison o s.spadLine.1

/-- Performs an atomic at a scratchpad, offset counted from the core's scratchpad: the old value. -/
def State.spadAtomic (s : State) (core base : Nat) (x : AtomicItem) : Nat × State :=
  let old := s.spadNum core (base + x.off) x.width
  if s.spadBad core (base + x.off) x.width then (old, s.opSpadBad x.op)
  else (old, if x.idle old then s else s.spadStore core (base + x.off) (Byte.split x.width (x.apply old)))

/-- Performs atomics at a scratchpad in order. -/
def State.spadAtomics (s : State) (core base : Nat) : List AtomicItem → List (Nat × Nat) × State
  | [] => ([], s)
  | x :: xs =>
    let a := s.spadAtomic core base x
    let q := State.spadAtomics a.2 core base xs
    ((x.op, a.1) :: q.1, q.2)

/-! Window exchanges (R160, R177, R344, R407). -/

/-- The key of a line of a core's scratchpad, by virtual core number. -/
def winLine (v off : Nat) : Nat := 2 ^ 60 + v * 8192 + off / 64
/-- The layer of a window line: bits [7:6] of its address (R17, R407). -/
def winLayer (line : Nat) : Nat := line % 4
/-- The byte offset of a window line in its scratchpad. -/
def winOff (line : Nat) : Nat := line % 8192 * 64

/-- The physical core a virtual number maps to in a context's remap table (R344). -/
def State.remap? (s : State) (ctx v : Nat) : Option Nat := NMap.find s.mesh.remap (256 * ctx + v)

/-- The bytes of its line that a request touches. -/
def Req.span (x : Req) : List Nat :=
  match x.kind with
  | .read _ _ _ => []
  | .write m => NMap.keys m
  | .atomic items => items.flatMap fun i => (List.range i.width).map (i.off + ·)
  | .winRead off n => (List.range n).map (off + ·)
  | .winWrite m => NMap.keys m
  | .winAtomic items => items.flatMap fun i => (List.range i.width).map (i.off + ·)

/-- The operations of the instruction a request belongs to. -/
def State.reqMates (s : State) (x : Req) : List Nat := x.ops ++ x.ops.flatMap fun o => match NMap.find s.ops o with | some y => y.peers | none => []

/-- The window reads of lanes of one instruction at one location: they read one value (R177). -/
def State.twins (s : State) (r : Nat) (x : Req) : List (Nat × Req) :=
  s.reqs.filter fun e => e.1 == r || (!x.isWrite && e.2.line == x.line && e.2.kind == x.kind && e.2.ops.any (s.reqMates x).contains)

/-- Whether a window request may be performed: no older access of its fibre, or of a lane of its instruction, to a common byte is still to be performed (R160, R177, R193). -/
def State.winFirst (s : State) (r : Nat) (x : Req) : Bool :=
  let fs := (s.twins r x).flatMap fun e => e.2.fibres
  x.fixed || s.reqs.all fun e => decide (r ≤ e.1) || e.2.core != x.core || e.2.line != x.line || !e.2.unperformed || e.2.fixed ||
    !(e.2.span.any x.span.contains) || !(e.2.fibres.any fs.contains || ((x.isWrite || e.2.isWrite) && e.2.ops.any (s.reqMates x).contains))

/-- The answer of a window exchange is back at its core. -/
def State.landWindow (s : State) (r : Nat) : State :=
  match NMap.find s.reqs r with
  | none => s
  | some x =>
    match x.kind with
    | .winRead off n =>
      if x.eng.isSome then s.modReq r fun y => { y with stage := .landed }
      else (x.ops.foldl (fun t o => if x.bad.isEmpty then t.opValue o (readWords x.data off n) 0 else t.opSpadBad o) s).dropReq r
    | .winWrite _ => (x.ops.foldl State.opDone (s.ackTimes x)).dropReq r
    | .winAtomic items => ((s.ackTimes x).giveResults items x.results 0).dropReq r
    | _ => s

/-- Sends the answer of a window exchange: within the core at once, otherwise as a flit of the request's class and layer. -/
def State.sendAnswer (s : State) (r phys : Nat) (x : Req) : State :=
  if phys = x.core then (s.modReq r fun y => { y with stage := .done }).landWindow r
  else (s.modReq r fun y => { y with stage := .reply }).meshSend
    { src := phys, dst := x.core, lat := x.lat && !x.low, flits := 1, got := 0, layer := winLayer x.line, ctx := x.ctx, part := x.part, body := .answer r }

/-- Performs a window request at a scratchpad and answers it (R160, R172, R407). -/
def State.performWindow (s : State) (r phys : Nat) (x : Req) : State :=
  let base := winOff x.line
  match x.kind with
  | .winRead off n =>
    if x.fixed then s.sendAnswer r phys x
    else
      let m : NMap Byte := indexed (s.spadRead phys base 64)
      let bad := (List.range n).filterMap fun i => if s.spadBad phys (base + off + i) 1 then some (off + i) else none
      ((s.twins r x).foldl (fun t e => t.modReq e.1 fun y => { y with data := m, bad := bad, fixed := true }) s).sendAnswer r phys x
  | .winWrite m => (((m.foldl (fun t e => t.spadStore phys (base + e.1) [e.2]) s)).modReq r fun y => { y with comp := s.horizon }).sendAnswer r phys x
  | .winAtomic items =>
    let q := s.spadAtomics phys base items
    (q.2.modReq r fun y => { y with results := q.1, comp := s.horizon }).sendAnswer r phys x
  | _ => s

/-- Sends a window request: an access to the core's own scratchpad is performed at once where its order allows, any other leaves as a flit; one whose number maps to nothing is kept as refused (R160, R344, R407). -/
def State.sendWindow (s : State) (r : Nat) : State :=
  match NMap.find s.reqs r with
  | none => s
  | some x =>
    match s.remap? x.ctx x.home with
    | none => s.modReq r fun y => { y with stage := .out, refused := true }
    | some phys =>
      if phys = x.core then
        let s1 := s.modReq r fun y => { y with stage := .home, refused := false }
        if s.winFirst r x then s1.performWindow r phys x else s1
      else
        let lat := x.lat && s.latFits x.core
        (s.modReq r fun y => { y with stage := .out, refused := false, low := x.lat && !lat }).meshSend
          { src := x.core, dst := phys, lat := lat, flits := 1, got := 0, layer := winLayer x.line, ctx := x.ctx, part := x.part, body := .request r }

/-- A new window request of one lane, or of the core's copy engine. -/
def State.addWindow (s : State) (core v line : Nat) (kind : ReqKind) (ops fibres : List Nat) (eng : Option Nat) (lat : Bool) : State :=
  let ctx := s.ctxOfCore core
  let x := { Req.new core line v kind ops fibres false lat with ctx := ctx, part := s.partOf ctx, eng := eng }
  State.sendWindow { s with nextId := s.nextId + 1, reqs := NMap.put s.reqs s.nextId x } s.nextId

/-- Whether an access of a fibre to its own core's scratchpad through the window is still to be performed: later accesses of the fibre there wait for it (R194). -/
def State.ownWindowOpen (s : State) (f v : Nat) : Bool :=
  s.reqs.any fun e => decide (2 ^ 60 ≤ e.2.line) && e.2.home == v && e.2.core == coreOf f && e.2.unperformed && !e.2.fixed && e.2.fibres.contains f

/-! Performing the accesses of one instruction (R171, R174, R177). -/

/-- Performs an atomic on the block of the L1 that holds its bytes. -/
def State.blockAtomic (s : State) (core line homing : Nat) (x : AtomicItem) : State :=
  let c := s.core core
  if c.badIn line x.off x.width then s.opPoison x.op line
  else
    let old := mapNum (c.l1Map line x.off x.width) x.off x.width
    let s1 := (if x.idle old then s
      else s.teamWrite core line homing (mapWrite [] x.off (Byte.split x.width (x.apply old)))).joinWrites core line x.off x.width [match NMap.find s.ops x.op with | some y => y.fibre | none => 0]
    s1.opValue x.op (valueWords x.wide old) (c.settleOf line x.off x.width)

/-- What one instruction sends to the home of one line: operations and fibres in lane order, and bytes, atomics, or the unit to fill. -/
structure Gather where
  line : Nat
  homing : Nat
  ops : List Nat
  fibres : List Nat
  bytes : NMap Byte
  items : List AtomicItem
  fill : Option Nat
deriving DecidableEq, Repr

/-- Adds one lane's part to what is gathered for its line, or for the unit it fills. -/
def gather (x : Gather) : List Gather → List Gather
  | [] => [x]
  | g :: r =>
    if g.line = x.line ∧ g.fill = x.fill then
      { g with ops := g.ops ++ x.ops, fibres := g.fibres ++ x.fibres, bytes := mapOver g.bytes x.bytes, items := g.items ++ x.items } :: r
    else g :: gather x r

/-- Asks for the fill of the block of a unit, one read for each of its lines; the size of a new block is the predictor's choice, a free number, where none is wanted (R169, R170). A unit in a block the instruction has asked for already joins it. -/
def State.sendFill (core : Nat) (lat : Bool) (want eng : Option Nat) (p : State × List Nat) (g : Gather) : State × List Nat :=
  let (s, made) := p
  match g.fill with
  | none => p
  | some u =>
    match made.find? fun r => match NMap.find s.reqs r with
        | some x => x.line == lineOfUnit u && (match x.kind with | .read first size _ => (unitsFrom first size).contains u | _ => false)
        | none => false with
    | some r => (s.modReq r fun x => { x with ops := x.ops ++ g.ops }, made)
    | none =>
      let k := want.getD ((Config.freeValue s.fresh).toNat % 4)
      let run := (s.core core).fillRun u k
      (unitLines run.1 run.2).foldl (fun q l =>
        let lead := l == lineOfUnit u
        let dirty := (q.1.core core).dirtyIn l
        let a := q.1.addReq { Req.new core l g.homing (.read run.1 run.2 lead) (if lead then g.ops else []) [] false lat with
          newer := dirty, mine := dirty, eng := if lead then eng else none }
        (a.2, q.2 ++ [a.1])) ({ s with fresh := s.fresh + 1 }, made)

/-- Sends what was gathered for one line: a store takes the dirty bytes of its blocks with it, an atomic writes them back first and drops the copies (R171, R173). -/
def State.sendLine (core : Nat) (lat : Bool) (eng : Option Nat) (s : State) (g : Gather) : State :=
  if g.items.isEmpty then
    let r := s.nextId
    let w := State.wideWrite { s with nextId := r + 1 } core g.line g.fibres lat g.bytes r
    w.1.addAs r { Req.new core g.line g.homing (.write w.2.1) g.ops g.fibres w.2.2 lat with eng := eng }
  else
    ((s.dropCopies core g.line (g.items.flatMap fun i => (List.range i.width).map (i.off + ·)) g.fibres lat).addReq
      (Req.new core g.line g.homing (.atomic g.items) g.ops g.fibres false lat)).2

/-- Sends what an instruction has gathered. -/
def State.sendAll (s : State) (core : Nat) (lat : Bool) (gs : List Gather) : State :=
  let s1 := (gs.filter fun g => g.fill.isNone).foldl (State.sendLine core lat none) s
  ((gs.filter fun g => g.fill.isSome).foldl (State.sendFill core lat none none) (s1, [])).1

/-- Whether a team-scope atomic can be performed in the L1 now (R170, R171, R192). -/
def State.atomicHits (s : State) (core line : Nat) (x : AtomicItem) : Bool :=
  (s.core core).hits s.horizon line x.off x.width && s.l1Clear core line x.off x.width

/-- Performs one deferred access as far as the core does it, gathering what goes to a home. -/
def State.performOne (core : Nat) (lat : Bool) (p : State × List Gather) (e : Nat × Nat × Todo) : State × List Gather :=
  let (s, gs) := p
  let (o, f, t) := e
  match t with
  | .store line homing _ wide bytes =>
    if wide then (s, gather ⟨line, homing, [o], [f], bytes, [], none⟩ gs)
    else ((s.teamWrite core line homing bytes).opDone o, gs)
  | .atomic line homing wide item =>
    if wide then (s, gather ⟨line, homing, [o], [f], [], [item], none⟩ gs)
    else if s.atomicHits core line item then (s.blockAtomic core line homing item, gs)
    else (s, gather ⟨line, homing, [o], [f], [], [], some (unitOf line item.off)⟩ gs)
  | .spadStore c off bytes => ((s.spadStore c off bytes).opDone o, gs)
  | .spadAtomic c item =>
    let q := s.spadAtomic c 0 item
    (q.2.giveResults [item] [(o, q.1)] 0, gs)
  | .winStore v line bytes => (s.addWindow core v line (.winWrite bytes) [o] [f] none lat, gs)
  | .winAtomic v line item => (s.addWindow core v line (.winAtomic [item]) [o] [f] none lat, gs)
  | .window entry off bytes => ((s.combine core (s.ctxOfCore core) entry off bytes [f] []).opDone o, gs)

/-- Returns the STORE entries of operations whose operands have left the core (R175). -/
def State.dropStoreHolds (s : State) (core : Nat) (o : Nat) : State :=
  match NMap.find s.ops o with
  | none => s
  | some x =>
    (x.holds.filter fun h => classOf h.1 == 1).foldl (fun t h => t.poolReturn core h.1 h.2)
      (s.modOp o fun y => { y with holds := y.holds.filter fun h => classOf h.1 != 1 })

/-- The blocks of the L1 in which an instruction's stores and atomics are performed (R234). -/
def State.hitBlocks (s : State) (core : Nat) (es : List (Nat × Nat × Todo)) : List Nat :=
  let at_ (line off : Nat) : Option Nat := ((s.core core).block? (unitOf line off)).map L1Block.first
  (es.filterMap fun e => match e.2.2 with
    | .store line _ off false _ => at_ line off
    | .atomic line _ false item => if s.atomicHits core line item then at_ line item.off else none
    | _ => none).dedup

/-- Performs the accesses of one instruction's lanes, in lane order; hits are counted once for each block (R167, R171, R177, R183, R234). -/
def State.perform (s : State) (core : Nat) (lat : Bool) (es : List (Nat × Nat × Todo)) : State :=
  let hits := (s.hitBlocks core es).length
  let s0 := es.foldl (fun t e => t.modOp e.1 fun x => { x with rel := none }) (if hits = 0 then s else s.count core 0x05 hits)
  let p := es.foldl (State.performOne core lat) (s0, [])
  es.foldl (fun t e => t.dropStoreHolds core e.1) (p.1.sendAll core lat p.2)

end Sys2Proof.Machine
end

