-- ==== Sys2Proof/WellFormed.lean ====
section
/-! DEFINITION. Which instruction terms are well formed: the static operand rules of R40 to R48 and of each instruction's entry. -/

namespace Sys2Proof

/-- A register n to n + words − 1 named by one field: aligned to its width and inside v0 to v119 (R40, R41). -/
def regFits (words n : Nat) : Bool := decide (n + words ≤ 120) && n % words == 0

/-- A source operand of `words` words; `u` says whether the instruction admits a team-uniform register (R28, R40 to R42). -/
def Src.fits (words : Nat) (u : Bool) : Src → Bool
  | .v n => regFits words n
  | .q n => decide (n < 4)
  | .vz => true
  | .lit ws => ws.length == words
  | .s n => u && decide (n + words ≤ 64) && n % words == 0

/-- A source operand in a or b of the M format: no queue register and no team-uniform register (R41, R45). -/
def Src.fitsMem (words : Nat) : Src → Bool
  | .v n => regFits words n
  | .q _ => false
  | .vz => true
  | .lit ws => ws.length == words
  | .s _ => false

/-- A destination operand of `words` words (R40, R41). -/
def Dst.fits (words : Nat) : Dst → Bool
  | .v n => regFits words n
  | .q n => decide (n < 4)
  | .vz => true
  | .none => false

/-- The d field of an X-format instruction: v0 to v119, or 127 where `opt` says so (R41, R51). -/
def Dst.fitsX (words : Nat) (opt : Bool) : Dst → Bool
  | .v n => regFits words n
  | .none => opt
  | _ => false

/-- The words of an operand that is a pair where `wide` is set. -/
def wideWords (wide : Bool) : Nat := if wide then 2 else 1

/-- Operand width in words of the M format (R46, R61). -/
def Size.words : Size → Nat
  | .b8 => 1 | .b16 => 1 | .b32 => 1 | .b64 => 2 | .b128 => 4

/-- Access width in bytes (R46). -/
def Size.bytes : Size → Nat
  | .b8 => 1 | .b16 => 2 | .b32 => 4 | .b64 => 8 | .b128 => 16

/-- Words of an operand of each float format (R147). -/
def FloatForm.words : FloatForm → Nat
  | .f64 => 2 | _ => 1

/-- Source words of each `fcvt` conversion (R75). -/
def FloatConv.srcWords : FloatConv → Nat
  | .f64f32 | .f64s64 | .f64u64 | .s64f64 | .u64f64 | .f32bf16x2 | .f32f16x2 => 2
  | _ => 1

/-- Result words of each `fcvt` conversion (R75). -/
def FloatConv.dstWords : FloatConv → Nat
  | .f32f64 | .f64s64 | .f64u64 | .s64f64 | .u64f64 => 2
  | _ => 1

/-- Words of an operand of `mov` (R142). -/
def MovWidth.words : MovWidth → Nat
  | .b32 => 1 | .b64 => 2 | .b128 => 4

/-- Words of a and d of the integer forms with 64-bit variants (R133, R134). -/
def IForm.words : IForm → Nat
  | .s32 | .u32 => 1
  | .s64 | .u64 => 2

/-- Words of the sources and of the destination of `iadd` and `isub` (R130). -/
def AddForm.words : AddForm → Nat
  | .b64 => 2 | _ => 1

/-- Words of the sources of `imul` (R132). -/
def MulForm.srcWords : MulForm → Nat
  | .b64 => 2 | _ => 1

/-- Words of the destination of `imul` (R132). -/
def MulForm.dstWords : MulForm → Nat
  | .lo => 1 | _ => 2

/-- Words of the destination of `imad` (R132). -/
def MadForm.dstWords : MadForm → Nat
  | .lo => 1 | _ => 2

/-- Words of the destination of `unpk` (R145). -/
def UnpackForm.words : UnpackForm → Nat
  | .s16 | .u16 => 2
  | .s8 | .u8 => 4

/-- Words of the data operand of `atom` and `atoms` (R183). -/
def atomWords (wide : Bool) (o : OrdWord) : Nat :=
  wideWords wide * (if o.atop = .cas then 2 else 1)

/-- The ordering word of an instruction that is no atomic: FADD, SGN and ATOP zero, an order it admits (R48). -/
def OrdWord.plain (ords : List Order) (o : OrdWord) : Bool :=
  !o.fadd && !o.sgn && decide (o.atop = .add) && decide (o.ord ∈ ords)

/-- The ordering word of an atomic: FADD with add only, SGN with min or max only (R47, R48). -/
def OrdWord.atomic (o : OrdWord) : Bool :=
  (!o.fadd || decide (o.atop = .add)) && (!o.sgn || decide (o.atop = .min ∨ o.atop = .max))

/-- An optional ordering word that is plain where present. -/
def plainOrd (ords : List Order) : Option OrdWord → Bool
  | none => true
  | some o => o.plain ords

/-- The ordering word of `waitaddr`: relaxed at team scope, an offset only (R189). -/
def waitOrd : Option OrdWord → Bool
  | none => true
  | some o => o.plain [.relaxed] && decide (o.scope = .team)

/-- The scope's code, narrowest first (R6). -/
def Scope.code : Scope → Nat
  | .team => 0 | .cluster => 1 | .die => 2 | .device => 3 | .system => 4

/-- Barrier ids of a level (R331). -/
def BarLevel.ids : BarLevel → Nat
  | .team => 16 | .die => 8 | .pkg => 4

/-- Words of a special register (R228). -/
def csrWords (n : Nat) : Nat :=
  if n = 0x010 ∨ n = 0x400 ∨ n = 0x402 ∨ n = 0x404 ∨ n = 0x408 ∨ n = 0x409 then 2 else 1

/-- Special registers that software may write (R228, R237, R255, R340, R353). -/
def csrWritable (n : Nat) : Bool :=
  decide (n = 0 ∨ (0x400 ≤ n ∧ n ≤ 0x406) ∨ (0x408 ≤ n ∧ n ≤ 0x40A) ∨ (0x410 ≤ n ∧ n ≤ 0x418) ∨
    (0x420 ≤ n ∧ n ≤ 0x426) ∨ n = 0x428 ∨ n = 0x430 ∨ n = 0x431)

/-- Special register numbers that some chapter assigns (R228, R162, R240, R255, R363, R367). -/
def csrAssigned (n : Nat) : Bool :=
  csrWritable n ||
  decide ((1 ≤ n ∧ n ≤ 8) ∨ n = 0x010 ∨ n = 0x020 ∨ n = 0x021 ∨ n = 0x427 ∨ (0x440 ≤ n ∧ n ≤ 0x446))

/-- The static rules of an instruction; an event has none. -/
def Instr.wf : Instr → Bool
  | .iadd f a b d | .isub f a b d => a.fits f.words false && b.fits f.words true && d.fits f.words
  | .iaddc k a b d | .isubb k a b d =>
    decide (1 ≤ k.val ∧ k.val ≤ 7) && a.fits 1 false && b.fits 1 true && d.fits 1
  | .imul f a b d => a.fits f.srcWords false && b.fits f.srcWords true && d.fits f.dstWords
  | .imulh _ a b d => a.fits 1 false && b.fits 1 true && d.fits 1
  | .imad f a b d => a.fits 1 false && b.fits 1 true && d.fits f.dstWords
  | .idiv f a b d | .irem f a b d | .imin f a b d | .imax f a b d =>
    a.fits f.words false && b.fits f.words true && d.fits f.words
  | .iabs _ a d | .ineg _ a d => a.fits 1 false && d.fits 1
  | .isel p a b d => decide (p.val < 8) && a.fits 1 false && b.fits 1 true && d.fits 1
  | .lop _ a b d | .bfx _ a b d | .bfi a b d | .pack _ a b d =>
    a.fits 1 false && b.fits 1 true && d.fits 1
  | .shl w a b d | .shr w a b d | .sar w a b d | .rot w a b d =>
    a.fits (wideWords w) false && b.fits 1 true && d.fits (wideWords w)
  | .popc w a d | .clz w a d | .ctz w a d => a.fits (wideWords w) false && d.fits 1
  | .brev w a d => a.fits (wideWords w) false && d.fits (wideWords w)
  | .icmp _ _ w a b _ => a.fits (wideWords w) false && b.fits (wideWords w) true
  | .lea _ a b d => a.fits 2 false && b.fits 1 true && d.fits 2
  | .mov w b d => b.fits w.words true && d.fits w.words
  | .movi _ d | .movh _ d => d.fits 1
  | .movs w b sd => b.fits (wideWords w) true && decide (sd + wideWords w ≤ 64) && sd % wideWords w == 0
  | .cvti _ a d => a.fits 1 false && d.fits 1
  | .unpk f a d => a.fits 1 false && d.fits f.words
  | .pmov d => d.fits 1
  | .pmovW a => a.fits 1 false
  | .fmov f _ a b d | .fadd f _ a b d | .fsub f _ a b d | .fmul f _ a b d | .ffma f _ a b d
  | .fmin f _ a b d | .fmax f _ a b d | .fdiv f _ a b d =>
    a.fits f.words false && b.fits f.words true && d.fits f.words
  | .fcmp f _ _ a b _ => a.fits f.words false && b.fits f.words true
  | .fcvt c _ a d => a.fits c.srcWords false && d.fits c.dstWords
  | .frnd f _ a d | .frcp f a d | .frsq f a d | .fsqrt f a d => a.fits f.words false && d.fits f.words
  | .fclass f a d => a.fits f.words false && d.fits 1
  | .fscale f a b d => a.fits f.words false && b.fits 1 true && d.fits f.words
  | .fexp2 _ a d | .flog2 _ a d | .fsin _ a d | .fcos _ a d | .ftanh _ a d | .lcvt _ _ a d =>
    a.fits 1 false && d.fits 1
  | .brx a => a.fits 2 false
  | .call w _ | .ret w => decide (w.val ≠ 0)
  | .callx w a => decide (w.val ≠ 0) && a.fits 2 false
  | .loop c _ => c.fits 1 false
  | .loopi _ a b d _ =>
    a.fits 1 false && b.fits 1 true && (match d with | .v n => regFits 1 n | _ => false)
  | .fork _ a _ => a.fits 2 false
  | .wbase a => a.fits 1 false
  | .ballot _ d => d.fits 1
  | .matchAny w a d => a.fits (wideWords w) false && d.fits 1
  | .shfl _ a b d => a.fits 1 false && b.fits 1 true && d.fits 1
  | .redux _ w a d => a.fits (wideWords w) false && d.fits (wideWords w)
  | .qswap _ a d | .qbcast _ a d | .qred _ a d => a.fits 1 false && d.fits 1
  | .ld z o a b d | .ldc z o a b d =>
    plainOrd [.relaxed, .acquire] o && a.fitsMem 2 && b.fitsMem 1 && d.fits z.words
  | .st z o a b d =>
    plainOrd [.relaxed, .release] o && a.fitsMem 2 && b.fitsMem 1 && d.fits z.words false
  | .lds z o a b d => plainOrd [.relaxed, .acquire] o && a.fitsMem 1 && b.fitsMem 1 && d.fits z.words
  | .sts z o a b d => plainOrd [.relaxed, .release] o && a.fitsMem 1 && b.fitsMem 1 && d.fits z.words false
  | .atom w o a b d => o.atomic && a.fitsMem 2 && b.fitsMem 1 && d.fits (atomWords w o)
  | .atoms w o a b d =>
    o.atomic && decide (o.scope.code ≤ 2) && a.fitsMem 1 && b.fitsMem 1 && d.fits (atomWords w o)
  | .red w o a b d =>
    o.atomic && decide (o.atop ≠ .exch ∧ o.atop ≠ .cas) && decide (o.ord = .relaxed ∨ o.ord = .release) &&
      a.fitsMem 2 && b.fitsMem 1 && d.fits (wideWords w) false
  | .cflush o a b | .pref o a b | .prefBlk o a b =>
    plainOrd [.relaxed] o && a.fitsMem 2 && b.fitsMem 1
  | .cflushAll o => plainOrd [.relaxed] o
  | .waitaddr w o a b d =>
    waitOrd o && a.fitsMem 1 && b.fitsMem 1 &&
      (match d with | .v n => regFits (wideWords w) n | .vz => true | _ => false)
  | .csrrd n d => csrAssigned n.toNat && d.fits (csrWords n.toNat)
  | .csrwr n a => csrWritable n.toNat && a.fits (csrWords n.toNat) false
  | .tlbiVa a => a.fits 2 false
  | .clk f d => d.fits (match f with | .low => 1 | _ => 2)
  | .perf _ d | .perfClr _ d => d.fits 2
  | .bar l i | .barArr l i => decide (i < l.ids)
  | .cpTile a | .cpStore a | .cpLin a | .cpGather a | .cpScatter a | .cpFill a | .cpSig a
  | .mxCfg a | .mxLut a | .mxFold a | .mxDrain a | .mxClr a | .acLd a | .acSt a
  | .pBind a | .pUnbind a | .mxFoldSump a | .tDec a => a.fits 1 false
  | .cpStat a d | .cpStatResume a d | .mxStatResume a d | .mxPass a d | .mxPair a d | .mxStat a d | .pOcc a d | .fxStat a d =>
    a.fits 1 false && d.fitsX 1 true
  | .mxBq b a => a.fits 1 false && (match b with | .v n => regFits 4 n | _ => false)
  | .mxDep a b | .pPub a b | .pRel a b => a.fits 1 false && b.fits 1 false
  | .pRsv a d | .pAcq a d => a.fits 1 false && d.fitsX 1 false
  | .rsInit a => a.fits 4 false
  | .rsNext a d => a.fits 1 false && d.fitsX 2 true
  | .tSpawn a b d => a.fits 4 false && b.fits 1 false && d.fitsX 1 true
  | .tPop d => d.fitsX 4 true
  | .launch a d => a.fits 2 false && d.fitsX 1 true
  | .tCntWr a b => a.fits 1 false && b.fits 1 false
  | .tCntRd b d => b.fits 1 false && d.fitsX 1 false
  | .fxAdd a | .fxSig a => a.fits 4 false
  | .fxFence d => d.fitsX 1 false
  | _ => true

end Sys2Proof
end

