-- ==== Sys2Proof/Decode.lean ====
section
/-! DEFINITION. Decoding of instruction words and their extension words, total on any words and rejecting by name (R26 to R52, R75, R77 and the entries), and the encoder. -/

namespace Sys2Proof

open Machine (bits bit b2n)

/-! Code tables: the position of a name in its list is its code. -/

def addForms : List AddForm := [.wrap, .satS, .satU, .b64]
def mulForms : List MulForm := [.lo, .wideS, .wideU, .b64]
def highForms : List HighForm := [.s, .u, .su]
def madForms : List MadForm := [.lo, .wideS, .wideU]
def iForms : List IForm := [.s32, .u32, .s64, .u64]
def logicOps : List LogicOp := [.and, .or, .xor, .andn, .orn, .xnor, .nand, .nor]
def iConds : List ICond := [.eq, .ne, .lt, .le, .gt, .ge]
def movWidths : List MovWidth := [.b32, .b64, .b128]
def narrowForms : List NarrowForm := [.s8, .u8, .s16, .u16, .satS8, .satU8, .satS16, .satU16]
def packForms : List PackForm := [.b16, .satS16, .satU16]
def unpackForms : List UnpackForm := [.s16, .u16, .s8, .u8]
def floatForms : List FloatForm := [.f32, .f64, .f16x2, .bf16x2]
def shortFloats : List (Option ShortFloat) := [some .f32, none, some .f16x2, some .bf16x2]
def fConds : List FCond := [.eq, .ne, .lt, .le, .gt, .ge, .un, .ord]
def roundCodes : List (Option RoundCode) :=
  [some .rne, some .rtz, some .rdn, some .rup, some .rna, none, none, some .dyn]
def floatConvs : List FloatConv :=
  [.f32f64, .f64f32, .f32f16, .f16f32, .f32bf16, .bf16f32, .f32s32, .f32u32,
   .s32f32, .u32f32, .f64s64, .f64u64, .s64f64, .u64f64, .f32bf16x2, .f32f16x2]
def lnsConvs : List LnsConv := [.f32lns, .lnsf32, .bf16lns, .lnsbf16, .f16lns, .lnsf16]
def voteModes : List VoteMode := [.every, .some, .same, .odd]
def shflModes : List ShflMode := [.pick, .lower, .upper, .mirror, .ring]
def reduxOps : List ReduxOp := [.add, .minS, .maxS, .minU, .maxU, .and, .or, .xor]
def quadDirs : List QuadDir := [.h, .v, .d]
def quadOps : List QuadOp := [.add, .minS, .maxS, .fadd, .fmin, .fmax]
def sizes : List Size := [.b8, .b16, .b32, .b64, .b128]
def atomOps : List AtomOp := [.add, .min, .max, .and, .or, .xor, .exch, .cas]
def orders : List Order := [.relaxed, .acquire, .release, .acqRel]
def scopes : List Scope := [.team, .cluster, .die, .device, .system]
def clkForms : List ClkForm := [.horizon, .cycles, .low]
def barLevels : List BarLevel := [.team, .die, .pkg]

/-- Why a word is no well-formed instruction: a reserved code (R38 order 1), an operand rule broken (order 3), or extension words missing. -/
inductive Reject where
  | reserved
  | illegalOperand
  | short
deriving DecidableEq, Repr

/-! Fields of a word (R44). -/

def opOf (w : Nat) : Nat := w % 128
def fieldD (w : Nat) : Nat := bits w 13 7
def fieldA (w : Nat) : Nat := bits w 20 14
def fieldB (w : Nat) : Nat := bits w 27 21
def fieldM (w : Nat) : Nat := bits w 31 28
def fieldC (w : Nat) : Nat := bits w 31 29
def fieldU (w : Nat) : Bool := bit w 28
def fnOf (w : Nat) : Nat := bits w 10 4
def xFieldD (w : Nat) : Nat := bits w 17 11
def xFieldA (w : Nat) : Nat := bits w 24 18
def xFieldB (w : Nat) : Nat := bits w 31 25

/-- X-format words have a major opcode of the form 0xNF (R45). -/
def isX (w : Nat) : Bool := w % 16 == 15

/-- M-format words: those whose opcode carries E and size (R49). -/
def isM (w : Nat) : Bool :=
  decide (0x60 ≤ opOf w ∧ opOf w ≤ 0x6B ∧ opOf w ≠ 0x68)

/-- Reserved major opcodes and X function codes (R49, R50). -/
def reservedCode (w : Nat) : Bool :=
  if isX w then
    decide ((0x08 ≤ fnOf w ∧ fnOf w ≤ 0x0F) ∨ (0x1C ≤ fnOf w ∧ fnOf w ≤ 0x2F) ∨
      (0x36 ≤ fnOf w ∧ fnOf w ≤ 0x3F) ∨ (0x47 ≤ fnOf w ∧ fnOf w ≤ 0x4F) ∨ 0x54 ≤ fnOf w)
  else
    decide (opOf w = 0x3E ∨ (0x58 ≤ opOf w ∧ opOf w ≤ 0x5E) ∨ (0x6C ≤ opOf w ∧ opOf w ≤ 0x6E) ∨
      (0x7A ≤ opOf w ∧ opOf w ≤ 0x7E))

/-- Control transfers (R29). -/
def isTransfer (w : Nat) : Bool :=
  !isX w && decide ((0x40 ≤ opOf w ∧ opOf w ≤ 0x48) ∨ opOf w = 0x4A ∨ opOf w = 0x71)

/-- Variable-latency instructions (R33). -/
def isVarLat (w : Nat) : Bool :=
  isX w || decide ((0x60 ≤ opOf w ∧ opOf w ≤ 0x67) ∨ opOf w = 0x69 ∨ opOf w = 0x6A)

/-- A variable-latency instruction that writes a register v0 to v119 (R35). DESIGN CHOICE (log 101): an X word whose d is 120 to 126, or a load whose d is 125 to 127, writes none, so its clause is legal and the word raises ILLEGAL_OPERAND at issue. -/
def writesReg (w : Nat) : Bool :=
  if isX w then decide (xFieldD w < 120)
  else decide (opOf w ∈ [0x60, 0x62, 0x64, 0x65, 0x66]) && decide (fieldD w < 120)

/-- Words of an operand of float format code c. -/
def floatCodeWords (c : Nat) : Nat := if c = 1 then 2 else 1

/-- Words of an M-format operand of size code c (R46). -/
def sizeCodeWords (c : Nat) : Nat := if c = 3 then 2 else if c = 4 then 4 else 1

/-- The register number of `csrrd` and `csrwr` (R231). -/
def csrNumber (w : Nat) : Nat := fieldM w * 128 + fieldB w

/-- Literal words of the register fields d, a and b of an X-format word; 0 where the field is no register field. -/
def xLitWords (w : Nat) : Nat × Nat × Nat :=
  match fnOf w with
  | 0x07 | 0x11 | 0x12 | 0x1A | 0x30 | 0x32 | 0x34 | 0x53 => (1, 1, 0)
  | 0x13 | 0x1B | 0x31 | 0x33 => (1, 1, 1)
  | 0x40 | 0x50 | 0x51 => (1, 4, 0)
  | 0x41 => (2, 1, 0)
  | 0x42 => (1, 4, 1)
  | 0x44 => (4, 0, 0)
  | 0x45 => (1, 2, 0)
  | 0x46 => if xFieldD w = 127 then (1, 1, 1) else (1, 0, 1)
  | 0x52 => (1, 0, 0)
  | _ => (1, 1, 0)

/-- Literal words of the register fields d, a and b of a word (R28); 0 where the field is no register field. DESIGN CHOICE (log 101): a b field of 125 takes its words whatever U says, an X b field that its function does not use takes none, and a field under a size code 5 to 7 takes one. -/
def litWords (w : Nat) : Nat × Nat × Nat :=
  let c := fieldC w
  let f := floatCodeWords (c / 2)
  if isX w then xLitWords w else
  match opOf w with
  | 0x01 | 0x02 => if c = 3 then (2, 2, 2) else (1, 1, 1)
  | 0x05 => (if c = 0 then 1 else 2, if c = 3 then 2 else 1, if c = 3 then 2 else 1)
  | 0x07 => (if c = 1 ∨ c = 2 then 2 else 1, 1, 1)
  | 0x08 | 0x09 | 0x0A | 0x0B => if c = 2 ∨ c = 3 then (2, 2, 2) else (1, 1, 1)
  | 0x03 | 0x04 | 0x06 | 0x0E | 0x14 | 0x15 | 0x1B | 0x23 | 0x52 => (1, 1, 1)
  | 0x0C | 0x0D | 0x22 | 0x38 | 0x39 | 0x3A | 0x3B | 0x3C | 0x3D | 0x54 | 0x55 | 0x56 => (1, 1, 0)
  | 0x10 | 0x11 | 0x12 | 0x13 => if c = 1 then (2, 2, 1) else (1, 1, 1)
  | 0x16 | 0x17 | 0x18 | 0x51 => (1, if c = 1 then 2 else 1, 0)
  | 0x19 => if c = 1 then (2, 2, 0) else (1, 1, 0)
  | 0x1A => if bit w 12 then (0, 2, 2) else (0, 1, 1)
  | 0x1C => (2, 2, 1)
  | 0x1D => if c = 1 then (2, 0, 2) else if c = 2 then (4, 0, 4) else (1, 0, 1)
  | 0x1E | 0x20 | 0x46 | 0x50 => (1, 0, 0)
  | 0x21 => (0, 0, if c = 1 then 2 else 1)
  | 0x24 => (if c = 0 ∨ c = 1 then 2 else if c = 2 ∨ c = 3 then 4 else 1, 1, 0)
  | 0x26 => if c = 0 then (1, 0, 0) else if c = 1 then (0, 1, 0) else (0, 0, 0)
  | 0x27 | 0x28 | 0x29 | 0x2A | 0x2B | 0x2C | 0x2D | 0x37 => (f, f, f)
  | 0x2E => (0, f, f)
  | 0x30 =>
    match floatConvs[bits w 27 24]? with
    | some k => (k.dstWords, k.srcWords, 0)
    | none => (1, 1, 0)
  | 0x31 | 0x34 | 0x35 | 0x36 => (f, f, 0)
  | 0x32 => (1, f, 0)
  | 0x33 => (f, f, 1)
  | 0x42 | 0x44 | 0x49 => (0, 2, 0)
  | 0x47 => (1, 1, 1)
  | 0x4B => (0, 1, 0)
  | 0x53 => if fieldU w then (2, 2, 0) else (1, 1, 0)
  | 0x60 | 0x61 | 0x64 | 0x65 | 0x67 => (sizeCodeWords (bits w 30 28), 2, 1)
  | 0x62 | 0x63 | 0x66 | 0x6B => (sizeCodeWords (bits w 30 28), 1, 1)
  | 0x69 | 0x6A => (0, 2, 1)
  | 0x72 => (csrWords (csrNumber w), 0, 0)
  | 0x73 => (0, csrWords (csrNumber w), 0)
  | 0x75 => if c = 0 then (0, 2, 0) else (0, 0, 0)
  | 0x76 => (if c < 2 then 2 else 1, 0, 0)
  | 0x77 => (2, 0, 0)
  | _ => (0, 0, 0)

/-- The three register fields d, a and b of a word in its format. -/
def regFields (w : Nat) : Nat × Nat × Nat :=
  if isX w then (xFieldD w, xFieldA w, xFieldB w) else (fieldD w, fieldA w, fieldB w)

/-- Extension words before the literals: the ordering word or the second word of `loopi` (R28). -/
def leadWords (w : Nat) : Nat :=
  if isX w then 0 else if isM w then b2n (bit w 31) else b2n (opOf w == 0x47)

/-- Literal words of one field. -/
def litCount (field words : Nat) : Nat := if field = 125 then words else 0

/-- The number of extension words of an instruction word (R28). -/
def extCount (w : Nat) : Nat :=
  leadWords w + litCount (regFields w).1 (litWords w).1 + litCount (regFields w).2.1 (litWords w).2.1
    + litCount (regFields w).2.2 (litWords w).2.2

/-- An instruction word with its extension words taken apart (R28). -/
structure Parts where
  w : Nat
  lead : List Word
  litD : List Word
  litA : List Word
  litB : List Word
deriving DecidableEq, Repr

/-- Takes the extension words of `w` apart: the leading word, then the literals of d, a and b. -/
def partsOf (w : Nat) (ext : List Word) : Parts :=
  let n := leadWords w
  let nd := litCount (regFields w).1 (litWords w).1
  let na := litCount (regFields w).2.1 (litWords w).2.1
  let nb := litCount (regFields w).2.2 (litWords w).2.2
  { w := w, lead := ext.take n, litD := (ext.drop n).take nd,
    litA := (ext.drop (n + nd)).take na, litB := (ext.drop (n + nd + na)).take nb }

/-- A source field (R40). -/
def srcField (f : Nat) (lit : List Word) : Option Src :=
  if f < 120 then some (.v f) else if f < 124 then some (.q (f - 120)) else
  if f = 124 then some .vz else if f = 125 then some (.lit lit) else none

/-- A destination field (R40, R41). -/
def dstField (f : Nat) : Option Dst :=
  if f < 120 then some (.v f) else if f < 124 then some (.q (f - 120)) else
  if f = 124 then some .vz else if f = 127 then some .none else none

def Parts.a (p : Parts) : Option Src := srcField (fieldA p.w) p.litA
def Parts.b (p : Parts) : Option Src := srcField (fieldB p.w) p.litB
/-- The b field under the U bit (R42). -/
def Parts.bU (p : Parts) : Option Src := if fieldU p.w then some (.s (fieldB p.w)) else p.b
def Parts.d (p : Parts) : Option Dst := dstField (fieldD p.w)
def Parts.dSrc (p : Parts) : Option Src := srcField (fieldD p.w) p.litD
def Parts.xa (p : Parts) : Option Src := srcField (xFieldA p.w) p.litA
def Parts.xb (p : Parts) : Option Src := srcField (xFieldB p.w) p.litB
def Parts.xd (p : Parts) : Option Dst := dstField (xFieldD p.w)

/-- What a code selects, or a reserved code (R38 order 1). -/
def coded {α : Type} (x : Option α) (k : α → Option Instr) : Except Reject Instr :=
  match x with
  | none => .error .reserved
  | some c =>
    match k c with
    | none => .error .illegalOperand
    | some i => .ok i

/-- An instruction without a code of its own. -/
def plain (x : Option Instr) : Except Reject Instr :=
  match x with
  | none => .error .illegalOperand
  | some i => .ok i

/-- Requires a condition on unused fields. -/
def need (c : Bool) (x : Option Instr) : Option Instr := if c then x else none

/-- Operands a, b (with U) and d. -/
def opABD (p : Parts) (k : Src → Src → Dst → Instr) : Option Instr :=
  p.a.bind fun a => p.bU.bind fun b => p.d.map fun d => k a b d

/-- Operands a and d, with b zero and no U bit. -/
def opAD (p : Parts) (k : Src → Dst → Instr) : Option Instr :=
  need (fieldB p.w == 0 && !fieldU p.w) (p.a.bind fun a => p.d.map fun d => k a d)

/-- A predicate field of 7 bits with [6:4] zero (R106, R126). -/
def predField (f : Nat) : Option Pred := if h : f < 16 then some ⟨f, h⟩ else none

/-- A number below a bound. -/
def finField (n f : Nat) : Option (Fin n) := if h : f < n then some ⟨f, h⟩ else none

/-- A code of one bit, for the two forms .b32 and .b64 and their like. -/
def flagCode (c : Nat) : Option Bool := if c = 0 then some false else if c = 1 then some true else none

/-- Opcodes 0x00 to 0x1F. -/
def buildInt (p : Parts) : Except Reject Instr :=
  let c := fieldC p.w
  match opOf p.w with
  | 0x00 => plain (need (p.w == 0) (some .nop))
  | 0x01 => coded addForms[c]? fun f => opABD p (.iadd f)
  | 0x02 => coded addForms[c]? fun f => opABD p (.isub f)
  | 0x03 => coded (if c = 0 then none else finField 16 c) fun k => opABD p (.iaddc k)
  | 0x04 => coded (if c = 0 then none else finField 16 c) fun k => opABD p (.isubb k)
  | 0x05 => coded mulForms[c]? fun f => opABD p (.imul f)
  | 0x06 => coded highForms[c]? fun f => opABD p (.imulh f)
  | 0x07 => coded madForms[c]? fun f => opABD p (.imad f)
  | 0x08 => coded iForms[c]? fun f => opABD p (.idiv f)
  | 0x09 => coded iForms[c]? fun f => opABD p (.irem f)
  | 0x0A => coded iForms[c]? fun f => opABD p (.imin f)
  | 0x0B => coded iForms[c]? fun f => opABD p (.imax f)
  | 0x0C => coded (flagCode c) fun s => opAD p (.iabs s)
  | 0x0D => coded (flagCode c) fun s => opAD p (.ineg s)
  | 0x0E => coded logicOps[c]? fun o => opABD p (.lop o)
  | 0x10 => coded (flagCode c) fun k => opABD p (.shl k)
  | 0x11 => coded (flagCode c) fun k => opABD p (.shr k)
  | 0x12 => coded (flagCode c) fun k => opABD p (.sar k)
  | 0x13 => coded (flagCode c) fun k => opABD p (.rot k)
  | 0x14 => coded (flagCode c) fun k => opABD p (.bfx k)
  | 0x15 => coded (finField 1 c) fun _ => opABD p .bfi
  | 0x16 => coded (flagCode c) fun k => opAD p (.popc k)
  | 0x17 => coded (flagCode c) fun k => opAD p (.clz k)
  | 0x18 => coded (flagCode c) fun k => opAD p (.ctz k)
  | 0x19 => coded (flagCode c) fun k => opAD p (.brev k)
  | 0x1A => coded iConds[c]? fun k => need (!bit p.w 11)
      (p.a.bind fun a => p.bU.bind fun b => (finField 16 (bits p.w 10 7)).map fun q =>
        .icmp k (bit p.w 13) (bit p.w 12) a b q)
  | 0x1B => coded (finField 16 c) fun q => opABD p (.isel q)
  | 0x1C => coded (finField 8 c) fun k => opABD p (.lea k)
  | 0x1D => coded movWidths[c]? fun k => need (fieldA p.w == 0)
      (p.bU.bind fun b => p.d.map fun d => .mov k b d)
  | 0x1E => plain (p.d.map fun d => .movi (BitVec.ofNat 18 (bits p.w 31 14)) d)
  | _ => .error .reserved

/-- Opcodes 0x20 to 0x3D. -/
def buildFloat (p : Parts) : Except Reject Instr :=
  let c := fieldC p.w
  let f := floatForms[c / 2]?
  let g := (shortFloats[c / 2]?).bind id
  let neg := bit p.w 29
  let m0 := fieldM p.w == 0
  let n0 := !bit p.w 29
  match opOf p.w with
  | 0x20 => plain (p.d.map fun d => .movh (BitVec.ofNat 18 (bits p.w 31 14)) d)
  | 0x21 => coded (flagCode c) fun k => need (fieldA p.w == 0)
      (p.bU.map fun b => .movs k b (fieldD p.w))
  | 0x22 => coded narrowForms[c]? fun k => opAD p (.cvti k)
  | 0x23 => coded packForms[c]? fun k => opABD p (.pack k)
  | 0x24 => coded unpackForms[c]? fun k => opAD p (.unpk k)
  | 0x25 => coded logicOps[c]? fun k => need (!fieldU p.w)
      ((predField (fieldA p.w)).bind fun a => (predField (fieldB p.w)).bind fun b =>
        (predField (fieldD p.w)).map fun d => .plop k a b d)
  | 0x26 => coded (flagCode c) fun k =>
      if k then need (!fieldU p.w && fieldB p.w == 0 && fieldD p.w == 0) (p.a.map .pmovW)
      else need (!fieldU p.w && fieldB p.w == 0 && fieldA p.w == 0) (p.d.map .pmov)
  | 0x27 => coded f fun k => opABD p (.fmov k neg)
  | 0x28 => coded f fun k => opABD p (.fadd k neg)
  | 0x29 => coded f fun k => opABD p (.fsub k neg)
  | 0x2A => coded f fun k => opABD p (.fmul k neg)
  | 0x2B => coded f fun k => opABD p (.ffma k neg)
  | 0x2C => coded f fun k => opABD p (.fmin k neg)
  | 0x2D => coded f fun k => opABD p (.fmax k neg)
  | 0x2E => coded f fun k => p.a.bind fun a => p.bU.bind fun b =>
      (fConds[bits p.w 13 11]?).bind fun t => (finField 16 (bits p.w 10 7)).map fun q =>
        .fcmp k neg t a b q
  | 0x30 => coded ((floatConvs[bits p.w 27 24]?).bind fun k =>
        ((roundCodes[bits p.w 23 21]?).bind id).map fun r => (k, r)) fun k =>
      need m0 (p.a.bind fun a => p.d.map fun d => .fcvt k.1 k.2 a d)
  | 0x31 => coded ((f.bind fun k => ((roundCodes[bits p.w 23 21]?).bind id).map fun r => (k, r))) fun k =>
      need (n0 && !fieldU p.w && bits p.w 27 24 == 0) (p.a.bind fun a => p.d.map fun d => .frnd k.1 k.2 a d)
  | 0x32 => coded f fun k => need n0 (opAD p (.fclass k))
  | 0x33 => coded f fun k => need n0 (opABD p (.fscale k))
  | 0x34 => coded f fun k => need n0 (opAD p (.frcp k))
  | 0x35 => coded f fun k => need n0 (opAD p (.frsq k))
  | 0x36 => coded f fun k => need n0 (opAD p (.fsqrt k))
  | 0x37 => coded f fun k => opABD p (.fdiv k neg)
  | 0x38 => coded g fun k => need n0 (opAD p (.fexp2 k))
  | 0x39 => coded g fun k => need n0 (opAD p (.flog2 k))
  | 0x3A => coded g fun k => need n0 (opAD p (.fsin k))
  | 0x3B => coded g fun k => need n0 (opAD p (.fcos k))
  | 0x3C => coded g fun k => need n0 (opAD p (.ftanh k))
  | 0x3D => coded ((lnsConvs[bits p.w 27 24]?).bind fun k =>
        ((roundCodes[bits p.w 23 21]?).bind id).map fun r => (k, r)) fun k =>
      need m0 (p.a.bind fun a => p.d.map fun d => .lcvt k.1 k.2 a d)
  | _ => .error .reserved

/-- Opcodes 0x40 to 0x57. -/
def buildControl (p : Parts) : Except Reject Instr :=
  let c := fieldC p.w
  let off := BitVec.ofNat 21 (bits p.w 27 7)
  let u0 := !fieldU p.w
  let a0 := fieldA p.w == 0
  let b0 := fieldB p.w == 0
  let d0 := fieldD p.w == 0
  let step := finField 16 (fieldM p.w)
  match opOf p.w with
  | 0x40 => plain (need (fieldM p.w == 0) (some (.bra off)))
  | 0x41 => plain (step.map fun n => .brp n off)
  | 0x42 => plain (need (fieldM p.w == 0 && b0 && d0) (p.a.map .brx))
  | 0x43 => plain (step.map fun n => .call n off)
  | 0x44 => plain (need (b0 && d0) (step.bind fun n => p.a.map (.callx n)))
  | 0x45 => plain (need (a0 && b0 && d0) (step.map .ret))
  | 0x46 => plain (p.dSrc.map fun d => .loop d (BitVec.ofNat 18 (bits p.w 31 14)))
  | 0x47 =>
    let x := Word.join p.lead
    plain (need (bits p.w 31 30 == 0 && bits x 31 18 == 0)
      (opABD p fun a b d => .loopi (bit p.w 29) a b d (BitVec.ofNat 18 x)))
  | 0x48 => plain (need (a0 && b0 && d0) (step.map .brk))
  | 0x49 => plain (need b0 (step.bind fun n => p.a.bind fun a => (predField (fieldD p.w)).map (.fork n a)))
  | 0x4A => plain (need (p.w == 0x4A) (some .exit))
  | 0x4B => plain (need (fieldM p.w == 0 && b0 && d0) (p.a.map .wbase))
  | 0x4C => plain (need (p.w == 0x4C) (some .yield))
  | 0x4D => plain (need (fieldM p.w == 0 && a0 && b0) ((predField (fieldD p.w)).map .elect))
  | 0x4E => coded voteModes[c]? fun k => need (u0 && b0)
      ((predField (fieldA p.w)).bind fun a => (predField (fieldD p.w)).map (.vote k a))
  | 0x50 => plain (need (fieldM p.w == 0 && b0) ((predField (fieldA p.w)).bind fun a => p.d.map (.ballot a)))
  | 0x51 => coded (flagCode c) fun k => opAD p (.matchAny k)
  | 0x52 => coded shflModes[c]? fun k => opABD p (.shfl k)
  | 0x53 => coded reduxOps[c]? fun k => need b0 (p.a.bind fun a => p.d.map (.redux k (fieldU p.w) a))
  | 0x54 => coded quadDirs[c]? fun k => opAD p (.qswap k)
  | 0x55 => coded (finField 4 c) fun k => opAD p (.qbcast k)
  | 0x56 => coded quadOps[c]? fun k => opAD p (.qred k)
  | 0x57 => coded (finField 3 c) fun k => need (u0 && b0)
      ((finField 8 (fieldD p.w)).bind fun g =>
        if k.val = 0 then (predField (fieldA p.w)).map (.gset g)
        else need a0 (some (if k.val = 1 then .gsetRun g else .gsetDrop g)))
  | _ => .error .reserved

/-- The ordering word (R47): its reserved bits zero and its scope a code. -/
def ordOf (x : Nat) : Option OrdWord :=
  if bits x 15 10 ≠ 0 then none else
  (atomOps[bits x 7 5]?).bind fun t => (orders[bits x 4 3]?).bind fun r => (scopes[bits x 2 0]?).map fun s =>
    { offs := BitVec.ofNat 16 (bits x 31 16), fadd := bit x 9, sgn := bit x 8, atop := t, ord := r, scope := s }

/-- The optional ordering word of an M-format instruction; the outer level is none for an illegal one. -/
def Parts.ord (p : Parts) : Option (Option OrdWord) :=
  if bit p.w 31 then (ordOf (Word.join p.lead)).map some else some none

/-- The ordering word of an instruction that requires E = 1. -/
def Parts.ordAlways (p : Parts) : Option OrdWord := p.ord.bind id

/-- A width of 32 or 64 bits by size code (R183, R184, R189). -/
def atomSize (c : Nat) : Option Bool := if c = 2 then some false else if c = 3 then some true else none

/-- Opcodes 0x60 to 0x6B. -/
def buildMem (p : Parts) : Except Reject Instr :=
  let z := sizes[bits p.w 30 28]?
  let s := bits p.w 30 28
  let d0 := fieldD p.w == 0
  match opOf p.w with
  | 0x60 => plain (z.bind fun z => p.ord.bind fun o => p.a.bind fun a => p.b.bind fun b => p.d.map (.ld z o a b))
  | 0x61 => plain (z.bind fun z => p.ord.bind fun o => p.a.bind fun a => p.b.bind fun b => p.dSrc.map (.st z o a b))
  | 0x62 => plain (z.bind fun z => p.ord.bind fun o => p.a.bind fun a => p.b.bind fun b => p.d.map (.lds z o a b))
  | 0x63 => plain (z.bind fun z => p.ord.bind fun o => p.a.bind fun a => p.b.bind fun b => p.dSrc.map (.sts z o a b))
  | 0x64 => plain (z.bind fun z => p.ord.bind fun o => p.a.bind fun a => p.b.bind fun b => p.d.map (.ldc z o a b))
  | 0x65 => plain ((atomSize s).bind fun k => p.ordAlways.bind fun o =>
      p.a.bind fun a => p.b.bind fun b => p.d.map (.atom k o a b))
  | 0x66 => plain ((atomSize s).bind fun k => p.ordAlways.bind fun o =>
      p.a.bind fun a => p.b.bind fun b => p.d.map (.atoms k o a b))
  | 0x67 => plain ((atomSize s).bind fun k => p.ordAlways.bind fun o =>
      p.a.bind fun a => p.b.bind fun b => p.dSrc.map (.red k o a b))
  | 0x68 => plain (need (fieldB p.w == 0 && fieldA p.w == 0 && d0 && !fieldU p.w)
      ((scopes[fieldC p.w]?).map .fence))
  | 0x69 => plain (need d0 (p.ord.bind fun o =>
      if s = 0 then p.a.bind fun a => p.b.map (.cflush o a)
      else need (s == 1 && fieldA p.w == 124 && fieldB p.w == 124) (some (.cflushAll o))))
  | 0x6A => plain (need d0 (p.ord.bind fun o => p.a.bind fun a => p.b.bind fun b =>
      if s = 0 then some (.pref o a b) else need (s == 4) (some (.prefBlk o a b))))
  | 0x6B => plain ((atomSize s).bind fun k => p.ord.bind fun o =>
      p.a.bind fun a => p.b.bind fun b => p.d.map (.waitaddr k o a b))
  | _ => .error .reserved

/-- Opcodes 0x70 to 0x79. -/
def buildSystem (p : Parts) : Except Reject Instr :=
  let c := fieldC p.w
  let u0 := !fieldU p.w
  let a0 := fieldA p.w == 0
  let b0 := fieldB p.w == 0
  let d0 := fieldD p.w == 0
  match opOf p.w with
  | 0x70 => plain (need (a0 && d0) ((finField 16 (fieldM p.w)).map fun n => .trap n (BitVec.ofNat 7 (fieldB p.w))))
  | 0x71 => coded (flagCode c) fun k => need (u0 && a0 && b0 && d0) (some (if k then .eretSkip else .eret))
  | 0x72 => plain (need a0 (p.d.map fun d => .csrrd (BitVec.ofNat 11 (csrNumber p.w)) d))
  | 0x73 => plain (need d0 (p.a.map fun a => .csrwr (BitVec.ofNat 11 (csrNumber p.w)) a))
  | 0x74 => plain (need (a0 && d0) ((finField 16 (fieldM p.w)).map fun n => .bkpt n (BitVec.ofNat 7 (fieldB p.w))))
  | 0x75 => coded (flagCode c) fun k => need (u0 && b0 && d0)
      (if k then need a0 (some .tlbiCtx) else p.a.map .tlbiVa)
  | 0x76 => coded clkForms[c]? fun k => need (u0 && a0 && b0) (p.d.map (.clk k))
  | 0x77 => coded (flagCode c) fun k => need (u0 && a0)
      ((finField 8 (fieldB p.w)).bind fun n => p.d.map fun d => if k then .perfClr n d else .perf n d)
  | 0x78 => coded barLevels[c]? fun l => need (u0 && d0)
      (if fieldA p.w = 0 then some (.bar l (fieldB p.w))
       else need (fieldA p.w == 1) (some (.barArr l (fieldB p.w))))
  | 0x79 => coded (flagCode c) fun k => need (u0 && a0 && b0 && d0) (some (if k then .netclsLat else .netclsBulk))
  | _ => .error .reserved

/-- X-format words (R50, R51). -/
def buildX (p : Parts) : Except Reject Instr :=
  let b124 := xFieldB p.w == 124
  let a124 := xFieldA p.w == 124
  let d127 := xFieldD p.w == 127
  let cmd (k : Src → Instr) := plain (need (b124 && d127) (p.xa.map k))
  let reply (k : Src → Dst → Instr) := plain (need b124 (p.xa.bind fun a => p.xd.map fun d => k a d))
  let two (k : Src → Src → Instr) := plain (need d127 (p.xa.bind fun a => p.xb.map fun b => k a b))
  match fnOf p.w with
  | 0x00 => cmd .cpTile
  | 0x01 => cmd .cpStore
  | 0x02 => cmd .cpLin
  | 0x03 => cmd .cpGather
  | 0x04 => cmd .cpScatter
  | 0x05 => cmd .cpFill
  | 0x06 => cmd .cpSig
  | 0x07 => reply .cpStat
  | 0x10 => cmd .mxCfg
  | 0x11 => reply .mxPass
  | 0x12 => reply .mxPair
  | 0x13 => two fun a b => .mxBq b a
  | 0x14 => cmd .mxLut
  | 0x15 => cmd .mxFold
  | 0x16 => cmd .mxDrain
  | 0x17 => cmd .mxClr
  | 0x18 => cmd .acLd
  | 0x19 => cmd .acSt
  | 0x1A => reply .mxStat
  | 0x1B => two .mxDep
  | 0x30 => reply .pRsv
  | 0x31 => two .pPub
  | 0x32 => reply .pAcq
  | 0x33 => two .pRel
  | 0x34 => reply .pOcc
  | 0x35 => cmd .pBind
  | 0x40 => cmd .rsInit
  | 0x41 => reply .rsNext
  | 0x42 => plain (p.xa.bind fun a => p.xb.bind fun b => p.xd.map fun d => .tSpawn a b d)
  | 0x43 => cmd .tDec
  | 0x44 => plain (need (a124 && b124) (p.xd.map .tPop))
  | 0x45 => reply .launch
  | 0x46 => if d127 then two .tCntWr
      else plain (need a124 (p.xb.bind fun b => p.xd.map fun d => .tCntRd b d))
  | 0x50 => cmd .fxAdd
  | 0x51 => cmd .fxSig
  | 0x52 => plain (need (a124 && b124) (p.xd.map .fxFence))
  | 0x53 => reply .fxStat
  | _ => .error .reserved

/-- Builds the instruction a word with its extension words names. -/
def build (p : Parts) : Except Reject Instr :=
  if isX p.w then buildX p else
  match opOf p.w / 32 with
  | 0 => buildInt p
  | 1 => buildFloat p
  | 2 => buildControl p
  | _ => if opOf p.w < 0x70 then buildMem p else buildSystem p

/-- Decodes the instruction at the head of a list of words: its name and operands, or why there is none (R38). -/
def decode : List Word → Except Reject Instr
  | [] => .error .short
  | w :: ext =>
    if reservedCode w.toNat then .error .reserved
    else if ext.length < extCount w.toNat then .error .short
    else
      match build (partsOf w.toNat ext) with
      | .error e => .error e
      | .ok i => if i.wf then .ok i else .error .illegalOperand

/-- Words of a list of bytes, little-endian (R3); a rest of fewer than four bytes gives no word. -/
def wordsOf : List Byte → List Word
  | a :: b :: c :: d :: r => Word.ofNat (Byte.join [a, b, c, d]) :: wordsOf r
  | _ => []

/-- Decodes the instruction at the head of a list of bytes (R26, R38). -/
def decodeBytes (bs : List Byte) : Except Reject Instr := decode (wordsOf bs)

/-- The longest instruction: one word with an ordering word, a data literal of four words, a base literal of two and an offset literal (R28). -/
def maxWords : Nat := 9

/-- The words of a numbered instruction of the opcode table, operand words beyond its bits zero. -/
def tableWords (nbits w : Nat) : List Word := Word.split maxWords (w % 2 ^ nbits)

/-- The instruction the decoder reads from a numbered instruction of the opcode table. -/
def decodeTableWord (nbits w : Nat) : Option Instr :=
  match decode (tableWords nbits w) with
  | .ok i => some i
  | .error _ => none

/-! The encoder, from the same tables. -/

/-- The field of a source operand. -/
def Src.field : Src → Nat
  | .v n => n | .q n => 120 + n | .vz => 124 | .lit _ => 125 | .s n => n

/-- The U bit of a source operand. -/
def Src.u : Src → Nat
  | .s _ => 1 | _ => 0

/-- The literal words of a source operand. -/
def Src.lits : Src → List Word
  | .lit ws => ws | _ => []

/-- The field of a destination operand. -/
def Dst.field : Dst → Nat
  | .v n => n | .q n => 120 + n | .vz => 124 | .none => 127

/-- An R-format word: m[31:29], m[28], b, a, d, op. -/
def mkR (c u b a d op : Nat) : Word := Word.ofNat (op + 2 ^ 7 * d + 2 ^ 14 * a + 2 ^ 21 * b + 2 ^ 28 * u + 2 ^ 29 * c)

/-- An L-format word. -/
def mkL (imm d op : Nat) : Word := Word.ofNat (op + 2 ^ 7 * d + 2 ^ 14 * imm)

/-- A J-format word. -/
def mkJ (field off op : Nat) : Word := Word.ofNat (op + 2 ^ 7 * off + 2 ^ 28 * field)

/-- An X-format word. -/
def mkX (b a d fn : Nat) : Word := Word.ofNat (15 + 2 ^ 4 * fn + 2 ^ 11 * d + 2 ^ 18 * a + 2 ^ 25 * b)

/-- An ordering word (R47). -/
def mkOrd (o : OrdWord) : Word :=
  Word.ofNat (scopes.idxOf o.scope + 2 ^ 3 * orders.idxOf o.ord + 2 ^ 5 * atomOps.idxOf o.atop + 2 ^ 8 * b2n o.sgn
    + 2 ^ 9 * b2n o.fadd + 2 ^ 16 * o.offs.toNat)

/-- An M-format instruction with its extension words, d as a source or destination field. -/
def encM (op size : Nat) (o : Option OrdWord) (a b : Src) (d : Nat) (dl : List Word) : List Word :=
  Word.ofNat (op + 2 ^ 7 * d + 2 ^ 14 * a.field + 2 ^ 21 * b.field + 2 ^ 28 * size + 2 ^ 31 * b2n o.isSome)
    :: ((o.toList.map mkOrd) ++ dl ++ a.lits ++ b.lits)

/-- An R-format instruction with a, b (U) and d. -/
def encABD (op c : Nat) (a b : Src) (d : Dst) : List Word :=
  mkR c b.u b.field a.field d.field op :: (a.lits ++ b.lits)

/-- An R-format instruction with a and d. -/
def encAD (op c : Nat) (a : Src) (d : Dst) : List Word := mkR c 0 0 a.field d.field op :: a.lits

/-- A float instruction with a, b (U, inversion) and d. -/
def encF (op : Nat) (f : FloatForm) (neg : Bool) (a b : Src) (d : Dst) : List Word :=
  encABD op (2 * floatForms.idxOf f + b2n neg) a b d

/-- A float instruction with a and d. -/
def encF1 (op : Nat) (f : FloatForm) (a : Src) (d : Dst) : List Word := encAD op (2 * floatForms.idxOf f) a d

/-- A transcendental instruction. -/
def encG (op : Nat) (f : ShortFloat) (a : Src) (d : Dst) : List Word := encAD op (2 * shortFloats.idxOf (some f)) a d

/-- An X-format command with b = 124 and d = 127. -/
def encCmd (fn : Nat) (a : Src) : List Word := mkX 124 a.field 127 fn :: a.lits

/-- An X-format command with b = 124 and a reply register. -/
def encReply (fn : Nat) (a : Src) (d : Dst) : List Word := mkX 124 a.field d.field fn :: a.lits

/-- An X-format command with two operands and d = 127. -/
def encTwo (fn : Nat) (a b : Src) : List Word := mkX b.field a.field 127 fn :: (a.lits ++ b.lits)

/-- The words of an encoded instruction; an event has none. -/
def encode : Instr → List Word
  | .nop => [mkR 0 0 0 0 0 0x00]
  | .iadd f a b d => encABD 0x01 (addForms.idxOf f) a b d
  | .isub f a b d => encABD 0x02 (addForms.idxOf f) a b d
  | .iaddc k a b d => encABD 0x03 k.val a b d
  | .isubb k a b d => encABD 0x04 k.val a b d
  | .imul f a b d => encABD 0x05 (mulForms.idxOf f) a b d
  | .imulh f a b d => encABD 0x06 (highForms.idxOf f) a b d
  | .imad f a b d => encABD 0x07 (madForms.idxOf f) a b d
  | .idiv f a b d => encABD 0x08 (iForms.idxOf f) a b d
  | .irem f a b d => encABD 0x09 (iForms.idxOf f) a b d
  | .imin f a b d => encABD 0x0A (iForms.idxOf f) a b d
  | .imax f a b d => encABD 0x0B (iForms.idxOf f) a b d
  | .iabs s a d => encAD 0x0C (b2n s) a d
  | .ineg s a d => encAD 0x0D (b2n s) a d
  | .lop o a b d => encABD 0x0E (logicOps.idxOf o) a b d
  | .shl w a b d => encABD 0x10 (b2n w) a b d
  | .shr w a b d => encABD 0x11 (b2n w) a b d
  | .sar w a b d => encABD 0x12 (b2n w) a b d
  | .rot w a b d => encABD 0x13 (b2n w) a b d
  | .bfx s a b d => encABD 0x14 (b2n s) a b d
  | .bfi a b d => encABD 0x15 0 a b d
  | .popc w a d => encAD 0x16 (b2n w) a d
  | .clz w a d => encAD 0x17 (b2n w) a d
  | .ctz w a d => encAD 0x18 (b2n w) a d
  | .brev w a d => encAD 0x19 (b2n w) a d
  | .icmp c n w a b p =>
    mkR (iConds.idxOf c) b.u b.field a.field (p.val + 32 * b2n w + 64 * b2n n) 0x1A :: (a.lits ++ b.lits)
  | .isel p a b d => encABD 0x1B p.val a b d
  | .lea k a b d => encABD 0x1C k.val a b d
  | .mov w b d => mkR (movWidths.idxOf w) b.u b.field 0 d.field 0x1D :: b.lits
  | .movi i d => [mkL i.toNat d.field 0x1E]
  | .movh i d => [mkL i.toNat d.field 0x20]
  | .movs w b sd => mkR (b2n w) b.u b.field 0 sd 0x21 :: b.lits
  | .cvti f a d => encAD 0x22 (narrowForms.idxOf f) a d
  | .pack f a b d => encABD 0x23 (packForms.idxOf f) a b d
  | .unpk f a d => encAD 0x24 (unpackForms.idxOf f) a d
  | .plop o a b d => [mkR (logicOps.idxOf o) 0 b.val a.val d.val 0x25]
  | .pmov d => [mkR 0 0 0 0 d.field 0x26]
  | .pmovW a => mkR 1 0 0 a.field 0 0x26 :: a.lits
  | .fmov f n a b d => encF 0x27 f n a b d
  | .fadd f n a b d => encF 0x28 f n a b d
  | .fsub f n a b d => encF 0x29 f n a b d
  | .fmul f n a b d => encF 0x2A f n a b d
  | .ffma f n a b d => encF 0x2B f n a b d
  | .fmin f n a b d => encF 0x2C f n a b d
  | .fmax f n a b d => encF 0x2D f n a b d
  | .fcmp f n c a b p =>
    mkR (2 * floatForms.idxOf f + b2n n) b.u b.field a.field (p.val + 16 * fConds.idxOf c) 0x2E :: (a.lits ++ b.lits)
  | .fcvt c r a d => mkR 0 0 (8 * floatConvs.idxOf c + roundCodes.idxOf (some r)) a.field d.field 0x30 :: a.lits
  | .frnd f r a d => mkR (2 * floatForms.idxOf f) 0 (roundCodes.idxOf (some r)) a.field d.field 0x31 :: a.lits
  | .fclass f a d => encF1 0x32 f a d
  | .fscale f a b d => encF 0x33 f false a b d
  | .frcp f a d => encF1 0x34 f a d
  | .frsq f a d => encF1 0x35 f a d
  | .fsqrt f a d => encF1 0x36 f a d
  | .fdiv f n a b d => encF 0x37 f n a b d
  | .fexp2 f a d => encG 0x38 f a d
  | .flog2 f a d => encG 0x39 f a d
  | .fsin f a d => encG 0x3A f a d
  | .fcos f a d => encG 0x3B f a d
  | .ftanh f a d => encG 0x3C f a d
  | .lcvt c r a d => mkR 0 0 (8 * lnsConvs.idxOf c + roundCodes.idxOf (some r)) a.field d.field 0x3D :: a.lits
  | .bra o => [mkJ 0 o.toNat 0x40]
  | .brp p o => [mkJ p.val o.toNat 0x41]
  | .brx a => mkR 0 0 0 a.field 0 0x42 :: a.lits
  | .call w o => [mkJ w.val o.toNat 0x43]
  | .callx w a => mkR (w.val / 2) (w.val % 2) 0 a.field 0 0x44 :: a.lits
  | .ret w => [mkR (w.val / 2) (w.val % 2) 0 0 0 0x45]
  | .loop c o => mkL o.toNat c.field 0x46 :: c.lits
  | .loopi s a b d o =>
    mkR (b2n s) b.u b.field a.field d.field 0x47 :: Word.ofNat o.toNat :: (a.lits ++ b.lits)
  | .brk p => [mkR (p.val / 2) (p.val % 2) 0 0 0 0x48]
  | .fork w a p => mkR (w.val / 2) (w.val % 2) 0 a.field p.val 0x49 :: a.lits
  | .exit => [mkR 0 0 0 0 0 0x4A]
  | .wbase a => mkR 0 0 0 a.field 0 0x4B :: a.lits
  | .yield => [mkR 0 0 0 0 0 0x4C]
  | .elect p => [mkR 0 0 0 0 p.val 0x4D]
  | .vote m s d => [mkR (voteModes.idxOf m) 0 0 s.val d.val 0x4E]
  | .ballot s d => [mkR 0 0 0 s.val d.field 0x50]
  | .matchAny w a d => encAD 0x51 (b2n w) a d
  | .shfl m a b d => encABD 0x52 (shflModes.idxOf m) a b d
  | .redux o w a d => mkR (reduxOps.idxOf o) (b2n w) 0 a.field d.field 0x53 :: a.lits
  | .qswap k a d => encAD 0x54 (quadDirs.idxOf k) a d
  | .qbcast k a d => encAD 0x55 k.val a d
  | .qred o a d => encAD 0x56 (quadOps.idxOf o) a d
  | .gset k p => [mkR 0 0 0 p.val k.val 0x57]
  | .gsetRun k => [mkR 1 0 0 0 k.val 0x57]
  | .gsetDrop k => [mkR 2 0 0 0 k.val 0x57]
  | .ld z o a b d => encM 0x60 (sizes.idxOf z) o a b d.field []
  | .st z o a b d => encM 0x61 (sizes.idxOf z) o a b d.field d.lits
  | .lds z o a b d => encM 0x62 (sizes.idxOf z) o a b d.field []
  | .sts z o a b d => encM 0x63 (sizes.idxOf z) o a b d.field d.lits
  | .ldc z o a b d => encM 0x64 (sizes.idxOf z) o a b d.field []
  | .atom w o a b d => encM 0x65 (2 + b2n w) (some o) a b d.field []
  | .atoms w o a b d => encM 0x66 (2 + b2n w) (some o) a b d.field []
  | .red w o a b d => encM 0x67 (2 + b2n w) (some o) a b d.field d.lits
  | .fence s => [mkR (scopes.idxOf s) 0 0 0 0 0x68]
  | .cflush o a b => encM 0x69 0 o a b 0 []
  | .cflushAll o => encM 0x69 1 o .vz .vz 0 []
  | .pref o a b => encM 0x6A 0 o a b 0 []
  | .prefBlk o a b => encM 0x6A 4 o a b 0 []
  | .waitaddr w o a b d => encM 0x6B (2 + b2n w) o a b d.field []
  | .trap p k => [mkR (p.val / 2) (p.val % 2) k.toNat 0 0 0x70]
  | .eret => [mkR 0 0 0 0 0 0x71]
  | .eretSkip => [mkR 1 0 0 0 0 0x71]
  | .csrrd n d => [mkR (n.toNat / 256) (n.toNat / 128 % 2) (n.toNat % 128) 0 d.field 0x72]
  | .csrwr n a => mkR (n.toNat / 256) (n.toNat / 128 % 2) (n.toNat % 128) a.field 0 0x73 :: a.lits
  | .bkpt p k => [mkR (p.val / 2) (p.val % 2) k.toNat 0 0 0x74]
  | .tlbiVa a => mkR 0 0 0 a.field 0 0x75 :: a.lits
  | .tlbiCtx => [mkR 1 0 0 0 0 0x75]
  | .clk f d => [mkR (clkForms.idxOf f) 0 0 0 d.field 0x76]
  | .perf c d => [mkR 0 0 c.val 0 d.field 0x77]
  | .perfClr c d => [mkR 1 0 c.val 0 d.field 0x77]
  | .bar l i => [mkR (barLevels.idxOf l) 0 i 0 0 0x78]
  | .barArr l i => [mkR (barLevels.idxOf l) 0 i 1 0 0x78]
  | .netclsBulk => [mkR 0 0 0 0 0 0x79]
  | .netclsLat => [mkR 1 0 0 0 0 0x79]
  | .cpTile a => encCmd 0x00 a
  | .cpStore a => encCmd 0x01 a
  | .cpLin a => encCmd 0x02 a
  | .cpGather a => encCmd 0x03 a
  | .cpScatter a => encCmd 0x04 a
  | .cpFill a => encCmd 0x05 a
  | .cpSig a => encCmd 0x06 a
  | .cpStat a d | .cpStatResume a d => encReply 0x07 a d
  | .mxCfg a => encCmd 0x10 a
  | .mxPass a d => encReply 0x11 a d
  | .mxPair a d => encReply 0x12 a d
  | .mxBq b a => encTwo 0x13 a b
  | .mxLut a => encCmd 0x14 a
  | .mxFold a | .mxFoldSump a => encCmd 0x15 a
  | .mxDrain a => encCmd 0x16 a
  | .mxClr a => encCmd 0x17 a
  | .acLd a => encCmd 0x18 a
  | .acSt a => encCmd 0x19 a
  | .mxStat a d | .mxStatResume a d => encReply 0x1A a d
  | .mxDep a b => encTwo 0x1B a b
  | .pRsv a d => encReply 0x30 a d
  | .pPub a b => encTwo 0x31 a b
  | .pAcq a d => encReply 0x32 a d
  | .pRel a b => encTwo 0x33 a b
  | .pOcc a d => encReply 0x34 a d
  | .pBind a | .pUnbind a => encCmd 0x35 a
  | .rsInit a => encCmd 0x40 a
  | .rsNext a d => encReply 0x41 a d
  | .tSpawn a b d => mkX b.field a.field d.field 0x42 :: (a.lits ++ b.lits)
  | .tDec a => encCmd 0x43 a
  | .tPop d => [mkX 124 124 d.field 0x44]
  | .launch a d => encReply 0x45 a d
  | .tCntWr a b => encTwo 0x46 a b
  | .tCntRd b d => mkX b.field 124 d.field 0x46 :: b.lits
  | .fxAdd a => encCmd 0x50 a
  | .fxSig a => encCmd 0x51 a
  | .fxFence d => [mkX 124 124 d.field 0x52]
  | .fxStat a d => encReply 0x53 a d
  | _ => []

/-- Instructions with a word of their own: every encoded row but those that share the word of another row. -/
def Instr.encoded (i : Instr) : Bool :=
  (encode i).length != 0 &&
    (match i with
     | .cpStatResume _ _ | .mxFoldSump _ | .mxStatResume _ _ | .pUnbind _ => false
     | _ => true)

end Sys2Proof
end

