-- ==== Sys2Proof/Machine/Flags.lean ====
section
/-! DEFINITION. FPCTL and the predicate word: rounding mode, sticky flags, reads and writes (R65 to R68, R126). -/

namespace Sys2Proof.Machine

/-- The rounding mode of a fibre (R66). -/
def Fibre.rm (x : Fibre) : RMode := RMode.ofCode (bits x.fpctl.toNat 10 8)

/-- Sets float flags, which stay until the fibre clears them (R67). -/
def Fibre.raiseFlags (x : Fibre) (fl : Nat) : Fibre := { x with fpctl := x.fpctl ||| Word.ofNat (fl % 64) }

/-- The FPCTL a write leaves: RM is taken, flags written as 1 are cleared, reserved fields read as zero (R8, R66). -/
def fpctlAfter (old v : Nat) : Nat := bits v 10 8 * 256 + (old % 64 - (old % 64 &&& v % 64))

/-- Whether a write of FPCTL names a reserved rounding code (R67). -/
def fpctlBad (v : Nat) : Bool := decide (5 ≤ bits v 10 8)

/-- A predicate: p0 reads as true (R87, R126). -/
def Fibre.pred (x : Fibre) (p : Nat) : Bool := p == 0 || x.preds.getLsbD p

/-- Writes a predicate; a write of p0 is discarded (R126). -/
def Fibre.setPred (x : Fibre) (p : Nat) (b : Bool) : Fibre :=
  if p = 0 then x else
    { x with preds := if b then x.preds ||| BitVec.ofNat 16 (2 ^ p) else x.preds &&& ~~~BitVec.ofNat 16 (2 ^ p) }

/-- The predicate word as `pmov` reads it, bit 0 set (R146). -/
def Fibre.predWord (x : Fibre) : Nat := x.preds.toNat / 2 * 2 + 1

/-- The value `pmov.w` leaves: p1 to p15 from bits [15:1] (R146). -/
def predsFrom (a : Nat) : BitVec 16 := BitVec.ofNat 16 (a % 65536 / 2 * 2)

end Sys2Proof.Machine
end

