-- ==== Sys2Proof/Machine/Pipes.lean ====
section
/-! DEFINITION. Pipes at their homes, task queues, dependence counters and the range unit (R302 to R307, R315 to R318). -/

namespace Sys2Proof.Machine

/-! Pipe descriptors (R297). -/

def pipeKey (plan i : Nat) : Nat := 4096 * plan + i
def Pipe.depth (p : Pipe) : Nat := wordAt p.desc 1
def Pipe.slotB (p : Pipe) : Nat := wordAt p.desc 2
def Pipe.home (p : Pipe) : Nat := bits (wordAt p.desc 0) 27 24
def Pipe.prod (p : Pipe) : Nat := bits (wordAt p.desc 0) 23 20
def Pipe.cons (p : Pipe) : Nat := bits (wordAt p.desc 0) 19 16
def Pipe.xdev (p : Pipe) : Bool := bit (wordAt p.desc 0) 15
def Pipe.xend (p : Pipe) : Bool := bit (wordAt p.desc 0) 14
/-- The window-map entry that carries a cross-device pipe (R297). -/
def Pipe.win (p : Pipe) : Nat := bits (wordAt p.desc 5) 7 0
/-- The peer device and the peer's pipe. -/
def Pipe.peer (p : Pipe) : Nat × Nat := (bits (wordAt p.desc 4) 25 16, bits (wordAt p.desc 4) 11 0)
/-- Whether this device produces into the pipe. -/
def Pipe.produces (p : Pipe) : Bool := !(p.xdev && p.xend)
/-- Whether this device consumes from the pipe. -/
def Pipe.consumes (p : Pipe) : Bool := !(p.xdev && !p.xend)

/-- A pipe as the loader allots it (R302). -/
def Pipe.start (desc : List Word) : Pipe :=
  { desc := desc, rsv := 0, pub := 0, dlv := 0, rel := 0, extended := false, drained := false, tiles := [],
    rings := [], turn := 0, waiting := [], updates := [], credit := 0, told := 0 }

/-- Slots the pipe may hand out: DEPTH, one more while EXTENDED (R302). -/
def Pipe.capacity (p : Pipe) : Nat := p.depth + b2n p.extended
/-- Releases the reserving side knows of: across devices, those credited (R305). -/
def Pipe.released (p : Pipe) : Nat := if p.xdev && !p.xend then p.credit else p.rel
/-- FREE of R302. -/
def Pipe.free (p : Pipe) : Nat := p.capacity - (p.rsv - p.released)
/-- OCC of R302. -/
def Pipe.occ (p : Pipe) : Nat := p.pub - p.released

def State.pipe? (s : State) (k : Nat) : Option Pipe := NMap.find s.pipes k
def State.modPipe (s : State) (k : Nat) (f : Pipe → Pipe) : State := { s with pipes := NMap.edit s.pipes k f }

/-- The ring of a team at a pipe. -/
def Pipe.ring? (p : Pipe) (inbox : Bool) (team : Nat) : Option Ring := p.rings.find? fun r => r.inbox == inbox && r.team == team
def Pipe.modRing (p : Pipe) (inbox : Bool) (team : Nat) (f : Ring → Ring) : Pipe :=
  { p with rings := p.rings.map fun r => if r.inbox == inbox && r.team == team then f r else r }
/-- The lowest slot of a ring in a state. -/
def Ring.slotIn (r : Ring) (st : Nat) : Option Nat := r.slots.findIdx? fun x => x.1 == st
def Ring.setSlot (r : Ring) (i : Nat) (x : Nat × Nat) : Ring := { r with slots := r.slots.set i x }
/-- The slot of a ring that a team offset names. -/
def Ring.slotAt (r : Ring) (slotB off : Nat) : Option Nat :=
  if off < r.base then none
  else if (off - r.base) % slotB = 0 ∧ (off - r.base) / slotB < r.slots.length then some ((off - r.base) / slotB) else none
/-- The slot of an inbox with the oldest DELIVERED tile (R304). -/
def Ring.oldest (r : Ring) : Option (Nat × Nat) :=
  (indexed r.slots).foldl (fun b e =>
    if e.2.1 = 1 then
      match b with
      | some (_, n) => if e.2.2 < n then some (e.1, e.2.2) else b
      | none => some (e.1, e.2.2)
    else b) none

/-! Reservation, acquisition, publication, release (R304). -/

/-- Reserves a pipe slot and an outbox slot: the slot's team offset. -/
def Pipe.reserve (p : Pipe) (team : Nat) : Option (Nat × Pipe) :=
  if p.free = 0 then none
  else
    match p.ring? false team with
    | none => none
    | some r =>
      match r.slotIn 0 with
      | none => none
      | some i => some (r.base + i * p.slotB, { p.modRing false team (·.setSlot i (1, 0)) with rsv := p.rsv + 1 })

/-- Acquires the oldest DELIVERED inbox slot: its team offset. -/
def Pipe.acquire (p : Pipe) (team : Nat) : Option (Nat × Pipe) :=
  match p.ring? true team with
  | none => none
  | some r =>
    match r.oldest with
    | none => none
    | some (i, n) => some (r.base + i * p.slotB, p.modRing true team (·.setSlot i (2, n)))

/-- The tiles that hold a pipe slot: pulled and not released. -/
def Pipe.held (p : Pipe) : Nat := (p.tiles.filter fun t => t.data.isSome).length
/-- Whether a tile holds the spill slot. -/
def Pipe.spilled (p : Pipe) : Bool := p.tiles.any PipeTile.spill

/-- Applies a publication at the home: the slot receives the next publication number (R302, R304). -/
def Pipe.applyPub (p : Pipe) (u : PipeUpd) : Pipe :=
  { p with pub := p.pub + 1,
           tiles := p.tiles ++ [{ num := p.pub, data := none, src := some (u.team, u.slot, u.ops), spill := false, delivered := false, counted := false, moving := false, lines := 0 }] }

/-- Releases a tile's pipe slot; the pipe returns to OPEN when R306 says so. -/
def Pipe.releaseTile (p : Pipe) (num : Nat) : Pipe :=
  let p1 := { p with rel := p.rel + 1, tiles := p.tiles.filter fun t => t.num != num }
  if p1.extended && !p1.spilled && decide (p1.rsv - p1.released ≤ p1.depth) then { p1 with extended := false } else p1

/-- Applies a release at the home: the inbox slot and the pipe slot are freed. -/
def Pipe.applyRel (p : Pipe) (u : PipeUpd) : Pipe :=
  (p.modRing true u.team fun r => r.setSlot u.slot (0, 0)).releaseTile u.num

/-- Team of a waiter. -/
def State.teamOf (s : State) (f : Nat) : Nat := (s.fibre f).team

/-- Whether a wait could be granted now. -/
def State.waitOpen (s : State) (p : Pipe) (w : PipeWait) : Bool :=
  if w.acquire then (p.acquire (s.teamOf w.fibre)).isSome else (p.reserve (s.teamOf w.fibre)).isSome

/-- Grants one waiting command, or wakes one held fibre, oldest first (R302, R321); its stage is no longer blocked (R308). -/
def State.grantWait (s : State) (k : Nat) : State :=
  match s.pipe? k with
  | none => s
  | some p =>
    match p.waiting.find? (s.waitOpen p) with
    | none => s
    | some w =>
      let t := s.team (s.teamOf w.fibre)
      let s1 := s.modStage t.plan t.stage fun g => { g with blocked := none }
      if w.ops.isEmpty then s1.wake w.fibre
      else
        match if w.acquire then p.acquire (s.teamOf w.fibre) else p.reserve (s.teamOf w.fibre) with
        | none => s
        | some (off, p1) =>
          w.ops.foldl (fun u o => u.answerOp o [Word.ofNat off])
            (s1.modPipe k fun _ => { p1 with waiting := p1.waiting.filter (· != w) })

/-- Grants every wait of a pipe that can be granted. -/
def State.grantWaits (s : State) (k : Nat) : State :=
  match s.pipe? k with
  | none => s
  | some p => p.waiting.foldl (fun t _ => t.grantWait k) s

/-- The pipes of a plan. -/
def State.planPipes (s : State) (plan : Nat) : List Nat := (s.pipes.filter fun e => e.1 / 4096 == plan).map Prod.fst

/-! Task queues and counters (R317, R318). -/

def stageKey (plan i : Nat) : Nat := 16 * plan + i
def Stage.tqcap (g : Stage) : Nat := wordAt g.rec_ 5
def Stage.depn (g : Stage) : Nat := wordAt g.rec_ 6
def Stage.teams (g : Stage) : Nat := bits (wordAt g.rec_ 4) 23 0
/-- Entries held: tasks queued and tasks on their way. -/
def Stage.taskLoad (g : Stage) : Nat := g.tasks.length + (g.updates.map fun u => u.tasks.length).sum
/-- Whether the queue has room for n tasks more. -/
def Stage.room (g : Stage) (n : Nat) : Bool := decide (g.taskLoad + n ≤ g.tqcap)

/-- Enqueues a task: READY when its index is none or its counter stands at zero (R318); `now` numbers the update, in the order in which the home applies them. -/
def Stage.enqueue (now : Nat) (g : Stage) (t : QTask) : Stage :=
  let ready := match t.dep with
    | none => true
    | some i => g.counters.getD i 0 == 0
  { g with tasks := g.tasks ++ [{ t with readyAt := if ready then some now else none }] }

/-- Sets a counter; at zero every task WAITING on it becomes READY (R318). -/
def Stage.setCounter (now : Nat) (g : Stage) (i v : Nat) : Stage :=
  let g1 := { g with counters := g.counters.set i v }
  if v = 0 then { g1 with tasks := g1.tasks.map fun t => if t.readyAt.isNone && t.dep == some i then { t with readyAt := some now } else t }
  else g1

/-- The task `t.pop` takes: READY longest, then first enqueued (R329). -/
def Stage.oldestReady (g : Stage) : Option Nat :=
  ((indexed g.tasks).foldl (fun b e =>
    match e.2.readyAt with
    | none => b
    | some t =>
      match b with
      | some (_, t0) => if t < t0 then some (e.1, t) else b
      | none => some (e.1, t)) none).map Prod.fst

/-! The range unit (R315, R316). -/

def Core.range (c : Core) (k : Nat) : RangeSlot := NMap.get c.ranges k { cur := 0, hi := 0, chunk := 0, stage := 0 }
def State.setRange (s : State) (core k : Nat) (r : RangeSlot) : State :=
  s.modCore core fun c => { c with ranges := NMap.put c.ranges k r }

/-- The chunk a slot with indices left hands out. -/
def RangeSlot.take (r : RangeSlot) : (Nat × Nat) × RangeSlot :=
  let n := min r.chunk (r.hi - r.cur)
  ((r.cur, n), { r with cur := r.cur + n })

/-- The cores of a die. -/
def dieCores (d : Nat) : List Nat := (List.range 256).filter fun c => dieOf c == d

/-- The steal order of a core (R316). -/
def stealOrder (core : Nat) : List Nat :=
  let cl := clusterOf core
  let near := [1, 2, 3].map fun i => 4 * cl + (core % 4 + i) % 4
  let far := (dieCores (dieOf core)).filter fun c => clusterOf c != cl
  near ++ sortBy (fun c => hops cl (clusterOf c)) far

/-- The split point of a victim's range, when it has two chunks or more. -/
def RangeSlot.split (r : RangeSlot) : Option Nat :=
  let c := ceilDiv (r.hi - r.cur) r.chunk
  if 2 ≤ c then some (r.cur + r.chunk * ceilDiv c 2) else none

/-- The first victim a steal of slot k finds; a core that is being vacated or has been is none (R315). -/
def State.victim (s : State) (k stage : Nat) : List Nat → Option (Nat × Nat)
  | [] => none
  | v :: vs =>
    let r := (s.core v).range k
    match if r.chunk ≠ 0 ∧ r.stage = stage ∧ (s.core v).phase ≠ .vacated then r.split else none with
    | some m => some (v, m)
    | none => State.victim s k stage vs

/-- Serves the first request of the range unit's queue that waits on a slot, without stealing. -/
def State.serveRange (s : State) (core k : Nat) : State :=
  match (s.core core).rangeq.find? (fun e => e.1 == k) with
  | none => s
  | some (_, op, f) =>
    let r := (s.core core).range k
    let pop (t : State) : State := t.modCore core fun c => { c with rangeq := c.rangeq.filter (· != (k, op, f)) }
    if r.chunk = 0 then (pop s).answerOp op [0, 0]
    else if r.cur < r.hi then
      let q := r.take
      (pop (s.setRange core k q.2)).answerOp op [Word.ofNat q.1.1, Word.ofNat q.1.2]
    else s

/-- Serves what a slot can serve, in order of arrival. -/
def State.serveRanges (s : State) (core k : Nat) : State :=
  (s.core core).rangeq.foldl (fun t _ => t.serveRange core k) s

end Sys2Proof.Machine
end

