-- ==== Sys2Proof/Machine/Tiles.lean ====
section
/-! DEFINITION. The tiles of pipes as the pumps move them: memory as a pump reads and writes it, pulls, deliveries, and the holdings of teams that leave (R179, R302 to R309). -/

namespace Sys2Proof.Machine

/-! Reading through a context's tables. -/

/-- The bytes at a place as a reader finds them: in the L1 of the core it reads through, where that may be read, otherwise at the home (R205). -/
def State.viaBytes (s : State) (via : Option Nat) (l : Loc) (n : Nat) : List Byte :=
  let one (e : Nat × Byte) : Byte :=
    match via with
    | none => e.2
    | some c =>
      if (s.core c).holds s.horizon (lineKey l) (l.pa % 64 + e.1) then
        match (s.core c).byte? (lineKey l) (l.pa % 64 + e.1) with | some x => x.2.val | none => e.2
      else e.2
  (indexed (s.bytesAt l n)).map one

/-- Reads one aligned word for the loader or a pump, through a core's L1 for `launch`: none where the read faults. -/
def State.readVirt (s : State) (via : Option Nat) (ctx a : Nat) : Option Word :=
  if 2 ^ 57 ≤ a ∨ inWindow a = true then none
  else
    match s.walk ctx a with
    | .ok e =>
      let l := e.place a
      if e.rd && (l.host || decide (l.pa + 4 ≤ deviceBytes)) then some (Word.ofNat (Byte.join (s.viaBytes via l 4))) else none
    | _ => none

/-- Reads n words; the words before the first that faults, and its byte offset. -/
def State.virtWords (s : State) (via : Option Nat) (ctx a : Nat) : Nat → Nat → List Word × Option Nat
  | 0, _ => ([], none)
  | n + 1, i =>
    match s.readVirt via ctx (a + 4 * i) with
    | none => ([], some (4 * i))
    | some w => let r := State.virtWords s via ctx a n (i + 1); (w :: r.1, r.2)

/-- The first line with a poisoned byte among n bytes at a virtual address aligned to 64 (R179). -/
def State.virtSpoiled (s : State) (ctx a n : Nat) : Option Nat :=
  (List.range ((n + 63) / 64)).findSome? fun i =>
    match s.walk ctx (a + 64 * i) with
    | .ok e => let l := e.place (a + 64 * i); if s.poisonedIn (lineKey l) 0 (min 64 (n - 64 * i)) then some (lineKey l) else none
    | _ => none

/-- Writes one run of bytes that lies in one line; a page that does not translate for writing drops it (log 22). -/
def State.virtRun (ctx : Nat) (s : State) (e : Nat × List Byte) : State :=
  if 2 ^ 57 ≤ e.1 ∨ inWindow e.1 = true then s
  else
    match s.walk ctx e.1 with
    | .ok x =>
      let l := x.place e.1
      if x.w && (l.host || decide (l.pa + e.2.length ≤ deviceBytes)) then ((s.homeWrite (lineKey l)).2).setBytes l e.2 else s
    | _ => s

/-- Bytes in runs of 16 with their addresses. -/
def runsOf (a : Nat) (bs : List Byte) : List (Nat × List Byte) :=
  (List.range ((bs.length + 15) / 16)).map fun i => (a + 16 * i, (bs.drop (16 * i)).take 16)

/-- Writes bytes at a virtual address aligned to 16, as a pump does. -/
def State.virtWrite (s : State) (ctx a : Nat) (bs : List Byte) : State := (runsOf a bs).foldl (State.virtRun ctx) s

/-! The spill area (R298, R309). -/

/-- Bytes of the part of the spill area that holds a drain image (R298). -/
def imageBytes (sizes : List (Nat × Nat)) : Nat := roundUp (64 + (sizes.map fun e => 16 + (e.1 + 1) * e.2).sum) 65536

/-- SPILLA of a plan. -/
def Plan.spilla (x : Plan) : Nat := dwordAt x.hdr 4

/-- DEPTH and SLOTB of the pipes of a plan, in ascending index. -/
def State.pipeSizes (s : State) (plan : Nat) : List (Nat × Nat) := (s.planPipes plan).filterMap fun k => (s.pipe? k).map fun p => (p.depth, p.slotB)

/-- The spill slot of a pipe of a plan (R309). -/
def State.spillAddr (s : State) (k : Nat) : Nat :=
  match s.plan? (k / 4096) with
  | some x => x.spilla + imageBytes (s.pipeSizes (k / 4096)) + (((s.pipeSizes (k / 4096)).take (k % 4096)).map Prod.snd).sum
  | none => 0

/-- Writes a tile into the spill slot of its pipe. -/
def State.spillWrite (s : State) (k : Nat) (bs : List Byte) : State := s.virtWrite (k / 65536) (s.spillAddr k) bs

/-- Writes the tile of a pipe that holds the spill slot, if one does. -/
def State.spillTile (s : State) (k : Nat) : State :=
  match (s.pipe? k).bind fun p => (p.tiles.find? PipeTile.spill).bind PipeTile.data with
  | some bs => s.spillWrite k bs
  | none => s

/-- The bytes of a pulled tile: those in the spill area for the tile that holds the spill slot (R309). -/
def State.tileBytes (s : State) (k : Nat) (p : Pipe) (t : PipeTile) : List Byte :=
  if t.spill then
    match s.virtWords none (k / 65536) (s.spillAddr k) (p.slotB / 4) 0 with
    | (ws, none) => bytesOf ws
    | _ => t.data.getD []
  else t.data.getD []

/-- The first poisoned line of the spill slot a pump reads (R179). -/
def State.spillPoison (s : State) (k : Nat) (p : Pipe) : Option Nat := s.virtSpoiled (k / 65536) (s.spillAddr k) p.slotB

/-! Pulls (R304, R306, R309). -/

/-- Pipe slots in use, the spill slot left aside. -/
def Pipe.slotsHeld (p : Pipe) : Nat := (p.tiles.filter fun t => t.data.isSome && !t.spill).length

/-- Where the next pull goes: a free pipe slot (false), the spill slot of an EXTENDED pipe whose slots are all full (true), or nowhere. -/
def Pipe.pullTo (p : Pipe) : Option Bool :=
  if p.slotsHeld < p.depth then some false else if p.extended && !p.spilled then some true else none

/-- Pulls a published tile out of its outbox slot into a pipe slot, or the spill slot: its bytes are read and the outbox slot returns to FREE (R304, R306). -/
def State.pullTile (s : State) (k num : Nat) : State :=
  match s.pipe? k with
  | none => s
  | some p =>
    match p.tiles.find? (fun t => t.num == num) with
    | none => s
    | some t =>
      match t.src with
      | none => s
      | some (team, i, ops) =>
        match p.ring? false team with
        | none => s
        | some r =>
          let bytes := s.spadRead (team / 16) (s.spBase team + r.base + i * p.slotB) p.slotB
          let spill := p.pullTo.getD false
          let p1 := p.modRing false team (·.setSlot i (0, 0))
          let p2 := { p1 with tiles := p1.tiles.map fun x =>
            if x.num == num then { x with data := some bytes, src := none, spill := spill, moving := false } else x }
          let s1 := ops.foldl (fun u o => u.answerOp o []) (s.modPipe k fun _ => p2)
          (if spill then s1.spillTile k else s1).grantWaits k

/-! Between the dies (R16, R17, R305). -/

/-- The die whose cistern is a pipe's home. -/
def Pipe.die (p : Pipe) : Nat := p.home / 4

/-- Whether a team's core and a pipe's home lie on two dies; a pump reaches a saved team's image without the mesh (log 112). -/
def Pipe.far (p : Pipe) (team : Nat) : Bool := decide (team / 16 < 256) && dieOf (team / 16) != p.die

/-- The router port of a home: that of a free cluster of its die (log 106). -/
def State.homePort (s : State) (p : Pipe) : Nat × State :=
  (portOf (dieCluster p.die ((Config.freeValue s.fresh).toNat % 16)), { s with fresh := s.fresh + 1 })

/-- A message of a pipe, of bulk class (R346). -/
def State.pipeSend (s : State) (k src dst layer flits : Nat) (body : Payload) : State :=
  s.meshSend { src := src, dst := dst, lat := false, flits := flits, got := 0, layer := layer, ctx := k / 65536, part := s.partOf (k / 65536), body := body }

/-- A counter update of a pipe crosses to its home's die as a flit of layer 0 (R17, R305). -/
def State.tellHome (s : State) (k : Nat) (p : Pipe) (team id : Nat) : State :=
  if p.far team then
    let q := s.homePort p
    q.2.pipeSend k (team / 16) q.1 0 1 (.update k id)
  else s.modPipe k fun x => { x with updates := x.updates.map fun u => if u.id = id then { u with there := true } else u }

/-- The flits of a tile, and the layer that its first line selects (R17). DESIGN CHOICE (log 112): a tile crosses as one message on the layer of its first line. -/
def tileFlits (p : Pipe) : Nat := p.slotB / 64
def tileLayer (at_ : Nat) : Nat := at_ / 64 % 4

/-- The pump begins to pull a tile: over the mesh where its core lies on another die (R305). -/
def State.startPull (s : State) (k : Nat) (p : Pipe) (t : PipeTile) : State :=
  match t.src with
  | none => s
  | some (team, i, _) =>
    if p.far team then
      let at_ := s.spBase team + (match p.ring? false team with | some r => r.base | none => 0) + i * p.slotB
      let q := s.homePort p
      (q.2.modPipe k fun x => { x with tiles := x.tiles.map fun y => if y.num == t.num then { y with moving := true } else y }).pipeSend
        k (team / 16) q.1 (tileLayer at_) (tileFlits p) (.pull k t.num)
    else s.pullTile k t.num

/-- A pulled tile has crossed the mesh. -/
def State.pullLands (s : State) (k num : Nat) : State :=
  match s.pipe? k with
  | some p => if p.tiles.any fun t => t.num == num && t.moving then s.pullTile k num else s
  | none => s

/-! Deliveries (R208, R303 to R305). -/

/-- The next tile to deliver: the oldest not standing in an inbox, once it has been pulled. -/
def Pipe.nextDeliver (p : Pipe) : Option PipeTile := (p.tiles.find? fun t => !t.delivered).filter fun t => t.data.isSome

/-- Whether a tile is on its way to a ring. -/
def Ring.arriving (r : Ring) : Bool := r.slots.any fun x => x.1 == 4

/-- The bound inboxes from the next one on, each with its place in the list of rings. -/
def Pipe.inboxOrder (p : Pipe) : List (Nat × Ring) :=
  let n := p.rings.length
  ((List.range n).map fun i => (p.turn + i) % n).filterMap fun i => (p.rings[i]?).bind fun r => if r.inbox then some (i, r) else none

/-- The inbox and slot a tile goes to. -/
def Pipe.inboxFor (p : Pipe) : Option (Nat × Ring × Nat) :=
  p.inboxOrder.findSome? fun e => if e.2.arriving then none else (e.2.slotIn 0).map fun i => (e.1, e.2, i)

/-- A tile lands in an inbox slot: its bytes, then the sequence word; DLV counts its first delivery (R208, R302, R303). -/
def State.landIn (s : State) (k : Nat) (p : Pipe) (t : PipeTile) (r : Ring) (i : Nat) : State :=
  let core := r.team / 16
  let base := s.spBase r.team
  let seq := (r.seq + 1) % 2 ^ 32
  let s1 := (s.spadStore core (base + r.base + i * p.slotB) (s.tileBytes k p t)).spadStore core (base + r.seqAt) (Byte.split 4 seq)
  (s1.modPipe k fun q =>
    { (q.modRing true r.team fun x => { (x.setSlot i (1, t.num)) with seq := seq }) with
      dlv := if t.counted then q.dlv else q.dlv + 1,
      tiles := q.tiles.map fun x => if x.num == t.num then { x with delivered := true, counted := true } else x }).grantWaits k

/-- The pump delivers a tile to an inbox, whose turn is over: over the mesh where its core lies on another die (R304, R305). -/
def State.startPush (s : State) (k : Nat) (p : Pipe) (t : PipeTile) (at_ : Nat) (r : Ring) (i : Nat) : State :=
  let s1 := s.modPipe k fun q => { q with turn := (at_ + 1) % q.rings.length }
  if p.far r.team then
    let s2 := s1.modPipe k fun q =>
      { (q.modRing true r.team fun x => x.setSlot i (4, t.num)) with
        tiles := q.tiles.map fun x => if x.num == t.num then { x with delivered := true } else x }
    let h := s2.homePort p
    h.2.pipeSend k h.1 (r.team / 16) (tileLayer (s.spBase r.team + r.base + i * p.slotB)) (tileFlits p) (.push k t.num)
  else s1.landIn k p t r i

/-- The slot of a pipe that a tile is on its way to. -/
def Pipe.arrivalOf (p : Pipe) (num : Nat) : Option (Ring × Nat) :=
  p.rings.findSome? fun r => if r.inbox then (r.slots.findIdx? fun x => x == (4, num)).map fun i => (r, i) else none

/-- A delivered tile has crossed the mesh; one whose inbox has been given up meanwhile is delivered again. -/
def State.pushLands (s : State) (k num : Nat) : State :=
  match s.pipe? k with
  | none => s
  | some p =>
    match p.arrivalOf num, p.tiles.find? fun t => t.num == num with
    | some (r, i), some t => s.landIn k p t r i
    | _, _ => s

/-! A team's holdings (R307, R310, R415). -/

/-- Takes a team's publications under way and published tiles out of its outbox, as the commands that have left the core are performed (R415). -/
def State.settlePubs (s : State) (k team : Nat) : State :=
  match s.pipe? k with
  | none => s
  | some p =>
    let mine := p.updates.filter fun u => u.publish && u.team == team
    let s1 := s.modPipe k fun p => mine.foldl Pipe.applyPub { p with updates := p.updates.filter fun u => !(u.publish && u.team == team) }
    match s1.pipe? k with
    | none => s1
    | some p1 =>
      (p1.tiles.filter fun t => match t.src with | some (x, _, _) => x == team | none => false).foldl (fun t x => t.pullTile k x.num) s1

/-- The place of the next inbox after some rings are taken away. -/
def turnAfter (rings : List Ring) (turn : Nat) (gone : Ring → Bool) : Nat := turn - ((rings.take turn).filter gone).length

/-- Takes rings away; the tiles that stand in them unacquired, or are on their way there, return to the pipe and are delivered again (R307). -/
def Pipe.dropRings (p : Pipe) (gone : Ring → Bool) : Pipe :=
  let back := (((p.rings.filter fun r => gone r && r.inbox).flatMap Ring.slots).filter fun (x : Nat × Nat) => x.1 == 1 || x.1 == 4).map Prod.snd
  { p with rings := p.rings.filter (fun r => !gone r), turn := turnAfter p.rings p.turn gone,
           tiles := p.tiles.map fun t => if back.contains t.num then { t with delivered := false } else t }

/-- A team gives up its holdings at one pipe (R307); in a drain only its rings go (R310). -/
def State.leavePipe (s : State) (team : Nat) (drain : Bool) (k : Nat) : State :=
  let s1 := s.settlePubs k team
  match s1.pipe? k with
  | none => s1
  | some p =>
    let mine (r : Ring) : Bool := r.team == team
    let slots (inbox : Bool) (st : Nat) : List (Nat × Nat) := ((p.rings.filter fun r => mine r && r.inbox == inbox).flatMap Ring.slots).filter fun x => x.1 == st
    if drain then s1.modPipe k fun _ => { p with rings := p.rings.filter fun r => !mine r }
    else
      let p1 : Pipe := { p with rsv := p.rsv - (slots false 1).length }
      let p2 : Pipe := (slots true 2).foldl (fun q x => q.releaseTile x.2) p1
      (s1.modPipe k fun _ => p2.dropRings mine).grantWaits k

/-- A team gives up every pipe holding. -/
def State.leavePipes (s : State) (team : Nat) (drain : Bool) : State :=
  (s.planPipes (s.team team).plan).foldl (fun t k => t.leavePipe team drain k) s

end Sys2Proof.Machine
end

