-- ==== Sys2Proof/Machine/Teams.lean ====
section
/-! DEFINITION. How teams complete and are ended, how plans finish, barrier counts as teams leave, and the reset of a context (R300, R301, R307, R310, R332, R334, R368, R415). -/

namespace Sys2Proof.Machine

/-! Barriers (R331 to R334). -/

def BarLevel.code : BarLevel → Nat
  | .team => 0 | .die => 1 | .pkg => 2
/-- The place of a barrier id among the 28 names a fibre holds a phase for (R333). -/
def barName (l : BarLevel) (i : Nat) : Nat :=
  match l with | .team => i | .die => 16 + i | .pkg => 24 + i

/-- The fibres of a team, all of them live. -/
def State.liveIn (s : State) (t : Nat) : List Nat := s.teamFibres t

/-- The teams of a stage that have been launched and have not completed, those in shadow storage too. -/
def State.stageTeams (s : State) (key : Nat) : List Nat :=
  (s.teams.filter fun e => !e.2.ended && stageKey e.2.plan e.2.stage == key).map Prod.fst

/-- The teams of a stage that hold a core, not those in shadow storage. -/
def State.placedTeams (s : State) (key : Nat) : List Nat := (s.stageTeams key).filter fun t => decide (t / 16 < 256)

/-- The combining point of a die: the cluster of lowest number on it that holds a team of the stage (R334); the die's first cluster while none does. -/
def State.combinePoint (s : State) (key die : Nat) : Nat :=
  match ((s.placedTeams key).map fun t => clusterOf (t / 16)).filter fun c => dieOfCluster c == die with
  | [] => dieCluster die 0
  | c :: cs => cs.foldl min c

/-- The package combining point: the lowest cluster that holds a team of the stage (R334). -/
def State.packagePoint (s : State) (key : Nat) : Nat := (s.placedTeams key).foldl (fun m t => min m (clusterOf (t / 16))) 63

/-- Sends a barrier message to a cluster from another or from a core of the same, always of latency class and over layer 0 where it leaves its cluster (R17, R334, R338). -/
def State.sendBar (s : State) (from_ : Nat) (m : BarMsg) : State :=
  let k := s.nextId
  let far := from_ != m.at_
  let s1 := { s with nextId := k + 1, bmsgs := NMap.put s.bmsgs k { m with there := !far } }
  if far then s1.meshSend { src := portOf from_, dst := portOf m.at_, lat := true, flits := 1, got := 0, layer := 0, ctx := m.stage / 256,
                            part := s.partOf (m.stage / 256), body := .barrier k }
  else s1

def State.modBar (s : State) (p : StageBar → Bool) (f : StageBar → StageBar) : State :=
  { s with sbars := s.sbars.map fun b => if p b then f b else b }

/-- The teams of an instance that belong to a die. -/
def State.barTeams (s : State) (b : StageBar) (d : Nat) : List Nat := (s.stageTeams b.stage).filter fun t => (s.team t).die == d

/-- Whether an instance covers a die. -/
def StageBar.onDie (b : StageBar) (d : Nat) : Bool := b.level == .pkg || b.die == d

/-- Sends a team's arrival message at an instance to its cluster once all its live fibres have arrived (R334). -/
def State.barTeam (s : State) (b : StageBar) (t : Nat) : State :=
  let d := (s.team t).die
  if !b.onDie d || b.sent.contains t || decide (256 ≤ t / 16) then s
  else if (s.liveIn t).all b.arrived.contains && !(s.liveIn t).isEmpty then
    (s.modBar (· == b) fun x => { x with sent := x.sent ++ [t] }).sendBar (clusterOf (t / 16))
      { level := b.level, id := b.id, stage := b.stage, die := d, step := .team, teams := [t], at_ := clusterOf (t / 16), there := false }
  else s

/-- Sends a cluster's message to the point of a die once every team of the stage that it holds for that die has arrived (R334). -/
def State.barCluster (s : State) (b : StageBar) (cl d : Nat) : State :=
  let ts := (s.barTeams b d).filter fun t => decide (t / 16 < 256) && clusterOf (t / 16) == cl
  let new := ts.filter fun t => !b.reported.contains t
  if !b.onDie d || new.isEmpty || !ts.all b.inCluster.contains then s
  else (s.modBar (· == b) fun x => { x with reported := x.reported ++ new }).sendBar cl
      { level := b.level, id := b.id, stage := b.stage, die := d, step := .cluster, teams := new, at_ := b.points.getD d 0, there := false }

/-- Sends a die's message to the package point once every team of the stage on the die has been counted (R334). -/
def State.barDie (s : State) (b : StageBar) (d : Nat) : State :=
  let ts := s.barTeams b d
  if b.level != .pkg || b.diesSent.contains d || ts.isEmpty || !ts.all b.counted.contains then s
  else (s.modBar (· == b) fun x => { x with diesSent := x.diesSent ++ [d] }).sendBar (b.points.getD d 0)
      { level := .pkg, id := b.id, stage := b.stage, die := d, step := .die, teams := [], at_ := b.top, there := false }

/-- The instance a barrier was a moment ago, found again by its name. -/
def State.bar? (s : State) (l : BarLevel) (id stage die : Nat) : Option StageBar :=
  s.sbars.find? fun b => b.level == l && b.id == id && b.stage == stage && (b.level == .pkg || b.die == die)

/-- Acts on every instance of a stage by name. -/
def State.eachBar (s : State) (key : Nat) (k : State → StageBar → State) : State :=
  ((s.sbars.filter fun b => b.stage == key).map fun b => (b.level, b.id, b.die)).foldl (fun t n =>
    match t.bar? n.1 n.2.1 key n.2.2 with | some b => k t b | none => t) s

/-- Sends every arrival message of a stage that is due. -/
def State.barCheck (s : State) (key : Nat) : State :=
  let ds := [0, 1, 2, 3]
  let s1 := (s.stageTeams key).foldl (fun t x => t.eachBar key fun u b => u.barTeam b x) s
  let s2 := (((s.placedTeams key).map fun t => clusterOf (t / 16)).dedup).foldl (fun t cl =>
    ds.foldl (fun u d => u.eachBar key fun v b => v.barCluster b cl d) t) s1
  ds.foldl (fun t d => t.eachBar key fun u b => u.barDie b d) s2

/-- Whether an instance may release (R334). -/
def State.barOpen (s : State) (b : StageBar) : Bool :=
  match b.level with
  | .pkg => [0, 1, 2, 3].all fun d => (s.barTeams b d).isEmpty || b.dies.contains d
  | _ => (s.barTeams b b.die).all b.counted.contains

/-- Whether the last release of an instance is still on its way to a team's cluster: there the former phase stands, arrived at (R334). -/
def State.barLate (s : State) (b : StageBar) (t : Nat) : Bool := b.late.contains (clusterOf (t / 16), (s.team t).die)

/-- A fibre dies: a barrier its team then has no more to wait for goes on (R334). -/
def State.endFibre (s : State) (f : Nat) : State :=
  let x := s.team (s.fibre f).team
  (s.killFibre f).barCheck (stageKey x.plan x.stage)

/-! Plans (R301). -/

/-- The cores of a list of clusters. -/
def clusterCores (cls : List Nat) : List Nat := cls.flatMap fun c => [4 * c, 4 * c + 1, 4 * c + 2, 4 * c + 3]

/-- Takes a core from its stage: its range slots and barrier units return, and its virtual number leaves the core map (R416). -/
def State.freeCore (s : State) (c : Nat) : State :=
  let s1 := s.modCore c fun x => { x with plan := none, phase := if x.phase = .vacated then .vacated else .running, ranges := [], rangeq := [], units := [] }
  match (s.core c).ctx with
  | some k => s1.modCtx k fun x => { x with vmap := x.vmap.filter fun e => e.2 != c }
  | none => s1

/-- Frees the clusters of a plan's stages. -/
def State.freeClusters (s : State) (cls : List Nat) : State := (clusterCores cls).foldl State.freeCore s

/-- The core number under which an image stands. -/
def Image.shadow (i : Image) : Nat := 4096 + i.num

/-- Frees the shadow storage of some images: nothing of theirs is left. -/
def State.freeImages (s : State) (p : Image → Bool) : State :=
  let gone := (s.images.filter p).map Image.shadow
  { s with images := s.images.filter (fun i => !p i), cores := s.cores.filter (fun (e : Nat × Core) => !gone.contains e.1),
           regs := s.regs.filter (fun e => !gone.contains (e.1 / 65536)), spad := s.spad.filter fun e => !gone.contains (e.1 / spadBytes) }

/-- Takes a plan away with its pipes, barrier ids and clusters; its number is free. -/
def State.removePlan (s : State) (p : Nat) : State :=
  match s.plan? p with
  | none => s
  | some x =>
    let s1 := s.freeClusters (x.stages.flatMap Stage.clusters)
    let s1 := s1.freeImages fun i => i.plan == p
    { s1 with plans := NMap.del s1.plans p,
              pipes := s1.pipes.filter (fun e => e.1 / 4096 != p),
              sbars := s1.sbars.filter (fun b => b.stage / 16 != p),
              bmsgs := s1.bmsgs.filter (fun e => e.2.stage / 16 != p),
              preempts := s1.preempts.filter fun r => r.plan != p }

/-- Tiles published and not released, over the pipes of a plan. -/
def State.tilesLeft (s : State) (p : Nat) : Nat :=
  ((s.pipes.filter fun e => e.1 / 4096 == p).map fun e => e.2.tiles.length).sum

/-- Writes a plan's completion word: the state, and whether the write faulted (R301). -/
def State.writeDone (s : State) (ctx addr : Nat) : State × Bool :=
  if addr = 0 then (s, false)
  else if 2 ^ 57 ≤ addr then (s, true)
  else
    match s.walk ctx addr with
    | .ok e =>
      let l := e.place addr
      if !e.w || (!l.host && decide (deviceBytes < l.pa + 8)) then (s, true)
      else (((s.homeWrite (lineKey l)).2).setBytes l (Byte.split 8 1), false)
    | _ => (s, true)

/-- Starts the write-backs of every dirty block of a core. -/
def State.startFlush (s : State) (core : Nat) : State :=
  (s.core core).l1.foldl (fun t b => (t.writeBack core b [] false).1) s

/-- Whether a plan's teams have all completed or been ended. -/
def Plan.over (x : Plan) : Bool := x.stages.all fun g => g.finished + g.ended == g.teams

/-- The cores a plan holds. -/
def Plan.cores (x : Plan) : List Nat := clusterCores (x.stages.flatMap Stage.clusters)

/-- The release before a completion word is written (R186, R301): the write-backs of the plan's cores start. -/
def State.planFlush (s : State) (p : Nat) (x : Plan) : State :=
  (x.cores.foldl State.startFlush s).modPlan p fun y => { y with doneAt := some (max s.horizon y.settle) }

/-- Whether that release is done: no write-back of the plan's cores is under way, and horizon time has reached its completion times. -/
def State.planSettled (s : State) (x : Plan) (t : Nat) : Bool :=
  !(s.reqs.any fun e => x.cores.contains e.2.core && e.2.back) && decide (x.cores.foldl (fun m c => max m (s.core c).ev) t ≤ s.horizon)

/-- A plan is DONE: its completion word is written, the event raised, everything returned (R301, R400). -/
def State.planDone (s : State) (p : Nat) (x : Plan) : State :=
  let w := s.writeDone x.ctx (dwordAt x.hdr 8)
  let tasks := (x.stages.map Stage.taskLoad).sum
  let ended := (x.stages.map Stage.ended).sum
  (w.1.event 0x02 ([x.ctx + 16 * x.number, s.tilesLeft p, tasks] ++ lowHigh s.horizon ++ [ended, b2n w.2])).removePlan p

/-- A plan whose teams have all completed or been ended is DONE once the release of its completion word is done (R301). -/
def State.planCheck (s : State) (p : Nat) : State :=
  match s.plan? p with
  | none => s
  | some x =>
    if x.state ≠ .running ∨ x.over = false then s
    else if dwordAt x.hdr 8 = 0 then s.planDone p x
    else
      let s1 := if x.doneAt.isSome then s else s.planFlush p x
      match s1.plan? p with
      | some y => if s1.planSettled y (y.doneAt.getD 0) then s1.planDone p y else s1
      | none => s1

/-! Teams (R300, R415). -/

/-- Whether a post of a team holds a unit that has been granted and not retired. -/
def State.unitsLeft (s : State) (t : Nat) : Bool :=
  s.tables.any fun e => e.2.queue == t && decide (e.2.retired < e.2.granted)

/-- Whether a copy queue's head is within a step that it can finish, being neither parked nor halted (R414). -/
def CopyEngine.inStep (c : CopyEngine) (x : CopyCmd) : Bool :=
  x.held.isSome && c.parked.isNone && x.halt.isNone && (c.queue.head?.map CopyCmd.op) == some x.op

/-- Whether a copy command of an ended team is still to finish its step (R415). -/
def State.copyLeft (s : State) (t : Nat) : Bool := (s.core (t / 16)).copy.queue.any fun x => x.team == t && x.quit

/-- Returns an ended team's tiles and scratchpad once its last unit has retired and its last copy step is done (R415). -/
def State.dropEnded (s : State) (t : Nat) : State :=
  match NMap.find s.teams t with
  | some x => if x.ended && !s.unitsLeft t && !s.copyLeft t then { s with teams := NMap.del s.teams t } else s
  | none => s

/-- Frees an entry of a reservation table. -/
def State.freeEntry (s : State) (k : Nat) : State := { s with tables := NMap.del s.tables k }

/-- Posts that have left the table while units of theirs still run stand from this key on. -/
def detachedBase : Nat := 2 ^ 32

/-- A discarded post leaves the table; units of it that still run go on with its record under a key outside (R262, R277). -/
def State.detachPost (s : State) (k : Nat) : State :=
  match NMap.find s.tables k with
  | none => s
  | some p =>
    if p.retired < p.granted then
      let n := detachedBase + s.nextId
      let move (u : PassUnit) : PassUnit := if u.entry = k then { u with entry := n } else u
      { s with nextId := s.nextId + 1, tables := NMap.put (NMap.del s.tables k) n { p with discarded := true },
               cores := s.cores.map fun (c : Nat × Core) => (c.1, { c.2 with arr := { c.2.arr with units := c.2.arr.units.map move } }) }
    else s.freeEntry k

/-- Discards the posts of an ended team; their granted units run on (R415). -/
def State.dropPosts (s : State) (t : Nat) : State :=
  let mine := s.tables.filter fun e => e.2.queue == t && !e.2.discarded
  (mine.foldl (fun u e => u.detachPost e.1) s).discardOps (mine.flatMap fun e => e.2.cmd.ops)

/-- A tile without the binding of a team. -/
def Tile.undep (t : Nat) (x : Tile) : Tile :=
  match x.dep with
  | some (_, _, q) => if q = t then { x with dep := none } else x
  | none => x

/-- Drops the dependence bindings of a team's tiles that have not fired (R279). -/
def State.dropDeps (s : State) (t : Nat) : State :=
  s.modCore (t / 16) fun c =>
    let ts := (c.arr.tiles.map fun (e : Nat × Tile) => (e.1, e.2.undep t)).filter fun e => decide (e.2 ≠ Tile.clear)
    { c with arr := { c.arr with tiles := ts } }

/-- Returns what a team holds and counts it completed or ended. -/
def State.releaseTeam (s : State) (t : Nat) (isEnded : Bool) : State :=
  let x := s.team t
  let s1 := s.modCore (t / 16) fun c => { c with units := c.units.filter fun e => e.2.1 != t }
  let s2 := { (s1.dropDeps t) with mxq := NMap.del s1.mxq t, uregs := NMap.clearRange s1.uregs (64 * t) (64 * t + 64) }
  let s3 := if s2.unitsLeft t || s2.copyLeft t then
      s2.modTeam t fun y => { y with ended := true, slots := [], spans := [], spalloc := if s2.copyLeft t then y.spalloc else 0, units := [] }
    else { s2 with teams := NMap.del s2.teams t }
  let s4 := s3.modStage x.plan x.stage fun g =>
    { g with live := g.live.filter (· != t), finished := if isEnded then g.finished else g.finished + 1,
             ended := if isEnded then g.ended + 1 else g.ended }
  let key := stageKey x.plan x.stage
  let s5 := match s4.stage? x.plan x.stage with
    | some g => if g.finished + g.ended = g.teams then { s4 with sbars := s4.sbars.filter fun b => b.stage != key } else s4
    | none => s4
  (s5.barCheck key).planCheck x.plan

/-- A team completes when its last fibre has committed `exit` (R300). -/
def State.completeTeam (s : State) (t : Nat) : State := (s.leavePipes t false).releaseTeam t false

/-- Discards what a fibre has outstanding that no engine will finish: releases not yet performed, fences of windows, waits at pipes. -/
def State.dropFibreWork (s : State) (f : Nat) : State :=
  let os := (s.ops.filter fun e => e.2.fibre == f && e.2.rel.isSome).map Prod.fst ++
    (s.fxf.filter fun x => x.fibre == f).map FxFence.op ++
    (s.pipes.flatMap fun e => (e.2.waiting.filter fun w => w.fibre == f).flatMap PipeWait.ops) ++
    ((s.core (coreOf f)).rangeq.filter fun e => e.2.2 == f).map fun e => e.2.1
  (s.modCore (coreOf f) fun c => { c with rangeq := c.rangeq.filter fun e => e.2.2 != f }).discardOps os

/-- Discards the engine commands of a team that have not started, and a running copy command between its steps (R415). -/
def State.dropCommands (s : State) (t : Nat) (fs : List Nat) : State :=
  let core := t / 16
  let c := s.core core
  let mineX (x : XCmd) : Bool := x.lanes.any fun l => fs.contains l.1
  let stays (x : CopyCmd) : Bool := x.team != t || c.copy.inStep x
  let copies := (c.copy.queue.filter fun x => !stays x).map CopyCmd.op
  let cmds := (c.pipeq ++ c.fabq ++ c.statq).filter mineX
  let m := s.mxGet t
  let hand (f : Nat) : Bool := fs.contains f
  let s1 := s.modCore core fun y =>
    { y with copy := { y.copy with queue := (y.copy.queue.filter stays).map fun x => if x.team = t then { x with quit := true } else x,
                                   parked := if (y.copy.queue.head?.map fun x => x.team == t) == some true then none else y.copy.parked },
             pipeq := y.pipeq.filter fun x => !mineX x, fabq := y.fabq.filter fun x => !mineX x,
             statq := y.statq.filter fun x => !mineX x }
  let h := c.hq
  let s2 := (s1.mxSet t { m with cmds := [], offers := [], halts := [], claims := [] }).mxMod (handlerQueue core) fun q =>
    { q with cmds := q.cmds.filter fun x => x.waiting || !hand x.fibre, offers := q.offers.filter fun x => !hand x.fibre }
  let s3 := copies.foldl (fun u o => u.engDrop core o) (s2.discardOps (copies ++ cmds.flatMap (fun x => x.lanes.map fun l => l.2.1) ++ m.cmds.flatMap MxCmd.ops ++
    m.offers.flatMap Offer.ops ++ (h.cmds.filter fun x => !x.waiting && hand x.fibre).flatMap MxCmd.ops ++ (h.offers.filter fun x => hand x.fibre).flatMap Offer.ops))
  s3.dropPosts t

/-- Ends a team (R415); `drain` when its plan is drained (R310). -/
def State.endTeam (s : State) (t : Nat) (drain : Bool) : State :=
  let fs := s.teamFibres t
  let s1 := s.guardsDrop (t / 16) fun g => fs.contains g.fibre
  let s2 := s1.dropCommands t fs
  let s3 := fs.foldl State.dropFibreWork s2
  let s4 := s3.leavePipes t drain
  (fs.foldl State.killFibre s4).releaseTeam t true

/-! Context reset (R368). -/

/-- Reassembly contexts of a router (R341). -/
def reassembly : Nat := 32

/-- The cores a context holds. -/
def State.ctxCores (s : State) (ctx : Nat) : List Nat := (s.cores.filter fun e => e.2.ctx == some ctx).map Prod.fst

/-- Frees every held entry of a wait table; the generation advances (R219). -/
def freeWaits (w : NMap WaitEntry) : NMap WaitEntry :=
  w.map fun e => if e.2.held then (e.1, { WaitEntry.free with gen := (e.2.gen + 1) % 256 }) else e

/-- A core whose context is reset: engines, pool, queues, commands and waits emptied (R368). -/
def Core.afterReset (ctx : Nat) (c : Core) : Core :=
  { c with phase := .running, pool := [], queues := [], copy := { queue := [], parked := none, done := 0 },
           arr := { c.arr with cells := [], bad := [], sump := [], resident := none, shadow := none, units := [], opensAt := 0,
                               lut := none, drain := [], tiles := c.arr.tiles.map fun e => (e.1, { e.2 with dep := none }) },
           hq := MxQueue.empty, ranges := [], rangeq := [], wcb := c.wcb.filter fun (l : WcLine) => l.ctx != ctx, waits := freeWaits c.waits, starved := [], units := [],
           plan := none, pipeq := [], fabq := [], statq := [] }

/-- The FABRIC entries of a core that packets not acknowledged hold, as a pool (R352, R355). -/
def State.fabHeld (s : State) (core : Nat) : NMap Nat :=
  NMap.store [] instFabric ((s.wins.flatMap fun e => (e.2.packets.filter fun p => p.core == core && !p.acked).map SentPacket.entries).sum) 0

/-- The windows as a reset of a context leaves them: its packets that have left are kept until they are acknowledged, for no command (R368). -/
def State.winsAfter (s : State) (ctx : Nat) : NMap WinEntry :=
  s.wins.map fun (e : Nat × WinEntry) => (e.1, { e.2 with
    packets := (e.2.packets.filter fun (p : SentPacket) => (p.sent && !p.acked) || p.ctx != ctx).map fun (p : SentPacket) =>
      if p.ctx = ctx then { p with op := none, fibres := [], cmds := [] } else p })

/-- The mesh without the messages of a context; the contexts they free go to the messages that claim them (R341, R342). -/
def Mesh.dropContext (m : Mesh) (ctx : Nat) : Mesh :=
  let gone (k : Nat) : Bool := match NMap.find m.msgs k with | some x => x.ctx == ctx | none => true
  let live := m.claims.filter fun e => !gone e.2
  let held (r : Nat) : List Nat := (NMap.get m.contexts r []).filter fun k => !gone k
  let taken := live.filter fun e => decide ((held e.1).length < reassembly)
  { m with
    msgs := m.msgs.filter (fun (e : Nat × Msg) => e.2.ctx != ctx), flits := m.flits.filter (fun (f : Flit) => !gone f.msg),
    outq := (m.outq.map fun e => (e.1, e.2.filter fun x => !gone x.1)).filter (fun e => !e.2.isEmpty),
    claims := live.filter fun e => decide (reassembly ≤ (held e.1).length),
    contexts := taken.foldl (fun c e => NMap.put c e.1 (held e.1 ++ [e.2]))
      ((m.contexts.map fun e => (e.1, e.2.filter fun k => !gone k)).filter (fun e => !e.2.isEmpty)) }

/-- Resets a context for a cause (R368, R369, R387). -/
def State.resetContext (s : State) (ctx cause : Nat) : State :=
  let cs := s.ctxCores ctx
  let on (c : Nat) : Bool := cs.contains c
  let mine (f : Nat) : Bool := on (coreOf f)
  let part := s.partOf ctx
  let mask := maskOf ((s.plans.filter fun e => e.1 / 16 == ctx).map fun e => e.1 % 16)
  let s0 := s.freeImages fun i => i.ctx == ctx
  let s1 := { s0 with
    cur := match s.cur with | some g => if on (g / 64) then none else some g | none => none,
    fibres := s.fibres.filter (fun e => !mine e.1),
    groups := s.groups.filter (fun e => !on (e.1 / 64)),
    teams := s.teams.filter (fun e => !on (e.1 / 16)),
    uregs := s.uregs.filter (fun e => !on (e.1 / 1024)),
    hwins := s.hwins.filter (fun e => !on (e.1 / 128)),
    ops := s.ops.filter (fun e => !mine e.2.fibre),
    reqs := s.reqs.filter (fun e => e.2.ctx != ctx),
    poolq := s.poolq.filter (fun r => !on r.core),
    tables := s.tables.filter (fun e => !on e.2.core),
    mxq := s.mxq.filter (fun e => !on (e.1 / 16)),
    sbars := s.sbars.filter (fun b => b.stage / 256 != ctx),
    bmsgs := s.bmsgs.filter (fun e => e.2.stage / 256 != ctx),
    plans := s.plans.filter (fun e => e.1 / 16 != ctx),
    pipes := s.pipes.filter (fun e => e.1 / 65536 != ctx),
    preempts := s.preempts.filter (fun r => r.ctx != ctx),
    gangs := s.gangs.filter (fun g => g.ctx != ctx),
    fxf := s.fxf.filter (fun x => !mine x.fibre),
    wins := s.winsAfter ctx,
    mesh := s.mesh.dropContext ctx,
    cores := s0.cores.map (fun (e : Nat × Core) =>
      if on e.1 then (e.1, { e.2.afterReset ctx with pool := State.fabHeld { s with wins := s.winsAfter ctx } e.1 })
      else (e.1, { e.2 with wcb := e.2.wcb.filter fun (l : WcLine) => l.ctx != ctx })),
    ctxs := NMap.edit s.ctxs ctx fun c => { c with dropping := false, dropOp := [], vmap := [] } }
  s1.event 0x08 ([ctx + 16 * part, cause, mask] ++ lowHigh s.horizon)

end Sys2Proof.Machine
end

