-- ==== Sys2Proof/Machine/Ops.lean ====
section
/-! DEFINITION. Taking a trap, parking a fault, ending a team over a fault, and the return from a handler (R39, R217 to R225, R230). -/

namespace Sys2Proof.Machine

/-- A trap condition as an instruction finds it: class, kind of access, INFO, address, and the page of the key of a fault (R219, R225). -/
structure Cond where
  cls : Nat
  kind : Nat
  info : Nat
  addr : Option Nat
  page : Nat
  size : Nat
deriving DecidableEq, Repr

/-- A condition without an address. -/
def Cond.plain (cls : Nat) : Cond := { cls := cls, kind := 0, info := 0, addr := none, page := 0, size := 0 }
def Cond.withInfo (cls info : Nat) : Cond := { cls := cls, kind := 0, info := info, addr := none, page := 0, size := 0 }
def Cond.at_ (cls kind addr : Nat) : Cond := { cls := cls, kind := kind, info := 0, addr := some addr, page := 0, size := 0 }

/-- The trap a condition becomes in a fibre. -/
def Cond.trap (c : Cond) (x : Fibre) : TrapInfo :=
  { cls := c.cls, pos := x.pos, kind := c.kind, info := c.info, addr := c.addr, npos := x.npos }

/-- Whether a class is one of the faults that park or end a team in user mode (R218). -/
def isPageFault (cls : Nat) : Bool := cls == clsTranslation || cls == clsPermission || cls == clsTableError

/-- TCAUSE of R225; the refused base in TADDR of a window trap is no address, so SPACE is 0 there. -/
def TrapInfo.cause (t : TrapInfo) : Nat :=
  let space := bit (t.addr.getD 0) 56 && t.cls != clsWindowOverflow && t.cls != clsWindowUnderflow
  t.info % 65536 * 65536 + b2n space * 16384 + t.kind % 4 * 4096 + t.pos % 16 * 256 + t.cls % 256

/-- Registers of the handler window: 16, 32 or 64, or 0 for none (R223). -/
def handlerSize (hctl : Word) : Nat :=
  match hctl.toNat % 4 with | 1 => 16 | 2 => 32 | 3 => 64 | _ => 0

/-- HWS of a fibre's context. -/
def State.hws (s : State) (f : Nat) : Nat := match s.ctx? (s.ctxOf f) with | some c => handlerSize c.hctl | none => 0
/-- Address of the handler's first clause (R223). -/
def State.tvec (s : State) (f : Nat) : Nat := match s.ctx? (s.ctxOf f) with | some c => bits c.tvec.toNat 56 2 * 4 | none => 0

/-- Whether a fibre may take its home lane's handler window. -/
def State.windowFree (s : State) (f : Nat) : Bool :=
  match NMap.find s.hwins (hlOf f) with
  | some w => w.holder == f
  | none => true

/-- TakeTrap of R224: the window is taken, the trap registers and the interrupted state are saved, the fibre's pending marks are hidden (R36), and the fibre stands at the handler's first clause in handler mode. -/
def State.takeTrap (s : State) (f : Nat) (t : TrapInfo) : State :=
  let x := s.fibre f
  let w : HandlerWin := { holder := f, tpc := x.pc, tcause := Word.ofNat t.cause, taddr := t.addr.getD 0, tbase := Word.ofNat x.base,
                          tpred := x.preds, loops := x.loops, win := x.win, npos := t.npos, sump := t.cls == clsSumpFull }
  let s1 := { s with hwins := NMap.put s.hwins (hlOf f) w }
  s1.modFibre f fun y => { y with mode := .handler, base := 512 - s.hws f, win := s.hws f, pc := s.tvec f, pos := 0, npos := 0, code := [],
                                  preds := 0, loops := [], fence := none, pend := [], hidden := y.pend }

/-- The fields of an error record of class HANDLER_FAULT or NO_HANDLER (R387). -/
def faultTail (cls pc pos : Nat) (addr : Option Nat) : List Nat := [cls] ++ lowHigh pc ++ [pos] ++ lowHigh (addr.getD 0)

/-- Resets the context of a fibre over a trap that cannot be delivered: error class 0x09 or 0x0A (R223, R224). -/
def State.fatalTrap (s : State) (f cause cls pos : Nat) (addr : Option Nat) : State :=
  let ctx := s.ctxOf f
  (s.errorRecord ctx cause (s.originOf f) (faultTail cls (s.fibre f).pc pos addr)).resetContext ctx cause

/-! Fault records and the wait table (R219, R220, R386). -/

/-- Whether a context's fault ring has a free slot. -/
def State.ringRoom (s : State) (ctx : Nat) : Bool :=
  match s.ctx? ctx with | some c => decide (c.frTail - c.frHead < c.frSize) | none => false

/-- The fault record of R220: parked fibres, trap, and the token's entry and generation. -/
def State.faultRecord (s : State) (fs : List Nat) (t : TrapInfo) (entry gen : Nat) (token : Bool) : Nat :=
  let f := fs.headD 0
  let tm := s.team (s.fibre f).team
  let core := coreOf f
  let addr := t.addr.getD 0
  let tok := if token then gen * 2 ^ 14 + core * 2 ^ 6 + entry else 0
  addr + (s.fibre f).pc * 2 ^ 64 + maskOf (fs.map laneOf) * 2 ^ 128 + tok * 2 ^ 160 + t.cls * 2 ^ 192 +
    b2n (bit addr 56) * 2 ^ 213 + t.kind * 2 ^ 214 + s.partOf (s.ctxOf f) * 2 ^ 216 + t.pos * 2 ^ 220 +
    stageId tm.plan tm.stage * 2 ^ 224 + qcOf f * 2 ^ 246

/-- Queues a record notice for the completion ring; its layout beyond KIND is open (R382, R386). -/
def State.recordNotice (s : State) : State :=
  let e := Word.ofNat (2 * 2 ^ 24) :: 0 :: 0 :: 0 :: (List.range 12).map fun i => Word.ofNat (Config.eventWord 0x100 s.fresh [] i)
  if s.host.events.length < 256 then
    { s with fresh := s.fresh + 1, host := { s.host with events := s.host.events ++ [e] } }
  else { s with fresh := s.fresh + 1, host := { s.host with evlost := min (s.host.evlost + 1) 0xFFFFFFFF } }

/-- Writes a fault record into the context's ring, with its notice and the event FAULT_PENDING (R219, R386). -/
def State.writeFault (s : State) (ctx rec_ : Nat) : State :=
  match s.ctx? ctx with
  | none => s
  | some c =>
    let s1 := s.setBytes ⟨true, c.frBase + 32 * (c.frTail % c.frSize)⟩ (Byte.split 32 rec_)
    ((s1.modCtx ctx fun y => { y with frTail := y.frTail + 1 }).recordNotice).eventOpen 0x01

/-- The wait-table entry of an index. -/
def Core.waitEntry (c : Core) (i : Nat) : WaitEntry := NMap.get c.waits i WaitEntry.free
/-- The held entry with a key. -/
def Core.waitFor (c : Core) (ctx page size kind : Nat) : Option Nat :=
  (List.range 64).find? fun i => let e := c.waitEntry i; e.held && e.ctx == ctx && e.page == page && e.size == size && e.kind == kind
/-- The free entry of lowest index. -/
def Core.waitFree (c : Core) : Option Nat := (List.range 64).find? fun i => !(c.waitEntry i).held
def State.setWait (s : State) (core i : Nat) (e : WaitEntry) : State := s.modCore core fun c => { c with waits := NMap.put c.waits i e }

/-- Blocks fibres at their word, and notes the cycle, which tells the fibres of one trap from others: a part that keeps its group's slot is held there, otherwise it waits in the fibre table. -/
def State.blockAt (s : State) (slot : Option Nat) (fs : List Nat) (w : Nat → Wait) : State :=
  let s1 := fs.foldl (fun t f => t.modFibre f fun x => { x with status := .blocked, wait := some (w f), fence := none, since := s.cycle }) s
  match slot with
  | some g => { s1 with groups := NMap.put s1.groups g { Group.fresh fs with stall := some (w (fs.headD 0)) } }
  | none => s1

/-- The fibres of a list of trapping lanes. -/
def lanesOf (ts : List (Nat × Cond)) : List Nat := ts.map Prod.fst
/-- The fibre and condition a list of trapping lanes is reported by: its lowest lane's. -/
def firstOf (ts : List (Nat × Cond)) : Nat × Cond := ts.headD (0, Cond.plain 0)

/-- Parks faulting fibres under an entry of the wait table, or leaves them to try again when it or the ring is full (R219). -/
def State.park (s : State) (slot : Option Nat) (ts : List (Nat × Cond)) : State :=
  let fs := lanesOf ts
  let (f, c) := firstOf ts
  let core := coreOf f
  let ctx := s.ctxOf f
  let t := c.trap (s.fibre f)
  let own (i h : Nat) : Wait := .parked i (((ts.find? fun e => e.1 == h).map fun e => e.2.trap (s.fibre h)).getD t)
  match (s.core core).waitFor ctx c.page c.size c.kind with
  | some i =>
    let e := (s.core core).waitEntry i
    (s.setWait core i { e with fibres := e.fibres ++ fs }).blockAt slot fs (own i)
  | none =>
    match (s.core core).waitFree, s.ringRoom ctx with
    | some i, true =>
      let e := (s.core core).waitEntry i
      let s1 := s.setWait core i { e with held := true, ctx := ctx, page := c.page, size := c.size, kind := c.kind, info := t, fibres := fs, engine := none }
      (s1.writeFault ctx (s.faultRecord fs t i e.gen true)).blockAt slot fs (own i)
    | _, _ => s.blockAt slot fs fun _ => .faultFull

/-- Puts fibres back at their word, each to issue the instruction again alone (R221). -/
def State.reissue (s : State) (fs : List Nat) : State :=
  fs.foldl (fun t f =>
    let t1 := match t.groupOf f with
      | some g => t.leave g [f]
      | none => t
    ((t1.unseat [f]).refill (qcOf f))) s

/-- Fibres of a core that wait for a free entry try again (R219). -/
def State.retryFull (s : State) (core : Nat) : State :=
  s.reissue ((s.fibres.filter fun e => coreOf e.1 == core && decide (e.2.wait = some .faultFull)).map Prod.fst)

/-- Frees an entry: its generation advances (R219). -/
def State.freeWait (s : State) (core i : Nat) : State :=
  let e := (s.core core).waitEntry i
  (s.setWait core i { WaitEntry.free with gen := (e.gen + 1) % 256 }).retryFull core

/-- Delivers a trap that R218 sends to the handler: lanes whose window is free enter it as one group, the others wait for it. -/
def State.toHandler (s : State) (slot : Option Nat) (ts : List (Nat × Cond)) : State :=
  let (f, c) := firstOf ts
  if s.hws f = 0 then s.fatalTrap f 0x0A c.cls (s.fibre f).pos c.addr
  else
    let goes := ts.filter fun x => s.windowFree x.1
    let waits := ts.filter fun x => !s.windowFree x.1
    let s1 := goes.foldl (fun t x => t.takeTrap x.1 (x.2.trap (s.fibre x.1))) s
    let s2 := waits.foldl (fun t x => t.blockAt none [x.1] fun _ => .handlerWindow (x.2.trap (s.fibre x.1))) s1
    if goes.isEmpty then s2
    else
      match slot with
      | some g => s2.seat g (lanesOf goes)
      | none => s2.seatOrWait (qcOf f) (lanesOf goes)

/-- Ends the team of a fault in a leased stage (R222). -/
def State.leaseViolation (s : State) (ts : List (Nat × Cond)) : State :=
  let fs := lanesOf ts
  let (f, c) := firstOf ts
  let t := c.trap (s.fibre f)
  let ws := Word.split 8 (s.faultRecord fs t 0 0 false)
  (s.errorRecord (s.ctxOf f) 0x0C (s.originOf f) (ws.map BitVec.toNat)).endTeam (s.fibre f).team false

/-- Delivers a trap in the trapping fibres by the mode of the fibre and of its stage (R218). -/
def State.deliver (s : State) (slot : Option Nat) (ts : List (Nat × Cond)) : State :=
  let (f, c) := firstOf ts
  if (s.fibre f).mode = .handler then s.fatalTrap f 0x09 c.cls (s.fibre f).pos c.addr
  else if isPageFault c.cls then
    if s.teamLeased (s.fibre f).team then s.leaseViolation ts else s.park slot ts
  else s.toHandler slot ts

/-- An instruction of a group raises a trap (R217): it has no effect; lanes inactive for it go on past it and keep the slot, the other active lanes leave as READY fibres at the same word, and the trapping fibres take the trap. -/
def State.raise (s : State) (g : Nat) (active : List Nat) (ts : List (Nat × Cond)) : State :=
  let trapping := lanesOf ts
  let members := (s.group g).members
  let idle := members.filter fun f => !active.contains f
  let others := active.filter fun f => !trapping.contains f
  let s1 := (s.leave g (others ++ trapping)).unseat others
  let s2 := if idle.isEmpty then s1 else s1.advance g
  let slot := if idle.isEmpty then some g else none
  (s2.deliver slot ts).refill (g / 16)

/-- A trapping lane takes the handler window once it is free (R224). -/
def State.takeWaiting (s : State) (f : Nat) : State :=
  match (s.fibre f).wait with
  | some (.handlerWindow t) =>
    if s.windowFree f then ((s.takeTrap f t).unseat [f]).refill (qcOf f) else s
  | _ => s

/-- Return from a handler in one lane (R230): window, predicates and loop stack are restored, the mode is user, and the fibre stands at the word to resume; the clause's words are fetched again there. -/
def State.returnOne (skip : Bool) (s : State) (f : Nat) : State :=
  match NMap.find s.hwins (hlOf f) with
  | none => s
  | some w =>
    let pos := if skip then w.npos else bits w.tcause.toNat 11 8
    { (s.modFibre f fun x => { x with base := w.tbase.toNat, win := w.win, preds := w.tpred, loops := w.loops, pc := w.tpc, pos := pos,
                                      npos := 0, code := [], mode := .user, pend := x.hidden ++ x.pend, hidden := [] }) with
      hwins := NMap.del s.hwins (hlOf f) }

/-- Whether `eret` in a lane resets the context (R230). -/
def State.returnBad (s : State) (skip : Bool) (f : Nat) : Bool :=
  match NMap.find s.hwins (hlOf f) with
  | none => true
  | some w => w.tpc % 4 != 0 || (skip && bits w.tcause.toNat 11 8 == 0)

end Sys2Proof.Machine
end

