-- ==== Sys2Proof/Machine/Operands.lean ====
section
/-! DEFINITION. Operands: which registers a lane reads and writes, the checks of orders 3 and 4 of R38, queue registers, and the frame of a fixed-latency instruction (R36, R38 to R43, R128, R238, R241, R242). -/

namespace Sys2Proof

/-! Operands of a lane. -/

/-- The physical registers a source of some words reads in a lane. -/
def Src.phys (words base : Nat) : Src → List Nat
  | .v n => (List.range words).map (base + n + ·)
  | _ => []
/-- The physical registers a destination of some words writes in a lane. -/
def Dst.phys (words base : Nat) : Dst → List Nat
  | .v n => (List.range words).map (base + n + ·)
  | _ => []
/-- Whether a source lies inside a window (R41). -/
def Src.inWin (words win : Nat) : Src → Bool
  | .v n => decide (n + words ≤ win)
  | _ => true
/-- Whether a destination lies inside a window (R41). -/
def Dst.inWin (words win : Nat) : Dst → Bool
  | .v n => decide (n + words ≤ win)
  | _ => true
/-- A destination read as a source. -/
def Dst.asSrc : Dst → Src
  | .v n => .v n
  | .q n => .q n
  | _ => .vz

end Sys2Proof

namespace Sys2Proof.Machine

/-! Queue registers (R236, R241, R242). Indices: ring links by writing QC (q0 at p, q1 at 4 + p), drain 8 + p, prologue 12 + p, inbound 16 + p, outbound 20 + p. -/

/-- The queue a read of qk pops on QC position p. -/
def popIdx (p k : Nat) : Nat :=
  match k with | 0 => 4 + (p + 3) % 4 | 1 => (p + 1) % 4 | 2 => 8 + p | _ => 16 + p
/-- The queue a write of qk pushes on QC position p. -/
def pushIdx (p k : Nat) : Nat :=
  match k with | 0 => p | 1 => 4 + p | 2 => 12 + p | _ => 20 + p

/-- A queue: its entries, oldest first, and how many words the newest has been given. -/
def Core.queue (c : Core) (i : Nat) : List (List Word) × Nat := NMap.get c.queues i ([], 0)
def Core.setQueue (c : Core) (i : Nat) (x : List (List Word) × Nat) : Core := { c with queues := NMap.store c.queues i x ([], 0) }
/-- The words a queue holds. -/
def Core.queueWords (c : Core) (i : Nat) : List Word := (c.queue i).1.flatten

/-- Takes n words from entries; those emptied are gone. -/
def takeWords : Nat → List (List Word) → List (List Word)
  | _, [] => []
  | n, e :: es => if e.length ≤ n then takeWords (n - e.length) es else e.drop n :: es

/-- The fresh entries a push of n words needs (R236). -/
def freshEntries (q : List (List Word) × Nat) (n : Nat) : Nat :=
  let room := if q.1.isEmpty then 0 else 16 - q.2
  ceilDiv (n - room) 16

/-- Lists of at most 16 words. -/
def chunk16 : Nat → List Word → List (List Word)
  | 0, _ => []
  | n + 1, ws => if ws.isEmpty then [] else ws.take 16 :: chunk16 n (ws.drop 16)

/-- A queue after a push. -/
def pushWords (q : List (List Word) × Nat) (ws : List Word) : List (List Word) × Nat :=
  let room := if q.1.isEmpty then 0 else 16 - q.2
  let es := if room = 0 then q.1 else q.1.dropLast ++ [(q.1.getLastD []) ++ ws.take room]
  let more := chunk16 ws.length (ws.drop room)
  if more.isEmpty then (es, q.2 + (ws.take room).length) else (es ++ more, (more.getLastD []).length)

/-- Pops n words if the queue holds them; emptied entries return to the pool. -/
def State.qPop (s : State) (core i n : Nat) : Option (List Word × State) :=
  let q := (s.core core).queue i
  let ws := q.1.flatten
  if ws.length < n then none
  else
    let es := takeWords n q.1
    let gone := q.1.length - es.length
    some (ws.take n, (s.modCore core fun c => c.setQueue i (es, if es.isEmpty then 0 else q.2)).poolReturn core (instQreg i) gone)

/-- Whether the pool admits a push (R242). -/
def State.qAdmits (s : State) (core i n : Nat) : Bool :=
  let k := freshEntries ((s.core core).queue i) n
  k == 0 || (s.core core).admits (instQreg i) k

/-- Places words whose entries are granted in a queue. -/
def State.qPlace (s : State) (core i : Nat) (ws : List Word) : State :=
  s.modCore core fun c => c.setQueue i (pushWords (c.queue i) ws)

/-! Pool requests (R238). -/

/-- Who waits for pool entries beside a group slot: a core's copy engine at a stream, a matrix queue at a drain, an operation whose words go to a queue (R238, R239). -/
def waiterCopy (core : Nat) : Nat := 2 ^ 50 + core
def waiterDrain (q : Nat) : Nat := 2 ^ 61 + q
def waiterOp (o : Nat) : Nat := 2 ^ 51 + o

/-- Whether an older refused request stands before one for an instance: one of the same instance, or one that could be granted now. -/
def State.poolBehind (s : State) (who core inst : Nat) : Bool :=
  (s.poolq.takeWhile fun r => !(r.who == who && r.inst == inst)).any fun r =>
    r.core == core && r.who != who && (r.inst == inst || (s.core core).admits r.inst r.n)

/-- Records a refused request; one that is made again keeps its place. -/
def State.poolRefuse (s : State) (who core inst n : Nat) : State :=
  if s.poolq.any fun r => r.who == who && r.inst == inst then s
  else { s with poolq := s.poolq ++ [{ core := core, inst := inst, n := n, who := who }] }

/-- Withdraws the requests of one who waits. -/
def State.poolQuit (s : State) (who : Nat) : State := { s with poolq := s.poolq.filter fun r => r.who != who }

/-- Grants requests one after the other, each with what those before it have taken; or the first that is refused (R238). -/
def State.poolGrants (s : State) (who core : Nat) : State → List (Nat × Nat) → Except (Nat × Nat) State
  | t, [] => .ok t
  | t, r :: rs =>
    if r.2 = 0 then State.poolGrants s who core t rs
    else if s.poolBehind who core r.1 || !(t.core core).admits r.1 r.2 then .error r
    else State.poolGrants s who core (t.poolTake core r.1 r.2) rs

/-- Takes every request made at once, or none: then the first that is refused and the state with it recorded. -/
def State.poolAsk (s : State) (who core : Nat) (rs : List (Nat × Nat)) : Except (State × Nat × Nat) State :=
  match s.poolGrants who core (s.poolQuit who) rs with
  | .ok t => .ok t
  | .error r => .error (s.poolRefuse who core r.1 r.2, r.1, r.2)

/-- The operands of an instruction: the INFO of its traps, its sources with their words in the order they are read, its destinations with their words, and registers it reads or writes implicitly. -/
structure Shape where
  info : Nat
  srcs : List (Nat × Src)
  dsts : List (Nat × Dst)
deriving DecidableEq, Repr

/-- A lane with its source values. -/
structure Lane where
  f : Nat
  vals : List (List Word)
deriving DecidableEq, Repr

/-- Source i of a lane as a number. -/
def Lane.n (l : Lane) (i : Nat) : Nat := Word.join (l.vals.getD i [])

/-- The window check of R41 in one lane. -/
def State.winCheck (s : State) (o : Shape) (f : Nat) : Option Cond :=
  let w := (s.fibre f).win
  if (o.srcs.all fun e => e.2.inWin e.1 w) && (o.dsts.all fun e => e.2.inWin e.1 w) then none
  else some (Cond.withInfo clsIllegalOperand o.info)

/-- The pending check of R36 in one lane. -/
def State.pendCheck (s : State) (o : Shape) (f : Nat) : Option Cond :=
  let x := s.fibre f
  let rs := (o.srcs.flatMap fun e => e.2.phys e.1 x.base) ++ o.dsts.flatMap fun e => e.2.phys e.1 x.base
  if rs.any x.pend.contains then some (Cond.plain clsSchedule) else none

/-- The trapping lanes of one check: those that report what its lowest failing lane reports (R38, R217). -/
def trapping (fs : List Nat) (k : Nat → Option Cond) : List (Nat × Cond) :=
  let all := fs.filterMap fun f => (k f).map fun c => (f, c)
  match all with
  | [] => []
  | (_, c) :: _ => all.filter fun e => e.2.cls == c.cls && e.2.page == c.page && e.2.size == c.size

/-- The first of several checks that fails in any lane, with the lanes it traps (R38). -/
def firstTrap (fs : List Nat) : List (Nat → Option Cond) → List (Nat × Cond)
  | [] => []
  | k :: ks => match trapping fs k with | [] => firstTrap fs ks | ts => ts

/-- One word list for each lane from a run of popped words. -/
def dealWords (words : Nat) : Nat → List Word → List (List Word)
  | 0, _ => []
  | n + 1, ws => ws.take words :: dealWords words n (ws.drop words)

/-- The value of a source in one lane that is no queue register. -/
def State.srcWords (s : State) (f words : Nat) : Src → List Word
  | .v n => (List.range words).map fun i => s.view f ((s.fibre f).base + n + i)
  | .vz => List.replicate words 0
  | .lit ws => (ws ++ List.replicate words 0).take words
  | .s n => (List.range words).map fun i => s.ureg (s.fibre f).team (n + i)
  | .q _ => List.replicate words 0

/-- Reads one source in every lane, popping where it is a queue register; otherwise the queue and the words of one lane it waits for (R128, R242). -/
def State.readSrc (s : State) (fs : List Nat) (words : Nat) (x : Src) : Except (Nat × Nat) (State × List (List Word)) :=
  match x with
  | .q k =>
    match fs with
    | [] => .ok (s, [])
    | f :: _ =>
      let i := popIdx (qcOf f % 4) k
      match s.qPop (coreOf f) i (words * fs.length) with
      | none => .error (i, words)
      | some (ws, s1) => .ok (s1, dealWords words fs.length ws)
  | _ => .ok (s, fs.map fun f => s.srcWords f words x)

/-- Reads the sources in order; the values by source, then by lane. -/
def State.readSrcs (s : State) (fs : List Nat) : List (Nat × Src) → Except (Nat × Nat) (State × List (List (List Word)))
  | [] => .ok (s, [])
  | (w, x) :: r => do
    let own ← s.readSrc fs w x
    let rest ← State.readSrcs own.1 fs r
    return (rest.1, own.2 :: rest.2)

/-- The values of each lane. -/
def lanesFrom (fs : List Nat) (vss : List (List (List Word))) : List Lane :=
  (indexed fs).map fun e => { f := e.2, vals := vss.map fun vs => vs.getD e.1 [] }

/-- Reads the operands of the active lanes after the checks of orders 3 and 4, and goes on with the state before the pops, the state after them, and the lanes. -/
def State.withOperands (s : State) (g : Nat) (active : List Nat) (o : Shape) (k : State → List Lane → Out) : Out :=
  match firstTrap active [s.winCheck o, s.pendCheck o] with
  | [] =>
    match s.readSrcs active o.srcs with
    | .error (i, n) => .next (s.hold g (.pop i n))
    | .ok (s1, vss) => k s1 (lanesFrom active vss)
  | ts => .next (s.raise g active ts)

/-- The lane of a fibre in a list of lanes. -/
def laneFor (ls : List Lane) (f : Nat) : Lane := (ls.find? fun l => l.f == f).getD { f := f, vals := [] }

/-- The pending check of R36 on physical registers a lane names implicitly. -/
def State.pendRegs (s : State) (rs : Nat → List Nat) (f : Nat) : Option Cond :=
  if (rs f).any (s.fibre f).pend.contains then some (Cond.plain clsSchedule) else none

/-- Reads the operands of the active lanes between the checks of R38: the window, the values an instruction refuses (order 3), the pending registers with those it names implicitly (order 4), and its own conditions (order 6). -/
def State.withChecked (s : State) (g : Nat) (active : List Nat) (o : Shape) (refuse : Lane → Option Cond) (regs : Nat → List Nat)
    (own : Lane → Option Cond) (k : State → List Lane → Out) : Out :=
  match firstTrap active [s.winCheck o] with
  | [] =>
    match s.readSrcs active o.srcs with
    | .error (i, n) =>
      match firstTrap active [s.pendCheck o, s.pendRegs regs] with
      | [] => .next (s.hold g (.pop i n))
      | ts => .next (s.raise g active ts)
    | .ok (s1, vss) =>
      let ls := lanesFrom active vss
      match firstTrap active [fun f => refuse (laneFor ls f), s.pendCheck o, s.pendRegs regs, fun f => own (laneFor ls f)] with
      | [] => k s1 ls
      | ts => .next (s.raise g active ts)
  | ts => .next (s.raise g active ts)

/-! Issue (R99, R234, R367). -/

/-- Halves of the datapath with an active lane (R91). -/
def halves (fs : List Nat) : Nat := b2n (fs.any fun f => laneOf f < 16) + b2n (fs.any fun f => 16 ≤ laneOf f)

/-- Counts an issue of a group. -/
def State.issued (s : State) (g : Nat) (fs : List Nat) : State :=
  let core := g / 64
  (s.count core 0x02 1).meter (s.partOfCore core) 0 (halves fs)

/-- An instruction has issued for its active lanes: the group goes on to the next word or clause. -/
def State.doneBy (s : State) (g : Nat) (active : List Nat) : State := (s.issued g active).advance g

/-- An instruction has issued in every lane of its group. -/
def State.done (s : State) (g : Nat) : State := s.doneBy g (s.group g).members

/-- Cycles from the last issue cycle to the result, and cycles an instruction occupies each half, by major opcode; `wide` where an operand has 64 bits (R105, R117, R127, R231, R233, R235). -/
def resultTime (op : Nat) (wide : Bool) : Nat × Nat :=
  if 0x05 ≤ op ∧ op ≤ 0x07 then (if wide then (6, 2) else (4, 1))
  else if op = 0x08 ∨ op = 0x09 then (if wide then (34, 8) else (18, 4))
  else if (0x28 ≤ op ∧ op ≤ 0x33) ∨ op = 0x3D then (if wide then (6, 2) else (4, 1))
  else if 0x34 ≤ op ∧ op ≤ 0x37 then (if wide then (24, 8) else (12, 2))
  else if 0x38 ≤ op ∧ op ≤ 0x3C then (14, 2)
  else if op = 0x51 then (8, 1)
  else if op = 0x52 then (4, 1)
  else if op = 0x53 then (if wide then (8, 1) else (6, 1))
  else if op = 0x56 then (6, 1)
  else (2, 1)

/-- Cycles from the issue of some lanes to the landing of their results: both halves issue, one after the other (R91, R127). -/
def landsAfter (time : Nat × Nat) (fs : List Nat) : Nat := halves fs * time.2 + time.1 - 1

/-- What a fixed-latency instruction gives one lane: result words, float flags, a predicate. -/
structure LaneOut where
  words : List Word
  flags : Nat
  pred : Option (Nat × Bool)
deriving DecidableEq, Repr

def LaneOut.val (ws : List Word) : LaneOut := { words := ws, flags := 0, pred := none }
/-- A result of some words. -/
def LaneOut.num (words x : Nat) : LaneOut := LaneOut.val (Word.split words x)
def LaneOut.setp (p : Nat) (b : Bool) : LaneOut := { words := [], flags := 0, pred := some (p, b) }

/-- Writes one lane's result to its registers, where it lands after some cycles, and to its flags and predicate. -/
def State.writeLane (d : Option Dst) (lat : Nat) (s : State) (e : Nat × LaneOut) : State :=
  let x := s.fibre e.1
  let s1 := match d with
    | some (.v n) => s.flyRegs e.1 (x.base + n) lat e.2.words
    | _ => s
  s1.modFibre e.1 fun y =>
    let y1 := y.raiseFlags e.2.flags
    match e.2.pred with
    | some (p, b) => y1.setPred p b
    | none => y1

/-- Writes the lanes' results; a queue destination pushes in lane order, or holds the group in the state it had before (R128, R242). -/
def State.finish (s s1 : State) (g : Nat) (d : Option Dst) (time : Nat × Nat) (outs : List (Nat × LaneOut)) : Out :=
  let lat := landsAfter time (outs.map Prod.fst)
  match d, outs with
  | some (.q k), (f, x) :: _ =>
    let i := pushIdx (qcOf f % 4) k
    let ws := outs.flatMap fun e => e.2.words
    match s1.poolAsk g (coreOf f) [(instQreg i, freshEntries ((s1.core (coreOf f)).queue i) ws.length)] with
    | .error _ =>
      let n := freshEntries ((s1.core (coreOf f)).queue i) ws.length
      .next ((s.poolRefuse g (coreOf f) (instQreg i) n).hold g (.push i x.words.length))
    | .ok s2 =>
      .next ((outs.foldl (State.writeLane d lat) (s2.qPlace (coreOf f) i ws)).done g)
  | _, _ => .next ((outs.foldl (State.writeLane d lat) s1).done g)

/-- Runs a continuation on the group that issues; with none the state stays. -/
def State.onGroup (s : State) (k : Nat → List Nat → Out) : Out :=
  match s.cur with
  | none => .next s
  | some g => k g (byLane (s.group g).members)

/-- Whether an operand has 64 bits. -/
def wideShape (srcs : List (Nat × Src)) (d : Option (Nat × Dst)) : Bool := (srcs.any fun e => 1 < e.1) || d.any fun e => 1 < e.1

/-- The frame of a fixed-latency instruction that computes every lane on its own (R129). -/
def State.alu (s : State) (info : Nat) (srcs : List (Nat × Src)) (d : Option (Nat × Dst)) (k : Fibre → Lane → LaneOut) : Out :=
  s.onGroup fun g fs =>
    s.withOperands g fs { info := info, srcs := srcs, dsts := d.toList } fun s1 ls =>
      s.finish s1 g (d.map Prod.snd) (resultTime info (wideShape srcs d)) (ls.map fun l => (l.f, k (s.fibre l.f) l))

/-- The frame of a fixed-latency instruction whose result looks across the active lanes, with its result time (R102). -/
def State.crossIn (s : State) (time : Nat × Nat) (info : Nat) (srcs : List (Nat × Src)) (d : Option (Nat × Dst)) (k : State → List Lane → Lane → LaneOut) : Out :=
  s.onGroup fun g fs =>
    s.withOperands g fs { info := info, srcs := srcs, dsts := d.toList } fun s1 ls =>
      s.finish s1 g (d.map Prod.snd) time (ls.map fun l => (l.f, k s ls l))

/-- The same with the time of its opcode. -/
def State.cross (s : State) (info : Nat) (srcs : List (Nat × Src)) (d : Option (Nat × Dst)) (k : State → List Lane → Lane → LaneOut) : Out :=
  s.crossIn (resultTime info (wideShape srcs d)) info srcs d k

end Sys2Proof.Machine
end

