-- ==== Sys2Proof/Machine/Issue.lean ====
section
/-! DEFINITION. Clauses: fetching, legality, flags, absorbing, and the choice of the next group (R26 to R37, R93, R99, R244). -/

namespace Sys2Proof.Machine

/-! The clause header (R31). -/

def hdrLen (h : Nat) : Nat := h % 16
def hdrSplit (h : Nat) : Nat := bits h 27 24
def hdrGE (h : Nat) : Bool := bit h 31
def hdrGuard (h : Nat) : Nat := bits h 30 28
def hdrSetA (h : Nat) : Nat := bits h 19 16
def hdrSetB (h : Nat) : Nat := bits h 23 20

/-- The flag a word position counts on, 15 for none (R31). -/
def flagCode (h pos : Nat) : Nat :=
  if hdrSplit h = 0 ∨ hdrLen h < hdrSplit h ∨ pos < hdrSplit h then hdrSetA h else hdrSetB h

/-- The flag a word position counts on, if it counts on one. -/
def flagAt (h pos : Nat) : Option Nat := if flagCode h pos < 12 then some (flagCode h pos) else none

/-- Whether the words of a clause from a position on are legal (R37). The list starts at the word of that position. -/
def wordsLegal (h : Nat) : Nat → Nat → List Word → Bool
  | 0, _, _ => true
  | _, _, [] => true
  | fuel + 1, pos, w :: ws =>
    if reservedCode w.toNat then true
    else
      let k := extCount w.toNat
      let rest := ws.drop k
      if ws.length < k then false
      else if isVarLat w.toNat && writesReg w.toNat && flagCode h pos == 15 then false
      else if isTransfer w.toNat && (match rest with | [] => false | v :: _ => !reservedCode v.toNat) then false
      else wordsLegal h fuel (pos + 1 + k) rest

/-- Whether a clause is legal (R37). -/
def clauseLegal (h : Nat) (ws : List Word) : Bool :=
  hdrLen h != 0 && !decide (12 ≤ hdrSetA h ∧ hdrSetA h ≤ 14) && !decide (12 ≤ hdrSetB h ∧ hdrSetB h ≤ 14) &&
    (hdrGE h || hdrGuard h == 0) && wordsLegal h 16 1 ws

/-- What a fetch answers: header and the places of the clause's words, a fault, or an address no stack holds. -/
inductive Fetched where
  | ok (hdr : Nat) (code : List Loc)
  | fault (c : Cond)
  | absent (pa : Nat)
deriving DecidableEq, Repr

/-- The word at a place. -/
def State.wordAtLoc (s : State) (l : Loc) : Word := Word.ofNat (Byte.join (s.bytesAt l 4))

/-- Translates one word of a clause for fetch (R214, R217); the scratchpad window holds no code (log 14). -/
def State.fetchWord (s : State) (f x : Nat) : State × Except Fetched Loc :=
  if inWindow x then (s, .error (.fault (Cond.at_ clsAddressRange 3 x)))
  else
    match s.translate (coreOf f) none (s.ctxOf f) x .fetch (decide ((s.fibre f).mode = .user)) with
    | .ok l e => (s.cacheEntry (coreOf f) none e, .ok l)
    | .fault c p z => (s, .error (.fault { cls := c, kind := 3, info := 0, addr := some x, page := p, size := z }))
    | .absent pa => (s, .error (.absent pa))

/-- Translates the n words after position i of a clause. -/
def State.fetchRest (s : State) (f pc : Nat) : Nat → Nat → State × Except Fetched (List Loc)
  | 0, _ => (s, .ok [])
  | n + 1, i =>
    match s.fetchWord f (pc + 4 * i) with
    | (s1, .error e) => (s1, .error e)
    | (s1, .ok l) =>
      match State.fetchRest s1 f pc n (i + 1) with
      | (s2, .error e) => (s2, .error e)
      | (s2, .ok ls) => (s2, .ok (l :: ls))

/-- Fetches the clause at a fibre's program counter. -/
def State.fetchClause (s : State) (f : Nat) : State × Fetched :=
  let pc := (s.fibre f).pc
  match s.fetchWord f pc with
  | (s1, .error e) => (s1, e)
  | (s1, .ok l) =>
    let h := (s1.wordAtLoc l).toNat
    match s1.fetchRest f pc (hdrLen h) 1 with
    | (s2, .error e) => (s2, e)
    | (s2, .ok ls) => (s2, .ok h (l :: ls))

/-! Absorbing (R93). -/

/-- The oldest ready stamp of a list of fibres (R99). -/
def State.ageOf (s : State) (fs : List Nat) : Nat := fs.foldl (fun m f => min m (s.fibre f).stampAt) (2 ^ 64)

/-- What group g may absorb on its QC, oldest first: other groups, or READY fibres alone, but none of some fibres. DESIGN CHOICE (log 99): of one stamp, groups come by slot and before READY fibres. -/
def State.candidates (s : State) (g : Nat) (but : List Nat) : List (Option Nat × List Nat) :=
  let q := g / 16
  let gs := (s.groups.filter fun e => e.1 / 16 == q && e.1 != g).map fun e => (some e.1, e.2.members)
  let fs := (s.readyOf q).map fun f => (none, [f])
  let all := (gs ++ fs).filter fun (c : Option Nat × List Nat) => !c.2.any but.contains
  (sortBy (fun i => s.ageOf (all.getD i (none, [])).2) (List.range all.length)).map fun i => all.getD i (none, [])

/-- Absorbs one candidate if it shares no home lane. -/
def State.absorbOne (g : Nat) (s : State) (c : Option Nat × List Nat) : State :=
  let mine := (s.group g).members
  match mine with
  | [] => s
  | f :: _ =>
    if c.2.isEmpty || !(c.2.all fun h => s.mates f h && mine.all fun k => k / 8 != h / 8) then s
    else
      let s1 := match c.1 with
        | some h => s.dropGroup h
        | none => s
      (s1.modFibres c.2 fun x => { x with status := .running, wait := none, cohort := none }).modGroup g fun x => { x with members := byLane (x.members ++ c.2) }

/-- Absorbs every other group and READY fibre of the team at the same boundary, but some that R95 has just split off (R93); the slots this frees are filled at once (R96). -/
def State.absorb (s : State) (g : Nat) (but : List Nat) : State := ((s.candidates g but).foldl (State.absorbOne g) s).refill (g / 16)

/-! The WAIT of a clause (R34, R244). -/

/-- The guard tags of a fibre's own commands that a flag named in WAIT counts. -/
def State.waitedTags (s : State) (f hdr : Nat) : List GuardTag :=
  let open_ := s.openTags (coreOf f)
  let mine := s.ops.filterMap fun e =>
    match e.2.flag, e.2.tag with
    | some i, some (k, gen) => if e.2.fibre == f && bit hdr (4 + i) then some { fibre := f, slot := k, gen := gen } else none
    | _, _ => none
  (mine.filter open_.contains).dedup

/-- Resolves an abandoned generation to discard and writes its error record (R244, R387). -/
def State.abandon (s : State) (t : GuardTag) : State :=
  let s1 := s.guardsDrop (coreOf t.fibre) (· == t)
  let s2 := s1.modFibre t.fibre fun x => { x with guards := x.guards.modify t.slot fun n => if n = t.gen then (n + 1) % 256 else n }
  s2.errorRecord (s.ctxOf t.fibre) 0x07 (s.originOf t.fibre) ([t.slot + 256 * t.gen] ++ lowHigh (s.fibre t.fibre).pc)

/-- Before a fibre waits on a flag that counts its own held command, the command's generation is discarded (R244). -/
def State.abandonFor (hdr : Nat) (s : State) (f : Nat) : State := (s.waitedTags f hdr).foldl State.abandon s

/-! The choice of a group (R99). -/

/-- The effective priority of a group. -/
def State.effPrio (s : State) (x : Group) : Nat :=
  if x.boosted then 3 else match x.members with | f :: _ => (s.team (s.fibre f).team).prio | [] => 0

/-- Whether a group may issue: its core runs, issue is not throttled, its partition's issue time is not held, nothing holds it, and no fibre waits for a trap (R21, R99, R273, R367, R370). -/
def State.mayIssue (s : State) (g : Nat) : Bool :=
  match NMap.find s.groups g with
  | none => false
  | some x =>
    s.coreRuns (g / 64) && decide (s.throttle < 2) && !s.heldAct (s.partOfCore (g / 64)) 0 && !x.members.isEmpty &&
      x.members.all fun f => ((s.fibre f).sump.isEmpty || decide ((s.fibre f).mode = .handler)) && decide ((s.fibre f).status = .running)

/-! Time. -/

/-- The results whose latency is over land, in the order in which they come due; of one cycle, in the order in which they were issued (R122). -/
def State.land (s : State) : State :=
  let due (e : Flight) : Bool := decide (e.due ≤ s.cycle)
  let now := (s.flying.filter due).reverse
  let order := sortBy (fun i => (now.getD i ⟨0, 0, 0, 0⟩).due) (List.range now.length)
  { s with regs := order.foldl (fun m i => let e := now.getD i ⟨0, 0, 0, 0⟩; NMap.store m e.key e.value 0) s.regs,
           flying := s.flying.filter fun e => !due e }

/-- The QCs that hold a group, in ascending order. -/
def State.busyQcs (s : State) : List Nat := (s.groups.map fun e => e.1 / 16).dedup

/-- Cycles pass: held groups count them, results land, and cores held by a context count cycles as events (R95, R97, R100, R122, R234). -/
def State.elapse (s : State) (n : Nat) : State :=
  let s0 := State.land { s with
    cycle := s.cycle + n,
    groups := s.groups.map fun (e : Nat × Group) => (e.1, if e.2.stall.isSome then { e.2 with waited := e.2.waited + n } else e.2) }
  let s1 := s0.busyQcs.foldl State.lapse s0
  (s1.cores.map Prod.fst).foldl (fun t c => if (t.core c).ctx.isSome then (if s.throttle = 0 then t.count c 0x00 n else (t.count c 0x00 n).count c 0x09 n) else t) s1

end Sys2Proof.Machine
end

