-- ==== Sys2Proof/Machine/Varlat.lean ====
section
/-! DEFINITION. The frame of a variable-latency instruction: its flag, its pool entries, its outstanding operations and marks (R33 to R36, R175, R238, R253). -/

namespace Sys2Proof.Machine

/-- An outstanding operation of a fibre with nothing in it. -/
def Op.blank (f : Nat) : Op :=
  { fibre := f, hand := false, flag := none, holds := [], dst := .none, marks := [], value := none, left := 0, acc := none, isMem := false, isLoad := false,
    isStore := false, acquire := false, release := false, prefetch := false, rel := none, todo := none, peers := [], poisoned := none, tag := none, at_ := (0, 0) }

/-- The header of the clause in which a group stands, and the position of its word. -/
def State.hdrOf (s : State) (fs : List Nat) : Nat := match fs with | f :: _ => (s.fibre f).hdr | [] => 0
def State.posOf (s : State) (fs : List Nat) : Nat := match fs with | f :: _ => (s.fibre f).pos | [] => 0
/-- The flag the instruction being issued counts on (R31, R34). -/
def State.flagOf (s : State) (fs : List Nat) : Option Nat := flagAt (s.hdrOf fs) (s.posOf fs)

/-- The flag that an issue would raise above 63 in some lane (R34). -/
def State.flagStop (s : State) (fs : List Nat) : Option Nat :=
  (s.flagOf fs).filter fun i => fs.any fun f => decide (63 ≤ (s.fibre f).flags.getD i 0)

/-- Opens operations: each has the others as its peers, notes its place and its fibre's mode, raises its flag and marks its registers pending. -/
def State.startOps (s : State) (xs : List Op) : List Nat × State :=
  let ids := (List.range xs.length).map (s.nextId + ·)
  let s1 := (indexed xs).foldl (fun t e =>
    let o := s.nextId + e.1
    { t.modFibre e.2.fibre (fun y => { y with pend := y.pend ++ e.2.marks, flags := match e.2.flag with | some i => y.flags.modify i (· + 1) | none => y.flags }) with
      ops := NMap.put t.ops o { e.2 with hand := decide ((s.fibre e.2.fibre).mode = .handler), peers := ids.filter (· != o),
                                         at_ := ((s.fibre e.2.fibre).pc, (s.fibre e.2.fibre).pos) } }) s
  (ids, { s1 with nextId := s.nextId + xs.length })

/-- Goes on with the pool entries taken, unless a flag is full or a request is refused; then the group waits in the state it had before its operands were popped (R34, R238). -/
def State.withEntries (s s1 : State) (g : Nat) (fs : List Nat) (rs : List (Nat × Nat)) (k : State → Out) : Out :=
  match s.flagStop fs with
  | some i => .next (s.hold g (.flagFull i))
  | none =>
    match s1.poolAsk g (g / 64) rs with
    | .error (_, i, n) => .next ((s.poolRefuse g (g / 64) i n).hold g (.pool i n))
    | .ok s2 => k s2

/-- Where a destination of some words takes a result in a lane: physical registers or a queue, and the registers it marks (R36, R242). -/
def State.dstOf (s : State) (f words : Nat) (d : Dst) : ResDst × List Nat :=
  match d with
  | .v _ => (.regs (d.phys words (s.fibre f).base), d.phys words (s.fibre f).base)
  | .q k => (.queue (pushIdx (qcOf f % 4) k), [])
  | _ => (.none, [])

end Sys2Proof.Machine
end

