-- ==== Sys2Proof/Machine/MemInstr.lean ====
section
/-! DEFINITION. The memory instructions: opcodes 0x60 to 0x6B (R158 to R189, R350, R351). -/

namespace Sys2Proof

/-- Whether a scope is wider than team (R6). -/
def Scope.wide (x : Scope) : Bool := decide (x ≠ .team)
/-- Whether an order acquires (R47). -/
def Order.acquires (x : Order) : Bool := decide (x = .acquire ∨ x = .acqRel)
/-- Whether an order releases (R47). -/
def Order.releases (x : Order) : Bool := decide (x = .release ∨ x = .acqRel)

end Sys2Proof

namespace Sys2Proof.Machine

/-- An uncorrectable error in data an engine or a load reads ends the context (R179): class 0x09 and on as R387 lays out. -/
def State.poisonReset (s : State) (ctx : Nat) (o : Origin) (header pos line : Nat) : State :=
  (s.errorRecord ctx 0x0B o ([0] ++ lowHigh header ++ [pos] ++ lowHigh (lineLoc line).pa)).resetContext ctx 0x0B

/-! Addresses and places (R158, R160, R164, R213, R348). -/

/-- OFFS of an optional ordering word (R47). -/
def offsOf : Option OrdWord → Int
  | some o => o.offs.toInt
  | none => 0
/-- Order and scope, relaxed at team scope without an ordering word (R176). -/
def ordOf : Option OrdWord → Order
  | some o => o.ord
  | none => .relaxed
def scopeOf : Option OrdWord → Scope
  | some o => o.scope
  | none => .team
/-- base + Sext(B, 32) + OFFS in 64 bits (R48, R176). -/
def addrOf (a b : Nat) (offs : Int) : Nat := narrow ((a : Int) + sext b 32 + offs) 64

/-- The virtual number of a core in its context's core map (R162, R416). -/
def State.vcore (s : State) (core : Nat) : Nat :=
  match (s.core core).ctx.bind s.ctx? with
  | some c => ((c.vmap.find? fun e => e.2 == core).map Prod.fst).getD 0
  | none => 0

/-- The virtual core and offset an address of the die scratchpad window names (R160). -/
def State.windowCore (s : State) (core x : Nat) : Nat × Nat :=
  (64 * (s.vcore core / 64) + (x - windowBase) / spadBytes, (x - windowBase) % spadBytes)

/-- Whether a context's core map holds a virtual number (R160, R416). -/
def State.mapsCore (s : State) (ctx v : Nat) : Bool :=
  match s.ctx? ctx with | some c => (NMap.find c.vmap v).isSome | none => false

/-- Kind, owner and loop-back of a window-map entry (R348). -/
def WinEntry.kind (w : WinEntry) : Nat := bits (wordAt w.words 0) 31 30
def WinEntry.lbase (w : WinEntry) : Nat := dwordAt w.words 2
def WinEntry.len (w : WinEntry) : Nat := wordAt w.words 1
def WinEntry.lb (w : WinEntry) : Nat := bits (wordAt w.words 0) 29 28

/-- The transmit window of a partition that holds an address (R350). -/
def State.txWindow (s : State) (part x : Nat) : Option Nat :=
  (s.wins.find? fun e => e.2.kind == 1 && decide (e.2.state ≠ .free) && e.2.part == part &&
    decide (e.2.lbase ≤ x ∧ x < e.2.lbase + e.2.len)).map Prod.fst

/-- Where an access goes: a line and its home, a scratchpad of the die window, or a transmit window with its shadow. -/
inductive Route where
  | home (line homing off : Nat) (e : PageEntry)
  | win (v off : Nat)
  | trap (c : Cond)
  | absent (pa : Nat)
deriving DecidableEq, Repr

/-- A trap of an access: class, kind and address (R217, R225). -/
def Cond.access (cls : Nat) (k : AccKind) (x : Nat) : Cond := Cond.at_ cls k.code x

/-- A trap of an access whose class has no address: SCRATCH_BOUNDS and MISALIGNED, raised for team offsets too (R164, R176, R224; log 16). -/
def Cond.offset (cls : Nat) (k : AccKind) : Cond := { Cond.plain cls with kind := k.code }

/-- Routes the access of one lane (R158, R160, R176, R213, R214); translation comes before the window's bounds and alignment (R38). -/
def State.route (s : State) (f x width : Nat) (k : AccKind) : Route :=
  let core := coreOf f
  if inWindow x then
    let w := s.windowCore core x
    if !s.mapsCore (s.ctxOf f) w.1 then .trap (Cond.offset clsScratchBounds k)
    else if x % width != 0 then .trap (Cond.offset clsMisaligned k)
    else .win w.1 w.2
  else
    match s.translate core (some (hlOf f)) (s.ctxOf f) x k (decide ((s.fibre f).mode = .user)) with
    | .absent pa => .absent pa
    | .fault c p z => .trap { cls := c, kind := k.code, info := 0, addr := some x, page := p, size := z }
    | .ok l e =>
      if x % width != 0 then .trap (Cond.offset clsMisaligned k)
      else .home (lineKey l) e.home (l.pa % 64) e

/-- Whether a condition is one of order 5 (R38). -/
def Cond.early (c : Cond) : Bool := isPageFault c.cls || c.cls == clsAddressRange

/-- The condition a route ends in, of order 5 or of order 6. -/
def Route.cond (early : Bool) : Route → Option Cond
  | .trap c => if c.early = early then some c else none
  | _ => none

/-- The physical address a route cannot reach. -/
def Route.lost : Route → Option Nat
  | .absent pa => some pa
  | _ => none

/-- Loads the caches of translation with what a lane used (R216, R234). -/
def State.cacheRoute (s : State) (f : Nat) : Route → State
  | .home _ _ _ e => s.cacheEntry (coreOf f) (some (hlOf f)) e
  | _ => s

/-- A lane with its address and route. -/
structure Hop where
  f : Nat
  addr : Nat
  route : Route
deriving DecidableEq, Repr

/-- Routes the accesses of lanes given with their addresses, and goes on where none traps; `active` are the lanes of the instruction. -/
def State.routed (s : State) (g : Nat) (active : List Nat) (xs : List (Nat × Nat)) (k : AccKind) (width : Nat) (go : List Hop → Out) : Out :=
  let hops := xs.map fun e => Hop.mk e.1 e.2 (s.route e.1 e.2 width k)
  let cond (early : Bool) (f : Nat) : Option Cond := (hops.find? fun h => h.f == f).bind fun h => h.route.cond early
  match firstTrap (xs.map Prod.fst) [cond true, cond false] with
  | [] =>
    match hops.findSome? fun h => h.route.lost with
    | some pa => .fault (.physicalAddressAbsent pa)
    | none => go hops
  | ts => .next (s.raise g active ts)

/-- Loads the caches of translation with what every lane used. -/
def State.cacheHops (s : State) (hops : List Hop) : State := hops.foldl (fun t h => t.cacheRoute h.f h.route) s

/-! Loads (R170, R171, R176, R180, R190, R193). -/

/-- What an instruction reads for its lanes: operations, fibres, the place and the width. -/
structure Fetch where
  ops : List Nat
  fibres : List Nat
  route : Route
  width : Nat
deriving DecidableEq, Repr

/-- Whether a load of a fibre that touches some of the bytes is still to be performed (R195). -/
def State.loadOpen (s : State) (f line off n : Nat) : Bool :=
  (s.openOps f).any fun e => e.2.isLoad && !e.2.prefetch && (e.2.acc.any fun a => a.line == line && decide (a.off < off + n ∧ off < a.off + a.bytes))

/-- Whether the L1 may serve a read of a line: present and leased or dirty, and not one that must read beyond it (R170, R171, R176). -/
def State.readHits (s : State) (core : Nat) (far : Bool) (line off n : Nat) : Bool := !far && (s.core core).hits s.horizon line off n

/-- Whether a read that the L1 would serve must wait: an earlier load of the fibre of a common byte is still to be performed (R195), or an older read of the core that returns what stood before (R192). -/
def State.readWaits (s : State) (core f : Nat) (far : Bool) (width : Nat) : Route → Bool
  | .home line _ off _ => s.readHits core far line off width && (s.loadOpen f line off width || !s.l1Clear core line off width)
  | _ => false

/-- Performs a read at the L1 where it may, otherwise gathers it for the home; `far` when it must read beyond the L1 (R176). `s0` is the state at issue. -/
def State.fetchOne (s0 : State) (core : Nat) (far lat : Bool) (p : State × List Gather) (x : Fetch) : State × List Gather :=
  let (s, gs) := p
  match x.route with
  | .home line homing off _ =>
    let c := s0.core core
    if s0.readHits core far line off x.width then
      if c.badIn line off x.width then (x.ops.foldl (fun t o => t.opPoison o line) s, gs)
      else
        (((x.ops.foldl (fun t o => t.opValue o (readWords (c.l1Map line off x.width) off x.width) (c.settleOf line off x.width)) s).touchBlock core
          (unitOf line off)).joinWrites core line off x.width x.fibres, gs)
    else (s, gather ⟨line, homing, x.ops, x.fibres, [], [], some (unitOf line off)⟩ gs)
  | .win v off => (s.addWindow core v (winLine v off) (.winRead (off % 64) x.width) x.ops x.fibres none lat, gs)
  | _ => (s, gs)

/-- Performs the reads of an instruction as far as the core does it; hits are counted once for each block (R170, R234). -/
def State.fetchAll (s : State) (core : Nat) (far lat : Bool) (xs : List Fetch) : State :=
  let p := xs.foldl (State.fetchOne s core far lat) (s, [])
  let hits := (xs.filterMap fun x => match x.route with
    | .home line _ off _ => if s.readHits core far line off x.width then ((s.core core).block? (unitOf line off)).map L1Block.first else none
    | _ => none).dedup.length
  (if hits = 0 then p.1 else p.1.count core 0x05 hits).sendAll core lat p.2

/-- The line and bytes a lane's access covers. -/
def Route.access (width : Nat) : Route → Option Access
  | .home line _ off _ => some { line := line, off := off, bytes := width }
  | .win v off => some { line := winLine v off, off := off % 64, bytes := width }
  | _ => none

/-- Pool entries of a width over the halves that hold an active lane (R175). -/
def entriesFor (fs : List Nat) (width : Nat) : Nat := halves fs * ceilDiv (16 * width) 64

/-- The entries an instruction holds stand on its first lane's operation. -/
def holdsOn (i : Nat) (rs : List (Nat × Nat)) : List (Nat × Nat) := if i = 0 then rs else []

/-- The fibre's class for the mesh (R346). -/
def State.latOf (s : State) (fs : List Nat) : Bool := match fs with | f :: _ => (s.fibre f).lat | [] => false

/-- Whether a memory instruction may issue in every lane (R176, R195). -/
def State.allReady (s : State) (fs : List Nat) (isStore : Bool) : Bool := fs.all fun f => s.memReady f isStore

/-- The operation of a load in a lane. -/
def State.loadOp (s : State) (fs : List Nat) (i f words : Nat) (d : Dst) (r : Route) (width : Nat) (acq : Bool) (rs : List (Nat × Nat)) : Op :=
  let t := s.dstOf f words d
  { Op.blank f with flag := s.flagOf fs, holds := holdsOn i rs, dst := t.1, marks := t.2, left := 1, acc := r.access width, isMem := true,
                    isLoad := true, acquire := acq }

/-- `ld` and `ldc` once their addresses are known: `xs` the lanes whose addresses are formed, `act` those that are active (R180). -/
def State.loadFrom (s s0 : State) (g : Nat) (fs act : List Nat) (z : Size) (o : Option OrdWord) (d : Dst) (xs : List (Nat × Nat)) (rs : List (Nat × Nat)) : Out :=
  s.routed g act xs .read z.bytes fun hops =>
    let far := (ordOf o).acquires && (scopeOf o).wide
    if !s.allReady fs false || (hops.any fun h => s.readWaits (g / 64) h.f far z.bytes h.route) then .next (s.hold g .memory)
    else
      s.withEntries (s0.cacheHops hops) g fs rs fun s2 =>
        let routeOf (f : Nat) : Route := match hops.find? fun h => h.f == f with | some h => h.route | none => (hops.head?.map Hop.route).getD (.absent 0)
        let ops := (indexed fs).map fun e => s.loadOp fs e.1 e.2 z.words d (routeOf e.2) z.bytes (ordOf o).acquires rs
        let started := s2.startOps ops
        let fetches := if hops.length = fs.length then
            (fs.zip started.1).map fun e => Fetch.mk [e.2] [e.1] (routeOf e.1) z.bytes
          else [Fetch.mk started.1 fs ((hops.head?.map Hop.route).getD (.absent 0)) z.bytes]
        .next ((started.2.fetchAll (g / 64) far (s.latOf fs) fetches).doneBy g act)

/-- `ld` (R180). -/
def execLd (z : Size) (o : Option OrdWord) (a b : Src) (d : Dst) (s : State) : Out :=
  s.onGroup fun g fs =>
    s.withOperands g fs { info := 0x60, srcs := [(2, a), (1, b)], dsts := [(z.words, d)] } fun s0 ls =>
      s.loadFrom s0 g fs fs z o d (ls.map fun l => (l.f, addrOf (l.n 0) (l.n 1) (offsOf o)))
        [(instLdret (g / 16 % 4), entriesFor fs z.bytes)]

/-- `ldc` (R180): the elected lane's address alone is formed, translated and checked; it runs on that lane, and what it loads goes to every lane (R43, R217; log 98). -/
def execLdc (z : Size) (o : Option OrdWord) (a b : Src) (d : Dst) (s : State) : Out :=
  s.onGroup fun g fs =>
    s.withOperands g (fs.take 1) { info := 0x64, srcs := [(2, a), (1, b)], dsts := [(z.words, d)] } fun s0 ls =>
      s.loadFrom s0 g fs (fs.take 1) z o d (ls.map fun l => (l.f, addrOf (l.n 0) (l.n 1) (offsOf o))) [(instLdret (g / 16 % 4), 1)]

/-! Stores and atomics (R171, R176, R181, R183, R184, R350, R351). -/

/-- The store of some bytes at a route. -/
def Route.store (r : Route) (wide : Bool) (bs : List Byte) : Todo :=
  match r with
  | .home line homing off _ => .store line homing off wide (mapWrite [] off bs)
  | .win v off => .winStore v (winLine v off) (mapWrite [] (off % 64) bs)
  | _ => .store 0 0 0 false []

/-- The store of a lane: into the transmit window that holds its address, or at its route (R350). -/
def State.storeTodo (s : State) (h : Hop) (wide : Bool) (bs : List Byte) : Todo :=
  match h.route with
  | .home _ _ _ _ =>
    match s.txWindow (s.partOf (s.ctxOf h.f)) h.addr with
    | some e =>
      let off := h.addr - (NMap.get s.wins e WinEntry.empty).lbase
      .window e (off / 64 * 64) (mapWrite [] (off % 64) bs)
    | none => h.route.store wide bs
  | _ => h.route.store wide bs

/-- What a store into a window with early loop-back writes to the shadow at issue (R350). -/
def State.earlyShadow (s : State) (h : Hop) (t : Todo) (bs : List Byte) : Option Gather :=
  match t, h.route with
  | .window e _ _, .home line homing off _ =>
    if (NMap.get s.wins e WinEntry.empty).lb = 1 then some ⟨line, homing, [], [h.f], mapWrite [] off bs, [], none⟩ else none
  | _, _ => none

/-- Starts the operations of an instruction that stores, with what each performs: at once, or after its release work (R176). -/
def State.startStores (s s1 : State) (g : Nat) (fs : List Nat) (ord : Order) (scope : Scope) (ops : List Op) (todo : Nat → Nat → Todo) : State :=
  let rel (f : Nat) : Option Rel := if ord.releases then some (s.relFor f scope.wide) else none
  let first := s1.nextId
  let started := s1.startOps ((indexed ops).map fun (e : Nat × Op) =>
    { e.2 with left := 1, rel := rel e.2.fibre, todo := some (todo e.1 (first + e.1)), acquire := ord.acquires && e.2.isLoad, release := ord.releases })
  if ord.releases then started.2
  else started.2.perform (g / 64) (s.latOf fs) ((indexed ops).map fun e => (first + e.1, e.2.fibre, todo e.1 (first + e.1)))

/-- Ends the issue of a store; one that a full write-combining buffer has no line for closes the oldest open line and waits (R352). -/
def State.storesDone (s s1 : State) (g : Nat) : Out :=
  if s1.wcFits (g / 64) then .next (s1.done g) else .next ((s.closeOldest (g / 64)).hold g .wcLine)

/-- The operation of a store in a lane. -/
def State.storeOp (s : State) (fs : List Nat) (i f : Nat) (acc : Option Access) (rs : List (Nat × Nat)) : Op :=
  { Op.blank f with flag := s.flagOf fs, holds := holdsOn i rs, acc := acc, isMem := true, isStore := true }

/-- `st` (R181, R350). -/
def execSt (z : Size) (o : Option OrdWord) (a b d : Src) (s : State) : Out :=
  s.onGroup fun g fs =>
    s.withOperands g fs { info := 0x61, srcs := [(2, a), (1, b), (z.words, d)], dsts := [] } fun s0 ls =>
      s.routed g fs (ls.map fun l => (l.f, addrOf (l.n 0) (l.n 1) (offsOf o))) .write z.bytes fun hops =>
        if !s.allReady fs true then .next (s.hold g .memory)
        else
          let rs := [(instStore (g / 16 % 4), entriesFor fs z.bytes)]
          s.withEntries (s0.cacheHops hops) g fs rs fun s2 =>
            let wide := (scopeOf o).wide
            let data (i : Nat) : List Byte := Byte.split z.bytes ((ls.getD i { f := 0, vals := [] }).n 2)
            let todos := (indexed hops).map fun e => s.storeTodo e.2 wide (data e.1)
            let ops := (indexed hops).map fun e => s.storeOp fs e.1 e.2.f (e.2.route.access z.bytes) rs
            let s3 := s.startStores s2 g fs (ordOf o) (scopeOf o) ops fun i _ => todos.getD i (.store 0 0 0 false [])
            let early := ((indexed hops).filterMap fun e => s.earlyShadow e.2 (todos.getD e.1 (.store 0 0 0 false [])) (data e.1)).foldl (fun gs x => gather x gs) []
            s.storesDone (early.foldl (State.sendLine (g / 64) (s.latOf fs) none) s3) g

/-- The words of an atomic's operand with its expected value: for `cas` the expected value comes first (R183). -/
def atomicItem (op off : Nat) (wide : Bool) (o : OrdWord) (x : Nat) : AtomicItem :=
  let n := if wide then 64 else 32
  { op := op, off := off, wide := wide, fadd := o.fadd, sgn := o.sgn, atop := o.atop,
    operand := if o.atop = .cas then x / 2 ^ n % 2 ^ n else x % 2 ^ n, expected := if o.atop = .cas then x % 2 ^ n else 0 }

/-- The atomic of a lane at its route; `far` where it is performed at the home whatever its scope (R171, R184). -/
def Route.atomic (r : Route) (far : Bool) (item : Nat → AtomicItem) : Todo :=
  match r with
  | .home line homing off _ => .atomic line homing far (item off)
  | .win v off => .winAtomic v (winLine v off) (item (off % 64))
  | _ => .store 0 0 0 false []

/-- Bytes of an atomic's location. -/
def atomBytes (wide : Bool) : Nat := if wide then 8 else 4

/-- `atom` and `red`: the result goes to a destination where there is one (R183, R184). -/
def State.atomicAt (s : State) (info : Nat) (wide : Bool) (o : OrdWord) (a b d : Src) (dst : Option Dst) (far : Bool) : Out :=
  s.onGroup fun g fs =>
    let words := atomWords wide o
    s.withOperands g fs { info := info, srcs := [(2, a), (1, b), (words, d)], dsts := (dst.map fun x => (words, x)).toList } fun s0 ls =>
      s.routed g fs (ls.map fun l => (l.f, addrOf (l.n 0) (l.n 1) o.offs.toInt)) .atomic (atomBytes wide) fun hops =>
        if !s.allReady fs true then .next (s.hold g .memory)
        else
          let n := entriesFor fs (atomBytes wide)
          let rs := (instStore (g / 16 % 4), n) :: (if dst.isSome then [(instLdret (g / 16 % 4), n)] else [])
          s.withEntries (s0.cacheHops hops) g fs rs fun s2 =>
            let ops := (indexed hops).map fun e =>
              let x := s.storeOp fs e.1 e.2.f (e.2.route.access (atomBytes wide)) rs
              match dst with
              | none => x
              | some y =>
                let t := s.dstOf e.2.f (wideWords wide) y
                { x with dst := t.1, marks := t.2, isLoad := true }
            let todo (i op : Nat) : Todo :=
              (((hops[i]?).map Hop.route).getD (.absent 0)).atomic far fun off => atomicItem op off wide o ((ls.getD i { f := 0, vals := [] }).n 2)
            .next ((s.startStores s2 g fs o.ord o.scope ops todo).done g)

/-- `atom` (R183): at the L1 at team scope, at the home for wider scopes. -/
def execAtom (wide : Bool) (o : OrdWord) (a b : Src) (d : Dst) (s : State) : Out :=
  s.atomicAt 0x65 wide o a b d.asSrc (some d) o.scope.wide

/-- `red` (R184): at the home at every scope, with no result. -/
def execRed (wide : Bool) (o : OrdWord) (a b d : Src) (s : State) : Out :=
  s.atomicAt 0x67 wide o a b d none true

/-! Scratchpad instructions (R161 to R168, R182, R183). -/

/-- The team offset of a scratchpad access (R164). -/
def spadOff (a b : Nat) (offs : Int) : Int := (a : Int) + sext b 32 + offs

/-- The bounds and alignment of a scratchpad access (R164); an offset is no address (log 16). -/
def State.spadCheck (s : State) (f width : Nat) (k : AccKind) (off : Int) : Option Cond :=
  if off < 0 ∨ (s.spSize (s.fibre f).team : Int) < off + width then some (Cond.offset clsScratchBounds k)
  else if off % width ≠ 0 then some (Cond.offset clsMisaligned k)
  else none

/-- The core-absolute offset of a team offset (R161, R162). -/
def State.spadPlace (s : State) (f : Nat) (off : Int) : Nat := s.spBase (s.fibre f).team + off.toNat

/-- The lane sets of a width (R166). -/
def laneSet (width lane : Nat) : Nat := if width ≤ 4 then 0 else if width = 8 then lane / 16 else lane / 8

/-- The greatest number of words a set addresses in one bank; `every` counts each lane (R166). -/
def bankLoad (every : Bool) (ws : List Nat) : Nat :=
  (List.range 32).foldl (fun m b =>
    let xs := ws.filter fun w => w % 32 == b
    max m (if every then xs.length else xs.dedup.length)) 0

/-- Passes of the lane port (R166): lanes with their core-absolute offsets. -/
def passes (width : Nat) (every : Bool) (xs : List (Nat × Nat)) : Nat :=
  ((List.range 4).map fun k =>
    bankLoad every ((xs.filter fun e => laneSet width e.1 == k).flatMap fun e => (List.range (ceilDiv width 4)).map (e.2 / 4 + ·))).sum

/-- Counts the passes of a scratchpad instruction, and those of them that are tried again because the wide port takes the bank: none where no engine of the die is at work, else a free number, since it is a matter of timing (R168, R234; log 20). -/
def State.countPasses (s : State) (core n : Nat) : State :=
  let t := s.count core 0x03 n
  if t.cores.any fun e => dieOf e.1 == dieOf core && (!e.2.copy.queue.isEmpty || !e.2.arr.units.isEmpty) then
    { t.count core 0x04 ((Config.freeValue t.fresh).toNat % (n + 1)) with fresh := t.fresh + 1 }
  else t

/-- Whether no access that these fibres have made to the core's scratchpad through the window is still to be performed (R194). -/
def State.spadFree (s : State) (core : Nat) (fs : List Nat) : Bool := !(fs.any fun f => s.ownWindowOpen f (s.vcore core))

/-- The frame of a scratchpad instruction: operands, bounds, order; it goes on with the lanes, their core-absolute offsets and the passes counted. -/
def State.withSpad (s : State) (o : Shape) (width : Nat) (k : AccKind) (offs : Int) (isStore : Bool) (go : Nat → List Nat → State → List Lane → List Nat → Out) : Out :=
  s.onGroup fun g fs =>
    let off (l : Lane) : Int := spadOff (l.n 0) (l.n 1) offs
    s.withChecked g fs o (fun _ => none) (fun _ => []) (fun l => s.spadCheck l.f width k (off l)) fun s1 ls =>
      if !s.allReady fs isStore || !s.spadFree (g / 64) fs then .next (s.hold g .memory)
      else
        let places := ls.map fun l => s.spadPlace l.f (off l)
        let n := passes width (decide (k = .atomic)) (ls.zip places |>.map fun e => (laneOf e.1.f, e.2))
        s.withEntries s1 g fs [] fun s2 => go g fs (s2.countPasses (g / 64) n) ls places

/-- `lds` (R182). -/
def execLds (z : Size) (o : Option OrdWord) (a b : Src) (d : Dst) (s : State) : Out :=
  s.withSpad { info := 0x62, srcs := [(1, a), (1, b)], dsts := [(z.words, d)] } z.bytes .read (offsOf o) false fun g fs s1 ls places =>
    let ops := (indexed ls).map fun e =>
      let t := s.dstOf e.2.f z.words d
      { Op.blank e.2.f with flag := s.flagOf fs, dst := t.1, marks := t.2, isMem := true, isLoad := true,
                            value := some (Word.split z.words (s.spadNum (g / 64) (places.getD e.1 0) z.bytes)) }
    let started := s1.startOps ops
    let bad := (indexed started.1).filter fun e => s.spadBad (g / 64) (places.getD e.1 0) z.bytes
    .next ((bad.foldl (fun t e => t.opSpadBad e.2) started.2).done g)

/-- `sts` (R167, R182). -/
def execSts (z : Size) (o : Option OrdWord) (a b d : Src) (s : State) : Out :=
  s.withSpad { info := 0x63, srcs := [(1, a), (1, b), (z.words, d)], dsts := [] } z.bytes .write (offsOf o) true fun g fs s1 ls places =>
    let ops := ls.map fun l => s.storeOp fs 1 l.f none []
    let todo (i _ : Nat) : Todo := .spadStore (g / 64) (places.getD i 0) (Byte.split z.bytes ((ls.getD i { f := 0, vals := [] }).n 2))
    .next ((s.startStores s1 g fs (ordOf o) (scopeOf o) ops todo).done g)

/-- `atoms` (R183). -/
def execAtoms (wide : Bool) (o : OrdWord) (a b : Src) (d : Dst) (s : State) : Out :=
  let words := atomWords wide o
  s.withSpad { info := 0x66, srcs := [(1, a), (1, b), (words, d.asSrc)], dsts := [(words, d)] } (atomBytes wide) .atomic o.offs.toInt true
    fun g fs s1 ls places =>
      let ops := ls.map fun l =>
        let t := s.dstOf l.f (wideWords wide) d
        { s.storeOp fs 1 l.f none [] with dst := t.1, marks := t.2, isLoad := true }
      let todo (i op : Nat) : Todo := .spadAtomic (g / 64) (atomicItem op (places.getD i 0) wide o ((ls.getD i { f := 0, vals := [] }).n 2))
      .next ((s.startStores s1 g fs o.ord o.scope ops todo).done g)

/-! fence, cflush, pref, waitaddr (R185 to R189). -/

/-- Starts a fence in a lane (R186). -/
def State.startFence (s : State) (wide : Bool) (f : Nat) : State :=
  s.modFibre f fun x => { x with wait := some .fence, fence := some (s.relFor f wide) }

/-- A fibre's fence or barrier arrival is done: a group whose every lane's fence is done goes on; a barrier issues again and records its arrival. -/
def State.fenceOver (s : State) (f : Nat) : State :=
  let s1 := s.modFibre f fun x => { x with fence := none }
  match s1.groupOf f with
  | none => s1.wake f
  | some g =>
    if (s1.fibre f).wait = some .fence then
      let fs := (s1.group g).members
      if fs.all fun k => decide ((s1.fibre k).wait = some .fence ∧ (s1.fibre k).fence = none) then
        (s1.modFibres fs fun x => { x with wait := none }).done g
      else s1
    else s1.unhold g

/-- The work of a fence or of a barrier arrival goes on in a lane, and ends where it is over (R186). -/
def State.fenceStep (s : State) (f : Nat) (r : Rel) : State :=
  let t := s.relTick (coreOf f) f r
  if t.2.2 then t.1.fenceOver f else t.1.modFibre f fun y => { y with fence := some t.2.1 }

/-- Starts the fence of a lane and takes its work as far as it goes at once. -/
def State.fenceLane (wide : Bool) (s : State) (f : Nat) : State :=
  let t := (s.startFence wide f).relTick (coreOf f) f (s.relFor f wide)
  t.1.modFibre f fun y => { y with fence := if t.2.2 then none else some t.2.1 }

/-- `fence` (R185, R186): every lane's work starts, `fenceDone` takes it further, and the group goes on when every lane's is over, at once where there is nothing to wait for. -/
def execFence (x : Scope) (s : State) : Out :=
  s.onGroup fun g fs =>
    if fs.all fun f => decide ((s.fibre f).wait = some .fence) then .next (s.hold g .fence)
    else
      let s1 := fs.foldl (State.fenceLane x.wide) s
      if fs.all fun f => (s1.fibre f).fence.isNone then .next ((s1.modFibres fs fun y => { y with wait := none }).done g)
      else .next (s1.hold g .fence)

/-- The block of the L1 that holds a virtual address, whatever it permits (R187). -/
def State.blockAtAddr (s : State) (f x : Nat) : Option L1Block :=
  if 2 ^ 57 ≤ x || inWindow x then none
  else
    match s.lookup (coreOf f) (some (hlOf f)) (s.ctxOf f) x with
    | .ok e => let l := e.place x; (s.core (coreOf f)).block? (unitOf (lineKey l) (l.pa % 64))
    | _ => none

/-- Loads the caches of translation with the page a `cflush` looks up (R216). -/
def State.cacheAddr (s : State) (f x : Nat) : State :=
  if 2 ^ 57 ≤ x || inWindow x then s
  else
    match s.lookup (coreOf f) (some (hlOf f)) (s.ctxOf f) x with
    | .ok e => s.cacheEntry (coreOf f) (some (hlOf f)) e
    | _ => s

/-- The writes under way that carry dirty bytes of a block. -/
def L1Block.carriers (b : L1Block) : List Nat := (b.bytes.filterMap fun e => e.2.going).dedup

/-- A `cflush` writes back a block for one lane: its operation waits for every write that carries dirty bytes of the block, and its fibre shares their completion times (R172, R187). -/
def State.flushBlock (core f o : Nat) (lat : Bool) (s : State) (b : L1Block) : State :=
  match (s.core core).block? b.first with
  | none => s
  | some c =>
    let s1 := (s.writeBack core c [f] lat).1
    (((s1.core core).block? b.first).elim [] L1Block.carriers).foldl (fun t r =>
      (t.modReq r fun y => { y with ops := y.ops ++ [o], fibres := (y.fibres ++ [f]).dedup }).modOp o fun y => { y with left := y.left + 1 }) s1

/-- A `cflush` of lanes already checked: `blocks` the blocks each lane writes back (R187). -/
def State.flushLanes (s s0 : State) (g : Nat) (fs : List Nat) (blocks : Nat → List L1Block) : Out :=
  let rs := [(instStore (g / 16 % 4), 1)]
  s.withEntries s0 g fs rs fun s1 =>
    let started := s1.startOps ((indexed fs).map fun e => { s.storeOp fs e.1 e.2 none rs with isStore := false })
    let s2 := (fs.zip started.1).foldl (fun t e => (blocks e.1).foldl (State.flushBlock (g / 64) e.1 e.2 (s.latOf fs)) t) started.2
    .next ((started.1.foldl (fun t o => t.dropStoreHolds (g / 64) o) s2).done g)

/-- `cflush` (R187): no fault but MISALIGNED. -/
def execCflush (o : Option OrdWord) (a b : Src) (s : State) : Out :=
  s.onGroup fun g fs =>
    let addr (l : Lane) : Nat := addrOf (l.n 0) (l.n 1) (offsOf o)
    s.withChecked g fs { info := 0x69, srcs := [(2, a), (1, b)], dsts := [] } (fun _ => none) (fun _ => [])
      (fun l => if addr l % 4 = 0 then none else some (Cond.offset clsMisaligned .write)) fun s0 ls =>
        if !s.allReady fs true then .next (s.hold g .memory)
        else s.flushLanes (fs.foldl (fun t f => t.cacheAddr f (addr (laneFor ls f))) s0) g fs fun f => (s.blockAtAddr f (addr (laneFor ls f))).toList

/-- `cflush.all` (R187). -/
def execCflushAll (_o : Option OrdWord) (s : State) : Out :=
  s.onGroup fun g fs =>
    if !s.allReady fs true then .next (s.hold g .memory)
    else s.flushLanes s g fs fun _ => (s.core (g / 64)).l1

/-- What a `pref` reads for a lane: the place, none where the access would fault or is not aligned to its width, 1 byte, or 16 for the block (R46, R188). -/
def State.prefHit (s : State) (f x : Nat) (block : Bool) : Option (Loc × PageEntry) :=
  if inWindow x || (block && x % 16 != 0) then none
  else
    match s.translate (coreOf f) (some (hlOf f)) (s.ctxOf f) x .read (decide ((s.fibre f).mode = .user)) with
    | .ok l e => some (l, e)
    | _ => none

/-- Sends the fill of a unit for a `pref`, unless the L1 holds it under a lease; the operation counts the reads it waits for. -/
def State.prefetch (core : Nat) (lat block : Bool) (o homing : Nat) (p : State × List Nat) (u : Nat) : State × List Nat :=
  let held := match (p.1.core core).block? u with | some b => decide (p.1.horizon < NMap.get b.lease u 0) | none => false
  if held then p
  else
    let q := State.sendFill core lat (if block then some 3 else none) none p ⟨lineOfUnit u, homing, [], [], [], [], some u⟩
    let new := q.2.filter fun r => !p.2.contains r
    (new.foldl (fun t r => (t.modReq r fun x => { x with ops := x.ops ++ [o] }).modOp o fun y => { y with left := y.left + 1 }) q.1, q.2)

/-- The fills of a `pref` of one lane: of the block the predictor chooses, or of the units of the 256-byte block (R188). -/
def State.prefLane (s : State) (core f o x : Nat) (block lat : Bool) : State :=
  match s.prefHit f x block with
  | none => s
  | some (l, e) =>
    let u := unitOf (lineKey l) (l.pa % 64)
    let us := if block then unitsFrom (runFirst u 3) 8 else [u]
    (us.foldl (State.prefetch core lat block o e.home) (s.cacheEntry core (some (hlOf f)) e, [])).1

/-- `pref` and `pref.blk` (R188). -/
def State.prefAt (s : State) (o : Option OrdWord) (a b : Src) (block : Bool) : Out :=
  s.onGroup fun g fs =>
    s.withOperands g fs { info := 0x6A, srcs := [(2, a), (1, b)], dsts := [] } fun s0 ls =>
      if !s.allReady fs false then .next (s.hold g .memory)
      else
        let rs := [(instStore (g / 16 % 4), 1)]
        s.withEntries s0 g fs rs fun s1 =>
          let started := s1.startOps ((indexed fs).map fun e =>
            { Op.blank e.2 with flag := s.flagOf fs, holds := holdsOn e.1 rs, isMem := true, prefetch := true })
          let s2 := (fs.zip started.1).foldl (fun t e =>
            t.prefLane (g / 64) e.1 e.2 (addrOf ((laneFor ls e.1).n 0) ((laneFor ls e.1).n 1) (offsOf o)) block (s.latOf fs)) started.2
          .next ((started.1.foldl (fun t o => t.dropStoreHolds (g / 64) o) s2).done g)

def execPref (o : Option OrdWord) (a b : Src) (s : State) : Out := s.prefAt o a b false
def execPrefBlk (o : Option OrdWord) (a b : Src) (s : State) : Out := s.prefAt o a b true

/-- One lane of `waitaddr` (R189): the value it ended with, or the place it sleeps on. -/
def State.watch (s : State) (core place width : Nat) (f expected : Nat) : Wait :=
  match (s.fibre f).wait with
  | some (.woken v) => .woken v
  | _ =>
    let v := s.spadNum core place width
    if v = expected then .waitaddr place else .woken v

/-- Ends the context over data a fibre reads at its instruction (R179). -/
def State.poisonEnd (s : State) (f line : Nat) : State :=
  s.poisonReset (s.ctxOf f) (s.originOf f) (s.fibre f).pc (s.fibre f).pos line

/-- The value of a lane of `waitaddr` that has ended. -/
def Wait.ended : Wait → Option Nat
  | .woken v => some v
  | _ => none

/-- `waitaddr` (R189): a lane that has read another value keeps it until every lane has ended. -/
def execWaitaddr (wide : Bool) (o : Option OrdWord) (a b : Src) (d : Dst) (s : State) : Out :=
  let words := wideWords wide
  s.onGroup fun g fs =>
    let off (l : Lane) : Int := spadOff (l.n 0) (l.n 1) (offsOf o)
    s.withChecked g fs { info := 0x6B, srcs := [(1, a), (1, b), (words, d.asSrc)], dsts := [(words, d)] } (fun _ => none) (fun _ => [])
      (fun l => s.spadCheck l.f (4 * words) .read (off l)) fun s0 ls =>
        if !s.allReady fs false || !s.spadFree (g / 64) fs then .next (s.hold g .memory)
        else
          let places := ls.map fun l => (l.f, s.spadPlace l.f (off l))
          match places.find? fun e => s.spadBad (g / 64) e.2 (4 * words) && !(decide ((s.fibre e.1).wait.bind Wait.ended ≠ none)) with
          | some e => .next (s.spadLine.2.poisonEnd e.1 s.spadLine.1)
          | none =>
            let ws := (ls.zip places).map fun e => (e.1.f, s.watch (g / 64) e.2.2 (4 * words) e.1.f (e.1.n 2))
            let read := (places.filter fun e => ((s.fibre e.1).wait.bind Wait.ended).isNone).map fun e => (laneOf e.1, e.2)
            let s1 := s0.countPasses (g / 64) (passes (4 * words) false read)
            let slept := ws.foldl (fun t e => t.modFibre e.1 fun x => { x with wait := some e.2 }) (s.countPasses (g / 64) (passes (4 * words) false read))
            if ws.all fun e => e.2.ended.isSome then
              slept.finish (s1.modFibres fs fun x => { x with wait := none }) g (some d) (0, 0) (ws.map fun e => (e.1, LaneOut.num words (e.2.ended.getD 0)))
            else .next (slept.hold g (.waitaddr 0))

end Sys2Proof.Machine
end

