-- ==== Sys2Proof/Machine/MemEvents.lean ====
section
/-! DEFINITION. The events of memory: requests performed at their home, answers, fills, window exchanges (R160, R170 to R174, R179, R195, R198, R407). -/

namespace Sys2Proof.Machine

/-! At the home (R170, R172, R174). -/

/-- The request of a number, if it stands at a stage. -/
def State.reqAt (s : State) (r : Nat) (st : ReqStage) : Option Req := (NMap.find s.reqs r).filter fun x => x.stage == st

/-- Whether a request may be performed at its home now: it is the oldest of its core to its line, and began before its partition's cistern bandwidth was held (R193, R367). -/
def State.atHome (s : State) (r : Nat) (x : Req) : Bool := s.reqFirst r x && (x.begun || !s.heldAct x.part 1)

/-- A request is performed and answered: over the riser of its own die, or as a flit from the cluster whose riser served it (R16, R17). -/
def State.answerReq (s : State) (r : Nat) (k : Req → Req) : State :=
  match NMap.find s.reqs r with
  | none => s
  | some x =>
    let near := x.die == dieOf x.core
    let s1 := (s.modReq r fun y => { k y with stage := if near then .done else .reply }).meterLine x.part x.line
    if near then s1
    else s1.meshSend { src := portOf x.via, dst := x.core, lat := x.lat && !x.low, flits := 1, got := 0, layer := layerOf x.line,
                       ctx := x.ctx, part := x.part, body := .answer r }

/-- A read reaches its home and is granted a lease; the bytes with an uncorrectable error are marked (R170, R179). -/
def execCisternRead (r : Nat) (s : State) : Out :=
  match s.reqAt r .home with
  | none => .next s
  | some x =>
    if !x.isRead || !s.atHome r x then .next s
    else
      let g := s.grantLease x.core x.line
      .next (g.2.answerReq r fun y =>
        { y with data := s.lineBytes x.line, bad := s.lineBad x.line, comp := g.1, settle := (s.lineRec x.line).settle })

/-- A write-through or write-back is performed at the home and answered with its completion time (R172). -/
def execCisternWrite (r : Nat) (s : State) : Out :=
  match s.reqAt r .home with
  | none => .next s
  | some x =>
    match x.kind with
    | .write bs =>
      if !s.atHome r x then .next s
      else
        let h := s.homeWrite x.line
        .next ((h.2.setMap (lineLoc x.line) bs).answerReq r fun y => { y with comp := h.1 })
    | _ => .next s

/-- Performs atomics at the home in lane order; answers the old values, and whether one of them wrote. One that meets an uncorrectable error writes nothing (R179). -/
def State.homeAtomics (s : State) (line : Nat) : List AtomicItem → List (Nat × Nat) × Bool × State
  | [] => ([], false, s)
  | x :: xs =>
    let old := Byte.join (s.bytesAt ((lineLoc line).plus x.off) x.width)
    let bad := s.poisonedIn line x.off x.width
    let wrote := !bad && !x.idle old
    let s1 := if bad then s.opPoison x.op line
      else if wrote then s.setBytes ((lineLoc line).plus x.off) (Byte.split x.width (x.apply old)) else s
    let q := State.homeAtomics s1 line xs
    ((x.op, old) :: q.1, wrote || q.2.1, q.2.2)

/-- A wide atomic or `red` is performed at the home (R174, R203); one that wrote nothing has no completion time (R195). -/
def execCisternAtomic (r : Nat) (s : State) : Out :=
  match s.reqAt r .home with
  | none => .next s
  | some x =>
    match x.kind with
    | .atomic items =>
      if !s.atHome r x then .next s
      else
        let settle := (s.lineRec x.line).settle
        let q := s.homeAtomics x.line items
        let h := if q.2.1 then q.2.2.homeWrite x.line else (0, q.2.2)
        .next (h.2.answerReq r fun y => { y with results := q.1, comp := h.1, settle := settle })
    | _ => .next s

/-! Back at the core (R170 to R172, R198). -/

/-- A write of its core's L1 is acknowledged: what it carried is clean (R173). -/
def State.cleanL1 (s : State) (r : Nat) (x : Req) (m : NMap Byte) : State :=
  s.modCore x.core fun c => if c.ctx == some x.ctx then { c with l1 := c.l1.map (L1Block.acked r x.line x.comp m) } else c

/-- An acknowledgment reaches the core (R172). -/
def execWriteAck (r : Nat) (s : State) : Out :=
  match s.reqAt r .done with
  | none => .next s
  | some x =>
    match x.kind with
    | .write m => .next ((x.ops.foldl State.opDone ((s.ackTimes x).cleanL1 r x m)).dropReq r)
    | .atomic items => .next (((s.ackTimes x).giveResults items x.results x.settle).dropReq r)
    | _ => .next s

/-- Whether an access takes a byte with an uncorrectable error from what a read brought (R179). -/
def Req.spoils (x : Req) (a : Access) : Bool :=
  x.bad.any fun i => decide (a.off ≤ i ∧ i < a.off + a.bytes) && (NMap.find x.mine i).isNone

/-- Gives one operation what a fill brought: a load its value, with the bytes the core has written in its L1 (R192); a team-scope atomic its turn on the block, or another fill. -/
def State.fillOp (x : Req) (s : State) (o : Nat) : State :=
  match NMap.find s.ops o with
  | none => s
  | some y =>
    match y.todo with
    | some (.atomic line homing false item) =>
      if s.atomicHits x.core line item then s.blockAtomic x.core line homing item
      else (State.sendFill x.core x.lat none none (s, []) ⟨line, homing, [o], [], [], [], some (unitOf line item.off)⟩).1
    | _ =>
      match y.acc with
      | some a =>
        if x.spoils a then s.opPoison o x.line
        else s.opValue o (readWords (mapOver x.data x.mine) a.off a.bytes) (if x.own a.off a.bytes then 0 else x.settle)
      | none => s.opDone o

/-- A fill lands in the L1 with its lease and settle time, and serves what waited for it (R170, R171); for a copy command it is kept until the engine takes it up. -/
def execL1Fill (r : Nat) (s : State) : Out :=
  match s.reqAt r .done with
  | none => .next s
  | some x =>
    match x.kind with
    | .read _ _ lead =>
      let s1 := s.install x.core x
      let s2 := if lead then s1.count x.core 0x06 1 else s1
      if x.eng.isSome then
        .next (s2.modReq r fun y => { y with stage := .landed, data := mapOver y.data y.mine, bad := y.bad.filter fun i => (NMap.find y.mine i).isNone })
      else .next (x.ops.foldl (State.fillOp x) (s2.dropReq r))
    | _ => .next s

/-! Window exchanges (R160, R344, R407). -/

/-- A window request is performed at its target's scratchpad, in its order, and answered (R160, R172, R177, R193, R407). -/
def execWindowRequest (r : Nat) (s : State) : Out :=
  match s.reqAt r .home with
  | none => .next s
  | some x =>
    match s.remap? x.ctx x.home with
    | none => .next s
    | some phys => if s.winFirst r x then .next (s.performWindow r phys x) else .next s

end Sys2Proof.Machine
end

