-- ==== Sys2Proof/Machine/Mesh.lean ====
section
/-! DEFINITION. The drift mesh: routers, injection, reassembly, remap tables, die links (R338 to R346, R406). -/

namespace Sys2Proof.Machine

/-! Ports and links: 0 north, 1 east, 2 south, 3 west. -/

/-- The router beyond a port, where there is one. -/
def beyond (router port : Nat) : Option Nat :=
  match port with
  | 0 => if clusterY router = 0 then none else some (router - 8)
  | 1 => if clusterX router = 7 then none else some (router + 1)
  | 2 => if clusterY router = 7 then none else some (router + 8)
  | 3 => if clusterX router = 0 then none else some (router - 1)
  | _ => none

/-- One key for both ends of a link of a layer. -/
def linkKey (layer router port : Nat) : Nat :=
  match port, beyond router port with
  | 0, some r => 512 * layer + 8 * r + 2
  | 3, some r => 512 * layer + 8 * r + 1
  | p, _ => 512 * layer + 8 * router + p

/-- Failed retraining attempts after which a link is disabled (R345). -/
def maxFailures : Nat := 3

/-- Whether a port has a link in service: it exists, is not retraining and is not disabled. -/
def State.portUp (s : State) (layer router port : Nat) : Bool :=
  (beyond router port).isSome &&
    (let x := NMap.get s.mesh.links (linkKey layer router port) 0
     x % 2 == 0 && decide (x / 2 < maxFailures))

/-- Whether every link of a layer is in service. -/
def State.linksWhole (s : State) (layer : Nat) : Bool := s.mesh.links.all fun e => e.1 / 512 != layer

/-- The routers one hop from some routers over links in service. -/
def State.nextRouters (s : State) (layer : Nat) (rs : List Nat) : List Nat :=
  (rs.flatMap fun r => ([0, 1, 2, 3].filter (s.portUp layer r)).filterMap (beyond r)).dedup

/-- The routers at each hop distance from a router, with the links as they stand (R343). -/
def State.rings (s : State) (layer : Nat) : Nat → List Nat → List Nat → List (List Nat)
  | 0, rs, _ => [rs]
  | n + 1, rs, seen => rs :: s.rings layer n ((s.nextRouters layer rs).filter fun r => !seen.contains r && !rs.contains r) (seen ++ rs)

/-- The hop distance of two routers of a layer with its links as they stand; 64 where none leads there (R343). -/
def State.distance (s : State) (layer a b : Nat) : Nat :=
  if s.linksWhole layer then hops a b
  else match (s.rings layer 63 [b] []).findIdx? fun rs => rs.contains a with | some n => n | none => 64

/-- The productive link ports of a destination: those that reduce the hop distance, the dimension with more to go first, east or west on a tie (R339). -/
def State.productive (s : State) (layer router dest : Nat) : List Nat :=
  let dx := (clusterX dest - clusterX router) + (clusterX router - clusterX dest)
  let dy := (clusterY dest - clusterY router) + (clusterY router - clusterY dest)
  let d := s.distance layer router dest
  let nearer (p : Nat) : Bool := s.portUp layer router p && (match beyond router p with | some r => decide (s.distance layer r dest < d) | none => false)
  (if dx < dy then [0, 2, 1, 3] else [1, 3, 0, 2]).filter nearer

/-! Rank (R338). -/

def State.msg? (s : State) (m : Nat) : Option Msg := NMap.find s.mesh.msgs m
/-- A core's router, or the router whose port it is. -/
def routerOf (c : Nat) : Nat := if c < 256 then clusterOf c else c - 256
/-- A flit's destination router. -/
def Msg.router (m : Msg) : Nat := routerOf m.dst
/-- The source core number that ranks a message. DESIGN CHOICE (log 106): what a router's port injects ranks as its cluster's first core; the spec numbers no core for it. -/
def Msg.rank (m : Msg) : Nat := if m.src < 256 then m.src else 4 * routerOf m.src
/-- Effective age. -/
def Flit.effective (f : Flit) (m : Msg) : Nat := f.age + if m.lat then 512 else 0

/-- Whether a flit outranks another. -/
def outranks (a : Flit × Msg) (b : Flit × Msg) : Bool :=
  let x := a.1.effective a.2
  let y := b.1.effective b.2
  decide (y < x) || (x == y && (decide (a.2.rank < b.2.rank) ||
    (a.2.rank == b.2.rank && (decide (a.1.msg < b.1.msg) || (a.1.msg == b.1.msg && decide (a.1.num < b.1.num))))))

/-- Inserts by rank. -/
def insertRank (x : Flit × Msg) : List (Flit × Msg) → List (Flit × Msg)
  | [] => [x]
  | y :: ys => if outranks x y then x :: y :: ys else y :: insertRank x ys

/-- The flits at a router that have not moved in this cycle, in rank order. -/
def State.flitsAt (s : State) (layer router : Nat) : List (Flit × Msg) :=
  ((s.mesh.flits.filter fun f => f.layer == layer && f.at_ == router && !f.moved).filterMap fun f =>
    (s.msg? f.msg).map fun m => (f, m)).foldl (fun acc x => insertRank x acc) []

/-! Delivery (R341, R342). -/

def Mesh.held (m : Mesh) (router : Nat) : List Nat := NMap.get m.contexts router []

/-- The rank of the oldest flit of a message in transit, as a claim keeps it. -/
def State.claimRank (s : State) (m : Nat) : Option (Flit × Msg) :=
  ((s.mesh.flits.filter fun f => f.msg == m).filterMap fun f => (s.msg? m).map fun x => (f, x)).foldl
    (fun b x => match b with | none => some x | some y => if outranks x y then some x else some y) none

/-- Records the message of a first flit that found no context, if it outranks the one claimed. -/
def State.claim (s : State) (router : Nat) (x : Flit × Msg) : State :=
  let put : State := { s with mesh := { s.mesh with claims := NMap.put s.mesh.claims router x.1.msg } }
  match NMap.find s.mesh.claims router with
  | none => put
  | some m => match s.claimRank m with
    | some y => if outranks x y then put else s
    | none => put

/-- Whether the local port takes a flit: a message of several flits holds a context or takes a free one. -/
def State.localTakes (s : State) (router : Nat) (x : Flit × Msg) : Bool :=
  x.2.flits == 1 || (s.mesh.held router).contains x.1.msg || decide ((s.mesh.held router).length < reassembly)

/-- Frees a message's context; a claim takes it. -/
def State.freeContext (s : State) (router m : Nat) : State :=
  let rest := (s.mesh.held router).filter (· != m)
  if rest.length = (s.mesh.held router).length then s
  else
    let now := match NMap.find s.mesh.claims router with
      | some c => if (s.msg? c).isSome && !rest.contains c then rest ++ [c] else rest
      | none => rest
    { s with mesh := { s.mesh with contexts := NMap.store s.mesh.contexts router now [], claims := NMap.del s.mesh.claims router } }

/-- A whole message is handed to its core. -/
def State.handOver (s : State) (m : Msg) : State :=
  match m.body with
  | .request r => s.modReq r fun x => { x with stage := .home }
  | .answer r =>
    match NMap.find s.reqs r with
    | some x => if x.line < 2 ^ 60 then s.modReq r fun y => { y with stage := .done } else s.landWindow r
    | none => s
  | .update k id => s.modPipe k fun p => { p with updates := p.updates.map fun u => if u.id = id then { u with there := true } else u }
  | .pull k num => s.pullLands k num
  | .push k num => s.pushLands k num
  | .barrier k => { s with bmsgs := NMap.edit s.bmsgs k fun b => { b with there := true } }

/-- A message that is complete leaves its router: to its core or riser, or into the image of a core that is vacated (R342); combining points stay in their clusters (R336). -/
def State.complete (s : State) (router k : Nat) (m : Msg) : State :=
  let s1 := ({ s with mesh := { s.mesh with msgs := NMap.del s.mesh.msgs k } }).freeContext router k
  let away := (s.core m.dst).phase
  let mine (i : Image) : Bool := i.from_ == m.dst && i.ctx == m.ctx
  if (away = .saving ∨ away = .vacated) ∧ s.images.any mine = true then
    { s1 with images := s1.images.map fun i => if mine i then { i with msgs := i.msgs ++ [m] } else i }
  else s1.handOver m

/-- A flit leaves the mesh by the local port. -/
def State.eject (s : State) (router : Nat) (x : Flit × Msg) : State :=
  let m := { x.2 with got := x.2.got + 1 }
  let held := s.mesh.held router
  let s1 := { s with mesh := { s.mesh with
    flits := s.mesh.flits.filter (fun f => !(f.msg == x.1.msg && f.num == x.1.num)),
    msgs := NMap.put s.mesh.msgs x.1.msg m,
    contexts := if m.flits = 1 ∨ held.contains x.1.msg = true then s.mesh.contexts else NMap.put s.mesh.contexts router (held ++ [x.1.msg]) } }
  if m.got = m.flits then s1.complete router x.1.msg m else s1

/-! One cycle of a router (R339, R406). -/

/-- Moves a flit over a link; an entry into a port that is not productive counts as a deflection of its source (R234). -/
def State.moveFlit (s : State) (layer router port : Nat) (x : Flit × Msg) : State :=
  match beyond router port with
  | none => s
  | some nx =>
    let go (f : Flit) : Flit := if f.msg == x.1.msg && f.num == x.1.num && f.layer == layer then { f with at_ := nx, moved := true } else f
    let s1 := { s with mesh := { s.mesh with flits := s.mesh.flits.map go } }
    if (s.productive layer router x.2.router).contains port || decide (256 ≤ x.2.src) then s1 else s1.count x.2.src 0x0C 1

/-- The ports of a router that are free: link ports, and the local port as 4. -/
abbrev Ports := List Nat

/-- Productive ports in rank order: the state, the ports left, the flits left. -/
def State.assignProductive (layer router : Nat) : State → Ports → List (Flit × Msg) → State × Ports × List (Flit × Msg)
  | s, ps, [] => (s, ps, [])
  | s, ps, x :: xs =>
    if x.2.router = router then
      if ps.contains 4 && s.localTakes router x then State.assignProductive layer router (s.eject router x) (ps.filter (· != 4)) xs
      else
        let s1 := if s.localTakes router x then s else s.claim router x
        let r := State.assignProductive layer router s1 ps xs
        (r.1, r.2.1, x :: r.2.2)
    else
      match (s.productive layer router x.2.router).find? ps.contains with
      | some p => State.assignProductive layer router (s.moveFlit layer router p x) (ps.filter (· != p)) xs
      | none =>
        let r := State.assignProductive layer router s ps xs
        (r.1, r.2.1, x :: r.2.2)

/-- Deflection in rank order: the lowest-numbered free link port. -/
def State.assignRest (layer router : Nat) : State → Ports → List (Flit × Msg) → State × Ports
  | s, ps, [] => (s, ps)
  | s, ps, x :: xs =>
    match (ps.filter (· != 4)).foldl (fun b p => match b with | some q => some (min p q) | none => some p) none with
    | some p => State.assignRest layer router (s.moveFlit layer router p x) (ps.filter (· != p)) xs
    | none => State.assignRest layer router s ps xs

/-- Flits a core has injected on a layer in the window of 64 cycles that the cycle lies in. -/
def State.injectedNow (s : State) (core layer : Nat) : Nat :=
  let x := NMap.get s.mesh.injected (4 * core + layer) 0
  if x / 128 = s.cycle / 64 then x % 128 else 0

/-- INJRATE of a core. -/
def Core.injRate (c : Core) : Nat := bits c.netctl.toNat 6 0

/-- Whether another router's core starves on a layer (R340). -/
def State.starvedElsewhere (s : State) (layer router : Nat) : Bool :=
  s.cores.any fun c => clusterOf c.1 != router && c.2.starved.contains layer

/-- Whether a new cistern request waits at its core because its partition's cistern bandwidth is exhausted (R367). -/
def State.reqWaits (s : State) (m : Msg) : Bool :=
  match m.body with
  | .request r => match NMap.find s.reqs r with | some x => decide (x.line < 2 ^ 60) && !x.begun && s.heldAct x.part 1 | none => false
  | _ => false

/-- The first flit that waits in a core, or at a router's port, for a layer, if it may be injected: a core is bound by INJRATE and by its partition's mesh budget (R340, R367). -/
def State.injectable (s : State) (layer core : Nat) : Option (Flit × Msg) :=
  match NMap.get s.mesh.outq (4 * core + layer) [] with
  | [] => none
  | (m, i) :: _ =>
    if decide (core < 256) && (decide ((s.core core).injRate ≤ s.injectedNow core layer) || s.heldAct (s.partOfCore core) 3) then none
    else (s.msg? m).bind fun x =>
      if s.reqWaits x then none else some ({ msg := m, num := i, layer := layer, at_ := routerOf core, age := 0, moved := false }, x)

/-- The four cores of a router and its port, by place in their turn. -/
def sourceAt (router i : Nat) : Nat := if i % 5 = 4 then portOf router else 4 * router + i % 5
def placeOf (c : Nat) : Nat := if c < 256 then c % 4 else 4

/-- The sources of a router that may inject: all of them, or while another router's core starves those that starve themselves (R340; log 111). -/
def State.sources (s : State) (layer router : Nat) : List Nat :=
  let last := NMap.get s.mesh.turns (4 * router + layer) 3
  let order := [1, 2, 3, 4, 5].map fun i => sourceAt router (last + i)
  if s.starvedElsewhere layer router then order.filter fun c => (s.core c).starved.contains layer else order

/-- The source that injects: a latency-class flit before a bulk one, in turn after the source that injected last (R406). -/
def State.injector (s : State) (layer router : Nat) : Option (Nat × Flit × Msg) :=
  let cands := (s.sources layer router).filterMap fun c => (s.injectable layer c).map fun x => (c, x.1, x.2)
  match cands.find? fun e => e.2.2.lat with
  | some e => some e
  | none => cands.head?

/-- Counts the refusals in a row of each core of a router: one more where it could have injected and no port was free, none after any other cycle (R340). -/
def State.tallyRefusals (s : State) (layer router : Nat) (refused : Bool) : State :=
  [0, 1, 2, 3].foldl (fun t i =>
    let c := 4 * router + i
    let n := if refused && (t.sources layer router).contains c && (t.injectable layer c).isSome then NMap.get t.mesh.starve (4 * c + layer) 0 + 1 else 0
    { t with mesh := { t.mesh with starve := NMap.store t.mesh.starve (4 * c + layer) n 0 } }) s

/-- A flit leaves its core and enters the mesh by a port. -/
def State.injectBy (s : State) (layer router port core : Nat) (x : Flit × Msg) : State :=
  let key := 4 * core + layer
  let s1 := { s with mesh := { s.mesh with
    outq := NMap.store s.mesh.outq key ((NMap.get s.mesh.outq key []).drop 1) [],
    flits := s.mesh.flits ++ [x.1],
    injected := NMap.put s.mesh.injected key (s.cycle / 64 * 128 + s.injectedNow core layer + 1),
    turns := NMap.put s.mesh.turns (4 * router + layer) (placeOf core),
    starve := NMap.del s.mesh.starve key } }
  let s2 := (if core < 256 then s1.modCore core fun c => { c with starved := c.starved.filter (· != layer) } else s1).meter x.2.part 3 1
  if port = 4 then s2.eject router x else s2.moveFlit layer router port x

/-- Injection into a port left free (R339, R340, R406). -/
def State.inject (s : State) (layer router : Nat) (ps : Ports) : State :=
  match s.injector layer router with
  | none => s.tallyRefusals layer router false
  | some (core, x) =>
    let goes (p : Nat) : State := (s.injectBy layer router p core x).tallyRefusals layer router false
    if x.2.router == router && ps.contains 4 && s.localTakes router x then goes 4
    else
      match (s.productive layer router x.2.router).find? ps.contains with
      | some p => goes p
      | none =>
        match (ps.filter (· != 4)).foldl (fun b p => match b with | some q => some (min p q) | none => some p) none with
        | some p => goes p
        | none => s.tallyRefusals layer router true

/-- One cycle of a router of a layer. -/
def execRouterCycle (layer router : Nat) (s : State) : Out :=
  let free := ([0, 1, 2, 3].filter fun p => s.portUp layer router p) ++ [4]
  let a := State.assignProductive layer router s free (s.flitsAt layer router)
  let b := State.assignRest layer router a.1 a.2.1 a.2.2
  .next (b.1.inject layer router b.2)

/-- Injection refused for 256 cycles in a row sets STARVE on the layer (R340). -/
def execStarve (core : Nat) (s : State) : Out :=
  let ls := [0, 1, 2, 3].filter fun l => decide (256 ≤ NMap.get s.mesh.starve (4 * core + l) 0) && !(s.core core).starved.contains l
  if ls.isEmpty then .next s else .next (s.modCore core fun c => { c with starved := c.starved ++ ls })

/-- Cycles pass on the mesh: flits in transit age, and may move again (R338). -/
def State.ageMesh (s : State) (n : Nat) : State :=
  { s with mesh := { s.mesh with flits := s.mesh.flits.map fun f => { f with age := min 4095 (f.age + n), moved := false } } }

/-! Remap tables (R344). -/

/-- Whether a context is quiesced: none of its flits waits in a core or is on a layer. -/
def State.quiesced (s : State) (ctx : Nat) : Bool := s.mesh.msgs.all fun e => e.2.ctx != ctx

/-- Sends again the window requests of a context that were returned as refused. -/
def State.resendRefused (s : State) (ctx : Nat) : State :=
  ((s.reqs.filter fun e => e.2.refused && e.2.ctx == ctx).map Prod.fst).foldl State.sendWindow s

/-- A write of a context's remap tables: refused with BUSY unless the context is quiesced; what was returned as refused is then sent again. -/
def State.writeRemap (s : State) (ctx : Nat) (k : NMap Nat → NMap Nat) : State :=
  if !s.quiesced ctx then { s with mesh := { s.mesh with busy := true } }
  else State.resendRefused { s with mesh := { s.mesh with remap := k s.mesh.remap, busy := false } } ctx

/-- The partition controller writes an entry of a context's remap tables; at any time but quiesced the write is refused with BUSY and the table keeps its contents. -/
def execRemapWrite (ctx vcore : Nat) (phys : Option Nat) (s : State) : Out :=
  let key := 256 * ctx + vcore % 256
  .next (s.writeRemap ctx fun r => match phys with | some p => NMap.put r key (p % 256) | none => NMap.del r key)

/-! Die links (R345, R366). -/

/-- Whether a port of a router leads to another die. -/
def crossesDies (router port : Nat) : Bool :=
  match beyond router port with
  | some r => dieOfCluster r != dieOfCluster router
  | none => false

def State.linkState (s : State) (layer router port : Nat) : Nat := NMap.get s.mesh.links (linkKey layer router port) 0
def State.setLink (s : State) (layer router port x : Nat) : State :=
  { s with mesh := { s.mesh with links := NMap.store s.mesh.links (linkKey layer router port) x 0 } }

/-- A die link begins retraining: `port` is 4 × layer + port of the router (R345). -/
def execLinkRetrain (router port : Nat) (s : State) : Out :=
  let x := s.linkState (port / 4) router (port % 4)
  if crossesDies router (port % 4) && x % 2 == 0 && decide (x / 2 < maxFailures) then .next (s.setLink (port / 4) router (port % 4) (x + 1))
  else .next s

/-- Whether a die has no working link to another die on some layer. -/
def State.cutOff (s : State) (die : Nat) : Bool :=
  [0, 1, 2, 3].any fun l => (List.range 64).all fun r => dieOfCluster r != die || [0, 1, 2, 3].all fun p =>
    !crossesDies r p || decide (maxFailures ≤ s.linkState l r p / 2)

/-- An allotment record with another CLMASK. -/
def withClusters (r : List Word) (cls : List Nat) : List Word :=
  (r.set 1 (Word.ofNat (maskOf cls % 2 ^ 32))).set 2 (Word.ofNat (maskOf cls / 2 ^ 32))

/-- Whether a context holds a core on a die. -/
def State.holdsOn (s : State) (ctx die : Nat) : Bool :=
  s.cores.any fun c => decide (c.1 < 256) && dieOf c.1 == die && (match c.2.plan with | some p => p.1 / 16 == ctx | none => false)

/-- A partition fault (R366): every context of the partition that holds a core on the die is reset, and its clusters there are withdrawn. -/
def State.partitionFault (s : State) (part die : Nat) : State :=
  let hit := (s.ctxs.filter fun e => e.2.part == part && s.holdsOn e.1 die).map Prod.fst
  let s1 := hit.foldl (fun t c => t.resetContext c 0x20) s
  let cls := setBits (match NMap.find s.parts part with | some p => dwordAt p.rec_ 1 | none => 0) 64
  let gone := cls.filter fun c => dieOfCluster c == die
  let cut (r : List Word) : List Word := withClusters r (cls.filter fun c => dieOfCluster c != die)
  ({ s1 with withdrawn := s1.withdrawn ++ gone,
             parts := NMap.edit s1.parts part fun p => { p with rec_ := cut p.rec_, pendingRec := p.pendingRec.map cut } }).eventNaming 0x07 [part, die]

/-- The partitions that hold clusters on a die. -/
def State.partsOn (s : State) (die : Nat) : List Nat :=
  (s.parts.filter fun e => (setBits (dwordAt e.2.rec_ 1) 64).any fun c => dieOfCluster c == die).map Prod.fst

/-- A retraining attempt ends: the link is back, or a failure is counted and it goes on retraining; the third in a row disables it until reset, with LINK_DOWN, and a die cut off faults its partitions (R345). -/
def execLinkRetrainDone (router port : Nat) (ok : Bool) (s : State) : Out :=
  let l := port / 4
  let p := port % 4
  let x := s.linkState l router p
  if x % 2 = 0 then .next s
  else if ok then .next (s.setLink l router p 0)
  else
    let s1 := s.setLink l router p (x + 2)
    if (x + 2) / 2 < maxFailures then .next s1
    else
      let edge := ([dieOfCluster router] ++ ((beyond router p).map dieOfCluster).toList)
      let s2 := s1.eventNaming 0x06 (edge ++ [linkKey l router p, l])
      let dies := ([dieOfCluster router] ++ ((beyond router p).map dieOfCluster).toList).dedup.filter s2.cutOff
      .next (dies.foldl (fun t d => (t.partsOn d).foldl (fun u q => u.partitionFault q d) t) s2)

end Sys2Proof.Machine
end

