-- ==== Sys2Proof/Machine/Control.lean ====
section
/-! DEFINITION. Control transfers, loops, fork, exit, wbase and yield: opcodes 0x40 to 0x4C (R106 to R115). -/

namespace Sys2Proof.Machine

/-- ILLEGAL_OPERAND of an opcode without a function code (R225). -/
def badOp (op : Nat) : Cond := Cond.withInfo clsIllegalOperand op

/-- A trap of a window that a step would carry outside the file: the step and the opcode, TADDR the refused base (R225). -/
def windowTrap (cls w op base : Nat) : Cond := { Cond.withInfo cls (4096 * w + op) with addr := some base }

/-- The address `H + 4 · offset` of a transfer, modulo 2^64 (R45, R107). -/
def target (h : Nat) (off : BitVec 21) : Nat := narrow ((h : Int) + 4 * off.toInt) 64

/-- No condition of an instruction's own. -/
def never (_ : Lane) : Option Cond := none
/-- No registers named implicitly. -/
def noRegs (_ : Nat) : List Nat := []

/-- Ends the clause of a group that issues, every lane at the target given (R29). -/
def State.transfer (s : State) (g : Nat) (tgt : Nat → Nat) : State := (s.issued g (s.group g).members).endClause g tgt

/-- The clause that follows a fibre's clause in memory: Next(H). -/
def State.nextOf (s : State) (f : Nat) : Nat := nextClause (s.fibre f).pc (s.fibre f).hdr

/-- `bra` (R107). -/
def execBra (off : BitVec 21) (s : State) : Out :=
  s.onGroup fun g _ => .next (s.transfer g fun f => target (s.fibre f).pc off)

/-- `brp` (R107). -/
def execBrp (p : Pred) (off : BitVec 21) (s : State) : Out :=
  s.onGroup fun g _ => .next (s.transfer g fun f => if (s.fibre f).pred p.val then target (s.fibre f).pc off else s.nextOf f)

/-- A target register that is not a multiple of 4 (R27). -/
def badTarget (op : Nat) (l : Lane) : Option Cond := if l.n 0 % 4 = 0 then none else some (badOp op)

/-- `brx` (R107). -/
def execBrx (a : Src) (s : State) : Out :=
  s.onGroup fun g fs =>
    s.withChecked g fs { info := 0x42, srcs := [(2, a)], dsts := [] } (badTarget 0x42) noRegs never fun s1 ls =>
      .next (s1.transfer g fun f => (laneFor ls f).n 0)

/-- The registers below a window base that hold a return address (R108). -/
def linkRegs (base : Nat) : List Nat := [base - 2, base - 1]

/-- Enters a callee in one lane: the link is written and the window moves up (R108). -/
def State.enter (w : Nat) (s : State) (f : Nat) : State :=
  let nb := (s.fibre f).base + 8 * w
  (s.putRegs f (nb - 2) (Word.split 2 (s.nextOf f))).modFibre f fun x => { x with base := nb }

/-- Whether a step up leaves the register file in a lane (R108, R112). -/
def State.overflows (s : State) (w op : Nat) (l : Lane) : Option Cond :=
  let x := s.fibre l.f
  if x.base + 8 * w + x.win ≤ 512 then none else some (windowTrap clsWindowOverflow w op (x.base + 8 * w))

/-- `call` and `callx` once their target is known (R108). -/
def State.callTo (s : State) (g : Nat) (w : Nat) (tgt : Nat → Nat) : Out :=
  .next (((s.group g).members.foldl (State.enter w) s).transfer g tgt)

/-- `call` (R108). -/
def execCall (w : Fin 16) (off : BitVec 21) (s : State) : Out :=
  s.onGroup fun g fs =>
    s.withChecked g fs { info := 0x43, srcs := [], dsts := [] } never (fun f => linkRegs ((s.fibre f).base + 8 * w.val))
      (s.overflows w.val 0x43) fun s1 _ => s1.callTo g w.val fun f => target (s.fibre f).pc off

/-- `callx` (R108). -/
def execCallx (w : Fin 16) (a : Src) (s : State) : Out :=
  s.onGroup fun g fs =>
    s.withChecked g fs { info := 0x44, srcs := [(2, a)], dsts := [] } (badTarget 0x44)
      (fun f => linkRegs ((s.fibre f).base + 8 * w.val)) (s.overflows w.val 0x44) fun s1 ls =>
        s1.callTo g w.val fun f => (laneFor ls f).n 0

/-- The return address below a fibre's window (R108). -/
def State.linkOf (s : State) (f : Nat) : Nat :=
  (s.view f ((s.fibre f).base - 2)).toNat + 2 ^ 32 * (s.view f ((s.fibre f).base - 1)).toNat

/-- Whether a step down leaves the register file in a lane (R108). DESIGN CHOICE (log 100): the refused base, which is below zero, stands in TADDR modulo 2^64. -/
def State.underflows (s : State) (w : Nat) (l : Lane) : Option Cond :=
  let b := (s.fibre l.f).base
  if 8 * w ≤ b then none else some (windowTrap clsWindowUnderflow w 0x45 (narrow ((b : Int) - 8 * w) 64))

/-- Leaves a callee in one lane. -/
def State.leaveCallee (w : Nat) (s : State) (f : Nat) : State := s.modFibre f fun x => { x with base := x.base - 8 * w }

/-- `ret` (R108): a lane whose window would leave the file has no return address to check. -/
def execRet (w : Fin 16) (s : State) : Out :=
  s.onGroup fun g fs =>
    let inFile (f : Nat) : Bool := decide (8 * w.val ≤ (s.fibre f).base)
    s.withChecked g fs { info := 0x45, srcs := [], dsts := [] }
      (fun l => if inFile l.f && s.linkOf l.f % 4 != 0 then some (badOp 0x45) else none)
      (fun f => if inFile f then linkRegs (s.fibre f).base else [])
      (s.underflows w.val) fun s1 _ =>
        .next ((fs.foldl (State.leaveCallee w.val) s1).transfer g s.linkOf)

/-! Loops (R109 to R111). -/

/-- The end address of a loop, and whether its offset leaves room for a body (R110). -/
def loopEnd (h off : Nat) : Nat := h + 4 * off
def loopRoom (x : Fibre) (off : Nat) : Bool := decide (3 + x.hdr % 16 ≤ off)

/-- What a lane does at `loop` or `loopi`: pushes an entry and enters the body, or skips it (R110). -/
structure LoopStart where
  entry : Option LoopEntry
  tgt : Nat
deriving DecidableEq, Repr

/-- `loop` and `loopi` once each lane's start is known: LOOP_OVERFLOW before any push in any lane (R110). -/
def LoopStart.overflow (x : Fibre) (b : LoopStart) : Option Cond :=
  if b.entry.isSome && decide (4 ≤ x.loops.length) then some (Cond.plain clsLoopOverflow) else none

/-- Pushes the entry of one lane. -/
def State.pushLoop (k : Nat → LoopStart) (s : State) (f : Nat) : State :=
  match (k f).entry with
  | some e => s.modFibre f fun x => { x with loops := e :: x.loops }
  | none => s

/-- `loop` in a lane (R110). -/
def countStart (x : Fibre) (off c : Nat) : LoopStart :=
  if c = 0 then { entry := none, tgt := loopEnd x.pc off }
  else { entry := some (.count (nextClause x.pc x.hdr) (loopEnd x.pc off) c), tgt := nextClause x.pc x.hdr }

/-- `loop` (R110). -/
def execLoop (c : Src) (off : BitVec 18) (s : State) : Out :=
  s.onGroup fun g fs =>
    let start (l : Lane) : LoopStart := countStart (s.fibre l.f) off.toNat (l.n 0)
    s.withChecked g fs { info := 0x46, srcs := [(1, c)], dsts := [] }
      (fun l => if loopRoom (s.fibre l.f) off.toNat then none else some (badOp 0x46)) noRegs
      (fun l => LoopStart.overflow (s.fibre l.f) (start l)) fun s1 ls =>
        .next ((fs.foldl (State.pushLoop fun f => start (laneFor ls f)) s1).transfer g fun f => (start (laneFor ls f)).tgt)

/-- `loopi` in a lane: bound, step, first value, induction register (R110). -/
def indexStart (sgn : Bool) (x : Fibre) (off bound step v reg : Nat) : LoopStart :=
  let ext (n : Nat) : Int := if sgn then sext n 32 else (n : Int)
  let st := sext step 32
  if (0 < st ∧ ext bound < ext v) ∨ (st < 0 ∧ ext v < ext bound) then { entry := none, tgt := loopEnd x.pc off }
  else { entry := some (.index (nextClause x.pc x.hdr) (loopEnd x.pc off) (ext v) (ext bound) st (x.base + reg)), tgt := nextClause x.pc x.hdr }

/-- The number of a destination that names a register. -/
def dstNum : Dst → Nat
  | .v n => n
  | _ => 0

/-- `loopi` (R110): a the bound, b the step, d the induction register. -/
def execLoopi (sgn : Bool) (a b : Src) (d : Dst) (off : BitVec 18) (s : State) : Out :=
  s.onGroup fun g fs =>
    let start (l : Lane) : LoopStart := indexStart sgn (s.fibre l.f) off.toNat (l.n 0) (l.n 1) (l.n 2) (dstNum d)
    s.withChecked g fs { info := 0x47, srcs := [(1, a), (1, b), (1, d.asSrc)], dsts := [] }
      (fun l => if loopRoom (s.fibre l.f) off.toNat && l.n 1 != 0 then none else some (badOp 0x47)) noRegs
      (fun l => LoopStart.overflow (s.fibre l.f) (start l)) fun s1 ls =>
        .next ((fs.foldl (State.pushLoop fun f => start (laneFor ls f)) s1).transfer g fun f => (start (laneFor ls f)).tgt)

/-- End address of a loop-stack entry. -/
def loopEndOf : LoopEntry → Nat
  | .count _ e _ => e
  | .index _ e _ _ _ _ => e

/-- `brk` (R111). -/
def execBrk (p : Pred) (s : State) : Out :=
  s.onGroup fun g fs =>
    s.withChecked g fs { info := 0x48, srcs := [], dsts := [] } never noRegs
      (fun l => if (s.fibre l.f).pred p.val && (s.fibre l.f).loops.isEmpty then some (Cond.plain clsLoopUnderflow) else none) fun s1 _ =>
        let s2 := (fs.filter fun f => (s.fibre f).pred p.val).foldl (fun t f => t.modFibre f fun x => { x with loops := x.loops.drop 1 }) s1
        .next (s2.transfer g fun f =>
          if (s.fibre f).pred p.val then ((s.fibre f).loops.head?.map loopEndOf).getD 0 else s.nextOf f)

/-! The life of a fibre (R112 to R115). -/

/-- The lowest FREE slot a team holds on a fibre's home lane (R88, R112). -/
def State.freeSlot (s : State) (f : Nat) : Option Nat :=
  ((s.team (s.fibre f).team).slots.filter fun h => h / 8 == f / 8 && (NMap.find s.fibres h).isNone).foldl
    (fun b h => match b with | some m => some (min m h) | none => some h) none

/-- The phases at which the barriers a team can name stand (R333). -/
def State.phasesNow (s : State) (t : Nat) : NMap Bool :=
  let x := s.team t
  let units := (s.core (t / 16)).units
  let own := x.units.foldl (fun m e =>
    NMap.store m (barName .team e.1) (match NMap.find units e.2 with | some u => u.2.1 | none => false) false) []
  (s.sbars.filter fun b => b.stage == stageKey x.plan x.stage && (b.level == .pkg || b.die == x.die)).foldl
    (fun m b => NMap.store m (barName b.level b.id) (b.phase != s.barLate b t) false) own

/-- The child that `fork` creates in a slot (R67, R87, R89, R112, R333, R346); it starts in user mode (log 15). -/
def State.spawnFibre (s : State) (f slot nb pc : Nat) : State :=
  let x := s.fibre f
  let child : Fibre :=
    { Fibre.blank with
      team := x.team, fibreId := 1024 + 32 * (8 * (qcOf f % 4) + slot % 8) + laneOf f, status := .ready, pc := pc, base := nb, win := x.win,
      fpctl := Word.ofNat (bits x.fpctl.toNat 10 8 * 256), stamp := s.horizon, stampAt := s.cycle, since := s.cycle,
      lat := x.lat, phases := s.phasesNow x.team }
  { s with fibres := NMap.put s.fibres slot child }

/-- `fork` in one lane: the child, and whether there is one (R112). -/
def State.forkOne (w : Nat) (p : Nat) (s : State) (l : Lane) : State :=
  let nb := (s.fibre l.f).base + 8 * w
  match s.freeSlot l.f with
  | some h => (s.spawnFibre l.f h nb (l.n 0)).modFibre l.f fun x => x.setPred p true
  | none => s.modFibre l.f fun x => x.setPred p false

/-- `fork` (R112). -/
def execFork (w : Fin 16) (a : Src) (p : Pred) (s : State) : Out :=
  s.onGroup fun g fs =>
    s.withChecked g fs { info := 0x49, srcs := [(2, a)], dsts := [] } (badTarget 0x49) noRegs (s.overflows w.val 0x49) fun s1 ls =>
      .next (((ls.foldl (State.forkOne w.val p.val) s1).done g).refill (g / 16))

/-- Whether the `exit` of a fibre commits: it waits for its commit, its flags stand at zero and none of its instructions is outstanding (R113). -/
def State.exitReady (s : State) (f : Nat) : Bool :=
  match NMap.find s.fibres f with
  | none => false
  | some x => decide (x.wait = some .exit) && x.flags.all (· == 0) && !(s.ops.any fun e => e.2.fibre == f) && s.coreRuns (coreOf f)

/-- Commits the `exit` of a fibre (R113); its team completes with its last fibre (R300). -/
def State.commitExit (s : State) (f : Nat) : State :=
  let team := (s.fibre f).team
  let s1 := s.endFibre f
  let s2 := if (s1.teamFibres team).isEmpty then s1.completeTeam team else s1
  s2.refill (qcOf f)

/-- `exit` (R113): the fibre's guards are discarded, and it commits as soon as nothing of it is outstanding, `exitCommit` after a wait. -/
def execExit (s : State) : Out :=
  s.onGroup fun g fs =>
    if fs.all fun f => decide ((s.fibre f).wait = some .exit) then .next s
    else
      let s1 := ((s.issued g fs).modFibres fs fun x => { x with wait := some .exit }).hold g .exit
      let s2 := fs.foldl (fun u f => u.guardsDrop (coreOf f) fun k => k.fibre == f) s1
      .next (fs.foldl (fun u f => if u.exitReady f then u.commitExit f else u) s2)

/-- `wbase` (R114). -/
def execWbase (a : Src) (s : State) : Out :=
  s.onGroup fun g fs =>
    s.withChecked g fs { info := 0x4B, srcs := [(1, a)], dsts := [] }
      (fun l => if l.n 0 % 8 = 0 ∧ l.n 0 + (s.fibre l.f).win ≤ 512 then none else some (badOp 0x4B)) noRegs never fun s1 ls =>
        .next ((ls.foldl (fun t l => t.modFibre l.f fun x => { x with base := l.n 0 }) s1).done g)

/-- `yield` (R115). -/
def execYield (s : State) : Out :=
  s.onGroup fun g fs => .next ((s.modFibres fs fun x => { x with stamp := s.horizon, stampAt := s.cycle }).done g)

end Sys2Proof.Machine
end

