-- ==== Sys2Proof/Machine/Traps.lean ====
section
/-! DEFINITION. Instructions that trap and return: trap, bkpt, eret, and the reserved words (R38, R229, R230). -/

namespace Sys2Proof.Machine

/-- Raises one condition in every lane of the group that issues. -/
def State.trapAll (s : State) (c : Cond) : Out := s.onGroup fun g fs => .next (s.raise g fs (fs.map fun f => (f, c)))

/-- Whether the group that issues is in user mode. -/
def State.userGroup (s : State) (fs : List Nat) : Bool := fs.all fun f => decide ((s.fibre f).mode = .user)

/-- ILLEGAL_INSTRUCTION of a reserved word: no effect in any lane (R38); INFO names the function and the major opcode. -/
def execIllegalInstruction (w : Word) (s : State) : Out :=
  s.trapAll (Cond.withInfo clsIllegalInstruction (opOf w.toNat + if isX w.toNat then 128 * fnOf w.toNat else 0))

/-- The lanes whose guarding predicate is true trap with a code; the others go on (R229). -/
def State.trapWhere (s : State) (cls p k : Nat) : Out :=
  s.onGroup fun g fs =>
    let on := fs.filter fun f => (s.fibre f).pred p
    if on.isEmpty then .next (s.done g)
    else .next (s.raise g on (on.map fun f => (f, Cond.withInfo cls k)))

/-- `trap` (R229). -/
def execTrap (p : Pred) (k : BitVec 7) (s : State) : Out := s.trapWhere clsUserTrap p.val k.toNat

/-- `bkpt` (R229). -/
def execBkpt (p : Pred) (k : BitVec 7) (s : State) : Out := s.trapWhere clsBreakpoint p.val k.toNat

/-- A fibre whose word to resume lies past its clause's end arrives at the next clause (R109, R230); one whose clause cannot be fetched stays at its word. -/
def State.pastEnd (s : State) (f : Nat) : State :=
  let x := s.fibre f
  match s.fetchClause f with
  | (_, .ok h _) =>
    if hdrLen h < x.pos then
      let y := { x with pc := nextClause x.pc h, pos := arriving }
      let s1 := s.modFibre f fun _ => y
      if y.arrivalHeld then s1 else s1.arriveOne f
    else s
  | _ => s

/-- The return of a whole group: those that resume inside a clause go on alone, those at a header by clause (R30, R39, R92). -/
def State.eretGroup (s : State) (g : Nat) (skip : Bool) : State :=
  let fs := (s.group g).members
  match fs.find? (s.returnBad skip) with
  | some f => s.fatalTrap f 0x09 0 (s.fibre f).pos none
  | none =>
    let s1 := fs.foldl (fun (t : State) f => (t.returnOne skip f).pastEnd f) (s.leave g fs)
    let inside := fs.filter fun f => (s1.fibre f).pos != 0
    let heads := partsBy (fun f => (s1.fibre f).pc) (fs.filter fun f => (s1.fibre f).pos == 0)
    let s2 := (heads ++ inside.map fun f => [f]).foldl (fun t p => t.seatOrWait (g / 16) p) s1
    s2.refill (g / 16)

/-- `eret` of R230: PRIVILEGE in user mode, otherwise the return. -/
def State.eretAs (s : State) (skip : Bool) : Out :=
  s.onGroup fun g fs =>
    if s.userGroup fs then .next (s.raise g fs (fs.map fun f => (f, Cond.plain clsPrivilege)))
    else .next ((s.issued g fs).eretGroup g skip)

/-- `eret` (R230): resumes at the trapping word. -/
def execEret (s : State) : Out := s.eretAs false

/-- `eret.skip` (R230): resumes after the trapping instruction. -/
def execEretSkip (s : State) : Out := s.eretAs true

end Sys2Proof.Machine
end

