-- ==== Sys2Proof/Machine/System.lean ====
section
/-! DEFINITION. System instructions: special registers, tlbi, clk, perf, bar, netcls, gset: opcodes 0x57, 0x72 to 0x79 (R162, R223 to R225, R228 to R245, R331 to R337, R340, R346, R353, R367). -/

namespace Sys2Proof.Machine

/-! Special registers (R228). -/

/-- The bits of a privileged register that hold a value; reserved bits read as zero and ignore writes (R8). -/
def csrMask (n : Nat) : Nat :=
  if n = 0x400 then 0x1FFFFFFFFFFFFFC
  else if n = 0x401 then 0x103
  else if n = 0x403 then 0xFFFF7FFF
  else if n = 0x406 then 0xFFFE
  else if n = 0x408 ∨ n = 0x409 then 0xFFFFFFFFFF001
  else if n = 0x40A then 0xFF7F
  else if 0x410 ≤ n ∧ n ≤ 0x417 then 0x13F
  else if n = 0x418 then 1
  else if 0x420 ≤ n ∧ n ≤ 0x426 then 0x0FFF0FFF
  else if n = 0x428 then 0x3F3F
  else if n = 0x430 then 0x00FF007F
  else if n = 0x431 then 0xFFFF
  else 2 ^ 64 - 1

/-- The trap registers of a fibre's home lane (R225). -/
def State.hwin? (s : State) (f : Nat) : Option HandlerWin := NMap.find s.hwins (hlOf f)

/-- What a meter reads, in units, saturating (R367). -/
def State.meterRead (s : State) (part a : Nat) : Nat :=
  match NMap.find s.parts part with
  | some p => min (p.meters.getD a 0 / meterUnit a) 0xFFFFFFFF
  | none => 0

/-- The holds of a partition as a mask (R367). -/
def State.holdMask (s : State) (part : Nat) : Nat := maskOf ((List.range 6).filter fun a => s.heldAct part a)

/-- The value of a special register in a lane (R228). -/
def State.csrRead (s : State) (n f : Nat) : Nat :=
  let x := s.fibre f
  let t := s.team x.team
  let core := coreOf f
  let c := s.core core
  let part := s.partOf (s.ctxOf f)
  let ctx (k : Ctx → Nat) : Nat := match s.ctx? (s.ctxOf f) with | some y => k y | none => 0
  let win (k : HandlerWin → Nat) : Nat := match s.hwin? f with | some w => k w | none => 0
  if n = 0x000 then x.fpctl.toNat
  else if n = 0x001 then laneOf f
  else if n = 0x002 then laneOf f / 4
  else if n = 0x003 then x.fibreId
  else if n = 0x004 then t.index
  else if n = 0x005 then stageId t.plan t.stage
  else if n = 0x006 then s.vcore core
  else if n = 0x007 then s.spBase x.team
  else if n = 0x008 then s.spSize x.team
  else if n = 0x010 then s.horizon
  else if n = 0x020 then s.acSize x.team
  else if n = 0x021 then part
  else if n = 0x400 then ctx fun y => y.tvec.toNat
  else if n = 0x401 then ctx fun y => y.hctl.toNat
  else if n = 0x402 then win HandlerWin.tpc
  else if n = 0x403 then win fun w => w.tcause.toNat
  else if n = 0x404 then win HandlerWin.taddr
  else if n = 0x405 then win fun w => w.tbase.toNat
  else if n = 0x406 then win fun w => w.tpred.toNat / 2 * 2
  else if n = 0x408 then ctx fun y => y.troot0.toNat
  else if n = 0x409 then ctx fun y => y.troot1.toNat
  else if n = 0x40A then t.spalloc.toNat
  else if 0x410 ≤ n ∧ n ≤ 0x417 then wordAt c.perfsel (n - 0x410)
  else if n = 0x418 then c.perfctl.toNat
  else if 0x420 ≤ n ∧ n ≤ 0x426 then wordAt c.poolcfg (n - 0x420)
  else if n = 0x427 then (c.poolFree % 4096).toNat
  else if n = 0x428 then t.acalloc.toNat
  else if n = 0x430 then c.netctl.toNat % 2 ^ 31 + b2n (!c.starved.isEmpty) * 2 ^ 31
  else if n = 0x431 then c.fxctl.toNat
  else if 0x440 ≤ n ∧ n ≤ 0x445 then s.meterRead part (n - 0x440)
  else if n = 0x446 then s.holdMask part
  else 0

/-- Instances of each pool class (R236). -/
def classCount : List Nat := [4, 4, 24, 1, 1, 1, 1]
/-- The least MIN of each class (R237). -/
def leastMin : List Nat := [8, 8, 8, 1, 1, 1, 4]

/-- Whether a POOLCFG value breaks R237 beside the others. -/
def poolBad (cfg : List Word) (k v : Nat) : Bool :=
  let mn := bits v 11 0
  let cap := bits v 27 16
  let sum := ((indexed classCount).map fun e => e.2 * (if e.1 = k then mn else bits (wordAt cfg e.1) 11 0)).sum
  decide (mn < leastMin.getD k 0) || decide (cap < mn) || decide (2048 < cap) || decide (2048 < sum)

/-- Whether a write names a reserved value (R67, R237, R340, R353). -/
def State.csrBad (s : State) (n core v : Nat) : Bool :=
  if n = 0x000 then fpctlBad v
  else if 0x420 ≤ n ∧ n ≤ 0x426 then poolBad (s.core core).poolcfg (n - 0x420) v
  else if n = 0x430 then decide (bits v 6 0 = 0 ∨ 64 < bits v 6 0)
  else if n = 0x431 then decide (bits v 15 0 < 64)
  else false

/-- Whether a register is written in every active lane; the others are written once, by the elected lane (R231). -/
def csrPerLane (n : Nat) : Bool := decide (n = 0x000 ∨ (0x402 ≤ n ∧ n ≤ 0x406))

/-- Writes a special register in a lane (R228). -/
def State.csrWrite (n : Nat) (s : State) (e : Nat × Nat) : State :=
  let f := e.1
  let v := e.2 &&& csrMask n
  let w := Word.ofNat v
  let win (k : HandlerWin → HandlerWin) : State := { s with hwins := NMap.edit s.hwins (hlOf f) k }
  let core (k : Core → Core) : State := s.modCore (coreOf f) k
  let ctx (k : Ctx → Ctx) : State := s.modCtx (s.ctxOf f) k
  if n = 0x000 then s.modFibre f fun x => { x with fpctl := Word.ofNat (fpctlAfter x.fpctl.toNat e.2) }
  else if n = 0x400 then ctx fun y => { y with tvec := BitVec.ofNat 64 v }
  else if n = 0x401 then ctx fun y => { y with hctl := w }
  else if n = 0x402 then win fun y => { y with tpc := v }
  else if n = 0x403 then win fun y => { y with tcause := w }
  else if n = 0x404 then win fun y => { y with taddr := v }
  else if n = 0x405 then win fun y => { y with tbase := w }
  else if n = 0x406 then win fun y => { y with tpred := BitVec.ofNat 16 v }
  else if n = 0x408 then ctx fun y => { y with troot0 := BitVec.ofNat 64 v }
  else if n = 0x409 then ctx fun y => { y with troot1 := BitVec.ofNat 64 v }
  else if n = 0x40A then s.modTeam (s.fibre f).team fun y => { y with spalloc := w }
  else if 0x410 ≤ n ∧ n ≤ 0x417 then core fun y => { y with perfsel := y.perfsel.set (n - 0x410) w }
  else if n = 0x418 then core fun y => { y with perfctl := w }
  else if 0x420 ≤ n ∧ n ≤ 0x426 then core fun y => { y with poolcfg := y.poolcfg.set (n - 0x420) w }
  else if n = 0x428 then s.modTeam (s.fibre f).team fun y => { y with acalloc := w }
  else if n = 0x430 then core fun y => { y with netctl := w }
  else if n = 0x431 then core fun y => { y with fxctl := w }
  else s

/-- Whether an instruction that names a register is refused its privilege (R9). -/
def State.csrShut (s : State) (fs : List Nat) (n : Nat) : Bool := decide (0x400 ≤ n) && s.userGroup fs

/-- PRIVILEGE in every lane. -/
def State.privilege (s : State) (g : Nat) (fs : List Nat) : Out := .next (s.raise g fs (fs.map fun f => (f, Cond.plain clsPrivilege)))

/-- `csrrd` (R231). -/
def execCsrrd (n : BitVec 11) (d : Dst) (s : State) : Out :=
  s.onGroup fun g fs =>
    if s.csrShut fs n.toNat then s.privilege g fs
    else
      s.withOperands g fs { info := 0x72, srcs := [], dsts := [(csrWords n.toNat, d)] } fun s1 ls =>
        s.finish s1 g (some d) (2, 1) (ls.map fun l => (l.f, LaneOut.num (csrWords n.toNat) (s.csrRead n.toNat l.f)))

/-- A write of a special register (R231): per-lane registers in every lane, the others by the elected lane, which alone is active (R43, R217); a reserved value refuses it in its lane. -/
def State.writeCsr (s : State) (n : Nat) (a : Src) : Out :=
  s.onGroup fun g fs =>
    let act := if csrPerLane n then fs else fs.take 1
    if s.csrShut fs n then s.privilege g act
    else
      s.withChecked g act { info := 0x73, srcs := [(csrWords n, a)], dsts := [] }
        (fun l => if s.csrBad n (coreOf l.f) (l.n 0) then some (badOp 0x73) else none) noRegs never fun s1 ls =>
          .next (((ls.map fun l => (l.f, l.n 0)).foldl (State.csrWrite n) s1).doneBy g act)

/-- `csrwr` (R231). -/
def execCsrwr (n : BitVec 11) (a : Src) (s : State) : Out := s.writeCsr n.toNat a

/-! tlbi (R232). -/

/-- Whether an outstanding access of a context may have used one of the pages given: its line lies in one of them. -/
def State.usesPage (s : State) (ctx : Nat) (pages : List PageEntry) (x : Op) : Bool :=
  x.isMem && decide (0 < x.left) && (NMap.find s.fibres x.fibre).isSome && s.ctxOf x.fibre == ctx &&
    (x.acc.any fun a => pages.any fun e =>
      let l := lineLoc a.line
      l.host == e.loc.host && decide (e.loc.pa / 64 * 64 ≤ l.pa ∧ l.pa < e.loc.pa + e.size))

/-- Whether a request to a home that is not performed yet may have used one of the pages given, whoever made it: a fibre since dead, a flush, a fill or an engine (R232). -/
def requestUses (pages : List PageEntry) (x : Req) : Bool :=
  decide (x.line < 2 ^ 60) && pages.any fun e =>
    let l := lineLoc x.line
    l.host == e.loc.host && decide (e.loc.pa / 64 * 64 ≤ l.pa ∧ l.pa < e.loc.pa + e.size)

/-- Drops the cached translations of a context that a test selects, and notes the operations and requests whose performing ends the drop; whether others in flight are waited for too is open (R232). -/
def State.dropTranslations (s : State) (ctx : Nat) (p : PageEntry → Bool) : State :=
  let gone (e : PageEntry) : Bool := e.ctx == ctx && p e
  let pages := (s.lprs.map Prod.snd ++ s.cores.flatMap fun c => c.2.tlb).filter gone
  let every := Config.dropWaits s.fresh
  let waits := (s.ops.filter fun e =>
    s.usesPage ctx pages e.2 ||
      (every && e.2.isMem && decide (0 < e.2.left) && (NMap.find s.fibres e.2.fibre).isSome && s.ctxOf e.2.fibre == ctx)).map Prod.fst ++
    (s.reqs.filter fun e => e.2.ctx == ctx && e.2.unperformed && (every || requestUses pages e.2)).map Prod.fst
  { (s.dropPages gone) with
    fresh := s.fresh + 1
    ctxs := NMap.edit s.ctxs ctx fun c => { c with dropping := true, dropOp := c.dropOp ++ waits } }

/-- Whether the accesses a drop waits for have all been performed. -/
def State.dropOver (s : State) (c : Nat) : Bool :=
  match s.ctx? c with
  | none => true
  | some x => x.dropOp.all fun o => (match NMap.find s.ops o with | some y => y.left == 0 | none => true) &&
      match NMap.find s.reqs o with | some y => !y.unperformed | none => true

/-- `tlbi` (R232): PRIVILEGE in user mode; the group goes on once every access that used a dropped translation is performed, at once where there is none, and else waits for `translationDropDone`. -/
def State.tlbiAs (s : State) (srcs : List (Nat × Src)) (p : List Lane → PageEntry → Bool) : Out :=
  s.onGroup fun g fs =>
    if s.userGroup fs then s.privilege g fs
    else
      match fs with
      | [] => .next s
      | f :: _ =>
        if (s.fibre f).wait = some (.tlbi (s.ctxOf f)) then .next (s.hold g (.tlbi (s.ctxOf f)))
        else
          s.withOperands g fs { info := 0x75, srcs := srcs, dsts := [] } fun s1 ls =>
            let s2 := s1.dropTranslations (s.ctxOf f) (p ls)
            if s2.dropOver (s.ctxOf f) then .next (s2.done g)
            else .next ((s2.modFibres fs fun x => { x with wait := some (.tlbi (s.ctxOf f)) }).hold g (.tlbi (s.ctxOf f)))

/-- `tlbi.va` (R232): each lane's address. -/
def execTlbiVa (a : Src) (s : State) : Out :=
  s.tlbiAs [(2, a)] fun ls e => ls.any fun l => decide (e.va ≤ l.n 0 ∧ l.n 0 < e.va + e.size)

/-- `tlbi.ctx` (R232). -/
def execTlbiCtx (s : State) : Out := s.tlbiAs [] fun _ _ => true

/-! clk, perf, netcls (R233, R235, R346). -/

/-- Words of a `clk` result. -/
def clkWords : ClkForm → Nat
  | .low => 1
  | _ => 2

/-- What `clk` reads (R233). -/
def State.clkRead (s : State) (f : ClkForm) (core : Nat) : Nat :=
  match f with
  | .horizon => s.horizon
  | .cycles => s.cycle - (s.core core).since
  | .low => s.horizon % 2 ^ 32

/-- `clk` (R233). -/
def execClk (f : ClkForm) (d : Dst) (s : State) : Out :=
  s.cross 0x76 [] (some (clkWords f, d)) fun t _ l => LaneOut.num (clkWords f) (t.clkRead f (coreOf l.f))

/-- `perf` and `perf.clr` (R235): PRIVILEGE in user mode while UEN is 0. -/
def State.perfAs (s : State) (c : Nat) (clear : Bool) (d : Dst) : Out :=
  s.onGroup fun g fs =>
    let core := s.core (g / 64)
    if s.userGroup fs && !bit core.perfctl.toNat 0 then s.privilege g fs
    else
      s.withOperands g fs { info := 0x77, srcs := [], dsts := [(2, d)] } fun s1 ls =>
        let v := core.perfcnt.getD c 0
        let s2 := if clear then s1.modCore (g / 64) fun x => { x with perfcnt := x.perfcnt.set c 0 } else s1
        s.finish s2 g (some d) (2, 1) (ls.map fun l => (l.f, LaneOut.num 2 v))

def execPerf (c : Fin 8) (d : Dst) (s : State) : Out := s.perfAs c.val false d
def execPerfClr (c : Fin 8) (d : Dst) (s : State) : Out := s.perfAs c.val true d

/-- Sets the mesh class of every lane (R346). -/
def State.setClass (s : State) (lat : Bool) : Out :=
  s.onGroup fun g fs => .next ((s.modFibres fs fun x => { x with lat := lat }).done g)

def execNetclsBulk (s : State) : Out := s.setClass false
def execNetclsLat (s : State) : Out := s.setClass true

/-! gset (R243, R245). -/

/-- Resolves the generation of a fibre's slot, to run or to discard, and advances it. -/
def State.resolve (s : State) (f k : Nat) (run : Bool) : State :=
  let gen := (s.fibre f).guards.getD k 0
  let tag : GuardTag := { fibre := f, slot := k, gen := gen }
  let s1 := if run then s.guardsRun (coreOf f) (· == tag) else s.guardsDrop (coreOf f) (· == tag)
  s1.modFibre f fun x => { x with guards := x.guards.set k ((gen + 1) % 256) }

/-- `gset` in every active lane. -/
def State.gsetBy (s : State) (k : Nat) (run : Nat → Bool) : Out :=
  s.onGroup fun g fs => .next ((fs.foldl (fun t f => t.resolve f k (run f)) s).done g)

def execGset (k : Fin 8) (p : Pred) (s : State) : Out := s.gsetBy k.val fun f => (s.fibre f).pred p.val
def execGsetRun (k : Fin 8) (s : State) : Out := s.gsetBy k.val fun _ => true
def execGsetDrop (k : Fin 8) (s : State) : Out := s.gsetBy k.val fun _ => false

/-! bar (R331 to R337). -/

/-- The phase of a barrier as a fibre names it, and whether the fibre has arrived at that phase (R333). -/
def State.barNow (s : State) (f : Nat) (l : BarLevel) (i : Nat) : Bool × Bool :=
  let t := (s.fibre f).team
  let x := s.team t
  match l with
  | .team =>
    match (NMap.find x.units i).bind fun u => NMap.find (s.core (t / 16)).units u with
    | some u => (u.2.1, u.2.2.contains f)
    | none => (false, false)
  | _ =>
    match s.bar? l i (stageKey x.plan x.stage) x.die with
    | some b => if s.barLate b t then (!b.phase, true) else (b.phase, b.arrived.contains f)
    | none => (false, false)

/-- Makes sure the barrier a fibre arrives at is held for its team or stage; none where it is refused (R332). -/
def State.barTake (s : State) (f : Nat) (l : BarLevel) (i : Nat) : Option State :=
  let t := (s.fibre f).team
  let x := s.team t
  let key := stageKey x.plan x.stage
  match l with
  | .team =>
    if (NMap.find x.units i).isSome then some s
    else
      match (List.range 16).find? fun u => (NMap.find (s.core (t / 16)).units u).isNone with
      | none => none
      | some u =>
        some ((s.modCore (t / 16) fun c => { c with units := NMap.put c.units u (t, false, []) }).modTeam t fun y =>
          { y with units := NMap.put y.units i u })
  | _ =>
    let part := s.partOf (x.plan / 16)
    if s.sbars.any fun b => b.level == l && b.id == i && b.part == part && b.stage != key then none
    else if (s.bar? l i key x.die).isSome then some s
    else some { s with sbars := s.sbars ++ [{ level := l, id := i, part := part, die := if l = .pkg then 0 else x.die, stage := key, phase := false,
                                              points := [0, 1, 2, 3].map (s.combinePoint key), top := s.packagePoint key, arrived := [], sent := [],
                                              inCluster := [], reported := [], counted := [], diesSent := [], dies := [], late := [] }] }

/-- Records the arrival of a fibre (R333, R334, R336). -/
def State.barArrive (s : State) (f : Nat) (l : BarLevel) (i : Nat) : State :=
  let x := s.fibre f
  let t := s.team x.team
  let phase := (s.barNow f l i).1
  let s1 := s.modFibre f fun y =>
    { y with phases := NMap.store y.phases (barName l i) phase false, bars := (y.pc, y.pos, barName l i, phase) :: y.bars }
  match l with
  | .team =>
    match NMap.find t.units i with
    | some u => s1.modCore (coreOf f) fun c => { c with units := NMap.edit c.units u fun e => (e.1, e.2.1, e.2.2 ++ [f]) }
    | none => s1
  | _ =>
    let key := stageKey t.plan t.stage
    (s1.modBar (fun b => b.level == l && b.id == i && b.stage == key && (b.level == .pkg || b.die == t.die)) fun b =>
      { b with arrived := b.arrived ++ [f] }).barCheck key

/-- The arrival a fibre's instruction has recorded (R336). -/
def Fibre.barEntry (x : Fibre) (l : BarLevel) (i : Nat) : Option Bool :=
  (x.bars.find? fun b => b.1 == x.pc && b.2.1 == x.pos && b.2.2.1 == barName l i).map fun b => b.2.2.2

/-- Whether a lane's `bar` is over: it has arrived and, where it waits, the phase has flipped. -/
def State.barOver (s : State) (l : BarLevel) (i : Nat) (waits : Bool) (f : Nat) : Bool :=
  match (s.fibre f).barEntry l i with
  | some ph => !waits || (s.barNow f l i).1 != ph
  | none => false

/-- Ends the team of a refused arrival (R332, R387). -/
def State.barRefuse (s : State) (f : Nat) (l : BarLevel) (i : Nat) : State :=
  let t := (s.fibre f).team
  (s.errorRecord (s.ctxOf f) 0x08 (s.originTeam t) [BarLevel.code l + 256 * i]).endTeam t false

/-- Takes one lane as far as it goes: nothing where it has arrived or waits out an earlier arrival; otherwise the fence work, then the arrival (R209, R337). -/
def State.barLane (l : BarLevel) (i : Nat) (s : State) (f : Nat) : State :=
  match NMap.find s.fibres f with
  | none => s
  | some x =>
    if (x.barEntry l i).isSome || (s.barNow f l i).2 then s
    else if x.wait ≠ some .barrier then
      s.modFibre f fun y => { y with wait := some .barrier, fence := some (s.relFor f (decide (l ≠ .team))) }
    else if x.fence.isSome then s
    else
      match s.barTake f l i with
      | none => s.barRefuse f l i
      | some s1 => s1.barArrive f l i

/-- Forgets a recorded arrival whose instruction is over. -/
def Fibre.barForget (l : BarLevel) (i : Nat) (x : Fibre) : Fibre :=
  { x with wait := none, bars := x.bars.filter fun b => !(b.1 == x.pc && b.2.1 == x.pos && b.2.2.1 == barName l i) }

/-- `bar`, with its waiting part or without (R337): die and package levels need a RESIDENT stage. -/
def State.barAs (s : State) (l : BarLevel) (i : Nat) (waits : Bool) : Out :=
  s.onGroup fun g fs =>
    let resident := match fs with | f :: _ => s.teamResident (s.fibre f).team | [] => true
    if decide (l ≠ .team) && !resident then .next (s.raise g fs (fs.map fun f => (f, badOp 0x78)))
    else
      let s1 := fs.foldl (State.barLane l i) s
      if (s1.group g).members.isEmpty then .next s1
      else if fs.all (s1.barOver l i waits) then .next ((s1.modFibres fs (Fibre.barForget l i)).done g)
      else .next (s1.hold g .barrier)

/-- `bar` (R337). -/
def execBar (l : BarLevel) (i : Nat) (s : State) : Out := s.barAs l i true
/-- `bar.arr` (R337). -/
def execBarArr (l : BarLevel) (i : Nat) (s : State) : Out := s.barAs l i false

end Sys2Proof.Machine
end

