-- ==== Sys2Proof/Machine/Barrier.lean ====
section
/-! DEFINITION. The events of barriers: arrival messages at combining points, and releases (R103, R331 to R336). -/

namespace Sys2Proof.Machine

/-- Whether a fibre waits at a barrier instance that has flipped its phase since the fibre arrived (R333, R334). -/
def State.freed (s : State) (l : BarLevel) (i : Nat) (f : Nat) : Bool := s.barOver l i true f

/-- A BLOCKED fibre whose barrier has released stands past its `bar`, READY (R103, R413). -/
def State.passBar (l : BarLevel) (i : Nat) (s : State) (f : Nat) : State :=
  let x := (s.fibre f).barForget l i
  let past := decide (x.hdr % 16 < x.npos)
  let y := if past then { x with pc := nextClause x.pc x.hdr, pos := arriving, code := [], status := .ready, since := s.cycle }
    else { x with pos := x.npos, status := .ready, since := s.cycle }
  let s1 := s.modFibre f fun _ => y
  if past && !y.arrivalHeld then s1.arriveOne f else s1

/-- A READY fibre at a clause boundary is one that a barrier has released: its launch group decides where it goes (R103). -/
def State.noteCohort (s : State) (f : Nat) : State :=
  s.modFibre f fun x => { x with cohort := if x.status = .ready ∧ x.pos = 0 then some x.launchGroup else x.cohort }

/-- A fibre that stands at a clause boundary leaves its group and is READY (R103). -/
def State.leaveReady (s : State) (f : Nat) : State :=
  match s.groupOf f with
  | some g => if (s.fibre f).pos = 0 then (s.leave g [f]).unseat [f] else s
  | none => s

/-- Takes one waiting fibre on after a release: past its `bar`, with its group, or to issue it again. -/
def State.wakeAt (l : BarLevel) (i : Nat) (s : State) (f : Nat) : State :=
  match s.groupOf f with
  | none =>
    if (s.fibre f).status = .blocked ∧ (s.fibre f).wait = some .barrier then
      if s.freed l i f then s.passBar l i f else s.modFibre f fun x => { x with status := .ready, wait := none, since := s.cycle }
    else s
  | some g =>
    let fs := (s.group g).members
    if (s.group g).stall ≠ some .barrier then s
    else if fs.all (s.freed l i) then fs.foldl State.leaveReady ((s.modFibres fs (Fibre.barForget l i)).done g)
    else s.unhold g

/-- The fibres that wait at a released barrier become READY; those at a clause boundary form groups under R98, launch group by launch group (R103). -/
def State.wakeBar (l : BarLevel) (i : Nat) (s : State) (fs : List Nat) : State :=
  (fs.map qcOf).dedup.foldl State.refill (fs.foldl State.noteCohort (fs.foldl (State.wakeAt l i) s))

/-- A release reaches a cluster: the fibres there that wait go on, and those of the die's teams that have moved from a cluster it has reached (R334, R336). -/
def State.landRelease (s : State) (l : BarLevel) (id stage d cl : Nat) : State :=
  let here (b : StageBar) : Bool := b.level == l && b.id == id && b.stage == stage && (b.level == .pkg || b.die == d)
  let s1 := s.modBar here fun b => { b with late := b.late.filter (· != (cl, d)) }
  match s1.bar? l id stage d with
  | none => s1
  | some b => s1.wakeBar l id (((s1.barTeams b d).filter fun t => !s1.barLate b t).flatMap s1.liveIn)

/-- A release at the combining point of a die goes on to the clusters that hold the die's teams (R334). -/
def State.releaseDie (s : State) (b : StageBar) (d : Nat) : State :=
  let cls := (((s.barTeams b d).filter fun t => decide (t / 16 < 256)).map fun t => clusterOf (t / 16)).dedup
  let p := b.points.getD d 0
  (cls.filter (· != p)).foldl (fun t cl => t.sendBar p
    { level := b.level, id := b.id, stage := b.stage, die := d, step := .toCluster, teams := [], at_ := cl, there := false }) (s.landRelease b.level b.id b.stage d p)

/-- A barrier message reaches its cluster: a team or a cluster's teams or a die is counted, or a release goes on downward (R334). -/
def execBarrierArrivalMessage (k : Nat) (s : State) : Out :=
  match NMap.find s.bmsgs k with
  | none => .next s
  | some m =>
    if !m.there then .next s
    else
      let s1 := { s with bmsgs := NMap.del s.bmsgs k }
      let here (b : StageBar) : Bool := b.level == m.level && b.id == m.id && b.stage == m.stage && (b.level == .pkg || b.die == m.die)
      match m.step with
      | .team => .next ((s1.modBar here fun b => { b with inCluster := b.inCluster ++ m.teams }).barCheck m.stage)
      | .cluster => .next ((s1.modBar here fun b => { b with counted := b.counted ++ m.teams }).barCheck m.stage)
      | .die => .next ((s1.modBar here fun b => { b with dies := b.dies ++ [m.die] }).barCheck m.stage)
      | .toDie => .next (match s1.bar? m.level m.id m.stage m.die with | some b => s1.releaseDie b m.die | none => s1)
      | .toCluster => .next (s1.landRelease m.level m.id m.stage m.die m.at_)

/-- Team instances are named by 16 × core + unit, die and package instances by 2^16 + their place in the list. -/
def stageBarBase : Nat := 2 ^ 16

/-- A team instance releases when every live fibre of the team has arrived: the count is zero and the phase flips (R334). -/
def State.releaseUnit (s : State) (core u : Nat) : State :=
  match NMap.find (s.core core).units u with
  | none => s
  | some (t, phase, arrived) =>
    let live := s.liveIn t
    if live.isEmpty || !live.all arrived.contains then s
    else
      let id := ((s.team t).units.find? fun e => e.2 == u).map Prod.fst
      (s.modCore core fun c => { c with units := NMap.put c.units u (t, !phase, []) }).wakeBar .team (id.getD 0) live

/-- A die or package instance releases when every team it waits for has been counted: the phase flips, and the release goes downward from the point that combined (R334). -/
def State.releaseStage (s : State) (b : StageBar) : State :=
  if b.sent.isEmpty || !b.late.isEmpty || !s.barOpen b then s
  else
    let ds := [0, 1, 2, 3].filter fun d => b.onDie d && !(s.barTeams b d).isEmpty
    let late := ds.flatMap fun d => (((s.barTeams b d).filter fun t => decide (t / 16 < 256)).map fun t => (clusterOf (t / 16), d)).dedup
    let x : StageBar := { b with phase := !b.phase, arrived := [], sent := [], inCluster := [], reported := [], counted := [], diesSent := [], dies := [], late := late }
    let s1 := s.modBar (· == b) fun _ => x
    if b.level = .pkg then
      ds.foldl (fun t d => t.sendBar b.top { level := .pkg, id := b.id, stage := b.stage, die := d, step := .toDie, teams := [], at_ := b.points.getD d 0, there := false }) s1
    else s1.releaseDie x b.die

/-- A barrier instance releases, once everything it waits for has arrived (R334). -/
def execBarrierRelease (k : Nat) (s : State) : Out :=
  if k < stageBarBase then .next (s.releaseUnit (k / 16) (k % 16))
  else
    match s.sbars[k - stageBarBase]? with
    | some b => .next (s.releaseStage b)
    | none => .next s

end Sys2Proof.Machine
end

