-- ==== Sys2Proof/Machine/XFrame.lean ====
section
/-! DEFINITION. The frame of an X-format instruction: checks, one operation per active lane, guard tags, and the queues of pipe, fabric and status commands (R43, R51, R236, R243, R254, R320, R358). -/

namespace Sys2Proof.Machine

/-- INFO of the traps of a function: function code and major opcode (R225). -/
def xInfo (fn : Nat) : Nat := fn * 128 + 16 * (fn % 8) + 15

/-- ILLEGAL_OPERAND of a function. -/
def badX (fn : Nat) : Cond := Cond.withInfo clsIllegalOperand (xInfo fn)

/-- The guard tag of a command a fibre issues in its clause (R31, R243). -/
def State.guardOf (s : State) (f : Nat) : Option GuardTag :=
  let x := s.fibre f
  if hdrGE x.hdr then some { fibre := f, slot := hdrGuard x.hdr, gen := x.guards.getD (hdrGuard x.hdr) 0 } else none

/-- An X-format instruction: function, sources, reply words with their destination, the pool instance its commands enter, and whether the elected lane alone sends one. -/
structure XForm where
  fn : Nat
  srcs : List (Nat × Src)
  reply : Option (Nat × Dst)
  inst : Option Nat
  elected : Bool
deriving DecidableEq, Repr

/-- Whether a lane sends a command. -/
def XForm.speaks (x : XForm) (fs : List Nat) (f : Nat) : Bool := !x.elected || fs.head? == some f

/-- The lanes that are active for an instruction: for one that the elected lane runs, that lane alone (R43, R217). -/
def XForm.active (x : XForm) (fs : List Nat) : List Nat := if x.elected then fs.take 1 else fs

/-- The operations an instruction opens, one per lane of the group; a command's entry and guard are its sender's. DESIGN CHOICE (log 98): where the elected lane sends the command, every lane that its reply is written into counts its flag. -/
def State.xOps (s : State) (fs : List Nat) (x : XForm) : List Op :=
  fs.map fun f =>
    let t := match x.reply with
      | some (w, d) => s.dstOf f w d
      | none => (.none, [])
    { Op.blank f with
      flag := s.flagOf fs, dst := t.1, marks := t.2, left := 1,
      holds := if x.speaks fs f then (x.inst.map fun i => (i, 1)).toList else [],
      tag := if x.speaks fs f then (s.guardOf f).map fun g => (g.slot, g.gen) else none }

/-- Runs an X-format instruction: the checks of R38 on the active lanes (`refuse` of order 3, `own` of order 6), a wait before issue, its pool entries and operations; then `k` sends the commands. -/
def State.withX (s : State) (x : XForm) (refuse own : Lane → Option Cond) (held : Nat → List Nat → List Lane → Option State)
    (k : Nat → List Nat → State → List Lane → List Nat → State) : Out :=
  s.onGroup fun g fs =>
    let act := x.active fs
    s.withChecked g act { info := xInfo x.fn, srcs := x.srcs, dsts := x.reply.toList } refuse noRegs own fun s1 ls =>
      match held g fs ls with
      | some t => .next t
      | none =>
        s.withEntries s1 g fs (x.inst.map fun i => (i, act.length)).toList fun s2 =>
          let st := s2.startOps (s.xOps fs x)
          .next ((k g fs st.2 ls st.1).doneBy g act)

/-- Before a command reads its block of n bytes in the scratchpad: it waits for its fibres' earlier memory instructions as a scratchpad read does (R194, R247, R281), and a block with poisoned data ends the context (R179). -/
def State.blockHeld (s : State) (n g : Nat) (fs : List Nat) (ls : List Lane) : Option State :=
  if !(s.allReady fs false && s.spadFree (g / 64) fs) then some (s.hold g .memory)
  else
    match ls.find? fun l => s.spadBad (g / 64) (s.spadPlace l.f (l.n 0)) n with
    | some l => some (s.spadLine.2.poisonEnd l.f s.spadLine.1)
    | none => none

/-- Whether the instructions a command waits for have been performed (R205). -/
def State.relPerformed (s : State) (r : Option Rel) : Bool :=
  match r with
  | none => true
  | some x => x.waits.all fun o => match NMap.find s.ops o with | some y => y.left == 0 | none => true

/-- No wait before issue. -/
def noWait (_ : Nat) (_ : List Nat) (_ : List Lane) : Option State := none

/-- The command of one lane, or of the elected lane for every lane. -/
def State.xCmd (s : State) (fn : Nat) (fs : List Nat) (lanes : List (Nat × Nat × List Nat)) : XCmd :=
  let f := fs.headD 0
  { fn := fn, lanes := lanes, guard := s.guardOf f, header := (s.fibre f).pc, handler := decide ((s.fibre f).mode = .handler), rel := none }

/-- The values of a lane as numbers. -/
def Lane.nums (l : Lane) : List Nat := l.vals.map Word.join

/-- One command for every lane, with the elected lane's operands. -/
def State.electedCmd (s : State) (fn : Nat) (fs : List Nat) (ls : List Lane) (ops : List Nat) : XCmd :=
  let vals := match ls with | l :: _ => l.nums | [] => []
  s.xCmd fn fs ((fs.zip ops).map fun e => (e.1, e.2, vals))

/-- One command for each lane, in lane order. -/
def State.laneCmds (s : State) (fn : Nat) (ls : List Lane) (ops : List Nat) : List XCmd :=
  (ls.zip ops).map fun e => s.xCmd fn [e.1.f] [(e.1.f, e.2, e.1.nums)]

/-- The operand values of a command: those of its first lane. -/
def XCmd.vals (c : XCmd) : List Nat := match c.lanes with | l :: _ => l.2.2 | [] => []
def XCmd.val (c : XCmd) (i : Nat) : Nat := c.vals.getD i 0
/-- The fibre that sent a command, and its operations. -/
def XCmd.sender (c : XCmd) : Nat := match c.lanes with | l :: _ => l.1 | [] => 0
def XCmd.ops (c : XCmd) : List Nat := c.lanes.map fun l => l.2.1
/-- Answers a command in every lane. -/
def State.answerX (s : State) (c : XCmd) (ws : List Word) : State := c.ops.foldl (fun t o => t.answerOp o ws) s

/-- The three queues of commands that are not kept by an engine of their own. -/
inductive XQueue where
  | pipe | fab | stat
deriving DecidableEq, Repr

def Core.xq (c : Core) : XQueue → List XCmd
  | .pipe => c.pipeq
  | .fab => c.fabq
  | .stat => c.statq
def Core.setXq (c : Core) (q : XQueue) (xs : List XCmd) : Core :=
  match q with
  | .pipe => { c with pipeq := xs }
  | .fab => { c with fabq := xs }
  | .stat => { c with statq := xs }

/-- Sends a command: it runs at once when nothing stands before it and no guard holds it; a status read waits for its own guard alone (R243, R254). -/
def State.sendX (s : State) (core : Nat) (q : XQueue) (run : XCmd → State → State) (c : XCmd) : State :=
  if c.guard.isNone && (q == .stat || ((s.core core).xq q).isEmpty) then run c s
  else s.modCore core fun y => y.setXq q (y.xq q ++ [c])

end Sys2Proof.Machine
end

