-- ==== Sys2Proof/Machine/Engine.lean ====
section
/-! DEFINITION. How an engine reads and writes: memory through the core's L1 and at the homes, scratchpads, queue streams (R160, R171, R179, R198, R205, R252, R350, R414). -/

namespace Sys2Proof.Machine

/-- What an engine has done of a run of accesses: the bytes read, how many bytes are done, the greatest settle and completion time met. -/
structure EngAcc where
  data : List Byte
  done : Nat
  settle : Nat
  comp : Nat
deriving DecidableEq, Repr

/-- How a run of accesses ends: done, stopped by a fault or a wait, at an address no stack holds, or at a poisoned line. -/
inductive EngOut where
  | ok (s : State) (x : EngAcc)
  | stop (s : State) (x : EngAcc) (c : Option Cond)
  | absent (pa : Nat)
  | poison (line : Nat)
deriving DecidableEq, Repr

/-- The agent that reads or writes: its core, the context and team it acts for, the issuing fibre, whether memory is read at the home (R205), and the operation of its command, which its requests carry. -/
structure Eng where
  core : Nat
  ctx : Nat
  team : Nat
  f : Nat
  far : Bool
  op : Nat
deriving DecidableEq, Repr

/-- A run of consecutive bytes: kind (0 memory, 1 scratchpad of the team, 2 stream of a QC position), address, length. -/
structure Span where
  kind : Nat
  addr : Nat
  len : Nat
deriving DecidableEq, Repr

/-- A run of memory cut at line boundaries; other runs stay whole. -/
def Span.cut (p : Span) : List Span :=
  if p.kind ≠ 0 then [p]
  else
    let first := p.addr / 64
    (List.range ((p.addr % 64 + p.len + 63) / 64)).map fun i =>
      let lo := max p.addr (64 * (first + i))
      let hi := min (p.addr + p.len) (64 * (first + i + 1))
      { kind := 0, addr := lo % 2 ^ 64, len := hi - lo }

/-- The condition of an engine's access. -/
def engCond (cls : Nat) (k : AccKind) (x page size : Nat) : Cond :=
  { cls := cls, kind := k.code, info := 0, addr := some x, page := page, size := size }

/-- Nothing done yet. -/
def EngAcc.none : EngAcc := ⟨[], 0, 0, 0⟩

/-- The read that a command has under way: its number and what it has come to. -/
def State.engAsked (s : State) (j : Eng) : Option (Nat × Req) := s.reqs.find? fun e => e.2.eng == some j.op && e.2.core == j.core && !e.2.isWrite

/-- Takes up the read a command has under way once it has landed; until then the engine waits. -/
def State.engTake (s : State) (r : Nat) (x : Req) (off n : Nat) : EngOut :=
  if x.stage ≠ .landed then .stop s EngAcc.none none
  else if x.bad.any fun i => decide (off ≤ i ∧ i < off + n) then
    (if decide (2 ^ 60 ≤ x.line) then .poison s.spadLine.1 else .poison x.line)
  else .ok (s.dropReq r) ⟨(List.range n).map fun i => NMap.get x.data (off + i) 0, n, if x.own off n then 0 else x.settle, 0⟩

/-- Reads bytes of one line of memory, or of a scratchpad of the die window: in the L1 where a relaxed load of the fibre would hit, otherwise by a request whose answer the engine waits for (R205, R407). An engine's accesses are checked as user-mode accesses (log 17). -/
def State.engReadMem (s : State) (j : Eng) (x n : Nat) : EngOut :=
  if inWindow x then
    let w := s.windowCore j.core x
    match s.engAsked j with
    | some (r, y) => s.engTake r y (w.2 % 64) n
    | none =>
      if !s.mapsCore j.ctx w.1 then .stop s EngAcc.none (some (engCond clsScratchBounds .read x 0 0))
      else
        let s1 := s.addWindow j.core w.1 (winLine w.1 w.2) (.winRead (w.2 % 64) n) [] [] (some j.op) false
        match s1.engAsked j with
        | some (r, y) => s1.engTake r y (w.2 % 64) n
        | none => .stop s1 EngAcc.none none
  else
    match s.translate j.core none j.ctx x .read true with
    | .absent pa => .absent pa
    | .fault c p z => .stop s EngAcc.none (some (engCond c .read x p z))
    | .ok l e =>
      let line := lineKey l
      let off := l.pa % 64
      match s.engAsked j with
      | some (r, y) => s.engTake r y off n
      | none =>
        let s1 := s.cacheEntry j.core none e
        let c := s1.core j.core
        if !j.far && c.hits s1.horizon line off n then
          if !s1.l1Clear j.core line off n then .stop s EngAcc.none none
          else if c.badIn line off n then .poison line
          else
            .ok (((s1.touchBlock j.core (unitOf line off)).count j.core 0x05 1).joinWrites j.core line off n [j.f])
              ⟨(List.range n).map fun i => NMap.get (c.l1Map line off n) (off + i) 0, n, c.settleOf line off n, 0⟩
        else .stop (State.sendFill j.core false none (some j.op) (s1, []) ⟨line, e.home, [], [], [], [], some (unitOf line off)⟩).1 EngAcc.none none

/-- Writes bytes of one line of memory as a store at cluster scope: through the L1 to the home, into a transmit window, or into a scratchpad of the die window; the acknowledgment comes later (R205, R407). -/
def State.engWriteMem (s : State) (j : Eng) (x : Nat) (bs : List Byte) : EngOut :=
  if inWindow x then
    let w := s.windowCore j.core x
    if !s.mapsCore j.ctx w.1 then .stop s EngAcc.none (some (engCond clsScratchBounds .write x 0 0))
    else
      .ok (s.addWindow j.core w.1 (winLine w.1 w.2) (.winWrite (mapWrite [] (w.2 % 64) bs)) [] [] (some j.op) false) ⟨[], bs.length, 0, 0⟩
  else
    match s.translate j.core none j.ctx x .write true with
    | .absent pa => .absent pa
    | .fault c p z => .stop s EngAcc.none (some (engCond c .write x p z))
    | .ok l e =>
      let s1 := s.cacheEntry j.core none e
      let home (t : State) : State :=
        State.sendLine j.core false (some j.op) t ⟨lineKey l, e.home, [], [], mapWrite [] (l.pa % 64) bs, [], none⟩
      match s.txWindow (s.partOf j.ctx) x with
      | some w =>
        let ent := NMap.get s.wins w WinEntry.empty
        let o := x - ent.lbase
        let s2 := s1.combine j.core j.ctx w (o / 64 * 64) (mapWrite [] (o % 64) bs) [j.f] [j.op]
        if !s2.wcFits j.core then .stop (s.closeOldest j.core) EngAcc.none none
        else .ok (if ent.lb = 1 then home s2 else s2) ⟨[], bs.length, 0, 0⟩
      | none => .ok (home s1) ⟨[], bs.length, 0, 0⟩

/-- Bytes of words. -/
def wordsBytes (ws : List Word) : List Byte := bytesOf ws
/-- Words of bytes, four at a time. -/
def bytesWords : List Byte → List Word
  | a :: b :: c :: d :: r => Word.ofNat (Byte.join [a, b, c, d]) :: bytesWords r
  | _ => []

/-- Reads one run. -/
def State.engReadPiece (s : State) (j : Eng) (p : Span) : EngOut :=
  match p.kind with
  | 0 => s.engReadMem j p.addr p.len
  | 1 =>
    if s.spadBad j.core (s.spBase j.team + p.addr) p.len then .poison s.spadLine.1
    else .ok s ⟨s.spadRead j.core (s.spBase j.team + p.addr) p.len, p.len, 0, 0⟩
  | _ =>
    match s.qPop j.core (20 + p.addr % 4) (p.len / 4) with
    | none => .stop s EngAcc.none none
    | some (ws, s1) => .ok s1 ⟨wordsBytes ws, p.len, 0, 0⟩

/-- Writes one run. -/
def State.engWritePiece (s : State) (j : Eng) (p : Span) (bs : List Byte) : EngOut :=
  match p.kind with
  | 0 => s.engWriteMem j p.addr bs
  | 1 => .ok (s.spadStore j.core (s.spBase j.team + p.addr) bs) ⟨[], bs.length, 0, 0⟩
  | _ =>
    let i := 16 + p.addr % 4
    let n := freshEntries ((s.core j.core).queue i) (bs.length / 4)
    match s.poolAsk (waiterCopy j.core) j.core [(instQreg i, n)] with
    | .ok s1 => .ok (s1.qPlace j.core i (bytesWords bs)) ⟨[], bs.length, 0, 0⟩
    | .error e => .stop e.1 EngAcc.none none

/-- Two results in a row. -/
def EngAcc.then (x y : EngAcc) : EngAcc := ⟨x.data ++ y.data, x.done + y.done, max x.settle y.settle, max x.comp y.comp⟩

/-- Reads runs in order, leaving out the first `skip` bytes, which are held already. -/
def State.engRead (j : Eng) : State → Nat → List Span → EngAcc → EngOut
  | s, _, [], x => .ok s x
  | s, skip, p :: ps, x =>
    if p.len ≤ skip then State.engRead j s (skip - p.len) ps x
    else
      match s.engReadPiece j p with
      | .ok s1 y => State.engRead j s1 0 ps (x.then y)
      | .stop s1 _ c => .stop s1 x c
      | .absent pa => .absent pa
      | .poison l => .poison l

/-- Writes runs in order with the bytes given, leaving out the first `skip` bytes, which are written already. -/
def State.engWrite (j : Eng) : State → Nat → List Span → List Byte → EngAcc → EngOut
  | s, _, [], _, x => .ok s x
  | s, skip, p :: ps, bs, x =>
    if p.len ≤ skip then State.engWrite j s (skip - p.len) ps (bs.drop p.len) { x with done := x.done + p.len }
    else
      match s.engWritePiece j p (bs.take p.len) with
      | .ok s1 y => State.engWrite j s1 0 ps (bs.drop p.len) (x.then y)
      | .stop s1 _ c => .stop s1 x c
      | .absent pa => .absent pa
      | .poison l => .poison l

end Sys2Proof.Machine
end

