-- ==== Sys2Proof/Machine/CopyInstr.lean ====
section
/-! DEFINITION. The copy instructions: X functions 0x00 to 0x07 (R247, R253, R254). -/

namespace Sys2Proof.Machine

/-- The copy command of a lane: its descriptor as it stands at issue, and the instructions of its fibre that are performed before the engine starts (R205, R247). -/
def State.copyCmd (s : State) (fn op : Nat) (l : Lane) : CopyCmd :=
  { fn := fn, desc := s.spadWords (coreOf l.f) (s.spadPlace l.f (l.n 0)) 16, team := (s.fibre l.f).team, op := op, guard := s.guardOf l.f,
    header := (s.fibre l.f).pc, started := false, step := 0, held := none, put := 0, fault := none, comp := 0, ot := 0,
    rel := some (s.relFor l.f false), halt := none, quit := false }

/-- A copy instruction: one command per active lane, in lane order (R253). -/
def State.copyAs (s : State) (fn : Nat) (a : Src) : Out :=
  s.withX { fn := fn, srcs := [(1, a)], reply := none, inst := some instCopy, elected := false } never
    (fun l => s.spadCheck l.f 64 .read (l.n 0))
    (s.blockHeld 64)
    fun g _ s2 ls ops =>
      let cmds := (ls.zip ops).map fun e => s.copyCmd fn e.2 e.1
      s2.modCore (g / 64) fun c => { c with copy := { c.copy with queue := c.copy.queue ++ cmds } }

/-- `cp.tile` (R249, R253). -/
def execCpTile (a : Src) (s : State) : Out := s.copyAs 0x00 a
/-- `cp.store` (R249, R253). -/
def execCpStore (a : Src) (s : State) : Out := s.copyAs 0x01 a
/-- `cp.lin` (R249, R253). -/
def execCpLin (a : Src) (s : State) : Out := s.copyAs 0x02 a
/-- `cp.gather` (R249, R253). -/
def execCpGather (a : Src) (s : State) : Out := s.copyAs 0x03 a
/-- `cp.scatter` (R249, R253). -/
def execCpScatter (a : Src) (s : State) : Out := s.copyAs 0x04 a
/-- `cp.fill` (R249, R253). -/
def execCpFill (a : Src) (s : State) : Out := s.copyAs 0x05 a
/-- `cp.sig` (R249, R253). -/
def execCpSig (a : Src) (s : State) : Out := s.copyAs 0x06 a

/-- The reason a copy queue is halted for: its head's (R250). -/
def CopyEngine.halt (c : CopyEngine) : Option Nat := c.queue.head?.bind CopyCmd.halt

/-- The reply of `cp.stat` (R254). -/
def CopyEngine.status (c : CopyEngine) : Nat :=
  b2n c.halt.isSome * 2 ^ 31 + b2n c.parked.isSome * 2 ^ 30 + (c.halt.getD 0) % 64 * 2 ^ 24 + c.queue.length % 4096 * 4096 + c.done % 4096

/-- RESUME: the halting command is discarded and the halt cleared (R250, R254). -/
def State.copyResume (s : State) (core : Nat) : State :=
  let c := (s.core core).copy
  if c.halt.isNone then s
  else
    let s1 := s.modCore core fun x => { x with copy := { x.copy with queue := x.copy.queue.drop 1 } }
    match c.queue with
    | x :: _ => (s1.engDrop core x.op).discardOp x.op
    | [] => s1

/-- A `cp.stat` reaches the engine: it replies with the queue as it stands, then resumes. -/
def runCpStat (c : XCmd) (s : State) : State :=
  let core := coreOf c.sender
  let s1 := s.answerX c [Word.ofNat (s.core core).copy.status]
  if bit (c.val 0) 0 then s1.copyResume core else s1

/-- `cp.stat` (R254), `mask` being set into the control value. -/
def State.copyStat (s : State) (mask : Nat) (a : Src) (d : Dst) : Out :=
  s.withX { fn := 0x07, srcs := [(1, a)], reply := some (1, d), inst := none, elected := false }
    (fun l => if l.n 0 / 2 = 0 then none else some (badX 0x07)) never noWait
    fun g _ s2 ls ops =>
      ((s.laneCmds 0x07 ls ops).map fun c =>
        { c with lanes := c.lanes.map fun (e : Nat × Nat × List Nat) => (e.1, e.2.1, e.2.2.map (· ||| mask)) }).foldl
        (fun t c => t.sendX (g / 64) .stat runCpStat c) s2

def execCpStat (a : Src) (d : Dst) (s : State) : Out := s.copyStat 0 a d
/-- `cp.stat` with RESUME set (R254). -/
def execCpStatResume (a : Src) (d : Dst) (s : State) : Out := s.copyStat 1 a d

end Sys2Proof.Machine
end

