-- ==== Sys2Proof/Machine/CopyEngine.lean ====
section
/-! DEFINITION. The copy engine: descriptors, their check, the steps of each function, faults, completion (R246 to R252, R414). -/

namespace Sys2Proof.Machine

/-! Descriptors (R247, R248). -/

/-- A descriptor with the functions that read it. -/
structure CopyDesc where
  fn : Nat
  ws : List Word
deriving DecidableEq, Repr

namespace CopyDesc
def ctl (d : CopyDesc) : Nat := wordAt d.ws 0
def cw (d : CopyDesc) : Bool := bit d.ctl 31
def ord (d : CopyDesc) : Nat := bits d.ctl 30 29
def scope (d : CopyDesc) : Nat := bits d.ctl 28 26
def sk (d : CopyDesc) : Nat := bits d.ctl 25 24
def dk (d : CopyDesc) : Nat := bits d.ctl 23 22
def rm (d : CopyDesc) : Nat := bits d.ctl 21 19
def sfmt (d : CopyDesc) : Nat := bits d.ctl 15 12
def dfmt (d : CopyDesc) : Nat := bits d.ctl 11 8
def cwoff (d : CopyDesc) : Nat := wordAt d.ws 1
def aux (d : CopyDesc) : Nat := wordAt d.ws 3
def src (d : CopyDesc) : Nat := dwordAt d.ws 4
def dst (d : CopyDesc) : Nat := dwordAt d.ws 6
def len (d : CopyDesc) : Nat := wordAt d.ws 8
def n (d : CopyDesc) : Nat := wordAt d.ws 9
def sstr (d : CopyDesc) : Nat := wordAt d.ws 10
def dstr (d : CopyDesc) : Nat := wordAt d.ws 11
/-- Elements of a slice by source format, 0 where `cp.tile` does not admit it (R249). -/
def sliceK (d : CopyDesc) : Nat :=
  if d.sfmt = 1 ∨ d.sfmt = 2 then 32 else if d.sfmt = 4 ∨ d.sfmt = 5 then 64 else if d.sfmt = 6 then 128 else 0
/-- Bytes of a slice record (R249). -/
def recBytes (d : CopyDesc) : Nat := if d.sfmt = 6 then 144 else 80
/-- Slices of a line. -/
def slices (d : CopyDesc) : Nat := d.len / d.sliceK
/-- Whether a source format is a float format. -/
def isFloat (d : CopyDesc) : Bool := d.sfmt == 1 || d.sfmt == 2
/-- The bytes that hold element i of a tensor, counted from its base (R71, R249). -/
def elemAt (d : CopyDesc) (i : Nat) : Nat × Nat :=
  if d.isFloat then (2 * i, 2)
  else if d.sfmt = 5 then (i / 2, 1)
  else if d.sfmt = 6 then
    let b := 6 * (i % 16)
    (12 * (i / 16) + b / 8, (b + 5) / 8 - b / 8 + 1)
  else (i, 1)
/-- The raw element in the bytes that hold it. -/
def elemIn (d : CopyDesc) (i : Nat) (bs : List Byte) : Nat :=
  let x := Byte.join bs
  if d.sfmt = 5 then x / 16 ^ (i % 2) % 16
  else if d.sfmt = 6 then x / 2 ^ (6 * (i % 16) % 8) % 64
  else x
/-- Element number of (l, k). -/
def elemNo (d : CopyDesc) (l k : Nat) : Nat := l * d.sstr + k * d.dstr
/-- Bytes of a row `cp.store` writes. -/
def rowOut (d : CopyDesc) : Nat :=
  if d.dfmt = 1 ∨ d.dfmt = 2 then d.len / 2 else if d.dfmt = 4 then d.len / 4 else if d.dfmt = 6 then ceilDiv (d.len / 4) 16 * 12 else d.len
/-- Alignment of a row `cp.store` writes (R249). -/
def rowAlign (d : CopyDesc) : Nat := if d.dfmt = 1 ∨ d.dfmt = 2 then 2 else if d.dfmt = 4 ∨ d.dfmt = 6 then 1 else 4
/-- The destination as steps of 64 bytes count it: a stream from 0. -/
def blockBase (d : CopyDesc) : Nat := if d.dk = 2 then 0 else d.dst
/-- Steps of a command (R414). -/
def steps (d : CopyDesc) : Nat :=
  match d.fn with
  | 0 => d.n
  | 1 => d.n
  | 3 => d.len
  | 4 => d.len
  | 6 => 0
  | _ => if d.len = 0 then 0 else (d.blockBase % 64 + d.len + 63) / 64
/-- First byte and length of block i of a linear copy or fill. -/
def block (d : CopyDesc) (i : Nat) : Nat × Nat :=
  let sh := d.blockBase % 64
  let off := 64 * i - sh
  (off, min d.len (64 * (i + 1) - sh) - off)
/-- Whether the command acquires, or releases, beyond the team (R205). -/
def far (d : CopyDesc) : Bool := bit d.ord 0 && decide (0 < d.scope)
def releases (d : CopyDesc) : Bool := bit d.ord 1
/-- The signed scale in AUX (R248). -/
def scale (d : CopyDesc) : Int := sext d.aux 12
end CopyDesc

/-- The descriptor of a command. -/
def CopyCmd.d (c : CopyCmd) : CopyDesc := ⟨c.fn, c.desc⟩

/-- Index word i of a gather or scatter. -/
def State.copyIndex (s : State) (core team : Nat) (d : CopyDesc) (i : Nat) : Nat := s.spadNum core (s.spBase team + d.aux + 4 * i) 4

/-! The check at the head (R250). -/

/-- Reason 1. -/
def CopyDesc.dirty (d : CopyDesc) : Bool :=
  bits d.ctl 18 16 != 0 || bits d.ctl 7 0 != 0 || (d.ws.drop 12).any (fun w => w != 0) ||
    (d.sk == 1 && wordAt d.ws 5 != 0) || (d.dk == 1 && wordAt d.ws 7 != 0) ||
    (d.sk == 2 && decide (4 ≤ d.src)) || (d.dk == 2 && decide (4 ≤ d.dst)) || (d.fn != 1 && d.rm != 0) ||
    (match d.fn with
     | 0 => decide (2 ^ 12 ≤ d.aux) || (d.isFloat && d.aux != 0)
     | 1 => decide (2 ^ 12 ≤ d.aux) || (d.dfmt != 6 && d.aux != 0)
     | 2 => d.aux != 0 || d.n != 0 || d.sstr != 0 || d.dstr != 0
     | 3 => d.dstr != 0
     | 4 => d.sstr != 0
     | 5 => d.src != 0 || d.n != 0 || d.sstr != 0 || d.dstr != 0
     | _ => bits d.ctl 25 22 != 0 || bits d.ctl 15 8 != 0 || (d.ws.drop 3).any (fun w => w != 0))

/-- Reason 2. -/
def CopyDesc.badKind (d : CopyDesc) : Bool :=
  let raw := d.sfmt == 0 && d.dfmt == 0
  !(match d.fn with
    | 0 => decide (d.sk < 2) && d.dk == 1 && d.sliceK != 0 && d.dfmt == 0
    | 1 => d.sk == 1 && decide (d.dk < 2) &&
        (raw || (d.sfmt == 3 && [3, 1, 2, 6].contains d.dfmt) || (d.sfmt == 7 && [7, 4].contains d.dfmt))
    | 2 => decide (d.sk < 3 ∧ d.dk < 3) && raw
    | 3 => d.sk == 0 && d.dk == 1 && raw
    | 4 => d.sk == 1 && d.dk == 0 && raw
    | 5 => d.sk == 0 && decide (d.dk < 2) && raw
    | _ => true)

/-- Reason 3. -/
def CopyDesc.badSize (d : CopyDesc) : Bool :=
  !(match d.fn with
    | 0 => d.sliceK != 0 && d.len % d.sliceK == 0 && decide (1 ≤ d.slices ∧ d.slices ≤ 64 ∧ 1 ≤ d.n ∧ d.n ≤ 64)
    | 1 => d.len % 4 == 0 && decide (4 ≤ d.len ∧ d.len ≤ 65536 ∧ 1 ≤ d.n ∧ d.n ≤ 4096)
    | 2 => d.len != 0
    | 3 => decide (1 ≤ d.len ∧ d.len ≤ 65536) && [4, 8, 16, 32, 64, 128, 256].contains d.n
    | 4 => decide (1 ≤ d.len ∧ d.len ≤ 65536) && [4, 8, 16, 32, 64, 128, 256].contains d.n
    | 5 => d.len % 4 == 0
    | _ => true)

/-- The scratchpad runs a command touches: offset and end (R250). -/
def CopyDesc.spans (d : CopyDesc) : List (Nat × Nat) :=
  let src (n : Nat) : List (Nat × Nat) := if d.sk = 1 then [(d.src, d.src + n)] else []
  let dst (n : Nat) : List (Nat × Nat) := if d.dk = 1 then [(d.dst, d.dst + n)] else []
  (match d.fn with
   | 0 =>
     let e := d.elemAt (d.elemNo (d.n - 1) (d.len - 1))
     src (e.1 + e.2) ++ dst (d.n * d.slices * d.recBytes)
   | 1 => src ((d.n - 1) * d.sstr + d.len) ++ dst ((d.n - 1) * d.dstr + d.rowOut)
   | 2 => src d.len ++ dst d.len
   | 3 => dst (d.len * d.n) ++ [(d.aux, d.aux + 4 * d.len)]
   | 4 => src (d.len * d.n) ++ [(d.aux, d.aux + 4 * d.len)]
   | 5 => dst d.len
   | _ => []) ++ if d.cw then [(d.cwoff, d.cwoff + 4)] else []

/-- Reason 5. -/
def State.copyOutside (s : State) (team : Nat) (d : CopyDesc) : Bool := d.spans.any fun r => decide (s.spSize team < r.2)

/-- Reason 6. -/
def State.copyUnaligned (s : State) (core team : Nat) (d : CopyDesc) : Bool :=
  let many := decide (2 ≤ d.n)
  (d.cw && d.cwoff % 4 != 0) ||
    (match d.fn with
     | 0 => (d.isFloat && d.src % 2 != 0) || d.dst % 16 != 0
     | 1 => d.src % 4 != 0 || (many && d.sstr % 4 != 0) || d.dst % d.rowAlign != 0 || (many && d.dstr % d.rowAlign != 0)
     | 2 => (d.sk == 2 || d.dk == 2) && (d.len % 4 != 0 || (d.sk != 2 && d.src % 4 != 0) || (d.dk != 2 && d.dst % 4 != 0))
     | 3 => d.dst % 4 != 0 || d.aux % 4 != 0 || (List.range d.len).any fun i => (d.src + s.copyIndex core team d i * d.sstr) % 4 != 0
     | 4 => d.src % 4 != 0 || d.aux % 4 != 0 || (List.range d.len).any fun i => (d.dst + s.copyIndex core team d i * d.dstr) % 4 != 0
     | 5 => d.dst % 4 != 0
     | _ => false)

/-- The reason a descriptor is ill-formed, 0 for none; the lowest of several (log 18). -/
def State.copyReason (s : State) (core team : Nat) (d : CopyDesc) : Nat :=
  if d.dirty then 1
  else if d.badKind then 2
  else if d.badSize then 3
  else if 4 < d.scope ∨ 4 < d.rm then 4
  else if s.copyOutside team d then 5
  else if s.copyUnaligned core team d then 6
  else if d.fn = 6 ∧ d.cw = false then 7
  else 0

/-- Marks every slice record of an ill-formed `cp.tile` INVALID where its destination lies within the allotment (R250). -/
def State.copyInvalid (s : State) (core team : Nat) (d : CopyDesc) : State :=
  if d.fn ≠ 0 ∨ d.dk ≠ 1 ∨ d.sliceK = 0 then s
  else
    let k := d.n * d.slices
    if s.spSize team < d.dst + k * d.recBytes then s
    else
      (List.range k).foldl (fun t r =>
        let o := t.spBase team + d.dst + r * d.recBytes + 1
        t.spadStore core o [t.spadAt core o ||| 0x30]) s

/-! Halts and faults (R250, R251, R387). -/

/-- Replaces the head of a copy queue. -/
def State.copyHead (s : State) (core : Nat) (k : CopyCmd → CopyCmd) : State :=
  s.modCore core fun c => { c with copy := { c.copy with queue := match c.copy.queue with | x :: r => k x :: r | [] => [] } }

/-- The fibre an operation belongs to. -/
def State.opFibre (s : State) (o : Nat) : Nat := match NMap.find s.ops o with | some x => x.fibre | none => deadFibre 0

/-- Halts the copy queue for a reason and writes the error record. -/
def State.copyHalt (s : State) (core : Nat) (x : CopyCmd) (reason cls addr : Nat) : State :=
  let o := { s.originTeam x.team with fibre := (s.fibre (s.opFibre x.op)).fibreId }
  let s1 := (s.modCore core fun c => { c with copy := { c.copy with parked := none } }).copyHead core fun y => { y with halt := some reason }
  s1.errorRecord (s.teamCtx x.team) (if reason = 8 then 0x03 else 0x02) o
    ([x.fn + reason * 2 ^ 8 + cls * 2 ^ 16] ++ lowHigh x.header ++ lowHigh addr ++ [0, 0, 0] ++ x.desc.map BitVec.toNat)

/-- The fault record of an engine: no lanes, position 0, the issuing clause (R220, R251). -/
def State.engineRecord (s : State) (core : Nat) (x : CopyCmd) (c : Cond) (entry gen : Nat) (token : Bool) : Nat :=
  let tm := s.team x.team
  let addr := c.addr.getD 0
  addr + x.header * 2 ^ 64 + (if token then gen * 2 ^ 14 + core * 2 ^ 6 + entry else 0) * 2 ^ 160 + c.cls * 2 ^ 192 +
    b2n (bit addr 56) * 2 ^ 213 + c.kind * 2 ^ 214 + s.partOf (s.teamCtx x.team) * 2 ^ 216 + stageId tm.plan tm.stage * 2 ^ 224 +
    qcOf (s.opFibre x.op) % 1024 * 2 ^ 246

/-- Parks the engine under an entry of the wait table; without a free entry or slot it tries again (R219). -/
def State.copyPark (s : State) (core : Nat) (x : CopyCmd) (c : Cond) : State :=
  let ctx := s.teamCtx x.team
  let waitOn (t : State) (i : Nat) : State :=
    (t.modCore core fun y => { y with copy := { y.copy with parked := some i } }).copyHead core fun y =>
      { y with put := 0, fault := some (c.cls, c.addr.getD 0) }
  match (s.core core).waitFor ctx c.page c.size c.kind with
  | some i => waitOn (s.setWait core i { (s.core core).waitEntry i with engine := some core }) i
  | none =>
    match (s.core core).waitFree, s.ringRoom ctx with
    | some i, true =>
      let e := (s.core core).waitEntry i
      let t : TrapInfo := { cls := c.cls, pos := 0, kind := c.kind, info := 0, addr := c.addr, npos := 0 }
      let s1 := s.setWait core i { e with held := true, ctx := ctx, page := c.page, size := c.size, kind := c.kind, info := t, fibres := [], engine := some core }
      waitOn (s1.writeFault ctx (s.engineRecord core x c i e.gen true)) i
    | _, _ => s.copyHead core fun y => { y with put := 0 }

/-- A fault on an address of the running command, by the mode of its stage (R251). -/
def State.copyFault (s : State) (core : Nat) (x : CopyCmd) (c : Cond) : State :=
  if isPageFault c.cls then
    if s.teamLeased x.team then
      let ws := Word.split 8 (s.engineRecord core x c 0 0 false)
      let o := { s.originTeam x.team with fibre := (s.fibre (s.opFibre x.op)).fibreId }
      (s.errorRecord (s.teamCtx x.team) 0x0C o (ws.map BitVec.toNat)).endTeam x.team false
    else s.copyPark core x c
  else s.copyHalt core x 8 c.cls (c.addr.getD 0)

/-! Steps (R249, R414). -/

/-- What a step reads. -/
def State.copySrc (s : State) (core team : Nat) (d : CopyDesc) (i : Nat) : List Span :=
  match d.fn with
  | 0 => (List.range d.len).map fun k => let e := d.elemAt (d.elemNo i k); { kind := d.sk, addr := d.src + e.1, len := e.2 }
  | 1 => [{ kind := 1, addr := d.src + i * d.sstr, len := d.len }]
  | 2 => let b := d.block i; [{ kind := d.sk, addr := if d.sk = 2 then d.src else d.src + b.1, len := b.2 }]
  | 3 => [{ kind := 0, addr := (d.src + s.copyIndex core team d i * d.sstr) % 2 ^ 64, len := d.n }]
  | 4 => [{ kind := 1, addr := d.src + i * d.n, len := d.n }]
  | _ => []

/-- Where a step writes, for bytes of a length. -/
def State.copyDst (s : State) (core team : Nat) (d : CopyDesc) (i n : Nat) : Span :=
  match d.fn with
  | 0 => { kind := 1, addr := d.dst + i * d.slices * d.recBytes, len := n }
  | 1 => { kind := d.dk, addr := (d.dst + i * d.dstr) % 2 ^ 64, len := n }
  | 3 => { kind := 1, addr := d.dst + i * d.n, len := n }
  | 4 => { kind := 0, addr := (d.dst + s.copyIndex core team d i * d.dstr) % 2 ^ 64, len := n }
  | _ => { kind := d.dk, addr := if d.dk = 2 then d.dst else (d.dst + (d.block i).1) % 2 ^ 64, len := n }

/-- Lists of some length each. -/
def chunks {α : Type} (n : Nat) : Nat → List α → List (List α)
  | 0, _ => []
  | k + 1, xs => xs.take n :: chunks n k (xs.drop n)

/-- A slice record: exponent word, 14 zero bytes, slots (R78 to R80, R249). -/
def CopyDesc.record (d : CopyDesc) (raw : List Nat) : List Byte :=
  if d.isFloat then
    let f := if d.sfmt = 1 then bf16 else fp16
    let x := floatSlice (raw.map f.read)
    Byte.split 2 x.1 ++ List.replicate 14 0 ++ x.2.flatMap fun v => Byte.split 2 (narrow v 16)
  else
    let spc := d.sfmt == 6 && raw.any lnsIsNaR
    Byte.split 2 (b2n spc * 2 ^ 15 + d.aux % 2 ^ 12) ++ List.replicate 14 0 ++
      raw.map fun v => Byte.ofNat (if d.sfmt = 5 then narrow (sext v 4) 8 else v)

/-- Cuts the bytes a line has read back into its elements. -/
def CopyDesc.elems (d : CopyDesc) (l : Nat) : Nat → Nat → List Byte → List Nat
  | 0, _, _ => []
  | m + 1, k, bs =>
    let i := d.elemNo l k
    let w := (d.elemAt i).2
    d.elemIn i (bs.take w) :: CopyDesc.elems d l m (k + 1) (bs.drop w)

/-- The codes of LNS6 packed 16 to 12 bytes (R71). -/
def packLns (codes : List Nat) : List Byte :=
  (chunks 16 (ceilDiv codes.length 16) codes).flatMap fun g =>
    Byte.split 12 (((indexed g).map fun e => e.2 % 64 * 2 ^ (6 * e.1)).sum)

/-- A float value times a power of two. -/
def FVal.shifted (k : Int) : FVal → FVal
  | .fin n m e => .fin n m (e + k)
  | x => x

/-- A row of `cp.store` converted (R249). -/
def CopyDesc.convert (d : CopyDesc) (bs : List Byte) : List Byte :=
  if d.sfmt = d.dfmt then bs
  else
    let xs := (bytesWords bs).map BitVec.toNat
    let rm := RMode.ofCode d.rm
    if d.dfmt = 1 then xs.flatMap fun x => Byte.split 2 (cvtFloat fp32 bf16 rm x).1
    else if d.dfmt = 2 then xs.flatMap fun x => Byte.split 2 (cvtFloat fp32 fp16 rm x).1
    else if d.dfmt = 4 then xs.map fun x => Byte.ofNat (narrow (satI (sext x 32) (-128) 127) 8)
    else packLns (xs.map fun x => (lnsEncode rm (FVal.shifted (-d.scale) (fp32.read x))).1)

/-- What a step writes, from what it has read. -/
def CopyDesc.out (d : CopyDesc) (i : Nat) (bs : List Byte) : List Byte :=
  match d.fn with
  | 0 => (chunks d.sliceK d.slices (d.elems i d.len 0 bs)).flatMap d.record
  | 1 => d.convert bs
  | 5 =>
    let b := d.block i
    (List.range b.2).map fun k => Byte.ofNat (d.aux / 2 ^ (8 * ((b.1 + k) % 4)))
  | _ => bs

/-! The events (R250, R253, R414). -/

/-- The head of a copy queue, unless it is halted, parked or guarded; a core that halts lets it finish its step (R370, R414). -/
def State.copyNow (s : State) (core : Nat) : Option CopyCmd :=
  let c := s.core core
  match c.copy.queue with
  | x :: _ =>
    if x.halt.isNone && c.copy.parked.isNone && x.guard.isNone && (s.coreRuns core || (decide (c.phase = .halting) && c.copy.inStep x)) then some x else none
  | [] => none

/-- The command at the head is gone: discarded with what it has under way, its team's holdings too where they stayed for it (R243, R415). -/
def State.copyQuit (s : State) (core : Nat) (x : CopyCmd) : State :=
  (((s.modCore core fun c => { c with copy := { c.copy with queue := c.copy.queue.drop 1 } }).engDrop core x.op).discardOp x.op).dropEnded x.team

/-- COPY_COMMAND_HEAD: an admitted command is checked before any byte moves. -/
def execCopyCommandHead (core : Nat) (s : State) : Out :=
  match s.copyNow core with
  | none => .next s
  | some x =>
    if x.started || !s.relPerformed x.rel then .next s
    else
      match s.copyReason core x.team x.d with
      | 0 => .next (s.copyHead core fun y => { y with started := true })
      | r => .next ((s.copyInvalid core x.team x.d).copyHalt core x r 0 0)

/-- Ends the context over poisoned data that a command has read (R179). -/
def State.copyPoison (s : State) (x : CopyCmd) (line : Nat) : State :=
  let o := { s.originTeam x.team with fibre := (s.fibre (s.opFibre x.op)).fibreId }
  s.poisonReset (s.teamCtx x.team) o x.header 0 line

/-- A step is over: a command whose team has been ended goes with it (R415). -/
def State.stepOver (s : State) (core : Nat) (x : CopyCmd) : State := if x.quit then s.copyQuit core x else s

/-- The write of a step whose bytes are read. -/
def State.copyWriteStep (s : State) (core : Nat) (j : Eng) (x : CopyCmd) (bs : List Byte) (settle : Nat) : Out :=
  let out := x.d.out x.step bs
  let dst := s.copyDst core x.team x.d x.step out.length
  let keep (a : EngAcc) (y : CopyCmd) : CopyCmd := { y with held := some bs, put := a.done, comp := max y.comp a.comp, ot := max y.ot settle }
  match State.engWrite j s x.put dst.cut out EngAcc.none with
  | .ok s1 a =>
    .next (((s1.meter (s.partOf j.ctx) 5 out.length).copyHead core fun y =>
      { y with step := y.step + 1, held := none, put := 0, comp := max y.comp a.comp, ot := max y.ot settle }).stepOver core x)
  | .stop s1 a none => .next (if x.quit && x.d.dk == 2 then s1.copyQuit core x else s1.copyHead core (keep a))
  | .stop s1 a (some c) => .next (if x.quit then s1.copyQuit core x else (s1.copyHead core (keep a)).copyFault core x c)
  | .absent pa => .fault (.physicalAddressAbsent pa)
  | .poison l => .next (s.copyPoison x l)

/-- COPY_STEP: one step is read whole, then written. -/
def execCopyStep (core : Nat) (s : State) : Out :=
  match s.copyNow core with
  | none => .next s
  | some x =>
    let ctx := s.teamCtx x.team
    if !x.started || decide (x.d.steps ≤ x.step) || (x.held.isNone && s.heldAct (s.partOf ctx) 5) then .next s
    else
      let j : Eng := { core := core, ctx := ctx, team := x.team, f := s.opFibre x.op, far := x.d.far, op := x.op }
      let held := x.held.getD []
      match State.engRead j s held.length ((s.copySrc core x.team x.d x.step).flatMap Span.cut) { EngAcc.none with data := held } with
      | .ok s1 a => s1.copyWriteStep core j x a.data a.settle
      | .stop s1 a none =>
        .next (if x.quit && x.d.sk == 2 then s1.copyQuit core x else s1.copyHead core fun y => { y with held := some a.data, ot := max y.ot a.settle })
      | .stop s1 a (some c) =>
        .next (if x.quit then s1.copyQuit core x
          else (s1.copyHead core fun y => { y with held := some a.data, ot := max y.ot a.settle }).copyFault core x c)
      | .absent pa => .fault (.physicalAddressAbsent pa)
      | .poison l => .next (s.copyPoison x l)

/-- COPY_COMPLETE: the release is done and the completion word written (R205, R206, R253). -/
def execCopyComplete (core : Nat) (s : State) : Out :=
  match s.copyNow core with
  | none => .next s
  | some x =>
    let d := x.d
    if !x.started || decide (x.step < d.steps) || s.engBusy core x.op then .next s
    else if d.releases && decide (0 < d.scope) && decide (s.horizon < max x.comp x.ot) then .next s
    else
      let s1 := s.modCore core fun c => { c with copy := { c.copy with queue := c.copy.queue.drop 1, done := (c.copy.done + 1) % 4096 } }
      let s2 := if d.cw then s1.spadStore core (s.spBase x.team + d.cwoff) (Byte.split 4 (wordAt d.ws 2)) else s1
      .next (s2.answerOp x.op [])

end Sys2Proof.Machine
end

