-- ==== Sys2Proof/Machine/Cross.lean ====
section
/-! DEFINITION. Instructions across the lanes of a group and of a quad: opcodes 0x4D to 0x56 (R102, R104, R116 to R118). -/

namespace Sys2Proof.Machine

/-- The home lane of a lane. -/
def Lane.num (l : Lane) : Nat := laneOf l.f

/-- The active lane of a number. -/
def laneAt (ls : List Lane) (i : Nat) : Option Lane := ls.find? fun l => l.num == i

/-- `elect` (R116): the lanes stand in rising order. -/
def execElect (p : Pred) (s : State) : Out :=
  s.cross 0x4D [] none fun _ ls l => LaneOut.setp p.val (ls.head?.map Lane.f == some l.f)

/-- The truth of a vote over the active lanes (R116). -/
def voteValue (m : VoteMode) (bs : List Bool) : Bool :=
  match m with
  | .every => bs.all id
  | .some => bs.any id
  | .same => bs.all id || !bs.any id
  | .odd => (bs.filter id).length % 2 == 1

/-- `vote` (R116). -/
def execVote (m : VoteMode) (ps pd : Pred) (s : State) : Out :=
  s.cross 0x4E [] none fun t ls _ => LaneOut.setp pd.val (voteValue m (ls.map fun l => (t.fibre l.f).pred ps.val))

/-- The mask of the lanes that a test selects (R116). -/
def laneMask (ls : List Lane) (k : Lane → Bool) : Nat := maskOf ((ls.filter k).map Lane.num)

/-- `ballot` (R116). -/
def execBallot (ps : Pred) (d : Dst) (s : State) : Out :=
  s.cross 0x50 [] (some (1, d)) fun t ls _ => LaneOut.num 1 (laneMask ls fun l => (t.fibre l.f).pred ps.val)

/-- `match` (R116). -/
def execMatchAny (wide : Bool) (a : Src) (d : Dst) (s : State) : Out :=
  s.cross 0x51 [(wideWords wide, a)] (some (1, d)) fun _ ls l => LaneOut.num 1 (laneMask ls fun x => x.n 0 == l.n 0)

/-- The lane `shfl` reads, none below 0 (R117). -/
def shflLane (m : ShflMode) (lane k : Nat) : Option Nat :=
  match m with
  | .pick => some k
  | .lower => if k ≤ lane then some (lane - k) else none
  | .upper => some (lane + k)
  | .mirror => some (lane ^^^ k)
  | .ring => some ((lane + k) % 32)

/-- `shfl` (R117): a is the value, b the lane operand. -/
def execShfl (m : ShflMode) (a b : Src) (d : Dst) (s : State) : Out :=
  s.cross 0x52 [(1, a), (1, b)] (some (1, d)) fun _ ls l =>
    let from_ := (shflLane m l.num (l.n 1)).bind fun j => laneAt ls j
    LaneOut.num 1 ((from_.getD l).n 0)

/-- The least, or with `max` the greatest, of a list of integers. -/
def pickInt (max : Bool) : List Int → Int
  | [] => 0
  | x :: xs => xs.foldl (fun b y => if max then (if b < y then y else b) else if y < b then y else b) x

/-- The reductions of `redux` on n-bit values (R117). -/
def reduxValue (op : ReduxOp) (n : Nat) (xs : List Nat) : Nat :=
  match op with
  | .add => xs.sum % 2 ^ n
  | .minS => narrow (pickInt false (xs.map fun x => sext x n)) n
  | .maxS => narrow (pickInt true (xs.map fun x => sext x n)) n
  | .minU => narrow (pickInt false (xs.map Int.ofNat)) n
  | .maxU => narrow (pickInt true (xs.map Int.ofNat)) n
  | .and => xs.foldl (· &&& ·) (2 ^ n - 1)
  | .or => xs.foldl (· ||| ·) 0
  | .xor => xs.foldl (· ^^^ ·) 0

/-- `redux` (R117). -/
def execRedux (op : ReduxOp) (wide : Bool) (a : Src) (d : Dst) (s : State) : Out :=
  s.cross 0x53 [(wideWords wide, a)] (some (wideWords wide, d)) fun _ ls _ =>
    LaneOut.num (wideWords wide) (reduxValue op (32 * wideWords wide) (ls.map fun l => l.n 0))

/-! Quads (R104, R118). -/

/-- The value at a position of a lane's quad: a member's, or the one a helper takes from its horizontal, vertical or diagonal partner (R104). -/
def quadValue (ls : List Lane) (l : Lane) (q : Nat) : Nat :=
  let base := l.num / 4 * 4
  match [q, q ^^^ 1, q ^^^ 2, q ^^^ 3].findSome? fun j => laneAt ls (base + j) with
  | some x => x.n 0
  | none => 0

/-- The partner's mask of `qswap` (R118). -/
def quadMask : QuadDir → Nat
  | .h => 1 | .v => 2 | .d => 3

/-- `qswap` (R118). -/
def execQswap (dir : QuadDir) (a : Src) (d : Dst) (s : State) : Out :=
  s.cross 0x54 [(1, a)] (some (1, d)) fun _ ls l => LaneOut.num 1 (quadValue ls l ((l.num % 4) ^^^ quadMask dir))

/-- `qbcast` (R118). -/
def execQbcast (k : Fin 4) (a : Src) (d : Dst) (s : State) : Out :=
  s.cross 0x55 [(1, a)] (some (1, d)) fun _ ls l => LaneOut.num 1 (quadValue ls l k.val)

/-- Two results with flags joined by a third operation. -/
def pairUp (k : Nat → Nat → Nat × Nat) (a b c d : Nat) : Nat × Nat :=
  let x := k a b
  let y := k c d
  let z := k x.1 y.1
  (z.1, x.2 ||| y.2 ||| z.2)

/-- The reductions of `qred`, with their flags (R118). -/
def quadReduce (op : QuadOp) (rm : RMode) (p : Nat → Nat) : Nat × Nat :=
  let ints := [p 0, p 1, p 2, p 3].map fun x => sext x 32
  match op with
  | .add => ((p 0 + p 1 + p 2 + p 3) % 2 ^ 32, 0)
  | .minS => (narrow (pickInt false ints) 32, 0)
  | .maxS => (narrow (pickInt true ints) 32, 0)
  | .fadd => pairUp (fun a b => fp32.add rm (fp32.read a) (fp32.read b)) (p 0) (p 1) (p 2) (p 3)
  | .fmin => pairUp (fp32.minMax false) (p 0) (p 1) (p 2) (p 3)
  | .fmax => pairUp (fp32.minMax true) (p 0) (p 1) (p 2) (p 3)

/-- Whether a reduction of `qred` is a float one, which takes 8 cycles (R105). -/
def quadFloat : QuadOp → Bool
  | .fadd | .fmin | .fmax => true
  | .add | .minS | .maxS => false

/-- `qred` (R118). -/
def execQred (op : QuadOp) (a : Src) (d : Dst) (s : State) : Out :=
  s.crossIn (if quadFloat op then (8, 1) else (6, 1)) 0x56 [(1, a)] (some (1, d)) fun t ls l =>
    let r := quadReduce op (t.fibre l.f).rm (quadValue ls l)
    { words := [Word.ofNat r.1], flags := r.2, pred := none }

end Sys2Proof.Machine
end

