-- ==== Sys2Proof/Machine/Loader.lean ====
section
/-! DEFINITION. The loader: reading and checking a plan record, its resources, and the reload of a drain image (R295 to R298, R311). -/

namespace Sys2Proof.Machine

/-! The record (R295 to R297). -/

/-- A plan record as the loader has read it. -/
structure PlanRec where
  ws : List Word
deriving DecidableEq, Repr

namespace PlanRec
def w (r : PlanRec) (i : Nat) : Nat := wordAt r.ws i
def nstage (r : PlanRec) : Nat := bits (r.w 0) 4 0
def npipe (r : PlanRec) : Nat := bits (r.w 0) 25 13
def hdr (r : PlanRec) : List Word := r.ws.take 16
/-- First word of stage s and of pipe p. -/
def stageAt (s : Nat) : Nat := 16 + 64 * s
def pipeAt (r : PlanRec) (p : Nat) : Nat := 16 + 64 * r.nstage + 8 * p
def stage (r : PlanRec) (s : Nat) : List Word := (r.ws.drop (stageAt s)).take 64
def pipe (r : PlanRec) (p : Nat) : List Word := (r.ws.drop (r.pipeAt p)).take 8
def spilla (r : PlanRec) : Nat := dwordAt r.ws 4
def restart (r : PlanRec) : Bool := bit (r.w 0) 29
end PlanRec

/-- Fields of a stage record (R296). -/
def recWin (g : List Word) : Nat := 8 * bits (wordAt g 2) 31 28
def recSpan (g : List Word) : Nat := 8 * bits (wordAt g 2) 27 21
def recPrio (g : List Word) : Nat := bits (wordAt g 2) 20 19
def recScr (g : List Word) : Nat := bits (wordAt g 2) 18 11
def recFibres (g : List Word) : Nat := bits (wordAt g 2) 10 0
def recAcc (g : List Word) : Nat := bits (wordAt g 3) 31 26
def recResident (g : List Word) : Bool := bit (wordAt g 3) 25
def recLeased (g : List Word) : Bool := bit (wordAt g 3) 24
def recDies (g : List Word) : Nat := bits (wordAt g 3) 23 20
def recFslot (g : List Word) : Nat := bits (wordAt g 3) 16 14
def recMax (g : List Word) : Nat := bits (wordAt g 3) 13 7
def recMin (g : List Word) : Nat := bits (wordAt g 3) 6 0

/-- Fibres of a team on the home lane that holds most of them (R89). -/
def fibresPerLane (n : Nat) : Nat := ceilDiv n 128

/-- The team capacity k of a stage under a context's HCTL (R298). -/
def teamCapacity (g : List Word) (hctl : Word) : Nat :=
  let n := fibresPerLane (recFibres g)
  let regs := if recSpan g = 0 then 0 else (512 - handlerSize hctl) / (recSpan g * n)
  let spad := if recScr g = 0 then 16 else 128 / recScr g
  let tiles := if recAcc g = 0 then 16 else (if bit hctl.toNat 8 then 47 else 48) / recAcc g
  min (min 16 (8 / min 8 (n + recFslot g))) (min regs (min spad tiles))

/-- Bytes of a number of elements in a tile format (R71, R297). -/
def tileBytes (fmt n : Nat) : Nat :=
  match fmt with
  | 0 => n | 1 => 2 * n | 2 => 2 * n | 3 => 4 * n | 4 => n | 5 => ceilDiv n 2 | 6 => 12 * ceilDiv n 16 | _ => 4 * n

/-- Whether a word of a limited field is outside its limits: 0 selects a default. -/
def offLimits (x lo hi : Nat) : Bool := x != 0 && decide (x < lo ∨ hi < x)

/-- Whether header word i breaks R295 or R298, SPILLN left aside. -/
def PlanRec.badHeader (r : PlanRec) (i : Nat) : Bool :=
  match i with
  | 0 => bits (r.w 0) 12 5 != 0 || decide (2 ≤ bits (r.w 0) 31 30) || decide (4096 < r.npipe) || decide (r.nstage = 0 ∨ 16 < r.nstage)
  | 1 => offLimits (r.w 1) 10 10000
  | 2 => offLimits (r.w 2) 10 10000
  | 4 => r.spilla % 65536 != 0 || decide (r.spilla < 2 ^ 56) || decide (windowBase ≤ r.spilla)
  | 5 => false
  | 6 => false
  | 8 => dwordAt r.ws 8 % 8 != 0
  | 9 => false
  | _ => r.w i != 0

/-- Whether word i of a stage record breaks R296 or R298, the UNIF read left aside. -/
def badStage (g : List Word) (hctl : Word) (i : Nat) : Bool :=
  let x := wordAt g i
  let k := teamCapacity g hctl
  match i with
  | 0 => dwordAt g 0 % 4 != 0
  | 1 => false
  | 2 => decide (recWin g = 0 ∨ recSpan g < recWin g ∨ 512 < recSpan g ∨ 128 < recScr g ∨ recFibres g = 0 ∨ 1024 < recFibres g ∨ k = 0)
  | 3 => bits x 19 17 != 0 || decide (48 < recAcc g ∨ recDies g = 0 ∨ recMax g = 0 ∨ 64 < recMax g ∨ recMax g < recMin g) ||
      (recResident g && decide (recMin g * 4 * k < wordAt g 4))
  | 4 => x == 0 || decide (2 ^ 24 ≤ x)
  | 5 => decide (65536 < x)
  | 6 => decide (4095 < x)
  | 7 => decide (16 ≤ x)
  | 8 => dwordAt g 8 % 4 != 0
  | 9 => false
  | 10 => decide (16 < x ∨ recWin g < x)
  | _ => if 11 ≤ i ∧ i < 16 then x != 0 else if 32 ≤ i then !recLeased g && x != 0 else false

/-- Whether word i of a pipe descriptor breaks R297. -/
def badPipe (p : List Word) (nstage i : Nat) : Bool :=
  let x := wordAt p i
  let c := wordAt p 0
  let xdev := bit c 15
  let size := tileBytes (bits c 31 28) ((wordAt p 3 / 65536) * (wordAt p 3 % 65536))
  match i with
  | 0 => bits c 13 0 != 0 || decide (8 ≤ bits c 31 28 ∨ nstage ≤ bits c 23 20 ∨ nstage ≤ bits c 19 16) || (!xdev && bit c 14) ||
      (xdev && (if bit c 14 then bits c 23 20 != 0 else bits c 19 16 != 0))
  | 1 => decide (x = 0 ∨ 4096 < x)
  | 2 => decide (x < 64 ∨ 65536 < x) || x % 64 != 0
  | 3 => decide (x / 65536 = 0 ∨ x % 65536 = 0 ∨ wordAt p 2 < size)
  | 4 => if xdev then bits x 31 26 != 0 || bits x 15 12 != 0 else x != 0
  | 5 => if xdev then decide (256 ≤ x) else x != 0
  | _ => x != 0

/-- SLOTB and DEPTH of pipe p. -/
def PlanRec.slotb (r : PlanRec) (p : Nat) : Nat := wordAt (r.pipe p) 2
def PlanRec.depth (r : PlanRec) (p : Nat) : Nat := wordAt (r.pipe p) 1

/-- DEPTH and SLOTB of every pipe. -/
def PlanRec.sizes (r : PlanRec) : List (Nat × Nat) := (List.range r.npipe).map fun p => (r.depth p, r.slotb p)

/-- Whether SPILLN is too small. -/
def PlanRec.smallSpill (r : PlanRec) : Bool := decide (r.w 6 * 65536 < imageBytes r.sizes + (r.sizes.map Prod.snd).sum)

/-- The UNIF block of a stage: its words, or none where the read faults. -/
def State.unifOf (s : State) (via : Option Nat) (ctx : Nat) (g : List Word) : Option (List Word) :=
  let a := dwordAt g 8
  if a = 0 then some (List.replicate 64 0)
  else
    match s.virtWords via ctx a 64 0 with
    | (ws, none) => some ws
    | _ => none

/-- Whether DONEA does not translate for writing. -/
def State.doneBad (s : State) (ctx a : Nat) : Bool :=
  a != 0 && (decide (2 ^ 57 ≤ a) || match s.walk ctx a with | .ok e => !e.w | _ => true)

/-- What the peer has told of its end of a cross-device pipe: DEPTH and SLOTB (R305; log 113). -/
def State.peerEnd (s : State) (device peerPipe pipe : Nat) : Option (Nat × Nat) :=
  (s.peerEnds.find? fun e => e.1 == device && e.2.1 == peerPipe && e.2.2.1 == pipe).map fun e => e.2.2.2

/-- Whether word i of the descriptor of pipe p differs from the peer's end, DEPTH or SLOTB (R305). -/
def State.endClash (s : State) (p : List Word) (pipe i : Nat) : Bool :=
  bit (wordAt p 0) 15 &&
    (match s.peerEnd (bits (wordAt p 4) 25 16) (bits (wordAt p 4) 11 0) pipe with
     | some e => (i == 1 && wordAt p 1 != e.1) || (i == 2 && wordAt p 2 != e.2)
     | none => false)

/-- The word of a record at which a check fails, counted in words. -/
def State.failsAt (s : State) (via : Option Nat) (ctx : Nat) (hctl : Word) (r : PlanRec) (i : Nat) : Bool :=
  if i < 16 then r.badHeader i || (i == 6 && r.smallSpill) || (i == 8 && s.doneBad ctx (dwordAt r.ws 8))
  else
    let j := i - 16
    if j < 64 * r.nstage then
      badStage (r.stage (j / 64)) hctl (j % 64) || (j % 64 == 8 && (s.unifOf via ctx (r.stage (j / 64))).isNone)
    else
      let k := j - 64 * r.nstage
      badPipe (r.pipe (k / 8)) r.nstage (k % 8) || s.endClash (r.pipe (k / 8)) (k / 8) (k % 8)

/-- Reads a record and checks it (R298): the record, or the byte offset of the first failing word. `over` replaces SCTL [13:0] of a one-stage record (R381). -/
def State.readPlan (s : State) (via : Option Nat) (ctx a over_ : Nat) : Except Nat PlanRec :=
  match s.virtWords via ctx a 16 0 with
  | (_, some o) => .error o
  | (h, none) =>
    let r0 : PlanRec := ⟨h⟩
    match (List.range 6).find? r0.badHeader with
    | some i => .error (4 * i)
    | none =>
      let got := s.virtWords via ctx a (16 + 64 * r0.nstage + 8 * r0.npipe) 0
      let ws := if over_ = 0 ∨ r0.nstage ≠ 1 then got.1
        else got.1.set 19 (Word.ofNat (bits (wordAt got.1 19) 31 14 * 2 ^ 14 + over_ % 2 ^ 14))
      let r : PlanRec := ⟨ws⟩
      let hctl := match s.ctx? ctx with | some c => c.hctl | none => 0
      match (List.range ws.length).find? (s.failsAt via ctx hctl r), got.2 with
      | some i, some o => .error (min (4 * i) o)
      | some i, none => .error (4 * i)
      | none, some o => .error o
      | none, none => .ok r

/-! Room (R298). -/

/-- The clusters of a partition (R364). -/
def Part.clusters (p : Part) : List Nat := setBits (dwordAt p.rec_ 1) 64
/-- The clusters of a context's partition. -/
def State.partClusters (s : State) (ctx : Nat) : List Nat :=
  match NMap.find s.parts (s.partOf ctx) with | some p => p.clusters | none => []

/-- Whether stages, given by die mask and count, can take distinct clusters: for every set of dies, the stages confined to it need no more than it has. -/
def placeable (needs : List (Nat × Nat)) (free : List Nat) : Bool :=
  (List.range 16).all fun d =>
    decide (((needs.filter fun e => e.1 &&& d == e.1).map Prod.snd).sum ≤ (free.filter fun c => bit d (dieOfCluster c)).length)

/-- Bytes that pipes and task queues of given records hold at a cistern (R298). -/
def cisternLoad (c : Nat) (stages pipes : List (List Word)) : Nat :=
  ((pipes.filter fun p => bits (wordAt p 0) 27 24 == c).map fun p => roundUp (wordAt p 1 * wordAt p 2) 64).sum +
    ((stages.filter fun g => wordAt g 7 == c).map fun g => roundUp (32 * wordAt g 5 + 4 * wordAt g 6) 64).sum

/-- Whether a plan holds resources: LOADED, RUNNING or DRAINING. -/
def Plan.live (p : Plan) : Bool := decide (p.state = .loaded ∨ p.state = .running ∨ p.state = .draining)

/-- The plans of a partition that hold resources. -/
def State.partPlans (s : State) (part : Nat) : List Nat :=
  (s.plans.filter fun e => e.2.live && s.partOf e.2.ctx == part).map Prod.fst

/-- Whether every cistern has room for a record beside the plans loaded (R298, R364). -/
def State.waysFit (s : State) (ctx : Nat) (r : PlanRec) : Bool :=
  match NMap.find s.parts (s.partOf ctx) with
  | none => false
  | some p =>
    let share := (popCount 24 (wordAt p.rec_ 3) - bits (wordAt p.rec_ 0) 28 24) * 2 ^ 24
    let ps := s.partPlans (s.partOf ctx)
    let stages := (ps.flatMap fun k => match s.plan? k with | some x => x.stages.map Stage.rec_ | none => []) ++ (List.range r.nstage).map r.stage
    let pipes := (s.pipes.filter fun e => ps.contains (e.1 / 4096)).map (fun e => e.2.desc) ++ (List.range r.npipe).map r.pipe
    (List.range 16).all fun c => decide (cisternLoad c stages pipes ≤ share)

/-- The lowest number a context's plans do not use (R400). -/
def State.freePlan (s : State) (ctx : Nat) : Option Nat := (List.range 16).find? fun n => (s.plan? (16 * ctx + n)).isNone

/-! The drain image (R310, R311). -/

/-- Reads the image of pipe p onward from a word offset: the tiles of each pipe, or none where the image breaks R311. -/
def State.readImage (s : State) (ctx base : Nat) (r : PlanRec) : Nat → Nat → Nat → Option (List (List (List Byte)))
  | 0, _, _ => some []
  | n + 1, p, off =>
    match s.virtWords none ctx (base + off) 4 0 with
    | (h, none) =>
      let k := wordAt h 1
      if wordAt h 0 = p ∧ wordAt h 2 = r.slotb p ∧ wordAt h 3 = 0 ∧ k ≤ r.depth p + 1 then
        match s.virtWords none ctx (base + off + 16) (k * r.slotb p / 4) 0 with
        | (ws, none) =>
          let tiles := (List.range k).map fun i => bytesOf ((ws.drop (i * r.slotb p / 4)).take (r.slotb p / 4))
          (State.readImage s ctx base r n (p + 1) (off + 16 + k * r.slotb p)).map fun rest => tiles :: rest
        | _ => none
      else none
    | _ => none

/-- The tiles a restart reloads, by pipe. -/
def State.reload (s : State) (ctx : Nat) (r : PlanRec) : Option (List (List (List Byte))) :=
  if !r.restart then some (List.replicate r.npipe [])
  else
    match s.virtWords none ctx r.spilla 1 0 with
    | (w :: _, none) => if w.toNat = r.npipe then s.readImage ctx r.spilla r r.npipe 0 64 else none
    | _ => none

/-- A pipe with the tiles a restart fills it with (R311). -/
def Pipe.filled (p : Pipe) (tiles : List (List Byte)) : Pipe :=
  let n := tiles.length
  { p with rsv := n, pub := n, extended := decide (p.depth < n),
           tiles := (indexed tiles).map fun e =>
             { num := e.1, data := some e.2, src := none, spill := decide (p.depth ≤ e.1), delivered := false, counted := false, moving := false, lines := 0 } }

/-- What a plan tells the peers of its cross-device pipes: the DEPTH and SLOTB of its ends (R305). -/
def PlanRec.hellos (r : PlanRec) : List FabMsg :=
  (List.range r.npipe).filterMap fun i =>
    let p := Pipe.start (r.pipe i)
    if p.xdev then some (.hello p.peer.1 p.peer.2 i p.depth p.slotB) else none

/-! Loading (R295, R298, R301, R330). -/

/-- What the loader answers: the plan's number, or a refusal by its error class. -/
inductive Loaded where
  | plan (number : Nat)
  | illFormed
  | noRoom
deriving DecidableEq, Repr

/-- A stage as it is loaded. -/
def Stage.start (rec_ unif : List Word) : Stage :=
  { rec_ := rec_, unif := unif, clusters := [], next := 0, live := [], finished := 0, ended := 0, saved := [], blocked := none,
    tasks := [], counters := List.replicate (wordAt rec_ 6) 0, updates := [], held := [], rest := 0, pagesReady := !recLeased rec_ }

/-- Enters a plan that has passed its checks. -/
def State.enterPlan (s : State) (via : Option Nat) (ctx n : Nat) (r : PlanRec) (tiles : List (List (List Byte))) : State :=
  let stages := (List.range r.nstage).map fun i => Stage.start (r.stage i) ((s.unifOf via ctx (r.stage i)).getD [])
  let key := 16 * ctx + n
  let plan : Plan :=
    { ctx := ctx, number := n, state := .loaded, hdr := r.hdr, stages := stages, pair := none, grants := [], nextInterval := 0,
      order := s.nextId, cycle := 0, lost := 0, drainAt := 0, settle := 0, doneAt := none }
  let pipes := (List.range r.npipe).foldl (fun m p => NMap.put m (pipeKey key p) ((Pipe.start (r.pipe p)).filled (tiles.getD p []))) s.pipes
  let s1 : State := { s with plans := NMap.put s.plans key plan, pipes := pipes, nextId := s.nextId + 1, fabOut := s.fabOut ++ r.hellos }
  (s1.planPipes key).foldl State.spillTile s1

/-- Loads a plan record, or refuses it with its error record (R298, R387). -/
def State.loadPlan (s : State) (via : Option Nat) (ctx a over_ : Nat) : Loaded × State :=
  let ill (o : Nat) : Loaded × State := (.illFormed, s.errorRecord ctx 0x0D Origin.none (lowHigh a ++ [o]))
  let full (k : Nat) : Loaded × State := (.noRoom, s.errorRecord ctx 0x0E Origin.none (lowHigh a ++ [k]))
  match s.readPlan via ctx a over_ with
  | .error o => ill o
  | .ok r =>
    match s.reload ctx r with
    | none => ill 0xFFFFFFFF
    | some tiles =>
      if !s.waysFit ctx r then full 0
      else if !placeable ((List.range r.nstage).map fun i => (recDies (r.stage i), recMin (r.stage i))) (s.partClusters ctx) then full 1
      else
        match s.freePlan ctx with
        | none => full 2
        | some n => (.plan n, s.enterPlan via ctx n r tiles)

end Sys2Proof.Machine
end

