-- ==== Sys2Proof/Machine/PipeInstr.lean ====
section
/-! DEFINITION. The pipe, range, task and launch instructions: X functions 0x30 to 0x46 (R208, R302 to R304, R315 to R330). -/

namespace Sys2Proof.Machine

/-! The plan of a fibre. -/

/-- The plan and stage of a fibre. -/
def State.planOf (s : State) (f : Nat) : Nat := (s.team (s.fibre f).team).plan
def State.stageOf (s : State) (f : Nat) : Nat := (s.team (s.fibre f).team).stage
/-- The pipe of a fibre's plan with an index. -/
def State.pipeAt (s : State) (f i : Nat) : Option Pipe := if i < 4096 then s.pipe? (pipeKey (s.planOf f) i) else none
/-- Whether a pipe's role matches a fibre's stage: producer, or consumer for an inbox (R320). -/
def State.pipeRole (s : State) (p : Pipe) (inbox : Bool) (f : Nat) : Bool :=
  if inbox then p.consumes && p.cons == s.stageOf f else p.produces && p.prod == s.stageOf f
/-- The ring of a fibre's team at the pipe that a control value names, where its role and binding admit it. -/
def State.ringOf (s : State) (f i : Nat) (inbox : Bool) : Option (Pipe × Ring) :=
  (s.pipeAt f i).bind fun p => if s.pipeRole p inbox f then (p.ring? inbox (s.fibre f).team).map fun r => (p, r) else none

/-- The later memory instructions of a fibre wait for these operations as for an acquire (R208, R319). -/
def State.acquireOps (s : State) (ops : List Nat) : State := ops.foldl (fun t o => t.modOp o fun x => { x with acquire := true }) s

/-- Forgets that fibres are held before issue at a pipe or a task queue. -/
def State.unwait (s : State) (k : Nat) (fs : List Nat) : State :=
  (s.modPipe k fun p => { p with waiting := p.waiting.filter fun w => !(w.ops.isEmpty && fs.contains w.fibre) }).modFibres fs
    fun x => { x with wait := none }

/-- Holds a group before issue, every fibre of it waiting (R308, R321). -/
def State.holdFibres (s : State) (g : Nat) (fs : List Nat) (w : Wait) : State := (s.modFibres fs fun x => { x with wait := some w }).hold g w

/-! p.rsv and p.acq (R302, R321, R323). -/

/-- Whether a wait stands before one of the fibres given and could be granted now. -/
def State.waitBefore (s : State) (p : Pipe) (inbox : Bool) (fs : List Nat) : Bool :=
  match p.waiting.find? fun w => w.acquire == inbox && (!inbox || fs.all fun f => s.teamOf w.fibre == s.teamOf f) && s.waitOpen p w with
  | some w => !fs.contains w.fibre
  | none => false

/-- What a pipe answers a reservation or an acquisition of a team. -/
def Pipe.serve (p : Pipe) (inbox : Bool) (team : Nat) : Option (Nat × Pipe) := if inbox then p.acquire team else p.reserve team

/-- Whether the condition of `p.rsv` or `p.acq` holds for a group led by a fibre. -/
def State.pipeOpen (s : State) (f i : Nat) (inbox : Bool) (fs : List Nat) : Bool :=
  match s.pipeAt f i with
  | some p => (p.serve inbox (s.teamOf f)).isSome && !s.waitBefore p inbox fs
  | none => false

/-- A reservation at a home on another die crosses to it as a counter update of layer 0 (R17, R305). -/
def State.rsvTold (s : State) (k f i : Nat) (inbox : Bool) : State :=
  match s.pipeAt f i with
  | some p => if !inbox && p.far (s.teamOf f) then s.tellHome k p (s.teamOf f) 0 else s
  | none => s

/-- A `p.rsv` or `p.acq` runs: it takes its slot, answers a failed TRY, or waits at its pipe. -/
def runPipeSlot (inbox : Bool) (c : XCmd) (s0 : State) : State :=
  let f := c.sender
  let v := c.val 0
  let i := v % 4096
  let k := pipeKey (s0.planOf f) i
  let s := s0.rsvTold k f i inbox
  match (s.pipeAt f i).bind fun p => if s.waitBefore p inbox [f] then none else p.serve inbox (s.teamOf f) with
  | some (off, p) => (s.modPipe k fun _ => p).answerX c [Word.ofNat off]
  | none =>
    if bit v 31 then s.answerX c [0xFFFFFFFF]
    else (s.modPipe k fun p => { p with waiting := p.waiting ++ [{ fibre := f, acquire := inbox, ops := c.ops }] }).grantWaits k

/-- Runs a pipe, range or task command (filled in below). -/
def pipeForm (fn : Nat) (srcs : List (Nat × Src)) (reply : Option (Nat × Dst)) (elected : Bool) : XForm :=
  { fn := fn, srcs := srcs, reply := reply, inst := some instPipe, elected := elected }

/-- Holds a group before issue in `p.rsv` or `p.acq`: its first fibre takes its place among the waits of the pipe. -/
def State.pipeHold (s : State) (g : Nat) (fs : List Nat) (f i : Nat) (inbox : Bool) : State :=
  let k := pipeKey (s.planOf f) i
  let s1 := s.modPipe k fun p =>
    if p.waiting.any fun w => fs.contains w.fibre && w.ops.isEmpty then p
    else { p with waiting := p.waiting ++ [{ fibre := f, acquire := inbox, ops := [] }] }
  s1.holdFibres g fs (if inbox then .acquire k else .reserve k)

/-- `p.rsv` and `p.acq` (R323). -/
def State.pipeSlot (s : State) (fn : Nat) (inbox : Bool) (a : Src) (d : Dst) : Out :=
  s.withX (pipeForm fn [(1, a)] (some (1, d)) true)
    (fun l => if bits (l.n 0) 30 12 ≠ 0 ∨ (s.ringOf l.f (l.n 0 % 4096) inbox).isNone = true then some (badX fn) else none)
    never
    (fun g fs ls =>
      match ls with
      | l :: _ => if bit (l.n 0) 31 || s.pipeOpen l.f (l.n 0 % 4096) inbox fs then none else some (s.pipeHold g fs l.f (l.n 0 % 4096) inbox)
      | [] => none)
    fun g fs s2 ls ops =>
      let c := s.electedCmd fn fs ls ops
      let s3 := s2.unwait (pipeKey (s.planOf c.sender) (c.val 0 % 4096)) fs
      (if inbox then s3.acquireOps ops else s3).sendX (g / 64) .pipe (runPipeSlot inbox) c

/-- `p.rsv` (R302, R323). -/
def execPRsv (a : Src) (d : Dst) (s : State) : Out := s.pipeSlot 0x30 false a d
/-- `p.acq` (R208, R323). -/
def execPAcq (a : Src) (d : Dst) (s : State) : Out := s.pipeSlot 0x32 true a d

/-! p.pub and p.rel (R208, R304, R324). -/

/-- The slot of a ring that is in the state a `p.pub` or `p.rel` needs. -/
def State.slotFor (s : State) (f a off : Nat) (inbox : Bool) : Option Nat :=
  (s.ringOf f (a % 4096) inbox).bind fun e =>
    (e.2.slotAt e.1.slotB off).filter fun i => (e.2.slots.getD i (0, 0)).1 == (if inbox then 2 else 1)

/-- A `p.pub` or `p.rel` runs: its update travels to the pipe's home after its release work (R208); one whose slot has left its state does nothing. -/
def runPipeUpdate (inbox : Bool) (c : XCmd) (s : State) : State :=
  let f := c.sender
  let team := s.teamOf f
  match s.slotFor f (c.val 0) (c.val 1) inbox with
  | none => s.answerX c []
  | some i =>
    let id := s.nextId
    let s1 : State := { s with nextId := id + 1 }
    s1.modPipe (pipeKey (s.planOf f) (c.val 0 % 4096)) fun p =>
      let num := match p.ring? inbox team with | some r => (r.slots.getD i (0, 0)).2 | none => 0
      let q := p.modRing inbox team fun r => r.setSlot i (3, num)
      { q with updates := q.updates ++ [{ publish := !inbox, team := team, slot := i, num := num, ops := c.ops, fibre := f,
                                          rel := some (s.relFor f (!inbox)), id := id, there := false }] }

/-- `p.pub` and `p.rel` (R324). -/
def State.pipeUpdate (s : State) (fn : Nat) (inbox : Bool) (a b : Src) : Out :=
  s.withX (pipeForm fn [(1, a), (1, b)] none true)
    (fun l => if 4096 ≤ l.n 0 ∨ (s.slotFor l.f (l.n 0) (l.n 1) inbox).isNone = true then some (badX fn) else none)
    never noWait
    fun g fs s2 ls ops => s2.sendX (g / 64) .pipe (runPipeUpdate inbox) (s.electedCmd fn fs ls ops)

/-- `p.pub` (R324). -/
def execPPub (a b : Src) (s : State) : Out := s.pipeUpdate 0x31 false a b
/-- `p.rel` (R324). -/
def execPRel (a b : Src) (s : State) : Out := s.pipeUpdate 0x33 true a b

/-! p.occ, p.bind (R303, R322, R325). -/

/-- A `p.occ` reads FREE and OCC at the home. -/
def runPOcc (c : XCmd) (s : State) : State :=
  match s.pipeAt c.sender (c.val 0) with
  | some p => s.answerX c [Word.ofNat (p.free % 2 ^ 13 * 65536 + p.occ % 2 ^ 13)]
  | none => s.answerX c [0]

/-- `p.occ` (R325). -/
def execPOcc (a : Src) (d : Dst) (s : State) : Out :=
  s.withX (pipeForm 0x34 [(1, a)] (some (1, d)) true)
    (fun l => if (s.pipeAt l.f (l.n 0)).isNone then some (badX 0x34) else none) never noWait
    fun g fs s2 ls ops => s2.sendX (g / 64) .pipe runPOcc (s.electedCmd 0x34 fs ls ops)

/-- A binding block: BCTL, RING, NSL, SEQ. -/
structure BindBlock where
  ctl : Nat
  ring : Nat
  nsl : Nat
  seq : Nat
deriving DecidableEq, Repr

def BindBlock.inbox (b : BindBlock) : Bool := bit b.ctl 31
def BindBlock.unbind (b : BindBlock) : Bool := bit b.ctl 30
def BindBlock.pipe (b : BindBlock) : Nat := bits b.ctl 11 0
def BindBlock.words (b : BindBlock) : List Nat := [b.ctl, b.ring, b.nsl, b.seq]
def BindBlock.of (ws : List Nat) : BindBlock := ⟨ws.getD 0 0, ws.getD 1 0, ws.getD 2 0, ws.getD 3 0⟩

/-- Whether every slot of a ring is FREE: one that a tile is on its way to is, until the tile lands. -/
def Ring.idle (r : Ring) : Bool := r.slots.all fun x => x.1 == 0 || x.1 == 4

/-- Whether a block breaks the operand rules of R322. -/
def State.bindBad (s : State) (f : Nat) (b : BindBlock) : Bool :=
  bits b.ctl 29 12 != 0 ||
    (match s.pipeAt f b.pipe with
     | none => true
     | some p =>
       !s.pipeRole p b.inbox f ||
         (match p.ring? b.inbox (s.fibre f).team with
          | some r => !b.unbind || !r.idle
          | none => b.unbind) ||
         (if b.unbind then b.ring != 0 || b.nsl != 0 || b.seq != 0 else decide (b.nsl = 0 ∨ 64 < b.nsl) || (!b.inbox && b.seq != 0)))

/-- The bounds and alignment of a ring and its sequence word. -/
def State.bindPlace (s : State) (f : Nat) (b : BindBlock) : Option Cond :=
  let size := s.spSize (s.fibre f).team
  let slotb := match s.pipeAt f b.pipe with | some p => p.slotB | none => 0
  if b.unbind then none
  else if size < b.ring + b.nsl * slotb ∨ (b.inbox = true ∧ size < b.seq + 4) then some { Cond.plain clsScratchBounds with kind := 1 }
  else if b.ring % 64 ≠ 0 ∨ (b.inbox = true ∧ b.seq % 4 ≠ 0) then some { Cond.plain clsMisaligned with kind := 1 }
  else none

/-- A `p.bind` runs: the ring is bound with every slot FREE and an inbox's sequence word is zeroed, or the binding ends. -/
def runPBind (c : XCmd) (s : State) : State :=
  let f := c.sender
  let team := s.teamOf f
  let b := BindBlock.of (c.vals.drop 1)
  let k := pipeKey (s.planOf f) b.pipe
  if s.bindBad f b then s.answerX c []
  else if b.unbind then
    (s.modPipe k fun p => p.dropRings fun r => r.inbox == b.inbox && r.team == team).answerX c []
  else
    let r : Ring := { inbox := b.inbox, team := team, base := b.ring, seqAt := b.seq, seq := 0, slots := List.replicate b.nsl (0, 0) }
    let s1 := s.modPipe k fun p => { p with rings := p.rings ++ [r] }
    (if b.inbox then s1.spadStore (team / 16) (s1.spBase team + b.seq) (Byte.split 4 0) else s1).answerX c []

/-- The binding block a lane names, with bits forced into BCTL. -/
def State.bindBlock (s : State) (mask : Nat) (l : Lane) : BindBlock :=
  let ws := (s.spadWords (coreOf l.f) (s.spadPlace l.f (l.n 0)) 4).map BitVec.toNat
  { BindBlock.of ws with ctl := ws.getD 0 0 ||| mask }

/-- `p.bind` (R322): its block is read at issue. -/
def State.bindAs (s : State) (mask : Nat) (a : Src) : Out :=
  s.withX (pipeForm 0x35 [(1, a)] none true) never
    (fun l =>
      match s.spadCheck l.f 16 .read (l.n 0) with
      | some c => some c
      | none => if s.bindBad l.f (s.bindBlock mask l) then some (badX 0x35) else s.bindPlace l.f (s.bindBlock mask l))
    (fun g fs => s.blockHeld 16 g (fs.take 1))
    fun g fs s2 ls ops =>
      let c := s.electedCmd 0x35 fs ls ops
      let block := match ls with | l :: _ => (s.bindBlock mask l).words | [] => []
      s2.sendX (g / 64) .pipe runPBind { c with lanes := c.lanes.map fun (e : Nat × Nat × List Nat) => (e.1, e.2.1, e.2.2 ++ block) }

def execPBind (a : Src) (s : State) : Out := s.bindAs 0 a
/-- `p.bind` with UNB set (R322). -/
def execPUnbind (a : Src) (s : State) : Out := s.bindAs (2 ^ 30) a

/-! rs.init and rs.next (R315, R316, R326). -/

/-- An `rs.init` runs. -/
def runRsInit (c : XCmd) (s : State) : State :=
  let f := c.sender
  let x := c.val 0
  let core := coreOf f
  let k := bits x 97 96
  let r : RangeSlot := { cur := bits x 31 0, hi := bits x 63 32, chunk := bits x 95 64, stage := stageKey (s.planOf f) (s.stageOf f) }
  ((s.setRange core k r).answerX c []).serveRanges core k

/-- `rs.init` (R326). -/
def execRsInit (a : Src) (s : State) : Out :=
  s.withX (pipeForm 0x40 [(4, a)] none true)
    (fun l => if 4 ≤ bits (l.n 0) 127 96 ∨ bits (l.n 0) 95 64 = 0 then some (badX 0x40) else none) never noWait
    fun g fs s2 ls ops => s2.sendX (g / 64) .pipe runRsInit (s.electedCmd 0x40 fs ls ops)

/-- An `rs.next` reaches its slot: it is served in order of arrival; on an empty slot it waits for `rangeSteal`. -/
def runRsNext (c : XCmd) (s : State) : State :=
  let f := c.sender
  let core := coreOf f
  let k := c.val 0
  (c.ops.foldl (fun t o => t.modCore core fun x => { x with rangeq := x.rangeq ++ [(k, o, f)] }) s).serveRanges core k

/-- Sends one command for every lane, in lane order. -/
def State.sendLanes (s : State) (core fn : Nat) (run : XCmd → State → State) (s2 : State) (ls : List Lane) (ops : List Nat) : State :=
  (s.laneCmds fn ls ops).foldl (fun t c => t.sendX core .pipe run c) s2

/-- `rs.next` (R316, R326). -/
def execRsNext (a : Src) (d : Dst) (s : State) : Out :=
  s.withX (pipeForm 0x41 [(1, a)] (some (2, d)) false) (fun l => if 4 ≤ l.n 0 then some (badX 0x41) else none) never noWait
    fun g _ s2 ls ops => s.sendLanes (g / 64) 0x41 runRsNext s2 ls ops

/-! Tasks and counters (R317 to R319, R327 to R329). -/

/-- The stage of a fibre. -/
def State.stageRec (s : State) (f : Nat) : Option Stage := s.stage? (s.planOf f) (s.stageOf f)
/-- Counters of a fibre's stage. -/
def State.depnOf (s : State) (f : Nat) : Nat := match s.stageRec f with | some g => g.depn | none => 0

/-- An update that carries commands to TQHOME, each fibre's release first. -/
def State.taskUpd (s : State) (c : XCmd) (kind : TaskKind) (idx value : Nat) (tasks : List QTask) : TaskUpd :=
  { ops := c.ops, kind := kind, idx := idx, value := value, tasks := tasks, rels := c.lanes.map fun l => (l.1, s.relFor l.1 true),
    fibre := c.sender, core := coreOf c.sender, team := s.teamOf c.sender, header := c.header, tile := none }

/-- The task of a lane: entry and argument, and the counter it waits on. -/
def taskOf (vals : List Nat) : QTask :=
  let a := vals.getD 0 0
  let i := vals.getD 1 0 % 4096
  { entry := a % 2 ^ 64, arg := a / 2 ^ 64, dep := if i = 0xFFF then none else some i, readyAt := none }

/-- Whether a fibre's task queue has room for n tasks. -/
def State.taskRoom (s : State) (f n : Nat) : Bool := match s.stageRec f with | some g => g.room n | none => false

/-- Sends an update to the home of a fibre's stage. -/
def State.sendTask (s : State) (f : Nat) (u : TaskUpd) : State :=
  s.modStage (s.planOf f) (s.stageOf f) fun g => { g with updates := g.updates ++ [u] }

/-- A `t.spawn` runs: its tasks take their entries, a TRY without room answers 0, another waits at the queue (R321, R327). -/
def runTSpawn (c : XCmd) (s : State) : State :=
  let f := c.sender
  let u := s.taskUpd c .spawn 0 0 (c.lanes.map fun l => taskOf l.2.2)
  if s.taskRoom f c.lanes.length then s.sendTask f u
  else if bit (c.val 1) 31 then s.answerX c [0]
  else s.modStage (s.planOf f) (s.stageOf f) fun g => { g with held := g.held ++ [u] }

/-- `t.spawn` (R327): the tasks of a group are one command, all or nothing; under a guard each lane's is its own. -/
def execTSpawn (a b : Src) (d : Dst) (s : State) : Out :=
  s.withX (pipeForm 0x42 [(4, a), (1, b)] (some (1, d)) false)
    (fun l =>
      let i := l.n 1 % 4096
      if l.n 0 % 4 ≠ 0 ∨ bits (l.n 1) 30 12 ≠ 0 ∨ (i ≠ 0xFFF ∧ s.depnOf l.f ≤ i) then some (badX 0x42) else none)
    never
    (fun g fs ls =>
      match ls with
      | l :: _ => if bit (l.n 1) 31 || s.taskRoom l.f fs.length then none else some (s.holdFibres g fs .spawn)
      | [] => none)
    fun g fs s2 ls ops =>
      let s3 := s2.modFibres fs fun x => { x with wait := none }
      if (s.guardOf (fs.headD 0)).isSome then s.sendLanes (g / 64) 0x42 runTSpawn s3 ls ops
      else s3.sendX (g / 64) .pipe runTSpawn (s.xCmd 0x42 fs ((ls.zip ops).map fun e => (e.1.f, e.2, e.1.nums)))

/-- A `t.dec` runs. -/
def runTDec (c : XCmd) (s : State) : State := s.sendTask c.sender (s.taskUpd c .dec (c.val 0) 0 [])

/-- `t.dec` (R328). -/
def execTDec (a : Src) (s : State) : Out :=
  s.withX (pipeForm 0x43 [(1, a)] none false) (fun l => if s.depnOf l.f ≤ l.n 0 then some (badX 0x43) else none) never noWait
    fun g _ s2 ls ops => s.sendLanes (g / 64) 0x43 runTDec s2 ls ops

/-- A `t.cnt` write runs. -/
def runTCntWr (c : XCmd) (s : State) : State := s.sendTask c.sender (s.taskUpd c .write (c.val 1) (c.val 0) [])

/-- `t.cnt.wr` (R328). -/
def execTCntWr (a b : Src) (s : State) : Out :=
  s.withX (pipeForm 0x46 [(1, a), (1, b)] none false) (fun l => if s.depnOf l.f ≤ l.n 1 then some (badX 0x46) else none) never noWait
    fun g _ s2 ls ops => s.sendLanes (g / 64) 0x46 runTCntWr s2 ls ops

/-- A `t.cnt` read reaches the home. -/
def runTCntRd (c : XCmd) (s : State) : State :=
  s.answerX c [match s.stageRec c.sender with | some g => Word.ofNat (g.counters.getD (c.val 0) 0) | none => 0]

/-- `t.cnt.rd` (R319, R328). -/
def execTCntRd (b : Src) (d : Dst) (s : State) : Out :=
  s.withX (pipeForm 0x46 [(1, b)] (some (1, d)) false) (fun l => if s.depnOf l.f ≤ l.n 0 then some (badX 0x46) else none) never noWait
    fun g _ s2 ls ops => s.sendLanes (g / 64) 0x46 runTCntRd (s2.acquireOps ops) ls ops

/-- Wakes the fibres of a stage that wait for room in its task queue. -/
def State.wakeSpawn (s : State) (plan stage : Nat) : State :=
  ((s.fibres.filter fun e => decide (e.2.wait = some .spawn) && (s.team e.2.team).plan == plan && (s.team e.2.team).stage == stage).map
    Prod.fst).foldl State.wake s

/-- Lets the spawns that wait at a task queue go on, oldest first, as far as there is room. -/
def Stage.takeHeld (g : Stage) : Stage :=
  g.held.foldl (fun (x : Stage) u =>
    if x.held.head? == some u && x.room u.tasks.length then { x with held := x.held.drop 1, updates := x.updates ++ [u] } else x) g

/-- A `t.pop` reaches the home: it takes the oldest READY task, or answers zeros (R329). -/
def runTPop (c : XCmd) (s : State) : State :=
  let f := c.sender
  match (s.stageRec f).bind fun g => g.oldestReady.map fun i => (g, i) with
  | none => s.answerX c (List.replicate 4 0)
  | some (g, i) =>
    let t := g.tasks.getD i { entry := 0, arg := 0, dep := none, readyAt := none }
    let s1 := (s.modStage (s.planOf f) (s.stageOf f) fun x => { x with tasks := x.tasks.eraseIdx i }.takeHeld).answerX c
      (Word.split 2 t.entry ++ Word.split 2 t.arg)
    s1.wakeSpawn (s.planOf f) (s.stageOf f)

/-- `t.pop` (R319, R329). -/
def execTPop (d : Dst) (s : State) : Out :=
  s.withX (pipeForm 0x44 [] (some (4, d)) false) never never noWait
    fun g _ s2 ls ops => s.sendLanes (g / 64) 0x44 runTPop (s2.acquireOps ops) ls ops

/-! launch (R330). -/

/-- The first poisoned line of a plan record (R179). -/
def State.recordSpoiled (s : State) (ctx a : Nat) : Option Nat :=
  match s.virtSpoiled ctx a 64 with
  | some l => some l
  | none =>
    let r : PlanRec := ⟨(s.virtWords none ctx a 1 0).1⟩
    s.virtSpoiled ctx a (if 16 < r.nstage ∨ 4096 < r.npipe then 64 else 64 + 256 * r.nstage + 32 * r.npipe)

/-- A `launch` runs: once the fibre's earlier memory instructions are performed, the loader loads or refuses the record (R205, R330). -/
def runLaunch (c : XCmd) (s : State) : State :=
  if !s.relPerformed c.rel then s.modCore (coreOf c.sender) fun y => { y with statq := y.statq ++ [c] }
  else
    let ctx := s.ctxOf c.sender
    match s.recordSpoiled ctx (c.val 0) with
    | some line => s.poisonReset ctx (s.originOf c.sender) c.header 0 line
    | none =>
      let q := s.loadPlan (some (coreOf c.sender)) ctx (c.val 0) 0
      q.2.answerX c [match q.1 with | .plan n => Word.ofNat n | _ => 0x80000000]

/-- `launch` (R330). -/
def execLaunch (a : Src) (d : Dst) (s : State) : Out :=
  s.withX (pipeForm 0x45 [(2, a)] (some (1, d)) true) never
    (fun l => if l.n 0 % 64 = 0 then none else some (Cond.offset clsMisaligned .read)) noWait
    fun g fs s2 ls ops => s2.sendX (g / 64) .pipe runLaunch { s.electedCmd 0x45 fs ls ops with rel := (fs.head?).map fun f => s.relFor f false }

/-- Runs a command of a PIPE queue whose guard is resolved (R243). -/
def runPipeCmd (c : XCmd) (s : State) : State :=
  match c.fn with
  | 0x30 => runPipeSlot false c s
  | 0x31 => runPipeUpdate false c s
  | 0x32 => runPipeSlot true c s
  | 0x33 => runPipeUpdate true c s
  | 0x34 => runPOcc c s
  | 0x35 => runPBind c s
  | 0x40 => runRsInit c s
  | 0x41 => runRsNext c s
  | 0x42 => runTSpawn c s
  | 0x43 => runTDec c s
  | 0x44 => runTPop c s
  | 0x45 => runLaunch c s
  | _ => if c.vals.length = 2 then runTCntWr c s else runTCntRd c s

end Sys2Proof.Machine
end

