-- ==== Sys2Proof/Machine/FabricInstr.lean ====
section
/-! DEFINITION. The fabric instructions: X functions 0x50 to 0x53 (R348 to R362). -/

namespace Sys2Proof.Machine

/-! Window-map entries (R348). -/

def State.win (s : State) (e : Nat) : WinEntry := NMap.get s.wins e WinEntry.empty
def State.modWin (s : State) (e : Nat) (k : WinEntry → WinEntry) : State := { s with wins := NMap.edit s.wins e k }
/-- Destinations of a transmit entry: peer device and peer receive entry. -/
def WinEntry.dests (w : WinEntry) : List (Nat × Nat) :=
  (List.range (bits (wordAt w.words 0) 24 23 + 1)).map fun i => (bits (wordAt w.words (4 + i)) 25 16, bits (wordAt w.words (4 + i)) 7 0)
def WinEntry.atom (w : WinEntry) : Bool := bit (wordAt w.words 0) 18
def WinEntry.ctxn (w : WinEntry) : Nat := bits (wordAt w.words 0) 3 0
def WinEntry.any (w : WinEntry) : Bool := bit (wordAt w.words 4) 31
def WinEntry.sender (w : WinEntry) : Nat := bits (wordAt w.words 4) 25 16
/-- Unacknowledged packets. -/
def WinEntry.open_ (w : WinEntry) : List SentPacket := w.packets.filter fun p => !p.acked

def WinState.code : WinState → Nat
  | .free => 0 | .live => 1 | .error => 2

/-! Reflections of a fibre (R361). -/

/-- The transmit windows that the steps a queued copy command has still to make write into. -/
def State.copyWins (s : State) (core : Nat) (x : CopyCmd) : List Nat :=
  (((List.range x.d.steps).drop x.step).filterMap fun i =>
    let p := s.copyDst core x.team x.d i 1
    if p.kind = 0 then s.txWindow (s.partOf (s.ctxOf (s.opFibre x.op))) p.addr else none).dedup

/-- The entries that owe a fibre a reflection: lines that record it, packets not acknowledged, replies that have not landed, and the windows its copy commands still write into. -/
def State.fxOwed (s : State) (f : Nat) : List Nat :=
  ((s.cores.flatMap fun c => (c.2.wcb.filter fun l => l.fibres.contains f).map WcLine.entry) ++
    (s.wins.filter fun e => e.2.packets.any fun p => p.fibres.contains f).map Prod.fst ++
    s.cores.flatMap fun c => (c.2.copy.queue.filter fun x => s.opFibre x.op == f).flatMap (s.copyWins c.1)).dedup

/-- Answers every fence whose reflections are all acknowledged and that met no window in ERROR. -/
def State.fxProgress (s : State) : State :=
  s.fxf.foldl (fun t x =>
    if x.failed.isEmpty && (t.fxOwed x.fibre).isEmpty then
      { (t.answerOp x.op [0]) with fxf := t.fxf.filter (· != x) }
    else t) s

/-- A packet for each destination of an entry, with its stamp in its core's stream (R354). -/
def State.packets (s : State) (core ctx e stamp : Nat) (body : PacketBody) (fibres cmds : List Nat) (op : Option Nat) (entries : Nat) : List SentPacket :=
  (List.range (s.win e).dests.length).map fun d =>
    { dest := d, seq := 0, body := body, fibres := fibres, cmds := cmds, op := op, core := core, entries := entries, sent := false,
      acked := false, stamp := stamp, at_ := s.horizon, ctx := ctx }

/-- Queues a packet that no line carries, behind what its core has stamped. -/
def State.queuePacket (s : State) (core ctx e : Nat) (body : PacketBody) (fibres : List Nat) (op : Option Nat) : State :=
  State.modWin { s with nextId := s.nextId + 1 } e fun w => { w with packets := w.packets ++ s.packets core ctx e s.nextId body fibres [] op 0 }

/-- Sends a packet of a fabric command: the core's open line of the window closes first (R359, R360). -/
def State.sendFx (s : State) (c : XCmd) (body : Nat → PacketBody) : State :=
  let f := c.sender
  let addr := c.val 0 % 2 ^ 64
  match s.txWindow (s.partOf (s.ctxOf f)) addr with
  | none => s.answerX c []
  | some e =>
    let s1 := s.closeLines (coreOf f) fun l => l.entry == e
    s1.queuePacket (coreOf f) (s.ctxOf f) e (body (addr - (s.win e).lbase)) [f] (c.ops.head?)

/-- An `fx.add` runs. -/
def runFxAdd (c : XCmd) (s : State) : State :=
  let x := c.val 0
  s.sendFx c fun off => .add off (bits x 95 64) (bits x 127 120) (bits x 119 96)

/-- An `fx.sig` runs. -/
def runFxSig (c : XCmd) (s : State) : State := s.sendFx c fun off => .sig off (bits (c.val 0) 95 64)

/-- An `fx.fence` runs: the lines that record its fibre close in every core, and it covers every entry that owes the fibre a reflection. -/
def runFxFence (c : XCmd) (s : State) : State :=
  let f := c.sender
  let covered := s.fxOwed f
  let s1 := (s.cores.map Prod.fst).foldl (fun t k => t.closeLines k fun l => l.fibres.contains f) s
  c.ops.foldl (fun t o =>
    State.fxProgress { t with fxf := t.fxf ++ [{ fibre := f, op := o, covered := covered, since := s.horizon,
                                                 failed := covered.filter fun e => decide ((s.win e).state = .error) }] }) s1

/-- The word `fx.stat` reads (R362). -/
def State.fxStat (s : State) (part e : Nat) : Nat :=
  let w := s.win e
  if w.state = .free ∨ w.part ≠ part then 0
  else
    let seq := if w.kind = 1 then w.nextSeq.getD 0 0
      else match w.lastFrom with
        | some k => ((w.expected.find? fun x => (x.1, x.2.1) == k).map fun x => x.2.2.1).getD 0
        | none => 0
    w.kind * 2 ^ 30 + w.state.code * 2 ^ 28 + w.reason % 4 * 2 ^ 26 + w.plane % 8 * 2 ^ 23 + min w.open_.length 2047 * 2 ^ 12 + seq % 2 ^ 12

/-- An `fx.stat` reads the map. -/
def runFxStat (c : XCmd) (s : State) : State :=
  s.answerX c [Word.ofNat (s.fxStat (s.partOf (s.ctxOf c.sender)) (c.val 0))]

/-- Whether the operand rules of an address in a transmit window are broken: the window, its alignment, and for `fx.add` one destination. -/
def State.fxAddrBad (s : State) (f addr : Nat) (single : Bool) : Bool :=
  match s.txWindow (s.partOf (s.ctxOf f)) addr with
  | none => true
  | some e => addr % 4 != 0 || (single && (s.win e).dests.length != 1)

/-- Whether the reply spec of `fx.add` names no place for a reply (R359). -/
def State.fxReplyBad (s : State) (f spec : Nat) : Bool :=
  let w := s.win (bits spec 31 24)
  w.kind != 2 || w.state == .free || w.part != s.partOf (s.ctxOf f) || decide (w.len < 8 * bits spec 23 0 + 8)

/-- The frame of `fx.add` and `fx.sig`: four operand words, the target translated for writing. -/
def State.fxSend (s : State) (fn : Nat) (bad : Nat → Nat → Bool) (run : XCmd → State → State) (a : Src) : Out :=
  let route (l : Lane) : Route := s.route l.f (l.n 0 % 2 ^ 64) 4 .write
  s.withX { fn := fn, srcs := [(4, a)], reply := none, inst := some instFabric, elected := false }
    (fun l => if bad l.f (l.n 0) then some (badX fn) else none) (fun l => (route l).cond true)
    (fun g fs _ => if s.allReady fs false && s.spadFree (g / 64) fs then none else some (s.hold g .memory))
    fun g _ s2 ls ops => (s.laneCmds fn ls ops).foldl (fun t c => t.sendX (g / 64) .fab run c) (ls.foldl (fun t l => t.cacheRoute l.f (route l)) s2)

/-- `fx.add` (R359). -/
def execFxAdd (a : Src) (s : State) : Out :=
  s.fxSend 0x50 (fun f x => s.fxAddrBad f (x % 2 ^ 64) true || s.fxReplyBad f (bits x 127 96)) runFxAdd a

/-- `fx.sig` (R360). -/
def execFxSig (a : Src) (s : State) : Out :=
  s.fxSend 0x51 (fun f x => s.fxAddrBad f (x % 2 ^ 64) false || bits x 95 64 == 0 || bits x 127 96 != 0) runFxSig a

/-- `fx.fence` (R361). -/
def execFxFence (d : Dst) (s : State) : Out :=
  s.withX { fn := 0x52, srcs := [], reply := some (1, d), inst := some instFabric, elected := false } never never
    (fun g fs _ => if s.allReady fs false && s.spadFree (g / 64) fs then none else some (s.hold g .memory))
    fun g _ s2 ls ops => (s.laneCmds 0x52 ls ops).foldl (fun t c => t.sendX (g / 64) .fab runFxFence c) s2

/-- `fx.stat` (R362). -/
def execFxStat (a : Src) (d : Dst) (s : State) : Out :=
  s.withX { fn := 0x53, srcs := [(1, a)], reply := some (1, d), inst := none, elected := true }
    (fun l => if l.n 0 < 256 then none else some (badX 0x53)) never noWait
    fun g fs s2 ls ops => s2.sendX (g / 64) .stat runFxStat (s.electedCmd 0x53 fs ls ops)

/-- Runs a command of a FABRIC queue whose guard is resolved (R243). -/
def runFabCmd (c : XCmd) (s : State) : State :=
  match c.fn with
  | 0x50 => runFxAdd c s
  | 0x51 => runFxSig c s
  | _ => runFxFence c s

end Sys2Proof.Machine
end

