-- ==== Sys2Proof/Machine/Placement.lean ====
section
/-! DEFINITION. Placing plans and teams: room on a core, the start of a plan, the launch of a team (R87 to R89, R119, R120, R124, R161, R255, R299, R300, R416). -/

namespace Sys2Proof.Machine

/-! Room on a core (R88, R120, R161, R255). -/

/-- What a team needs of a core: on each home lane, counted within the core, fibre slots and registers; scratchpad units and tiles. -/
structure Need where
  lanes : List (Nat × Nat × Nat)
  scr : Nat
  acc : Nat
deriving DecidableEq, Repr

/-- The room found for it: the team slot, on each home lane its fibre slots and first register, the first scratchpad unit and tile. -/
structure Room where
  slot : Nat
  lanes : List (Nat × List Nat × Nat)
  sp : Nat
  ac : Nat
deriving DecidableEq, Repr

/-- The teams of a core. -/
def State.teamsOn (s : State) (core : Nat) : List Team := (s.teams.filter fun e => e.1 / 16 == core).map Prod.snd

/-- The lowest start, a multiple of a step, of a run of n that lies below a limit and clear of the runs held (log 21). -/
def freeRun (held : List (Nat × Nat)) (limit step n : Nat) : Option Nat :=
  ((List.range (limit / step + 1)).map (step * ·)).find? fun a =>
    decide (a + n ≤ limit) && held.all fun h => decide (a + n ≤ h.1 ∨ h.1 + h.2 ≤ a)

/-- The fibre slots of a home lane that no team holds. -/
def slotsFree (ts : List Team) (hl : Nat) : List Nat := (List.range 8).filter fun k => ts.all fun t => !t.slots.contains (8 * hl + k)

/-- Room on one home lane. -/
def laneRoom (ts : List Team) (core hws : Nat) (n : Nat × Nat × Nat) : Option (Nat × List Nat × Nat) :=
  let hl := 128 * core + n.1
  let free := slotsFree ts hl
  let held := ts.flatMap fun t => (t.spans.filter fun x => x.1 == hl).map Prod.snd
  if free.length < n.2.1 then none
  else (freeRun held (512 - hws) 8 n.2.2).map fun a => (n.1, free.take n.2.1, a)

/-- The HCTL of a context. -/
def State.hctlOf (s : State) (ctx : Nat) : Word := match s.ctx? ctx with | some c => c.hctl | none => 0

/-- Tiles a core's teams may hold: tile 47 is withheld under HANDLERMX (R280). -/
def tileLimit (hctl : Word) : Nat := if bit hctl.toNat 8 then 47 else 48

/-- Room for a team on a core of a context. -/
def State.room (s : State) (core ctx : Nat) (n : Need) : Option Room :=
  let ts := s.teamsOn core
  let lanes := n.lanes.map (laneRoom ts core (handlerSize (s.hctlOf ctx)))
  match (List.range 16).find? (fun k => (NMap.find s.teams (16 * core + k)).isNone),
      freeRun (ts.map fun t => (t.area.1, t.area.2.1)) 128 1 n.scr, freeRun (ts.map fun t => t.area.2.2) (tileLimit (s.hctlOf ctx)) 1 n.acc with
  | some k, some a, some b => if lanes.any Option.isNone then none else some ⟨k, lanes.filterMap id, a, b⟩
  | _, _, _ => none

/-! A core passes to a stage (R119, R163, R237, R257, R299, R340, R353, R416). -/

/-- The number at which a context's tables name a physical core (R416). -/
def State.numberOf (s : State) (ctx core : Nat) : Option Nat :=
  ((s.mesh.remap.find? fun e => e.1 / 256 == ctx && e.2 == core).map Prod.fst).map (· % 256)

/-- A core as a context finds it that did not hold it before: cleared, with the registers that its partition's record loads. -/
def Core.fresh (ctx now : Nat) (r : List Word) : Core :=
  { Core.init with ctx := some ctx, since := now, poolcfg := (r.drop 8).take 7, netctl := r.getD 7 0, fxctl := r.getD 6 0 }

/-- A core passes to a context: what it owes its homes is sent, then registers, scratchpad, tiles and caches are cleared. The lines and packets of the context before it stay until they have gone (R352). -/
def State.passCore (s : State) (ctx core : Nat) : State :=
  if (s.core core).ctx = some ctx then s
  else
    let s1 := s.startFlush core
    let r := match NMap.find s.parts (s.partOf ctx) with | some p => p.rec_ | none => []
    let c := Core.fresh ctx s.cycle r
    { s1 with
      cores := NMap.put s1.cores core { c with wcb := (s1.core core).wcb, pool := s1.fabHeld core, waits := (s1.core core).waits },
      regs := NMap.clearRange s1.regs (65536 * core) (65536 * (core + 1)),
      spad := NMap.clearRange s1.spad (spadBytes * core) (spadBytes * (core + 1)),
      lprs := NMap.clearRange s1.lprs (128 * core) (128 * (core + 1)) }

/-- A stage takes a core: its number enters the context's core map. -/
def State.takeCore (s : State) (plan stage core : Nat) : State :=
  let ctx := plan / 16
  let s1 := (s.passCore ctx core).modCore core fun c => { c with plan := some (plan, stage), phase := .running }
  match s.numberOf ctx core with
  | some v => s1.modCtx ctx fun c => { c with vmap := NMap.put c.vmap v core }
  | none => s1

/-- A stage takes a cluster. -/
def State.takeCluster (s : State) (plan stage cl : Nat) : State :=
  (clusterCores [cl]).foldl (fun t c => t.takeCore plan stage c) (s.modStage plan stage fun g => { g with clusters := g.clusters ++ [cl] })

/-! Starting a plan (R299). -/

/-- Whether no stage and no team holds a cluster. -/
def State.clusterFree (s : State) (cl : Nat) : Bool :=
  (clusterCores [cl]).all fun c => (s.core c).plan.isNone && decide ((s.core c).phase = .running ∨ (s.core c).phase = .vacated) && (s.teamsOn c).isEmpty

/-- The free clusters of a context's partition, ascending. -/
def State.freeClustersOf (s : State) (ctx : Nat) : List Nat := (s.partClusters ctx).filter s.clusterFree

/-- Whether a stage may hold a cluster. -/
def onDies (g : List Word) (cl : Nat) : Bool := bit (recDies g) (dieOfCluster cl)

/-- One stage takes its minimum: each cluster in ascending order that still leaves a placement for the stages after it. -/
def takeMin (g : List Word) (later : List (Nat × Nat)) : List Nat → List Nat → List Nat → List Nat × List Nat
  | [], mine, left => (mine, left)
  | c :: cs, mine, left =>
    let rest := left.filter (· != c)
    if mine.length < recMin g ∧ onDies g c = true ∧ placeable later rest = true then takeMin g later cs (mine ++ [c]) rest
    else takeMin g later cs mine left

/-- Every stage takes its minimum, in ascending index: the shares and what is left; none where they do not fit. -/
def takeMins : List (List Word) → List Nat → Option (List (List Nat) × List Nat)
  | [], free => some ([], free)
  | g :: gs, free =>
    let later := gs.map fun r => (recDies r, recMin r)
    let x := takeMin g later free [] free
    if x.1.length < recMin g then none
    else (takeMins gs x.2).map fun r => (x.1 :: r.1, r.2)

/-- One round of dealing what is left, in ascending index. -/
def dealRound : List (List Word) → List (List Nat) → List Nat → List (List Nat) × List Nat
  | g :: gs, h :: hs, free =>
    match if h.length < recMax g then free.find? (onDies g) else none with
    | some c => let r := dealRound gs hs (free.filter (· != c)); ((h ++ [c]) :: r.1, r.2)
    | none => let r := dealRound gs hs free; (h :: r.1, r.2)
  | _, hs, free => (hs, free)

/-- Deals until no stage takes any. -/
def deal : Nat → List (List Word) → List (List Nat) → List Nat → List (List Nat)
  | 0, _, hs, _ => hs
  | n + 1, gs, hs, free => let r := dealRound gs hs free; deal n gs r.1 r.2

/-- The shares of a plan's stages over free clusters. -/
def shares (gs : List (List Word)) (free : List Nat) : Option (List (List Nat)) := (takeMins gs free).map fun r => deal 64 gs r.1 r.2

/-- The LOADED plan of a context that is served first. -/
def State.frontPlan (s : State) (ctx : Nat) : Option Nat :=
  ((s.plans.filter fun e => e.2.ctx == ctx && decide (e.2.state = .loaded)).foldl (fun (b : Option (Nat × Nat)) (e : Nat × Plan) =>
    match b with
    | some (_, n) => if e.2.order < n then some (e.1, e.2.order) else b
    | none => some (e.1, e.2.order)) none).map Prod.fst

/-- The windlass interval of a plan in nanoseconds (R295). -/
def Plan.balint (x : Plan) : Nat := (if wordAt x.hdr 2 = 0 then 50 else wordAt x.hdr 2) * 1000
/-- The detection time of a plan in nanoseconds (R295). -/
def Plan.detect (x : Plan) : Nat := (if wordAt x.hdr 1 = 0 then 200 else wordAt x.hdr 1) * 1000

/-- A plan becomes RUNNING on the shares given; a gang that waited for it has started (R299, R375). -/
def State.startPlan (s : State) (p : Nat) (x : Plan) (hs : List (List Nat)) : State :=
  let s1 := (indexed hs).foldl (fun t e => e.2.foldl (fun u c => u.takeCluster p e.1 c) t) s
  let s2 := s1.modPlan p fun y => { y with state := .running, nextInterval := s.horizon + x.balint }
  { s2 with gangs := s2.gangs.filter fun g => g.plan != p }

/-- PLAN_START: the first LOADED plan of its context takes its clusters, all stages at once (R299). -/
def execPlanStart (p : Nat) (s : State) : Out :=
  match s.plan? p with
  | none => .next s
  | some x =>
    if x.state ≠ .loaded ∨ s.frontPlan x.ctx ≠ some p then .next s
    else
      match shares (x.stages.map Stage.rec_) (s.freeClustersOf x.ctx) with
      | none => .next s
      | some hs => .next (s.startPlan p x hs)

/-! Launching a team (R87 to R89, R296, R300). -/

/-- What a team of a stage record needs. -/
def needOf (g : List Word) : Need :=
  let n := recFibres g
  { lanes := (List.range (min n 128)).map fun h =>
      let k := (n - h + 127) / 128
      (h, min 8 (k + recFslot g), recSpan g * k),
    scr := recScr g, acc := recAcc g }

/-- The slot and first register of fibre i in the room found. -/
def Room.place (r : Room) (core z i : Nat) : Nat × Nat :=
  match r.lanes.find? fun l => l.1 == i % 128 with
  | some l => (8 * (128 * core + i % 128) + l.2.1.getD (i / 128) 0, l.2.2 + z * (i / 128))
  | none => (0, 0)

/-- The argument words of a stage record. -/
def recArgs (g : List Word) : List Word := (List.range (wordAt g 10)).map fun i => g.getD (16 + i) 0

/-- Fibre i of a launched team: its span is zeroed and its arguments stand in v0 onward. -/
def State.launchFibre (g : List Word) (core t : Nat) (r : Room) (s : State) (i : Nat) : State :=
  let z := recSpan g
  let p := r.place core z i
  let s1 := s.setRegs (hlOf p.1) p.2 (recArgs g ++ List.replicate (z - wordAt g 10) 0)
  let x := { Fibre.blank with team := t, fibreId := i, pc := dwordAt g 0, base := p.2, win := recWin g, stamp := s.horizon, stampAt := s.cycle, since := s.cycle }
  { s1 with fibres := NMap.put s1.fibres p.1 x }

/-- Seats the fibres of the launch groups, in ascending number (R89). -/
def State.seatLaunch (s : State) (core z n : Nat) (r : Room) : State :=
  (List.range ((n + 31) / 32)).foldl (fun u k =>
    let fs := ((List.range n).filter fun i => i / 32 == k).map fun i => (r.place core z i).1
    u.seatOrWait (4 * core + k % 4) (byLane fs)) s

/-- Launches team `index` of a stage into the room found on a core. -/
def State.launchTeam (s : State) (p stage core : Nat) (g : Stage) (r : Room) : State :=
  let w := g.rec_
  let t := 16 * core + r.slot
  let n := recFibres w
  let team : Team :=
    { Team.blank with
      plan := p, stage := stage, index := g.next, prio := recPrio w,
      slots := r.lanes.flatMap (fun (l : Nat × List Nat × Nat) => l.2.1.map fun k => 8 * (128 * core + l.1) + k),
      spans := r.lanes.map (fun (l : Nat × List Nat × Nat) => (128 * core + l.1, l.2.2, recSpan w * ((n - l.1 + 127) / 128))),
      spalloc := Word.ofNat (recScr w * 256 + r.sp), acalloc := Word.ofNat (recAcc w * 256 + r.ac),
      area := (r.sp, recScr w, r.ac, recAcc w), die := dieOf core, serial := s.nextId + 1 }
  let s1 := { s with teams := NMap.put s.teams t team, nextId := s.nextId + 1 }
  let s2 := (indexed g.unif).foldl (fun u e => u.setUreg t e.1 e.2) s1
  let s3 := (List.range n).foldl (State.launchFibre w core t r) s2
  (s3.modStage p stage fun x => { x with next := x.next + 1, live := x.live ++ [t] }).seatLaunch core (recSpan w) n r

/-- The cores of a stage's share, lowest virtual number first (R300). -/
def State.shareCores (s : State) (g : Stage) : List Nat := sortBy s.vcore (clusterCores g.clusters)

/-- Launches the next team of a stage where there is room for it; none where there is none. -/
def State.launchNext (s : State) (p stage : Nat) : Option State :=
  match s.stage? p stage with
  | none => none
  | some g =>
    if g.teams ≤ g.next then none
    else
      ((s.shareCores g).filter s.coreRuns).findSome? fun c => (s.room c (p / 16) (needOf g.rec_)).map fun r => s.launchTeam p stage c g r

/-- Launches every team of a RESIDENT stage; none where one finds no room (R300). -/
def State.launchAll (p stage : Nat) : Nat → State → Option State
  | 0, s => some s
  | n + 1, s => (s.launchNext p stage).bind (State.launchAll p stage n)

/-- TEAM_LAUNCH: the next team of a running stage, or all of a RESIDENT one; a leased stage waits for its pages, and saved teams go before a first launch (R222, R300, R373). -/
def execTeamLaunch (p stage : Nat) (s : State) : Out :=
  match s.plan? p, s.stage? p stage with
  | some x, some g =>
    if x.state ≠ .running ∨ g.saved ≠ [] ∨ g.pagesReady = false then .next s
    else if recResident g.rec_ then .next ((State.launchAll p stage (g.teams - g.next) s).getD s)
    else .next ((s.launchNext p stage).getD s)
  | _, _ => .next s

end Sys2Proof.Machine
end

