-- ==== Sys2Proof/Machine/Pumps.lean ====
section
/-! DEFINITION. The events of pipes and task queues: updates at their homes, pulls, deliveries, credits, steals (R179, R208, R302 to R306, R315 to R319). -/

namespace Sys2Proof.Machine

/-! Pipes as the pumps see them. -/

/-- A cross-device pipe is in ERROR while its window is (R305, R306). -/
def State.pipeError (s : State) (p : Pipe) : Bool := p.xdev && decide ((s.win p.win).state = .error)
/-- Whether the pumps act on a pipe now: it is not drained, and its partition's cistern bandwidth is not held (R306, R367). -/
def State.pumpRuns (s : State) (k : Nat) (p : Pipe) : Bool := !p.drained && !s.heldAct (s.partOf (k / 65536)) 1
/-- Data with an uncorrectable error that the pump of a pipe has met ends the context (R179). DESIGN CHOICE (log 114): the record names the producing stage. -/
def State.pumpPoison (s : State) (k : Nat) (p : Pipe) (line : Nat) : State :=
  s.poisonReset (k / 65536) { Origin.none with stage := stageId (k / 4096) p.prod } 0 0 line

/-! Updates at the home (R302, R304, R305). -/

/-- A tile that has landed from the peer of a consuming pipe takes its publication number; one out of order is a repeat and is dropped. -/
def Pipe.landTile (p : Pipe) (num : Nat) (bs : List Byte) : Pipe :=
  if num ≠ p.pub then p
  else { p with rsv := p.rsv + 1, pub := p.pub + 1,
                tiles := p.tiles ++ [{ num := num, data := some bs, src := none, spill := false, delivered := false, counted := false, moving := false, lines := 0 }] }

/-- Advances the releases that updates owe: the updates with their work, and the numbers of those whose release is now done. -/
def State.tickUpdates (s : State) : List PipeUpd → State × List PipeUpd × List (Nat × Nat)
  | [] => (s, [], [])
  | u :: us =>
    match u.rel with
    | none => let q := State.tickUpdates s us; (q.1, u :: q.2.1, q.2.2)
    | some r =>
      let t := s.relTick (coreOf u.fibre) u.fibre r
      let q := State.tickUpdates t.1 us
      if t.2.2 then (q.1, { u with rel := none } :: q.2.1, (u.team, u.id) :: q.2.2) else (q.1, { u with rel := some t.2.1 } :: q.2.1, q.2.2)

/-- Applies one update of a pipe: a publication waits for its pull, a release is done (R304, R324). -/
def State.applyUpdate (s : State) (k : Nat) (u : PipeUpd) : State :=
  if u.publish then s.modPipe k fun p => p.applyPub u
  else (u.ops.foldl (fun t o => t.answerOp o []) (s.modPipe k fun p => p.applyRel u)).grantWaits k

/-- PIPE_COUNTER_UPDATE: updates of a pipe whose release work is done set out for its home, and the first that has come there is applied; a tile from the peer of a consuming pipe comes before them. -/
def execPipeCounterUpdate (k : Nat) (s : State) : Out :=
  match s.pipe? k with
  | none => .next s
  | some p =>
    match s.tilesIn.find? fun e => e.1 == k with
    | some e =>
      let s1 := { s with tilesIn := s.tilesIn.erase e }
      .next (if p.xdev && p.xend && !p.drained then s1.modPipe k fun q => q.landTile e.2.1 e.2.2 else s1)
    | none =>
      let r := s.tickUpdates p.updates
      let s1 := r.2.2.foldl (fun t e => t.tellHome k p e.1 e.2) (r.1.modPipe k fun q => { q with updates := r.2.1 })
      match (s1.pipe? k).bind fun q => q.updates.find? fun u => u.rel.isNone && u.there with
      | some u => .next ((s1.modPipe k fun q => { q with updates := q.updates.erase u }).applyUpdate k u)
      | none => .next s1

/-! Pulls and deliveries (R304, R305, R309). -/

/-- The next tile to pull: the oldest published one still in its outbox, while no pull is on the mesh. -/
def Pipe.nextPull (p : Pipe) : Option PipeTile := if p.tiles.any PipeTile.moving then none else p.tiles.find? fun t => t.data.isNone

/-- Whether the outbox slot of a tile holds a byte with an uncorrectable error (R179). -/
def State.outboxBad (s : State) (p : Pipe) (t : PipeTile) : Bool :=
  match t.src.bind fun x => (p.ring? false x.1).map fun r => (x.1, r.base + x.2.1 * p.slotB) with
  | some (team, off) => s.spadBad (team / 16) (s.spBase team + off) p.slotB
  | none => false

/-- Counts the lines of a tile that a pump reads or writes at a cistern (R367). -/
def State.meterTile (s : State) (k : Nat) (n : Nat) : State := s.meterLines (s.partOf (k / 65536)) (List.replicate n 0)

/-- PUMP_PULL: the pump pulls the next published slot into a pipe slot; the outbox slot is FREE again (R304). -/
def execPumpPull (k : Nat) (s : State) : Out :=
  match s.pipe? k with
  | none => .next s
  | some p =>
    match if s.pumpRuns k p && p.pullTo.isSome then p.nextPull else none with
    | none => .next s
    | some t =>
      if s.outboxBad p t then .next (s.spadLine.2.pumpPoison k p s.spadLine.1)
      else .next ((s.startPull k p t).meterTile k (tileFlits p))

/-- The core whose write-combining buffer takes what the pump of a pipe writes: the lowest of its home's die (log 113). -/
def Pipe.lineCore (p : Pipe) : Nat := (dieCores p.die).headD 0

/-- The next line of a tile enters the write-combining buffer for its slot of the peer's window, and after the last the signal of its publication; with no line free the pump holds at it (R305, R350, R352). -/
def State.sendLineOf (s : State) (k : Nat) (p : Pipe) (t : PipeTile) : State :=
  let core := p.lineCore
  let ctx := k / 65536
  let m : NMap Byte := indexed (((s.tileBytes k p t).drop (64 * t.lines)).take 64)
  let s1 := s.combine core ctx p.win (t.num % p.depth * p.slotB + 64 * t.lines) m [] []
  if !s1.wcFits core then s.closeOldest core
  else
    let over_ := decide (tileFlits p ≤ t.lines + 1)
    let s2 := (s1.modPipe k fun q => { q with tiles := q.tiles.map fun x => if x.num == t.num then { x with lines := t.lines + 1, delivered := over_ } else x }).meterTile k 1
    if over_ then s2.queuePacket core ctx p.win (.publish p.peer.2 t.num) [] none else s2

/-- The releases of a consuming end that its peer has not been told of leave for it (R305). -/
def State.tellPeer (s : State) (k : Nat) (p : Pipe) : State :=
  if p.xdev && p.xend && p.told != p.rel && !s.pipeError p then
    State.modPipe { s with fabOut := s.fabOut ++ [.release p.peer.1 p.peer.2 (p.rel % 2 ^ 32)] } k fun q => { q with told := p.rel }
  else s

/-- PUMP_DELIVER: the pump delivers the next pulled tile to the next inbox with a FREE slot, or writes its next line over its window; poisoned data in the spill slot ends the context (R179, R304, R305). -/
def execPumpDeliver (k : Nat) (s0 : State) : Out :=
  match s0.pipe? k with
  | none => .next s0
  | some p =>
    let s := s0.tellPeer k p
    match if s.pumpRuns k p then p.nextDeliver else none with
    | none => .next s
    | some t =>
      match if t.spill then s.spillPoison k p else none with
      | some line => .next (s.pumpPoison k p line)
      | none =>
        if p.xdev && !p.xend then
          if (s.win p.win).kind = 1 ∧ (s.win p.win).state = .live ∧ t.num < p.credit + p.depth then .next (s.sendLineOf k p t) else .next s
        else
          match p.inboxFor with
          | some (at_, r, i) => .next ((s.startPush k p t at_ r i).meterTile k (tileFlits p))
          | none => .next s

/-- The releases of a peer raise the credit of a producing pipe: the tiles counted are no longer kept, and the pipe returns to OPEN when R306 says so. -/
def Pipe.raiseCredit (p : Pipe) (rel : Nat) : Pipe :=
  let n := (rel + 2 ^ 32 - p.credit % 2 ^ 32) % 2 ^ 32
  if p.rsv < p.credit + n then p
  else
    let p1 := { p with credit := p.credit + n, tiles := p.tiles.filter fun t => decide (p.credit + n ≤ t.num) }
    if p1.extended && !p1.spilled && decide (p1.rsv - p1.credit ≤ p1.depth) then { p1 with extended := false } else p1

/-- CROSS_DEVICE_CREDIT: a REL signal of the consuming device lands (R305). -/
def execCrossDeviceCredit (k rel : Nat) (s : State) : Out :=
  match s.pipe? k with
  | some p => if p.xdev && !p.xend then .next ((s.modPipe k fun q => q.raiseCredit rel).grantWaits k) else .next s
  | none => .next s

/-! Steals (R316). -/

/-- The first request of a fibre whose slot is empty and that stands first at it. -/
def State.emptyRequest (s : State) (f : Nat) : Option (Nat × Nat × Nat) :=
  let c := s.core (coreOf f)
  c.rangeq.find? fun e => e.2.2 == f && decide ((c.range e.1).hi ≤ (c.range e.1).cur) && c.rangeq.find? (fun x => x.1 == e.1) == some e

/-- RANGE_STEAL: a request that finds its slot empty takes the upper half of a victim's chunks and is served from it, or is answered (0, 0) (R316). -/
def execRangeSteal (f : Nat) (s : State) : Out :=
  match s.emptyRequest f with
  | none => .next s
  | some e =>
    let core := coreOf f
    let r := (s.core core).range e.1
    match s.victim e.1 r.stage (stealOrder core) with
    | some (v, m) =>
      let x := (s.core v).range e.1
      .next (((s.setRange core e.1 { r with cur := m, hi := x.hi }).setRange v e.1 { x with hi := m }).serveRanges core e.1)
    | none => .next (((s.modCore core fun c => { c with rangeq := c.rangeq.erase e }).answerOp e.2.1 [0, 0]).serveRanges core e.1)

/-! Task queues (R318, R319). -/

/-- Advances the releases an update owes: the state, and those still owed. -/
def State.tickRels (s : State) : List (Nat × Rel) → State × List (Nat × Rel)
  | [] => (s, [])
  | (f, r) :: rs =>
    let t := s.relTick (coreOf f) f r
    let q := State.tickRels t.1 rs
    if t.2.2 then q else (q.1, (f, t.2.1) :: q.2)

/-- Advances the updates of a stage in order of arrival, up to the first that owes nothing: those that stay, and the one to apply. -/
def State.tickTasks (s : State) : List TaskUpd → State × List TaskUpd × Option TaskUpd
  | [] => (s, [], none)
  | u :: us =>
    let t := s.tickRels u.rels
    if t.2.isEmpty then (t.1, us, some u)
    else
      let q := State.tickTasks t.1 us
      (q.1, { u with rels := t.2 } :: q.2.1, q.2.2)

/-- The error record of a counter (R318, R387). -/
def State.depRecord (s : State) (cls plan stage : Nat) (u : TaskUpd) : State :=
  let o : Origin := match u.tile with
    | some _ => ⟨u.core, stageId plan stage, (s.team u.team).index, 0xFFFF⟩
    | none => { s.originOf u.fibre with stage := stageId plan stage }
  let w := match u.tile with | some t => 2 ^ 31 + t % 64 | none => 0
  s.errorRecord (plan / 16) cls o ([u.idx % 4096] ++ lowHigh u.header ++ [w])

/-- A decrement of a counter (R318). -/
def State.decCounter (s : State) (plan stage : Nat) (g : Stage) (u : TaskUpd) : State :=
  let v := g.counters.getD u.idx 0
  if v = 0 then s.depRecord 0x05 plan stage u else s.modStage plan stage fun x => x.setCounter s.nextId u.idx (v - 1)

/-- Applies one update at TQHOME, under a number of its own. -/
def State.applyTask (s0 : State) (plan stage : Nat) (g : Stage) (u : TaskUpd) : State :=
  let s := { s0 with nextId := s0.nextId + 1 }
  match u.kind with
  | .spawn => u.ops.foldl (fun t o => t.answerOp o [1]) (s.modStage plan stage fun x => u.tasks.foldl (Stage.enqueue s.nextId) x)
  | .dec => u.ops.foldl (fun t o => t.answerOp o []) (s.decCounter plan stage g u)
  | .write => u.ops.foldl (fun t o => t.answerOp o []) (s.modStage plan stage fun x => x.setCounter s.nextId u.idx u.value)
  | .fire => if g.depn ≤ u.idx then s.depRecord 0x06 plan stage u else s.decCounter plan stage g u

/-- TASK_UPDATE: the first update of a stage that owes no release is applied at TQHOME (R317, R318). -/
def execTaskUpdate (key : Nat) (s : State) : Out :=
  match s.stage? (key / 16) (key % 16) with
  | none => .next s
  | some g =>
    let r := s.tickTasks g.updates
    let s1 := r.1.modStage (key / 16) (key % 16) fun x => { x with updates := r.2.1 }
    match r.2.2 with
    | some u => .next (s1.applyTask (key / 16) (key % 16) g u)
    | none => .next s1

end Sys2Proof.Machine
end

