-- ==== Sys2Proof/Machine/MatrixInstr.lean ====
section
/-! DEFINITION. The matrix instructions: X functions 0x10 to 0x1B (R255 to R264, R273, R276 to R294). -/

namespace Sys2Proof.Machine

/-! Queues and tiles (R256, R276, R280). -/

/-- Whether a fibre is in handler mode. -/
def State.handling (s : State) (f : Nat) : Bool := decide ((s.fibre f).mode = .handler)

/-- The matrix queue a fibre's commands enter. -/
def State.mxQueueOf (s : State) (f : Nat) : Nat := if s.handling f then handlerQueue (coreOf f) else (s.fibre f).team

/-- HANDLERMX of a fibre's context (R223). -/
def State.handlerMx (s : State) (f : Nat) : Bool := match s.ctx? (s.ctxOf f) with | some c => bit c.hctl.toNat 8 | none => false

/-- A handler's matrix command without HANDLERMX: a trap in handler mode, which resets the context (R280). -/
def State.mxShut (s : State) (fn : Nat) (l : Lane) : Option Cond := if s.handling l.f && !s.handlerMx l.f then some (badX fn) else none

/-- Whether a post has a unit at work, or to come after one: until its last unit retires, or, once it is discarded or has halted its queue, until those granted have (R271, R277). -/
def State.postBusy (s : State) (k : Nat) (p : Post) : Bool :=
  decide (p.retired < p.granted) || (decide (0 < p.granted) && !p.discarded && !(s.mxGet p.queue).halts.any fun h => h.2 == some k)

/-- Whether a unit, fold, drain or transfer acts on a physical tile (R276). -/
def State.tileBusy (s : State) (core t : Nat) : Bool :=
  (s.tables.any fun e => e.2.core == core && e.2.cmd.fn != 0x14 && e.2.tile == t && s.postBusy e.1 e.2) ||
    (match (s.core core).arr.shadow with | some x => x.tile == t | none => false) ||
    (coreQueues core).any fun q =>
      match (s.mxGet q).cmds with
      | c :: _ => c.waiting && s.tileAt q c.tileNo == some t
      | [] => false

/-- STATE of a tile: 0 VALID, 1 BUSY, 2 INVALID, 3 OVF (R276, R293). -/
def State.tileState (s : State) (core t : Nat) : Nat :=
  if s.tileBusy core t then 1 else if (s.tile core t).inv then 2 else if (s.tile core t).ovf then 3 else 0

/-- TILE_INVALID of R278 for a tile number in a fibre's queue. -/
def State.tileInvalid (s : State) (f n : Nat) : Option Cond :=
  match s.tileAt (s.mxQueueOf f) n with
  | some t => if s.tileState (coreOf f) t = 2 then some (Cond.plain clsTileInvalid) else none
  | none => none

/-! Commands of the queue (R261, R281, R284). -/

/-- The 32-byte block a lane names (R284). -/
def State.mxBlock (s : State) (l : Lane) : List Word := s.spadWords (coreOf l.f) (s.spadPlace l.f (l.n 0)) 8

/-- A matrix command of the elected lane. -/
def State.mxCmd (s : State) (fn : Nat) (l : Lane) (block : List Word) (ctl arg : Nat) (ops : List Nat) : MxCmd :=
  { fn := fn, block := block, ctl := ctl, arg := arg, ops := ops, fibre := l.f, guard := s.guardOf l.f, header := (s.fibre l.f).pc,
    waiting := false, asked := none, rel := some (s.relFor l.f false) }

/-- The form of a matrix command. -/
def mxForm (fn : Nat) (srcs : List (Nat × Src)) (d : Option Dst) : XForm :=
  { fn := fn, srcs := srcs, reply := d.map fun x => (1, x), inst := some instMxpost, elected := true }

/-- Puts a command at the tail of its fibre's queue. -/
def State.mxPost (s : State) (f : Nat) (c : MxCmd) : State := s.mxMod (s.mxQueueOf f) fun m => { m with cmds := m.cmds ++ [c] }


/-- A command that names a block: `own` is its condition of R278 on the block. -/
def State.mxBlockCmd (s : State) (fn : Nat) (a : Src) (d : Option Dst) (own : Nat → List Word → Option Cond) (front : Nat → List Word → State → State) : Out :=
  s.withX (mxForm fn [(1, a)] d) (s.mxShut fn)
    (fun l => match s.spadCheck l.f 32 .read (l.n 0) with
      | some c => some c
      | none => own l.f (s.mxBlock l))
    (fun g fs => s.blockHeld 32 g (fs.take 1))
    fun _ _ s2 ls ops =>
      match ls with
      | l :: _ => front l.f (s.mxBlock l) (s2.mxPost l.f (s.mxCmd fn l (s.mxBlock l) 0 0 ops))
      | [] => s2

/-- Nothing of a command's own. -/
def noOwn (_ : Nat) (_ : List Word) : Option Cond := none
def noFront (_ : Nat) (_ : List Word) (s : State) : State := s

/-! Modes (R258, R259). -/

/-- B registers per lane of a dense pass (R258). -/
def denseRegs (mode : Nat) : Nat := if mode = 4 then 16 else if mode = 5 then 4 else 8
/-- B registers per lane (R258, R259). -/
def bRegs (mode spn : Nat) : Nat := denseRegs mode * (match spn with | 0 => 1 | 2 => 2 | _ => 4)

/-- The front end keeps the register count of an issued configuration (R285). -/
def mxFront (f : Nat) (b : List Word) (s : State) : State :=
  let c := wordAt b 0
  if bits c 31 28 < 6 then s.mxMod (s.mxQueueOf f) fun m => { m with regs := bRegs (bits c 31 28) (bits c 27 26) } else s

/-- `mx.cfg` (R285). -/
def execMxCfg (a : Src) (s : State) : Out := s.mxBlockCmd 0x10 a none noOwn mxFront

/-- TILE_INVALID of a post without CLR (R278). -/
def State.postInvalid (s : State) (f : Nat) (b : List Word) : Option Cond :=
  if bit (wordAt b 0) 31 then none else s.tileInvalid f (bits (wordAt b 0) 29 24)

/-- `mx.pass` (R286). -/
def execMxPass (a : Src) (d : Dst) (s : State) : Out := s.mxBlockCmd 0x11 a (some d) s.postInvalid noFront
/-- `mx.pair` (R267, R286). -/
def execMxPair (a : Src) (d : Dst) (s : State) : Out := s.mxBlockCmd 0x12 a (some d) s.postInvalid noFront
/-- `mx.lut` (R288). -/
def execMxLut (a : Src) (s : State) : Out := s.mxBlockCmd 0x14 a none noOwn noFront

/-- TILE_INVALID of a drain or transfer (R278). -/
def State.drainInvalid (s : State) (f : Nat) (b : List Word) : Option Cond := s.tileInvalid f (bits (wordAt b 0) 31 26)

/-- `mx.drain` (R290). -/
def execMxDrain (a : Src) (s : State) : Out := s.mxBlockCmd 0x16 a none s.drainInvalid noFront
/-- `ac.ld` (R292). -/
def execAcLd (a : Src) (s : State) : Out := s.mxBlockCmd 0x18 a none noOwn noFront
/-- `ac.st` (R292). -/
def execAcSt (a : Src) (s : State) : Out := s.mxBlockCmd 0x19 a none s.drainInvalid noFront

/-- A command whose tile is in a register: other bits zero (R289, R291, R294). -/
def State.mxTileCmd (s : State) (fn : Nat) (srcs : List (Nat × Src)) (own : Lane → Option Cond) : Out :=
  s.withX (mxForm fn srcs none)
    (fun l => match s.mxShut fn l with
      | some c => some c
      | none => if l.n 0 < 64 then none else some (badX fn))
    own noWait
    fun _ _ s2 ls ops =>
      match ls with
      | l :: _ => s2.mxPost l.f (s.mxCmd fn l [] (l.n 0) (l.n 1) ops)
      | [] => s2

/-- `mx.clr` (R291). -/
def execMxClr (a : Src) (s : State) : Out := s.mxTileCmd 0x17 [(1, a)] never
/-- `mx.dep` (R294). -/
def execMxDep (a b : Src) (s : State) : Out := s.mxTileCmd 0x1B [(1, a), (1, b)] never

/-! mx.fold (R273, R289). -/

/-- The cores of the cluster of a core. -/
def clusterMates (core : Nat) : List Nat := clusterCores [clusterOf core]

/-- The unit that acts on an array: the first whose array cycles are not over. -/
def ArrayUnit.running (a : ArrayUnit) : Option PassUnit := a.units.find? fun u => !u.isLut && decide (u.cyc < u.last)
/-- Changes the running unit. -/
def ArrayUnit.modRunning (a : ArrayUnit) (k : PassUnit → PassUnit) : ArrayUnit :=
  match a.units.findIdx? fun u => !u.isLut && decide (u.cyc < u.last) with
  | some i => { a with units := a.units.modify i k }
  | none => a

def State.arr (s : State) (core : Nat) : ArrayUnit := (s.core core).arr
def State.modArr (s : State) (core : Nat) (k : ArrayUnit → ArrayUnit) : State := s.modCore core fun c => { c with arr := k c.arr }

/-- Moves the cells of an array to the fold shadow and zeroes them; the fold path writes for 16 cycles (R270). -/
def State.moveCells (s : State) (core : Nat) (float : Bool) (ea eb : List Int) (ops : List Nat) : State :=
  let a := s.arr core
  match a.resident with
  | none => s
  | some (t, scale, _) =>
    let sums := (List.range 4096).map fun k => (k, NMap.get a.cells k 0 + 2 ^ 32 * NMap.get a.sump k 0, a.bad.contains k)
    s.modArr core fun x =>
      { x with cells := [], bad := [], sump := [], resident := none,
               shadow := some { tile := t, float := float, sums := sums, scale := scale, ea := ea, eb := eb, ready := s.cycle + 16, ops := ops } }

/-! mx.bq (R263, R264, R282, R287). -/

/-- The words of the lanes of an offer, an inactive lane supplying zeros (R264). -/
def offerLanes (n : Nat) (ls : List Lane) : List (List Word) :=
  (List.range 32).map fun i => match ls.find? fun l => laneOf l.f == i with | some l => l.vals.getD 0 [] | none => List.replicate n 0

/-- The exponent words of an offer's columns; an inactive lane supplies that of the lowest active lane of 0 to 15, or none (R264): 2^16 stands for no word. -/
def offerExps (xs : List (Nat × Nat)) : List Nat :=
  let low := (xs.find? fun e => decide (laneOf e.1 < 16)).map fun e => e.2 % 2 ^ 12
  (List.range 16).map fun i =>
    match xs.find? fun e => laneOf e.1 == i with
    | some e => e.2 % 2 ^ 16
    | none => 2 ^ 16 + low.getD 0

/-- The next quarter of an offer: the QC position, or for a handler the order of its offers (R263). -/
def State.offerQuarter (s : State) (f : Nat) : Nat :=
  if s.handling f then (s.mxGet (handlerQueue (coreOf f))).turn else qcOf f % 4

/-- The position of the first claim that still takes offers at a quarter. -/
def MxQueue.claimAt (m : MxQueue) (p : Nat) : Option Nat := m.claims.findIdx? fun c => decide (0 < c.2.getD p 0)

/-- Takes one offer of a quarter from a claim; a claim that takes no more is gone. -/
def MxQueue.takeClaim (m : MxQueue) (i p : Nat) : MxQueue :=
  { m with claims := (m.claims.modify i fun c => (c.1, c.2.modify p (· - 1))).filter fun c => c.2.any fun n => decide (0 < n) }

/-- Releases unread one offer that a post discarded as ill-formed takes, if there is one (R263). -/
def State.releaseOffer (s : State) (q p : Nat) : State :=
  let m := s.mxGet q
  match m.claimAt p, m.offers.find? fun o => o.qc == p with
  | some i, some o =>
    if (m.claims.getD i (none, [])).1.isNone && o.guard.isNone then
      o.ops.foldl (fun t x => t.answerOp x []) (s.mxSet q { (m.takeClaim i p) with offers := m.offers.filter (· != o) })
    else s
  | _, _ => s

/-- Releases every offer that discarded posts take. -/
def State.releaseOffers (s : State) (q : Nat) : State :=
  (s.mxGet q).offers.foldl (fun t _ => [0, 1, 2, 3].foldl (fun u p => u.releaseOffer q p) t) s

/-- `mx.bq` (R287): one offer of every active lane's registers, pending until the array has read them; lanes 16 to 31 do not read the exponent register (R264). -/
def execMxBq (b a : Src) (s : State) : Out :=
  s.onGroup fun g fs =>
    let q := s.mxQueueOf (fs.headD 0)
    let n := (s.mxGet q).regs
    let low (f : Nat) : Bool := decide (laneOf f < 16)
    let shape : Bool := match b with | .v k => decide (k % 4 = 0 ∧ k + n ≤ 120) | _ => false
    let refuse (l : Lane) : Option Cond :=
      if !shape || !(a.inWin 1 (s.fibre l.f).win) then some (badX 0x13) else s.mxShut 0x13 l
    if !shape then .next (s.raise g fs (fs.map fun f => (f, badX 0x13)))
    else
      s.withChecked g fs { info := xInfo 0x13, srcs := [(n, b)], dsts := [] } refuse
        (fun f => if low f then a.phys 1 (s.fibre f).base else []) never fun s1 ls =>
        match s1.readSrc (fs.filter low) 1 a with
        | .error (i, w) => .next (s.hold g (.pop i w))
        | .ok (s1, es) =>
          s.withEntries s1 g fs [] fun s2 =>
            let ops := fs.map fun f => { Op.blank f with flag := s.flagOf fs, left := 1, marks := b.phys n (s.fibre f).base,
                                                         tag := if fs.head? == some f then (s.guardOf f).map fun t => (t.slot, t.gen) else none }
            let st := s2.startOps ops
            let o : Offer := { qc := s.offerQuarter (fs.headD 0), count := n, fibre := fs.headD 0,
                               exps := offerExps ((fs.filter low).zip (es.map Word.join)), lanes := offerLanes n ls, ops := st.1,
                               guard := s.guardOf (fs.headD 0) }
            let s3 := st.2.mxMod q fun m => { m with offers := m.offers ++ [o], turn := if handlerBase ≤ q then (m.turn + 1) % 4 else m.turn }
            .next ((s3.releaseOffers q).done g)

/-! mx.stat (R293). -/

/-- Commands in a queue, those that halt it from the reservation table included. -/
def MxQueue.depth (m : MxQueue) : Nat := m.cmds.length + (m.halts.filter fun h => h.2.isSome).length

/-- The reply of `mx.stat`. -/
def State.mxStatus (s : State) (q core ctl : Nat) : Nat :=
  let m := s.mxGet q
  let base := b2n (!m.halts.isEmpty) * 2 ^ 31 + (match m.halts with | h :: _ => h.1 % 64 * 2 ^ 25 | [] => 0) + min m.depth 255 * 4096 + m.done % 4096
  if !bit ctl 1 then base
  else
    match s.tileAt q (bits ctl 13 8) with
    | none => base
    | some t =>
      let x := s.tile core t
      base + s.tileState core t * 2 ^ 23 + b2n (x.kind == some true) * 2 ^ 22 +
        b2n ((s.arr core).poison.any fun k => k / 4096 == t) * 2 ^ 21 + b2n x.sigma.isSome * 2 ^ 20

/-- RESUME (R277): the halting command is discarded, its post's remaining offers are released unread, its tile's binding fires if it waits for the command. -/
def State.mxResume (s : State) (q : Nat) : State :=
  let m := s.mxGet q
  match m.halts with
  | [] => s
  | (_, none) :: hs =>
    match m.cmds with
    | [] => s.mxSet q { m with halts := hs }
    | c :: cs =>
      let ks := bits m.mctl.toNat 23 20 + 1
      let extra : List (Option Nat × List Nat) := if c.fn = 0x11 ∨ c.fn = 0x12 then [(none, List.replicate 4 ks)] else []
      ((((s.fireDiscard q c).mxSet q { m with halts := hs, cmds := cs, claims := m.claims ++ extra }).discardOps c.ops)).releaseOffers q
  | (_, some k) :: hs =>
    match NMap.find s.tables k with
    | none => s.mxSet q { m with halts := hs }
    | some p =>
      let s1 := (s.fireDiscard q p.cmd).mxSet q
        { m with halts := hs, claims := m.claims.map fun c => if c.1 = some k then (none, c.2) else c }
      ((s1.detachPost k).discardOps p.cmd.ops).releaseOffers q

/-- An `mx.stat` reaches the engine. -/
def runMxStat (c : XCmd) (s : State) : State :=
  let f := c.sender
  let q := if c.handler then handlerQueue (coreOf f) else (s.fibre f).team
  let s1 := s.answerX c [Word.ofNat (s.mxStatus q (coreOf f) (c.val 0))]
  if bit (c.val 0) 0 then s1.mxResume q else s1

/-- `mx.stat` (R293), `mask` being set into the control value. -/
def State.mxStatAs (s : State) (mask : Nat) (a : Src) (d : Dst) : Out :=
  s.withX { (mxForm 0x1A [(1, a)] (some d)) with inst := none }
    (fun l =>
      let v := l.n 0
      match s.mxShut 0x1A l with
      | some c => some c
      | none =>
        if v - v % 4 - bits v 13 8 * 256 ≠ 0 || (bit v 1 && (s.tileAt (s.mxQueueOf l.f) (bits v 13 8)).isNone) then some (badX 0x1A) else none)
    never noWait
    fun g fs s2 ls ops =>
      let c := s.electedCmd 0x1A fs ls ops
      s2.sendX (g / 64) .stat runMxStat
        { c with lanes := c.lanes.map fun (e : Nat × Nat × List Nat) => (e.1, e.2.1, e.2.2.map (· ||| mask)) }

def execMxStat (a : Src) (d : Dst) (s : State) : Out := s.mxStatAs 0 a d
/-- `mx.stat` with RESUME set (R293). -/
def execMxStatResume (a : Src) (d : Dst) (s : State) : Out := s.mxStatAs 1 a d

end Sys2Proof.Machine
end

