-- ==== Sys2Proof/Machine/MatrixUnit.lean ====
section
/-! DEFINITION. A pass unit: its shape by mode, the reading and checking of A records, masks and offers, the sums of one array cycle, carries into the sump, and the fold into tile entries (R78 to R85, R258 to R260, R264, R268 to R272). -/

namespace Sys2Proof.Machine

/-! Configurations (R258, R259, R285). -/

def cfgMode (c : Nat) : Nat := bits c 31 28
def cfgSpn (c : Nat) : Nat := bits c 27 26
def cfgTrap (c : Nat) : Bool := bit c 25
def cfgDepat (c : Nat) : Bool := bit c 24
def cfgKs (c : Nat) : Nat := bits c 23 20 + 1
/-- Pass K (R258). -/
def passK (mode : Nat) : Nat := if mode ≤ 1 then 32 else if mode ≤ 3 then 64 else if mode = 4 then 128 else 256
/-- A record Z (R258). -/
def recZ (mode : Nat) : Nat := if mode = 4 then 144 else 80
/-- Ones of a mask (R259), 0 for dense. -/
def spnN (spn : Nat) : Nat := 16 * spn
/-- A records per row per unit (R259). -/
def unitQ (spn : Nat) : Nat := if spn = 3 then 3 else 1
/-- Logical depth of a unit (R259). -/
def unitD (mode spn : Nat) : Nat := passK mode * (match spn with | 0 => 1 | 2 => 2 | _ => 4)
/-- Array cycles of a unit (R259). -/
def unitCycles (spn : Nat) : Nat := 16 * unitQ spn
/-- Whether a mode has float tiles. -/
def floatMode (mode : Nat) : Bool := decide (mode < 2)

/-! Slices (R78, R264, R269). -/

/-- A slice read: its exponent, its values, whether it poisons, and whether it is ill-formed. -/
structure Slice where
  exp : Int
  vals : List Int
  bad : Bool
  ill : Bool
deriving DecidableEq, Repr

/-- Checks a slice of a mode: `b` for the B side (R269). -/
def Slice.check (mode : Nat) (b : Bool) (word : Nat) (vals : List Int) : Slice :=
  let int := !floatMode mode
  { exp := sext word 12, vals := vals,
    bad := bit word 15 || (mode == 4 && vals.any fun v => v == 32),
    ill := bits word 13 12 != 0 || (int && bit word 14) || (int && mode != 4 && bit word 15) ||
      (mode == 3 && b && vals.any fun v => decide (v < -8 ∨ 7 < v)) || (mode == 4 && vals.any fun v => decide (64 ≤ v)) }

/-- The values of slot bytes in a mode. -/
def slotVals (mode : Nat) : List Byte → List Int
  | [] => []
  | x :: r =>
    if floatMode mode then
      match r with
      | y :: t => sext (x.toNat + 256 * y.toNat) 16 :: slotVals mode t
      | [] => []
    else (if mode = 4 then (x.toNat : Int) else sext x.toNat 8) :: slotVals mode r

/-- Reads a slice record of the scratchpad. -/
def State.readRecord (s : State) (core mode at_ : Nat) : Slice :=
  Slice.check mode false (s.spadNum core at_ 2) (slotVals mode (s.spadRead core (at_ + 16) (recZ mode - 16)))

/-- The values one lane of an offer supplies (R264). -/
def offerVals (mode : Nat) (ws : List Word) : List Int :=
  if mode = 5 then (List.range 128).map fun m => (b2n (bit (wordAt ws (m / 32)) (m % 32)) : Nat)
  else slotVals mode (bytesOf ws)

/-- The exponent word of a column (R264). -/
def Offer.expWord (o : Offer) (mode c : Nat) : Nat :=
  let x := o.exps.getD c 0
  if x < 2 ^ 16 then x else if floatMode mode then 0x4000 else x - 2 ^ 16

/-- A column of B from the four offers. -/
def columnOf (mode : Nat) (os : List Offer) (j : Nat) : Slice :=
  match os[j / 16]? with
  | none => { exp := 0, vals := [], bad := false, ill := true }
  | some o =>
    let c := j % 16
    let vals := offerVals mode (o.lanes.getD c []) ++ offerVals mode (o.lanes.getD (16 + c) [])
    if mode = 5 then { (Slice.check 2 true (o.expWord mode c) []) with vals := vals }
    else Slice.check mode true (o.expWord mode c) vals

/-- The logical positions a row's masks keep (R259), and whether some mask has another population. -/
def keptOf (n : Nat) (masks : List Nat) : List Nat × Bool :=
  ((indexed masks).flatMap fun e => (setBits e.2 64).map (64 * e.1 + ·), masks.any fun m => popCount 64 m != n)

/-- What a unit has read, or the reason it is ill-formed (R277). -/
structure Operands where
  rows : List (List Int)
  cols : List (List Int)
  kept : List (List Nat)
  rowBad : List Bool
  colBad : List Bool
  ea : List Int
  eb : List Int
  scale : Int
  reason : Nat
deriving DecidableEq, Repr

/-- Whether every element of a list equals its first. -/
def allSame (xs : List Int) : Bool := xs.all fun x => some x == xs.head?

/-- Reads the operands of unit `i` of a post (R268): A and masks in the leader team's scratchpad, B from the offers; in mode 5 the tables stand for A. -/
def State.readUnit (s : State) (core team : Nat) (block : List Word) (cfg i : Nat) (os : List Offer) (lut : Option (Int × List (List Int))) : Operands :=
  let mode := cfgMode cfg
  let spn := cfgSpn cfg
  let q := unitQ spn
  let base := s.spBase team
  let recs (l : Nat) : List Slice := (List.range q).map fun r =>
    s.readRecord core mode (base + wordAt block 1 + (l * wordAt block 2 + i * q + r) * recZ mode)
  let rows := (List.range 64).map fun l => if mode = 5 then [] else recs l
  let blocks := unitD mode spn / 64
  let masks (l : Nat) : List Nat := (List.range blocks).map fun u =>
    s.spadNum core (base + wordAt block 3 + ((l * cfgKs cfg + i) * blocks + u) * 8) 8
  let kept := (List.range 64).map fun l => if spn = 0 then ([], false) else keptOf (spnN spn) (masks l)
  let cols := (List.range 64).map (columnOf mode os)
  let ea := match lut with
    | some (e, _) => [e]
    | none => rows.flatMap fun r => r.map Slice.exp
  let eb := cols.map Slice.exp
  let wrong := os.length != 4 || os.any fun o => o.count != bRegs mode spn
  { rows := match lut with
      | some (_, t) => t
      | none => rows.map fun r => r.flatMap Slice.vals,
    cols := cols.map Slice.vals, kept := kept.map Prod.fst,
    rowBad := rows.map fun r => r.any Slice.bad, colBad := cols.map Slice.bad,
    ea := if lut.isSome then List.replicate 64 (ea.headD 0) else rows.map fun r => (r.head?.map Slice.exp).getD 0,
    eb := eb, scale := ea.headD 0 + eb.headD 0 - (if mode = 4 then 16 else 0),
    reason := if wrong then 3
      else if (rows.any fun r => r.any Slice.ill) || cols.any Slice.ill then 4
      else if kept.any Prod.snd then 6
      else if !floatMode mode && !(allSame ea && allSame eb) then 7
      else 0 }

/-- Whether the scratchpad of a core holds poisoned bytes in a row's records, or in its masks (R179, R268). -/
def State.recordsSpoiled (s : State) (core base : Nat) (block : List Word) (first n : Nat) (mode : Nat) : Bool :=
  (List.range 64).any fun l => s.spadBad core (base + wordAt block 1 + (l * wordAt block 2 + first) * recZ mode) (n * recZ mode)
def State.unitSpoiled (s : State) (core team : Nat) (block : List Word) (cfg i : Nat) : Bool :=
  let mode := cfgMode cfg
  let spn := cfgSpn cfg
  let q := unitQ spn
  let m := unitD mode spn / 64 * 8
  mode != 5 && (s.recordsSpoiled core (s.spBase team) block (i * q) q mode ||
    (spn != 0 && (List.range 64).any fun l => s.spadBad core (s.spBase team + wordAt block 3 + (l * cfgKs cfg + i) * m) m))

/-- The tables of `mx.lut` (R260, R288), and the reason it is ill-formed: per row the entries of g and w at 16·g + w. -/
def State.readLut (s : State) (core team : Nat) (block : List Word) : (Int × List (List Int)) × Nat :=
  let base := s.spBase team
  let recs (l : Nat) : List Slice := (List.range 4).map fun q => s.readRecord core 2 (base + wordAt block 1 + (l * wordAt block 2 + q) * 80)
  let rows := (List.range 64).map recs
  let table (r : List Slice) : List Int :=
    let a := r.flatMap Slice.vals
    (List.range 1024).map fun e =>
      ((List.range 4).map fun t => let v := a.getD (4 * (e / 16) + t) 0; if bit (e % 16) t then v else -v).sum
  let exps := rows.flatMap fun r => r.map Slice.exp
  ((exps.headD 0, rows.map table),
   if rows.any fun r => r.any Slice.ill then 4 else if allSame exps then 0 else 7)

/-! Array cycles (R81, R269, R272). -/

/-- P of R74 for two codes; a NaR adds nothing, its cells being poisoned. -/
def lnsTerm (a b : Nat) : Int := if lnsIsNaR a || lnsIsNaR b then 0 else lnsProduct a b

/-- The products of array cycle c of a unit at cell (i, j). -/
def PassUnit.cellSum (u : PassUnit) (c : Nat) (row col : List Int) (kept : List Nat) : Int :=
  if u.mode = 5 then
    ((List.range 4).map fun e =>
      let g := 4 * c + e
      let w := ((List.range 4).map fun t => (col.getD (4 * g + t) 0).toNat * 2 ^ t).sum
      row.getD (16 * g + w) 0 * (2 ^ u.plane : Nat)).sum
  else
    ((List.range u.rate).map fun e =>
      let p := c * u.rate + e
      let k := if kept.isEmpty then p else kept.getD p 0
      let a := row.getD p 0
      let b := col.getD k 0
      if u.mode = 4 then lnsTerm a.toNat b.toNat else a * b).sum

/-- The sums of one array cycle, by cell. -/
def PassUnit.cycleSums (u : PassUnit) : List Int :=
  (List.range 64).flatMap fun i => u.cols.map fun col => u.cellSum u.cyc (u.rows.getD i []) col (u.kept.getD i [])

/-- Sump entries of an array (R272). -/
def sumpSize : Nat := 1024

/-- A carry of a cell into a sump of some size: none when the sump is full for it (R81, R272). -/
def sumpAdd (size : Nat) (m : NMap Int) (k : Nat) (c : Int) : Option (NMap Int) :=
  match NMap.find m k with
  | some n => if n + c < -32768 ∨ 32767 < n + c then none else some (NMap.put m k (n + c))
  | none => if size ≤ m.length then none else some (NMap.put m k c)

/-- Adds a cycle's sums to the cells, in ascending cell order: the new cells and sump, or none when the sump is full. -/
def addSums (size : Nat) : List (Nat × Int × Int) → NMap Int → List (Nat × Int) → Option (List (Nat × Int) × NMap Int)
  | [], m, acc => some (acc.reverse, m)
  | (k, cell, x) :: r, m, acc =>
    let t := cell + x
    let v := wrapS t 32
    let c := (t - v) / 2 ^ 32
    let acc1 := if v = 0 then acc else (k, v) :: acc
    if c = 0 then addSums size r m acc1
    else
      match sumpAdd size m k c with
      | none => none
      | some m1 => addSums size r m1 acc1

/-- Applies one array cycle of a unit to an array, or none when a sump of this size is full. -/
def ArrayUnit.apply (a : ArrayUnit) (size : Nat) (u : PassUnit) : Option ArrayUnit :=
  if u.void then some (a.modRunning fun v => { v with cyc := v.cyc + 1 })
  else
    match addSums size ((indexed u.cycleSums).map fun e => (e.1, NMap.get a.cells e.1 0, e.2)) a.sump [] with
    | none => none
    | some (cells, sump) =>
      let bad := (List.range 4096).filter fun k => a.bad.contains k || u.rowBad.getD (k / 64) false || u.colBad.getD (k % 64) false
      some ({ a with cells := cells, sump := sump, bad := bad, resident := some (u.tile, u.scale, u.owner) }.modRunning fun v => { v with cyc := v.cyc + 1 })

/-! The fold (R82 to R84). -/

/-- Whether an entry is held as NaN by its poison. -/
def foldEntry (float : Bool) (old : Nat) (v x : Int) (bad : Bool) : Nat × Bool :=
  if float then (if bad then fp64.nan else foldFloat old v x, false)
  else
    let n := sext old 64 + v
    let m := satI n (-(2 ^ 63 : Nat)) ((2 ^ 63 : Nat) - 1)
    (narrow m 64, n != m)

/-- The entries of a tile, with its poison. -/
def ArrayUnit.tileEntries (a : ArrayUnit) (t : Nat) : List (Nat × Nat × Bool) :=
  (List.range 4096).map fun k => (k, (NMap.get a.entries (4096 * t + k) 0).toNat, a.poison.contains (4096 * t + k))

/-- Puts the entries of a tile back. -/
def ArrayUnit.setEntries (a : ArrayUnit) (t : Nat) (es : List (Nat × Nat × Bool)) : ArrayUnit :=
  let rest := NMap.clearRange a.entries (4096 * t) (4096 * t + 4096)
  let mine := es.filterMap fun e => if e.2.1 = 0 then none else some (e.1, BitVec.ofNat 64 e.2.1)
  { a with entries := NMap.paste rest (4096 * t) mine,
           poison := (a.poison.filter fun k => k / 4096 != t) ++ (es.filter fun e => e.2.2).map fun e => 4096 * t + e.1 }

/-- The fold path writes what the shadow holds: the array, and whether the tile's scale sum refuses it (R84). -/
def ArrayUnit.foldWrite (a : ArrayUnit) (x : Shadow) : ArrayUnit × Bool :=
  let t := NMap.get a.tiles x.tile Tile.clear
  if x.sums.isEmpty then (a, false)
  else if !x.float && (match t.sigma with | some g => g != x.scale | none => false) then
    ({ a with tiles := NMap.put a.tiles x.tile { t with inv := true } }, true)
  else
    let es := ((a.tileEntries x.tile).zip x.sums).map fun e =>
      let bad := e.1.2.2 || e.2.2.2
      let r := foldEntry x.float e.1.2.1 e.2.2.1 (x.ea.getD (e.1.1 / 64) 0 + x.eb.getD (e.1.1 % 64) 0 - 28) bad
      ((e.1.1, r.1, bad), r.2)
    let t1 := { t with ovf := t.ovf || es.any (fun e => e.2), sigma := if x.float then t.sigma else some x.scale }
    ({ (a.setEntries x.tile (es.map fun e => e.1)) with tiles := NMap.put a.tiles x.tile t1 }, false)

/-- Clears a tile (R276): entries, poison, KIND, Σ, OVF and INV; its cells and any sums on their way to it are discarded; a binding stays. -/
def ArrayUnit.clearTile (a : ArrayUnit) (t : Nat) : ArrayUnit :=
  let a1 := match a.resident with
    | some (r, _) => if r = t then { a with cells := [], bad := [], sump := [], resident := none } else a
    | none => a
  { a1 with entries := NMap.clearRange a1.entries (4096 * t) (4096 * t + 4096),
            poison := a1.poison.filter fun k => k / 4096 != t,
            tiles := NMap.store a1.tiles t { Tile.clear with dep := (NMap.get a1.tiles t Tile.clear).dep } Tile.clear,
            units := a1.units.map fun (u : PassUnit) => if u.tile = t ∧ u.isLut = false then { u with void := true } else u,
            shadow := a1.shadow.map fun (x : Shadow) => if x.tile = t then { x with sums := [] } else x }

/-! Rows of a tile as words (R85, R275, R292). -/

/-- The value of an entry as it drains, not poisoned (R85). -/
def entryVal (int : Bool) (sigma : Int) (x : Nat) : FVal :=
  if int then let n := sext x 64; .fin (decide (n < 0)) n.natAbs sigma else fp64.read x

/-- The format of a drain code. -/
def drainFmt (n : Nat) : DrainFmt :=
  match n with | 0 => .fp32 | 1 => .bf16 | 2 => .fp16 | 3 => .int32 | 4 => .int8 | _ => .lns6

/-- The words of a drained row (R275). -/
def ArrayUnit.drainRow (a : ArrayUnit) (t row fmt rm : Nat) : List Word :=
  let x := NMap.get a.tiles t Tile.clear
  let d := drainFmt fmt
  let vals := (List.range 64).map fun c =>
    let k := 4096 * t + 64 * row + c
    if a.poison.contains k then drainPoison d
    else drainValue d (RMode.ofCode rm) (entryVal (x.kind == some true) (x.sigma.getD 0) (NMap.get a.entries k 0).toNat)
  let per := match d with | .fp32 => 1 | .int32 => 1 | .bf16 => 2 | .fp16 => 2 | _ => 4
  (List.range (64 / per)).map fun w => Word.ofNat (((List.range per).map fun i => vals.getD (per * w + i) 0 * 2 ^ (32 / per * i)).sum)

/-- The bytes of a row that `ac.st` stores (R292). -/
def ArrayUnit.storeRow (a : ArrayUnit) (t row : Nat) : List Byte :=
  let int := (NMap.get a.tiles t Tile.clear).kind == some true
  (List.range 64).flatMap fun c =>
    let k := 4096 * t + 64 * row + c
    Byte.split 8 (if int && a.poison.contains k then 2 ^ 63 else (NMap.get a.entries k 0).toNat)

/-- Words per entry of a transfer format. -/
def xferWords (fmt : Nat) : Nat := if fmt = 0 then 2 else 1
/-- The entry a value of a transfer format loads (R292). -/
def loadEntry (fmt x : Nat) : Nat :=
  if fmt = 0 then x else if fmt = 1 then (cvtFloat fp32 fp64 .rne x).1 else narrow (sext x 32) 64

/-- Writes a row of entries, clearing their poison. -/
def ArrayUnit.loadRow (a : ArrayUnit) (t row : Nat) (vals : List Nat) : ArrayUnit :=
  (indexed vals).foldl (fun (b : ArrayUnit) e =>
    let k := 4096 * t + 64 * row + e.1
    { b with entries := NMap.store b.entries k (BitVec.ofNat 64 e.2) 0, poison := b.poison.filter (· != k) }) a

end Sys2Proof.Machine
end

