-- ==== Sys2Proof/Machine/MatrixQueue.lean ====
section
/-! DEFINITION. The heads of the matrix queues: the check of R277, posts entering the reservation table, the commands that are not posts, drains and transfers (R261, R262, R275 to R279, R284 to R292). -/

namespace Sys2Proof.Machine

/-! The check of a command (R277). -/

/-- Whether ROW0 and ROWS of a drain or transfer block break their limits. -/
def rowsBad (w : Nat) : Bool := decide (bits w 19 13 = 0 ∨ 64 < bits w 25 20 + bits w 19 13)

/-- Bytes of a row in a transfer format (R292). -/
def xferRow (fmt : Nat) : Nat := 256 * xferWords fmt

/-- Whether SPL breaks its limits. -/
def splBad (b : List Word) : Bool := decide (wordAt b 2 = 0 ∨ 65535 < wordAt b 2)

/-- Reason 1: a field that must be zero is not, or a field breaks its limits, under the configuration of the queue. -/
def MxCmd.dirty (c : MxCmd) (cfg : Nat) : Bool :=
  let b := c.block
  let w := wordAt b 0
  let zeroFrom (n : Nat) : Bool := (b.drop n).all fun x => x == 0
  match c.fn with
  | 0x10 => bits w 19 0 != 0 || !zeroFrom 1 || (cfgMode w == 5 && decide (2 < cfgKs w))
  | 0x11 => bits w 23 0 != 0 || !zeroFrom 4 || splBad b || (cfgMode cfg == 5 && wordAt b 1 != 0) ||
      ((cfgMode cfg == 5 || cfgSpn cfg == 0) && wordAt b 3 != 0)
  | 0x12 => bits w 20 0 != 0 || !zeroFrom 5 ||
      (if bit w 21 then wordAt b 1 != 0 || wordAt b 2 != 0 || wordAt b 3 != 0
       else splBad b || (cfgMode cfg == 5 && wordAt b 1 != 0) || ((cfgMode cfg == 5 || cfgSpn cfg == 0) && wordAt b 3 != 0))
  | 0x14 => w != 0 || !zeroFrom 3 || splBad b
  | 0x16 => !zeroFrom 1 || bits w 1 0 != 0 || rowsBad w || bits w 12 9 == 0
  | 0x18 => !zeroFrom 4 || bits w 4 0 != 0 || rowsBad w || (bit w 12 == (bits w 11 8 == 0)) || bits (wordAt b 3) 30 12 != 0 ||
      decide (wordAt b 2 < xferRow (bits w 7 6)) || wordAt b 2 % 8 != 0
  | 0x19 => !zeroFrom 4 || bits w 4 0 != 0 || rowsBad w || bits w 12 8 != 0 || bits (wordAt b 3) 30 12 != 0 ||
      decide (wordAt b 2 < xferRow (bits w 7 6)) || wordAt b 2 % 8 != 0
  | _ => false

/-- A team of a core with a TEAMID, in a stage if there is one there. -/
def State.partnerTeam (s : State) (core index plan stage : Nat) : Option Nat :=
  let ts := (s.teams.filter fun e => e.1 / 16 == core && e.2.index == index && !e.2.ended).map Prod.fst
  match ts.find? fun t => (s.team t).plan == plan && (s.team t).stage == stage with
  | some t => some t
  | none => ts.head?

/-- The core of a pair post's partner. -/
def pairCore (core : Nat) (b : List Word) : Nat := 4 * clusterOf core + bits (wordAt b 0) 23 22

/-- Reason 3 of a command that has reached the head. -/
def State.mxMismatch (s : State) (q : Nat) (c : MxCmd) (cfg : Nat) : Bool :=
  let core := mxCore q
  let t := s.team (s.mxTeam q c)
  match c.fn with
  | 0x12 => pairCore core c.block == core ||
      (match s.partnerTeam (pairCore core c.block) (wordAt c.block 4) t.plan t.stage with
       | some p => (s.team p).plan != t.plan || (s.team p).stage != t.stage
       | none => false)
  | 0x14 => cfgMode cfg != 5
  | 0x18 =>
    let int := if bits (wordAt c.block 0) 7 6 = 0 then bit (wordAt c.block 0) 5 else bits (wordAt c.block 0) 7 6 == 2
    match s.tileAt q c.tileNo with
    | some p => (s.tile core p).kind == some (!int)
    | none => false
  | _ => false

/-- Reason 5 of a command that has reached the head. -/
def State.mxOutside (s : State) (q : Nat) (c : MxCmd) (cfg : Nat) : Bool :=
  let b := c.block
  let size := s.spSize (s.mxTeam q c)
  let mode := cfgMode cfg
  let spn := cfgSpn cfg
  let k := cfgKs cfg
  let out (lo n : Nat) : Bool := decide (size < lo + n)
  let pass : Bool :=
    mode != 5 && (wordAt b 1 % 16 != 0 || out (wordAt b 1) ((63 * wordAt b 2 + k * unitQ spn) * recZ mode) ||
      (spn != 0 && (wordAt b 3 % 8 != 0 || out (wordAt b 3) (64 * k * (unitD mode spn / 64) * 8))))
  let rows : Bool :=
    let w := wordAt b 0
    let fmt := bits w 7 6
    wordAt b 1 % (if fmt = 0 then 8 else 4) != 0 || out (wordAt b 1) ((bits w 19 13 - 1) * wordAt b 2 + xferRow fmt)
  match c.fn with
  | 0x11 => pass
  | 0x12 => !bit (wordAt b 0) 21 && pass
  | 0x14 => wordAt b 1 % 16 != 0 || out (wordAt b 1) ((63 * wordAt b 2 + 4) * 80)
  | 0x18 => !bit (wordAt b 0) 12 && rows
  | 0x19 => rows
  | _ => false

/-- Whether a command meets an INVALID tile (reason 8). -/
def State.mxStale (s : State) (q : Nat) (c : MxCmd) : Bool :=
  c.hasTile && c.fn != 0x17 && c.fn != 0x1B && !((c.fn == 0x11 || c.fn == 0x12) && bit (wordAt c.block 0) 31) &&
    (match s.tileAt q c.tileNo with | some t => (s.tile (mxCore q) t).inv | none => false)

/-- Reason 9. -/
def MxCmd.badCode (c : MxCmd) : Bool :=
  let w := wordAt c.block 0
  match c.fn with
  | 0x10 => decide (6 ≤ cfgMode w)
  | 0x16 => decide (6 ≤ bits w 8 6 ∨ 5 ≤ bits w 5 3)
  | 0x18 => bits w 7 6 == 3
  | 0x19 => bits w 7 6 != 0
  | _ => false

/-- The reason a command at the head of a queue is ill-formed, 0 for none; the lowest of several (log 18). -/
def State.mxReason (s : State) (q : Nat) (c : MxCmd) : Nat :=
  let cfg := (s.mxGet q).mctl.toNat
  if c.dirty cfg then 1
  else if c.hasTile && (s.tileAt q c.tileNo).isNone then 2
  else if s.mxMismatch q c cfg then 3
  else if s.mxOutside q c cfg then 5
  else if c.fn = 0x10 ∧ cfgSpn (wordAt c.block 0) ≠ 0 ∧ (cfgMode (wordAt c.block 0) < 2 ∨ cfgMode (wordAt c.block 0) = 5) then 6
  else if s.mxStale q c then 8
  else if c.badCode then 9
  else 0

/-! Halting (R277). -/

/-- What an error record of a matrix command names: its team and fibre. -/
def State.mxOrigin (s : State) (q : Nat) (c : MxCmd) : Origin := { s.originTeam (s.mxTeam q c) with fibre := (s.fibre c.fibre).fibreId }

/-- The context of a core's matrix queue. -/
def State.mxCtx (s : State) (q : Nat) : Nat := s.ctxOfCore (mxCore q)

/-- Poisoned data met by a matrix command ends the context, with the record of R179. -/
def State.mxPoison (s : State) (q : Nat) (c : MxCmd) : State := s.spadLine.2.poisonReset (s.mxCtx q) (s.mxOrigin q c) c.header 0 s.spadLine.1

/-- A command is ill-formed (R277): its tile is INVALID, the queue halts, and an error record is written. `key` is its entry in the reservation table. -/
def State.mxHalt (s : State) (q : Nat) (c : MxCmd) (reason unit : Nat) (key : Option Nat) : State :=
  let s1 := match (if c.hasTile then s.tileAt q c.tileNo else none) with
    | some t => s.modTile (mxCore q) t fun x => { x with inv := true }
    | none => s
  let s2 := s1.mxMod q fun m => { m with halts := m.halts ++ [(reason, key)] }
  let tile := if c.hasTile then c.tileNo else 0
  s2.errorRecord (s.mxCtx q) 0x04 (s.mxOrigin q c)
    ([c.fn + reason * 2 ^ 8 + tile * 2 ^ 16 + unit * 2 ^ 24] ++ lowHigh c.header ++ [0, 0, 0, 0, 0] ++ c.block.map BitVec.toNat)

/-! The head of a queue. -/

/-- The head of a matrix queue that may act: the queue is not halted, no guard holds it, and the fibre's earlier memory instructions are performed (R243, R281). -/
def State.mxHead (s : State) (q : Nat) : Option MxCmd :=
  let m := s.mxGet q
  match m.cmds with
  | c :: _ => if m.halts.isEmpty && c.guard.isNone && s.coreRuns (mxCore q) && s.relPerformed c.rel then some c else none
  | [] => none

/-- Changes the head of a queue. -/
def State.mxModHead (s : State) (q : Nat) (k : MxCmd → MxCmd) : State :=
  s.mxMod q fun m => { m with cmds := match m.cmds with | c :: r => k c :: r | [] => [] }

/-- A command at the head of a queue completes. -/
def State.mxDone (s : State) (q : Nat) : State :=
  match (s.mxGet q).cmds with
  | [] => s
  | c :: r =>
    c.ops.foldl (fun t o => t.answerOp o []) (s.mxMod q fun m => { m with cmds := r, done := (m.done + 1) % 4096 })

/-- Whether the reservation table holds a post of a queue on a tile number. -/
def State.tilePosted (s : State) (q n : Nat) : Bool := s.tables.any fun e => e.2.queue == q && e.2.cmd.hasTile && e.2.cmd.tileNo == n

/-- Whether cells or a fold on its way still belong to a physical tile (R270). -/
def State.tileLoose (s : State) (core t : Nat) : Bool :=
  (match (s.arr core).resident with | some (r, _) => r == t | none => false) ||
    (match (s.arr core).shadow with | some x => x.tile == t | none => false)

/-- A well-formed command acts on its tile, or stays at the head until its fold, drain or transfer is done. -/
def State.mxTileAct (s : State) (q : Nat) (c : MxCmd) (t : Nat) : State :=
  let core := mxCore q
  let wait := s.mxModHead q fun x => { x with waiting := true }
  match c.fn with
  | 0x17 => (s.modArr core fun a => a.clearTile t).mxDone q
  | 0x1B => (s.modTile core t fun x => { x with dep := some (c.arg, cfgDepat (s.mxGet q).mctl.toNat, s.mxTeam q c) }).mxDone q
  | 0x15 => if s.tileLoose core t then wait else s.mxDone q
  | _ => wait

/-- MATRIX_COMMAND_HEAD: the head of a queue is checked and, unless it is a post, acts (R277); commands that name one tile take effect in queue order (R261). -/
def execMatrixCommandHead (q : Nat) (s : State) : Out :=
  match s.mxHead q with
  | none => .next s
  | some c =>
    let r := s.mxReason q c
    if c.waiting then
      .next (if c.fn = 0x15 ∧ s.tileLoose (mxCore q) ((s.tileAt q c.tileNo).getD 0) = false then s.mxDone q else s)
    else if c.hasTile && !c.isPost && s.tilePosted q c.tileNo then .next s
    else if r ≠ 0 then .next (s.mxHalt q c r 0 none)
    else if c.isPost then .next s
    else if c.fn = 0x10 then .next ((s.mxMod q fun m => { m with mctl := Word.ofNat (wordAt c.block 0) }).mxDone q)
    else .next (s.mxTileAct q c ((s.tileAt q c.tileNo).getD 0))

/-! Entering the reservation table (R262). -/

/-- Entries of the reservation table a core holds. -/
def State.entriesOf (s : State) (core : Nat) : Nat := (s.tables.filter fun e => decide (e.1 < detachedBase) && e.2.core == core).length

/-- Whether the reservation table grants a core one entry more: Grant of R238 with 64 entries, MIN 8 and CAP 40. -/
def State.tableAdmits (s : State) (core : Nat) : Bool :=
  let used := s.entriesOf core
  let free := 64 - ((clusterMates core).map fun c => max (s.entriesOf c) 8).sum
  decide (used + 1 ≤ 40) && decide ((used + 1 - 8) - (used - 8) ≤ free)

/-- The free entry of lowest number in a core's cluster. -/
def State.freeKey (s : State) (core : Nat) : Option Nat :=
  ((List.range 64).map (64 * clusterOf core + ·)).find? fun k => (NMap.find s.tables k).isNone

/-- The post a command becomes. -/
def State.newPost (s : State) (q : Nat) (c : MxCmd) : Post :=
  { core := mxCore q, queue := q, cmd := c, tile := (s.tileAt q c.tileNo).getD 0, mctl := (s.mxGet q).mctl, granted := 0, retired := 0,
    since := none, prio := (s.team (s.mxTeam q c)).prio, folds := 0, discarded := false }

/-- When the post at the head of a queue was refused an entry, if it was. -/
def State.askedAt (s : State) (q : Nat) : Option Nat := ((s.mxHead q).filter MxCmd.isPost).bind MxCmd.asked

/-- Whether an older request for an entry stands before that of a queue's head: one of its own core, or one that could be granted now (R238, R262). -/
def State.postBehind (s : State) (q : Nat) (c : MxCmd) : Bool :=
  ((clusterMates (mxCore q)).flatMap coreQueues).any fun r =>
    match s.askedAt r with
    | some n => r != q && (match c.asked with | some m => decide (n < m) | none => true) && (mxCore r == mxCore q || s.tableAdmits (mxCore r))
    | none => false

/-- Records that the head of a queue has been refused an entry. -/
def State.postRefused (s : State) (q : Nat) (c : MxCmd) : State :=
  if c.asked.isSome then s else { s.mxModHead q (fun x => { x with asked := some s.nextId }) with nextId := s.nextId + 1 }

/-- POST_ENTER_TABLE: a well-formed post takes an entry, in the order of the requests; its pass units take their offers in post order (R262, R263). -/
def execPostEnterTable (q : Nat) (s : State) : Out :=
  match s.mxHead q with
  | none => .next s
  | some c =>
    let core := mxCore q
    if !c.isPost then .next s
    else
      match s.mxReason q c with
      | 0 =>
        match s.freeKey core with
        | none => .next (s.postRefused q c)
        | some k =>
          if s.postBehind q c || !s.tableAdmits core then .next (s.postRefused q c)
          else
            let n := cfgKs (s.mxGet q).mctl.toNat
            let s1 := { s with tables := NMap.put s.tables k (s.newPost q c) }
            .next (s1.mxMod q fun m =>
              { m with cmds := m.cmds.drop 1, claims := if c.fn = 0x14 then m.claims else m.claims ++ [(some k, List.replicate 4 n)] })
      | r => .next (s.mxHalt q c r 0 none)

/-! Drains and transfers (R275, R292). -/

/-- The QC position that row number i of a run is dealt to. -/
def dealQc (mask i : Nat) : Nat := let ps := setBits mask 4; ps.getD (i % ps.length) 0

/-- The waiting head of a queue with its tile, once no cells and no fold belong to the tile. -/
def State.mxAtWork (s : State) (q : Nat) (fns : List Nat) : Option (MxCmd × Nat) :=
  match (s.mxGet q).cmds with
  | c :: _ =>
    match s.tileAt q c.tileNo with
    | some t => if c.waiting && fns.contains c.fn && !s.tileLoose (mxCore q) t && s.coreRuns (mxCore q) then some (c, t) else none
    | none => none
  | [] => none

/-- Rows a drain or transfer has dealt. -/
def State.rowsDone (s : State) (q : Nat) : Nat := NMap.get (s.arr (mxCore q)).drain q 0
def State.setRows (s : State) (q n : Nat) : State := s.modArr (mxCore q) fun a => { a with drain := NMap.store a.drain q n 0 }

/-- Drains rows while the drain queues grant them. -/
def State.drainRows (s : State) (q t w : Nat) : Nat → State
  | 0 => s
  | n + 1 =>
    let core := mxCore q
    let i := s.rowsDone q
    let ws := (s.arr core).drainRow t (bits w 25 20 + i) (bits w 8 6) (bits w 5 3)
    let k := 8 + dealQc (bits w 12 9) i
    if bits w 19 13 ≤ i then s
    else
      match s.poolAsk (waiterDrain q) core [(instQreg k, freshEntries ((s.core core).queue k) ws.length)] with
      | .ok s1 => State.drainRows ((s1.qPlace core k ws).setRows q (i + 1)) q t w n
      | .error (s1, _, _) => s1

/-- DRAIN_COMPLETE: the rows go to the drain queues; with the last one the drain completes, clears its tile under CLA, and fires a binding under DEPAT 1 (R275, R279, R290). -/
def execDrainComplete (q : Nat) (s : State) : Out :=
  match s.mxAtWork q [0x16] with
  | none => .next s
  | some (c, t) =>
    let core := mxCore q
    let w := wordAt c.block 0
    let s1 := s.drainRows q t w 64
    if s1.rowsDone q < bits w 19 13 then .next s1
    else
      let s2 := s1.setRows q 0
      let s3 := if bit w 2 then s2.modArr core fun a => a.clearTile t else s2
      let s4 := match (s3.tile core t).dep with
        | some (_, true, _) => s3.fireDep core t c.tileNo
        | _ => s3
      .next (s4.mxDone q)

/-- The error record of a fold or load whose scale sum a tile refuses (R84, R387). -/
def State.scaleRecord (s : State) (core tile : Nat) (held refused : Int) : State :=
  let owner := (s.teams.find? fun e => e.1 / 16 == core && decide (s.acBase e.1 ≤ tile ∧ tile < s.acBase e.1 + s.acSize e.1)).map Prod.fst
  let o := match owner with
    | some t => s.originTeam t
    | none => { Origin.none with core := core }
  let n := match owner with | some t => tile - s.acBase t | none => tile
  s.errorRecord (s.ctxOfCore core) 0x01 o [n, narrow held 12, narrow refused 12]

/-- The words of a row's entries from the prologue queue it is dealt to, or from the scratchpad; none where the queue does not hold them. -/
def State.loadWords (s : State) (q : Nat) (c : MxCmd) (i : Nat) : Option (List Word × State) :=
  let w := wordAt c.block 0
  let n := 64 * xferWords (bits w 7 6)
  if bit w 12 then s.qPop (mxCore q) (12 + dealQc (bits w 11 8) i) n
  else some (s.spadWords (mxCore q) (s.spBase (s.mxTeam q c) + wordAt c.block 1 + i * wordAt c.block 2) n, s)

/-- The entries a row of words loads. -/
def rowEntries (fmt : Nat) (ws : List Word) : List Nat :=
  (List.range 64).map fun i => loadEntry fmt (if fmt = 0 then dwordAt ws (2 * i) else wordAt ws i)

/-- Loads rows while their words are there. -/
def State.loadRows (s : State) (q t : Nat) (c : MxCmd) : Nat → State
  | 0 => s
  | n + 1 =>
    let w := wordAt c.block 0
    let i := s.rowsDone q
    if bits w 19 13 ≤ i then s
    else
      match s.loadWords q c i with
      | none => s
      | some (ws, s1) =>
        State.loadRows ((s1.modArr (mxCore q) fun a => a.loadRow t (bits w 25 20 + i) (rowEntries (bits w 7 6) ws)).setRows q (i + 1)) q t c n

/-- The KIND and Σ an `ac.ld` sets before its first row; none where its Σ is refused (R292). -/
def State.loadKind (s : State) (core t : Nat) (c : MxCmd) : Option State :=
  let w := wordAt c.block 0
  let int := if bits w 7 6 = 0 then bit w 5 else bits w 7 6 == 2
  let sig := wordAt c.block 3
  let x := s.tile core t
  let given : Option Int := if bit sig 31 then some (sext sig 12) else none
  match given, x.sigma with
  | some g, some h => if g = h then some (s.modTile core t fun y => { y with kind := some int }) else none
  | some g, none => some (s.modTile core t fun y => { y with kind := some int, sigma := some g })
  | none, _ => some (s.modTile core t fun y => { y with kind := some int })

/-- `ac.ld` at work. -/
def State.runLoad (s : State) (q t : Nat) (c : MxCmd) : State :=
  let core := mxCore q
  match if s.rowsDone q = 0 then s.loadKind core t c else some s with
  | none =>
    let x := s.tile core t
    let s1 := (s.modTile core t fun y => { y with inv := true }).scaleRecord core t (x.sigma.getD 0) (sext (wordAt c.block 3) 12)
    s1.mxDone q
  | some s1 =>
    let s2 := s1.loadRows q t c 64
    if s2.rowsDone q < bits (wordAt c.block 0) 19 13 then s2 else (s2.setRows q 0).mxDone q

/-- `ac.st` at work: every row of its range is stored (R292). -/
def State.runStore (s : State) (q t : Nat) (c : MxCmd) : State :=
  let core := mxCore q
  let w := wordAt c.block 0
  let base := s.spBase (s.mxTeam q c) + wordAt c.block 1
  ((List.range (bits w 19 13)).foldl (fun u i =>
    u.spadStore core (base + i * wordAt c.block 2) ((s.arr core).storeRow t (bits w 25 20 + i))) s).mxDone q

/-- Whether an `ac.ld` takes rows of the scratchpad that hold poisoned data (R179). -/
def State.loadSpoiled (s : State) (q : Nat) (c : MxCmd) : Bool :=
  let w := wordAt c.block 0
  c.fn == 0x18 && !bit w 12 && (List.range (bits w 19 13)).any fun i =>
    s.spadBad (mxCore q) (s.spBase (s.mxTeam q c) + wordAt c.block 1 + i * wordAt c.block 2) (xferRow (bits w 7 6))

/-- AC_TRANSFER_COMPLETE: the rows of a transfer move (R292). -/
def execAcTransferComplete (q : Nat) (s : State) : Out :=
  match s.mxAtWork q [0x18, 0x19] with
  | none => .next s
  | some (c, t) => .next (if s.loadSpoiled q c then s.mxPoison q c else if c.fn = 0x18 then s.runLoad q t c else s.runStore q t c)

end Sys2Proof.Machine
end

