-- ==== Sys2Proof/Machine/MatrixArray.lean ====
section
/-! DEFINITION. The arrays at work: candidates and grants, array cycles, the sump, folds and retirement (R260, R263 to R273, R276 to R279). -/

namespace Sys2Proof.Machine

/-! Candidates (R265, R267). -/

/-- Pass units of a post. -/
def Post.units (p : Post) : Nat := if p.cmd.fn = 0x14 then 1 else cfgKs p.mctl.toNat
/-- When a post was issued, for the order of posts in a queue. -/
def Post.order (p : Post) : Nat := p.cmd.ops.headD 0

/-- The offer that a unit takes at a quarter: the first of the quarter, when it is matched to this post and no guard holds it (R263). -/
def State.offerFor (s : State) (q k pos : Nat) : Option Offer :=
  let m := s.mxGet q
  match m.claimAt pos with
  | some i =>
    if (m.claims.getD i (none, [])).1 = some k then (m.offers.find? fun o => o.qc == pos).filter fun o => o.guard.isNone else none
  | none => none

/-- The four offers of the next unit of a post. -/
def State.offersFor (s : State) (q k : Nat) : List Offer := [0, 1, 2, 3].filterMap (s.offerFor q k)

/-- Whether the next unit of a post is a candidate, its partner left aside (R265, R224). -/
def State.ready1 (s : State) (k : Nat) (p : Post) : Bool :=
  !p.discarded && !((s.mxGet p.queue).halts.any fun h => h.2 == some k) && decide (p.granted < p.units) && s.coreRuns p.core &&
    (s.tables.all fun e => e.2.queue != p.queue || e.2.discarded || decide (p.order ≤ e.2.order) || decide (e.2.units ≤ e.2.granted)) &&
    (p.cmd.fn == 0x14 || (s.offersFor p.queue k).length == 4) &&
    (decide (handlerBase ≤ p.queue) || !s.handling p.cmd.fibre)

/-- ROLE of a pair post. -/
def Post.follows (p : Post) : Bool := bit (wordAt p.cmd.block 0) 21

/-- Whether two pair posts name each other. -/
def State.paired (s : State) (p r : Post) : Bool :=
  let t := s.team (s.mxTeam p.queue p.cmd)
  let u := s.team (s.mxTeam r.queue r.cmd)
  r.cmd.fn == 0x12 && r.core == pairCore p.core p.cmd.block && pairCore r.core r.cmd.block == p.core && p.follows != r.follows &&
    wordAt p.cmd.block 4 == u.index && wordAt r.cmd.block 4 == t.index && t.plan == u.plan && t.stage == u.stage

/-- The candidate that partners a pair post. -/
def State.partner (s : State) (p : Post) : Option (Nat × Post) := s.tables.find? fun e => s.paired p e.2 && s.ready1 e.1 e.2

/-- Whether the next unit of a post is a candidate. -/
def State.candidate (s : State) (k : Nat) (p : Post) : Bool := s.ready1 k p && (p.cmd.fn != 0x12 || (s.partner p).isSome)

/-- When a candidacy began. -/
def Post.began (p : Post) (now : Nat) : Nat := p.since.getD now

/-- The better of two candidates: higher effective priority, then longer candidacy. -/
def Post.beats (now : Nat) (p r : Post) : Bool := decide (r.prio < p.prio) || (p.prio == r.prio && decide (p.began now < r.began now))

/-- The best of some posts. -/
def bestPost (now : Nat) : List (Nat × Post) → Option (Nat × Post)
  | [] => none
  | e :: es =>
    match bestPost now es with
    | some b => if b.2.beats now e.2 then some b else some e
    | none => some e

/-- The candidates of an array. -/
def State.candidatesOn (s : State) (core : Nat) : List (Nat × Post) := s.tables.filter fun e => e.2.core == core && s.candidate e.1 e.2

/-- Whether a pair post is held for its array by being best on its partner's (R267). -/
def State.heldPair (s : State) (e : Nat × Post) : Bool :=
  e.2.cmd.fn == 0x12 &&
    (match s.partner e.2 with
     | some r => (bestPost s.cycle (s.candidatesOn r.2.core)).map Prod.fst == some r.1
     | none => false)

/-- The post an array takes next: a pair that is the best candidate of either array, otherwise its best candidate. -/
def State.choice (s : State) (core : Nat) : Option (Nat × Post) :=
  let cs := s.candidatesOn core
  match bestPost s.cycle (cs.filter s.heldPair) with
  | some e =>
    match bestPost s.cycle cs with
    | some b => if b.2.cmd.fn = 0x12 then some b else some e
    | none => some e
  | none => bestPost s.cycle cs

/-- Notes when candidacies begin and end (R265). -/
def State.markCandidates (s : State) : State :=
  { s with tables := s.tables.map fun (e : Nat × Post) =>
      let c := s.candidate e.1 e.2
      (e.1, if c && e.2.since.isNone then { e.2 with since := some s.cycle }
            else if !c && e.2.since.isSome then { e.2 with since := none, prio := (s.team (s.mxTeam e.2.queue e.2.cmd)).prio }
            else e.2) }

/-- Whether the grant slot of an array is open (R265); a pass that the array follows in holds it until it retires (R267). -/
def State.slotOpen (s : State) (core : Nat) : Bool :=
  let a := s.arr core
  s.throttle == 0 && !(a.units.any fun u => u.paused || u.leader != core) && (a.units.isEmpty || decide (a.opensAt ≤ s.cycle))

/-! Granting (R260, R263, R265, R268, R270, R277). -/

def State.modPost (s : State) (k : Nat) (f : Post → Post) : State := { s with tables := NMap.edit s.tables k f }

/-- The entry number that stands for a re-run of `mx.lut`. -/
def noEntry : Nat := 4096

/-- A unit that builds tables. -/
def lutUnit (s : State) (core k : Nat) (tables : Int × List (List Int)) : PassUnit :=
  { entry := k, leader := core, mate := none, index := 0, cyc := 0, last := 0, paused := false, grantAt := s.cycle, isLut := true, mode := 5, rate := 0,
    plane := 0, ea := [], eb := [], rows := tables.2, cols := [], kept := [], rowBad := [], colBad := [], tile := 0, queue := 0,
    scale := tables.1, owner := 0, outAt := 0, void := false }

/-- Grants an `mx.lut`, by number, or a re-run of it: the tables are read, and the slot stays shut for 25 cycles. -/
def State.grantLut (s : State) (core k q num : Nat) (tables : Int × List (List Int)) : State :=
  let u := { lutUnit s core k tables with queue := q, index := num }
  s.modArr core fun a => { a with units := a.units ++ [u], opensAt := s.cycle + 25 }

/-- Whether the tables an array holds are those of the last `mx.lut` of a queue. -/
def State.tablesCurrent (s : State) (core q : Nat) : Bool :=
  match (s.arr core).lut, (s.mxGet q).lut with
  | some (r, n, _), some (m, _) => r == q && n == m
  | _, _ => false

/-- What a unit of a post on an array would be, its A side read through the leader. -/
structure Draft where
  key : Nat
  post : Post
  offers : List Offer
  read : Operands
deriving DecidableEq, Repr

/-- Reads a unit on its array (R268): `lead` names the core, team and block that A is read through. -/
def State.draft (s : State) (k : Nat) (p : Post) (lead : Nat × Nat × List Word) : Draft :=
  let os := s.offersFor p.queue k
  let lut := if cfgMode p.mctl.toNat = 5 then (s.arr p.core).lut.map fun x => (x.2.2.1, x.2.2.2) else none
  { key := k, post := p, offers := os, read := s.readUnit lead.1 lead.2.1 lead.2.2 p.mctl.toNat p.granted os lut }

/-- Whether a post clears its tile with the unit about to be granted. -/
def Post.clears (p : Post) : Bool := p.granted == 0 && bit (wordAt p.cmd.block 0) 31

/-- The reason a unit is ill-formed, 0 for none. -/
def State.draftReason (s : State) (d : Draft) : Nat :=
  let x := s.tile d.post.core d.post.tile
  let float := floatMode (cfgMode d.post.mctl.toNat)
  if d.post.clears = false ∧ x.kind = some float then 3
  else if d.read.reason ≠ 0 then d.read.reason
  else if d.post.clears = false ∧ x.inv = true then 8
  else 0

/-- Releases the registers of an offer that has been read (R282). -/
def State.offerRead (s : State) (q pos : Nat) (o : Offer) : State :=
  let m := s.mxGet q
  let m1 : MxQueue := match m.claimAt pos with
    | some i => m.takeClaim i pos
    | none => m
  o.ops.foldl (fun t x => t.answerOp x []) (s.mxSet q { m1 with offers := m1.offers.filter (· != o) })

/-- Grants a unit that has been read, of a pair with another core: the tile is cleared under CLR, KIND is set, the offers complete. -/
def State.grantUnit (s : State) (leader : Nat) (mate : Option Nat) (d : Draft) : State :=
  let p := d.post
  let cfg := p.mctl.toNat
  let mode := cfgMode cfg
  let core := p.core
  let s1 := if p.clears then s.modArr core fun a => a.clearTile p.tile else s
  let s2 := s1.modTile core p.tile fun x => { x with kind := some (!floatMode mode) }
  let u : PassUnit :=
    { entry := d.key, leader := leader, mate := mate, index := p.granted, cyc := 0, last := unitCycles (cfgSpn cfg), paused := false, grantAt := s.cycle,
      isLut := false, mode := mode, rate := passK mode / 16, plane := p.granted, ea := d.read.ea, eb := d.read.eb, rows := d.read.rows,
      cols := d.read.cols, kept := d.read.kept, rowBad := d.read.rowBad, colBad := d.read.colBad, tile := p.tile, queue := p.queue,
      scale := d.read.scale, owner := (s.team (s.mxTeam p.queue p.cmd)).serial, outAt := 0, void := false }
  let s3 := s2.modArr core fun a => { a with units := a.units ++ [u], opensAt := s.cycle + unitCycles (cfgSpn cfg) }
  let s4 := s3.modPost d.key fun x => { x with granted := x.granted + 1, since := none, prio := (s.team (s.mxTeam p.queue p.cmd)).prio }
  (indexed d.offers).foldl (fun t e => t.offerRead p.queue e.1 e.2) s4

/-- A post found ill-formed at its grant halts its queue (R277). -/
def State.postHalt (s : State) (d : Draft) (reason : Nat) : State :=
  s.mxHalt d.post.queue d.post.cmd reason d.post.granted (some d.key)

/-- What A is read through for a post that leads. -/
def State.leadOf (s : State) (p : Post) : Nat × Nat × List Word := (p.core, s.mxTeam p.queue p.cmd, p.cmd.block)

/-- Before a mode-5 unit: none where its array holds its queue's tables, otherwise what the slot does instead (R260). -/
def State.rerun (s : State) (k : Nat) (p : Post) : Option State :=
  if cfgMode p.mctl.toNat ≠ 5 ∨ s.tablesCurrent p.core p.queue = true then none
  else if (s.arr p.core).units.any PassUnit.isLut then some s
  else
    match (s.mxGet p.queue).lut with
    | none => some (s.mxHalt p.queue p.cmd 3 p.granted (some k))
    | some (n, b) =>
      let team := s.mxTeam p.queue p.cmd
      let t := s.readLut p.core team b
      if s.recordsSpoiled p.core (s.spBase team) b 0 4 2 then some (s.mxPoison p.queue p.cmd)
      else if t.2 ≠ 0 then some (s.mxHalt p.queue p.cmd t.2 p.granted (some k))
      else some (s.grantLut p.core noEntry p.queue n t.1)

/-- Grants an `mx.lut` post. -/
def State.grantTable (s : State) (k : Nat) (p : Post) : State :=
  let team := s.mxTeam p.queue p.cmd
  let t := s.readLut p.core team p.cmd.block
  if s.recordsSpoiled p.core (s.spBase team) p.cmd.block 0 4 2 then s.mxPoison p.queue p.cmd
  else if t.2 ≠ 0 then s.mxHalt p.queue p.cmd t.2 0 (some k)
  else
    let s1 := s.grantLut p.core k p.queue p.order t.1
    (s1.mxMod p.queue fun m => { m with lut := some (p.order, p.cmd.block) }).modPost k fun x => { x with granted := 1, since := none }

/-- Whether the unit of a post that reads A meets poisoned data. -/
def State.postSpoiled (s : State) (p : Post) : Bool := s.unitSpoiled p.core (s.mxTeam p.queue p.cmd) p.cmd.block p.mctl.toNat p.granted

/-- Grants a unit of one array. -/
def State.grantSingle (s : State) (k : Nat) (p : Post) : State :=
  match s.rerun k p with
  | some t => t
  | none =>
    let d := s.draft k p (s.leadOf p)
    if s.postSpoiled p then s.mxPoison p.queue p.cmd
    else
      match s.draftReason d with
      | 0 => s.grantUnit p.core none d
      | r => s.postHalt d r

/-- Whether the configurations of a pair agree (R267). -/
def pairAgrees (x y : Nat) : Bool :=
  cfgMode x == cfgMode y && cfgSpn x == cfgSpn y && cfgKs x == cfgKs y && cfgTrap x == cfgTrap y

/-- Grants a pair on both arrays at once; an ill-formed pair halts both queues. -/
def State.grantPair (s : State) (l f : Nat × Post) : State :=
  match s.rerun l.1 l.2, s.rerun f.1 f.2 with
  | some t, _ => t
  | none, some t => t
  | none, none =>
    let dl := s.draft l.1 l.2 (s.leadOf l.2)
    let df := s.draft f.1 f.2 (s.leadOf l.2)
    let r := if !pairAgrees l.2.mctl.toNat f.2.mctl.toNat then 3
      else if s.draftReason dl ≠ 0 then s.draftReason dl else s.draftReason df
    if s.postSpoiled l.2 then s.mxPoison l.2.queue l.2.cmd
    else if r = 0 then (s.grantUnit l.2.core (some f.2.core) dl).grantUnit l.2.core (some l.2.core) df
    else (s.postHalt dl r).postHalt df r

/-- PASS_GRANT: an array whose slot is open takes its next unit. -/
def execPassGrant (core : Nat) (s : State) : Out :=
  match s.choice core with
  | none => .next s
  | some (k, p) =>
    if !s.slotOpen core then .next s
    else if p.cmd.fn = 0x14 then .next (s.grantTable k p)
    else if p.cmd.fn = 0x12 then
      match s.partner p with
      | some (j, r) =>
        if !s.slotOpen r.core then .next s
        else .next (if p.follows then s.grantPair (j, r) (k, p) else s.grantPair (k, p) (j, r))
      | none => .next s
    else .next (s.grantSingle k p)

/-- POST_PRIORITY_RISE: one step for every full 1024 cycles of candidacy, up to 3. -/
def execPostPriorityRise (entry : Nat) (s : State) : Out :=
  match NMap.find s.tables entry with
  | none => .next s
  | some p =>
    let first := (s.team (s.mxTeam p.queue p.cmd)).prio
    match p.since with
    | none => .next s
    | some t =>
      if p.prio < 3 ∧ t + 1024 * (p.prio - first + 1) ≤ s.cycle then .next (s.modPost entry fun x => { x with prio := x.prio + 1 }) else .next s

/-! Array cycles (R269 to R273). -/

/-- Whether a unit folds when its array cycles are over: float units, and the last unit of a post with LAST (R270). -/
def State.unitFolds (s : State) (u : PassUnit) : Bool :=
  !u.isLut && (floatMode u.mode ||
    (match NMap.find s.tables u.entry with
     | some p => p.cmd.last && u.index + 1 == p.units
     | none => false))

/-- Whether the units granted before the running one have left the cells. -/
def State.cellsFree (s : State) (core : Nat) : Bool :=
  ((s.arr core).units.takeWhile fun u => u.isLut || decide (u.last ≤ u.cyc)).all fun u => !s.unitFolds u || decide (u.last < u.cyc)

/-- Whether a unit's first cycle must wait for the cells of another team or tile, or of another scale sum, to be folded (R270). -/
def ArrayUnit.mustSwitch (a : ArrayUnit) (u : PassUnit) : Bool :=
  match a.resident with
  | some (t, g, w) => !u.void && u.cyc == 0 && (t != u.tile || w != u.owner || (!floatMode u.mode && g != u.scale))
  | none => false

/-- Makes the cells ready for a unit's next cycle; none where the fold path still holds a shadow. -/
def State.openCells (s : State) (core : Nat) (u : PassUnit) : Option State :=
  if !s.cellsFree core then none
  else if !(s.arr core).mustSwitch u then some s
  else if (s.arr core).shadow.isSome then none
  else some (s.moveCells core false [] [] [])

/-- Counts a STALL fold (R272, R286). -/
def State.stallCount (s : State) (core : Nat) (u : PassUnit) : State :=
  (s.count core 0x0D 1).modPost u.entry fun p => { p with folds := min (p.folds + 1) 0xFFFF }

/-- Folds the cells and applies the cycle to the zeroed cells (R272, R273); none while the fold path is at work. -/
def State.fullFold (s : State) (core : Nat) (u : PassUnit) : Option State :=
  if (s.arr core).shadow.isSome then none
  else
    let s1 := s.moveCells core (floatMode u.mode) u.ea u.eb []
    ((s1.arr core).apply 4096 u).map fun a => s1.modArr core fun _ => a

/-- One array cycle on one array: applied, or with the cells folded first when the sump is full, which `stall` counts; none where it waits. -/
def State.cycleOn (s : State) (stall : Bool) (core : Nat) (u : PassUnit) : Option State :=
  match s.openCells core u with
  | none => none
  | some s1 =>
    match (s1.arr core).apply sumpSize u with
    | some a => some (s1.modArr core fun _ => a)
    | none => (s1.fullFold core u).map fun t => if stall then t.stallCount core u else t

/-- Whether a unit's next cycle meets a full sump. -/
def State.cycleFull (s : State) (core : Nat) (u : PassUnit) : Bool :=
  match s.openCells core u with
  | none => false
  | some s1 => ((s1.arr core).apply sumpSize u).isNone

/-- Pauses the running unit of an array (R272). -/
def State.pauseOn (s : State) (core : Nat) (b : Bool) : State := s.modArr core fun a => a.modRunning fun v => { v with paused := b }

/-- The arrays a unit runs on: its own, and for the leader of a pair its follower's, with the units there. -/
def State.unitArrays (s : State) (core : Nat) : List (Nat × PassUnit) :=
  (clusterMates core).filterMap fun c => ((s.arr c).running.filter fun u => u.leader == core).map fun u => (c, u)

/-- Whether the follower's array has come to its part of a leader's unit. -/
def State.mateReady (s : State) (core : Nat) (u : PassUnit) : Bool :=
  match u.mate with
  | some c => (s.unitArrays core).any fun e => e.1 == c
  | none => true

/-- Whether the folds of a full sump are those of STALL: the policy of its post, or what a TRAP unit without a fibre to trap goes on under. -/
def State.stalls (s : State) (core : Nat) (u : PassUnit) : Bool :=
  s.coreRuns core || (match NMap.find s.tables u.entry with | some p => !cfgTrap p.mctl.toNat | none => true)

/-- TADDR of SUMP_FULL (R273). -/
def sumpAddr (u : PassUnit) : Nat := u.tile + u.entry % 64 * 64 + u.index * 4096 + u.cyc * 65536

/-- Whether a unit pauses under TRAP: its post is live, its fibre is there to take SUMP_FULL, and its core is not being vacated (R283). -/
def State.unitTraps (s : State) (u : PassUnit) : Bool :=
  match NMap.find s.tables u.entry with
  | some p => cfgTrap p.mctl.toNat && !p.discarded && s.coreRuns u.leader && (NMap.find s.fibres p.cmd.fibre).isSome
  | none => false

/-- Raises SUMP_FULL on the fibre of a unit's post. -/
def State.raiseSump (s : State) (u : PassUnit) : State :=
  match NMap.find s.tables u.entry with
  | some p => s.modFibre p.cmd.fibre fun x => { x with sump := x.sump ++ [sumpAddr u] }
  | none => s

/-- One cycle on each of several arrays. -/
def State.cycleAll (stall : Bool) (s : State) : List (Nat × PassUnit) → Option State
  | [] => some s
  | (c, u) :: r =>
    match s.cycleOn stall c u with
    | none => none
    | some t => State.cycleAll stall t r

/-- The arrays of a leader's unit resume and run the cycle that was due; none where one must wait. -/
def State.cycleUnit (s : State) (stall : Bool) (core : Nat) : Option State :=
  let us := s.unitArrays core
  State.cycleAll stall (us.foldl (fun t e => t.pauseOn e.1 false) s) us

/-- ARRAY_CYCLE: the running unit of an array, and its follower's, add one cycle's products; a full sump folds under STALL and pauses under TRAP. A unit paused for a fibre that is gone goes on under STALL. -/
def execArrayCycle (core : Nat) (s : State) : Out :=
  match (s.arr core).running with
  | none => .next s
  | some u =>
    let us := s.unitArrays core
    if u.leader ≠ core ∨ s.cycle < u.grantAt + 9 + u.cyc ∨ s.mateReady core u = false then .next s
    else if u.paused && s.unitTraps u then .next s
    else if s.unitTraps u && us.any fun e => s.cycleFull e.1 e.2 then
      .next ((us.foldl (fun t e => t.pauseOn e.1 true) s).raiseSump u)
    else .next ((s.cycleUnit (s.stalls core u) core).getD s)

/-! mx.fold (R273, R280, R289). -/

/-- The leader of a unit paused under TRAP for a fibre. -/
def State.pausedFor (s : State) (f : Nat) : Option Nat :=
  (clusterMates (coreOf f)).find? fun c =>
    match (s.arr c).running with
    | some u => u.paused && u.leader == c && (NMap.find s.tables u.entry).any fun p => p.cmd.fibre == f
    | none => false

/-- Forgets a SUMP_FULL that a fibre holds: its unit is resumed. -/
def State.sumpResume (s : State) (f : Nat) : State := s.modFibre f fun x => { x with sump := x.sump.drop 1 }

/-- The handler's fold of a paused unit: the paused cycle runs on the zeroed cells, and the instruction completes with the fold (R273). -/
def State.sumpFold (s : State) (leader : Nat) (ops : List Nat) : Option State :=
  (s.cycleUnit false leader).map fun t =>
    match (s.unitArrays leader).find? fun e => (t.arr e.1).shadow.isSome with
    | some e => t.modArr e.1 fun a => { a with shadow := a.shadow.map fun (x : Shadow) => { x with ops := x.ops ++ ops } }
    | none => ops.foldl (fun v o => v.answerOp o []) t

/-- Whether a fibre is in the handler of a SUMP_FULL (R289). -/
def State.holdsSump (s : State) (f : Nat) : Bool :=
  s.handling f && (match NMap.find s.hwins (hlOf f) with | some w => w.holder == f && w.sump | none => false)

/-- `mx.fold` with SUMP (R273, R289): the paused unit's array is folded at once and the unit resumes; the instruction waits before issue while the fold path is at work. -/
def State.foldSump (s : State) (a : Src) (mask : Nat) : Out :=
  s.withX (mxForm 0x15 [(1, a)] none)
    (fun l =>
      let v := l.n 0 ||| mask
      if v - v % 64 ≠ 256 ∨ !s.holdsSump l.f ∨ (s.pausedFor l.f).isNone then some (badX 0x15) else none)
    never
    (fun g fs _ =>
      match s.pausedFor (fs.headD 0) with
      | some c => if (s.sumpFold c []).isNone then some (s.hold g .memory) else none
      | none => none)
    fun _ fs s2 _ ops =>
      let f := fs.headD 0
      match s2.pausedFor f with
      | none => s2
      | some c => ((s2.sumpFold c ops).getD s2).sumpResume f

/-- `mx.fold` with SUMP at 0 (R289). -/
def State.foldTile (s : State) (a : Src) : Out := s.mxTileCmd 0x15 [(1, a)] fun l => s.tileInvalid l.f (l.n 0)

/-- Whether the elected lane's control value has SUMP set, read without popping a queue. -/
def State.foldsSump (s : State) (a : Src) : Bool :=
  match s.cur with
  | none => false
  | some g =>
    match byLane (s.group g).members with
    | [] => false
    | f :: _ =>
      match s.readSrc [f] 1 a with
      | .ok (_, vs) => bit (Word.join (vs.headD [])) 8
      | .error _ => false

/-- `mx.fold` (R289). -/
def execMxFold (a : Src) (s : State) : Out := if s.foldsSump a then s.foldSump a 0 else s.foldTile a
/-- `mx.fold` with SUMP set (R273, R289). -/
def execMxFoldSump (a : Src) (s : State) : Out := s.foldSump a 256

/-! Folds and retirement (R270, R271, R279). -/

/-- The unit of an array whose cells are to move to the shadow. -/
def State.unitToFold (s : State) (core : Nat) : Option PassUnit :=
  ((s.arr core).units.find? fun u => !u.isLut && decide (u.cyc ≤ u.last)).filter fun u =>
    u.cyc == u.last && s.unitFolds u && decide (u.grantAt + 9 + u.last ≤ s.cycle)

/-- Changes the first unit of an array that stands at some point. -/
def ArrayUnit.modAt (a : ArrayUnit) (p : PassUnit → Bool) (k : PassUnit → PassUnit) : ArrayUnit :=
  match a.units.findIdx? p with
  | some i => { a with units := a.units.modify i k }
  | none => a

/-- Whether a head command of a core waits for its resident tile to be folded. -/
def State.headWantsFold (s : State) (core : Nat) : Bool :=
  match (s.arr core).resident with
  | none => false
  | some (t, _) =>
    (coreQueues core).any fun q =>
      match (s.mxGet q).cmds with
      | c :: _ => c.waiting && s.tileAt q c.tileNo == some t
      | [] => false

/-- Whether the cells of a core that is being vacated are to be folded (R283). -/
def State.haltFold (s : State) (core : Nat) : Bool :=
  decide ((s.core core).phase = .halting) && (s.arr core).units.isEmpty && (s.arr core).resident.isSome

/-- FOLD_MOVE: the cells of an ended unit, or of a core being vacated, or of the tile that a fold, drain or transfer at a queue's head names, move to the shadow once it is free. -/
def execFoldMove (core : Nat) (s : State) : Out :=
  if (s.arr core).shadow.isSome then .next s
  else
    match s.unitToFold core with
    | some u =>
      let at_ (v : PassUnit) : Bool := !v.isLut && v.cyc == v.last
      if u.void || (s.arr core).resident.isNone then .next (s.modArr core fun a => a.modAt at_ fun v => { v with cyc := v.last + 2 })
      else .next ((s.moveCells core (floatMode u.mode) u.ea u.eb []).modArr core fun a => a.modAt at_ fun v => { v with cyc := v.last + 1 })
    | none => if s.headWantsFold core || s.haltFold core then .next (s.moveCells core false [] [] []) else .next s

/-- Completes the `mx.fold` at the head of every queue of a core whose tile holds nothing loose. -/
def State.foldsDone (s : State) (core : Nat) : State :=
  (coreQueues core).foldl (fun t q => match t.mxAtWork q [0x15] with | some _ => t.mxDone q | none => t) s

/-- FOLD_WRITE_DONE: the fold path has written the shadow's entries. -/
def execFoldWriteDone (core : Nat) (s : State) : Out :=
  match (s.arr core).shadow with
  | none => .next s
  | some x =>
    if s.cycle < x.ready then .next s
    else
      let r := (s.arr core).foldWrite x
      let a := { r.1 with shadow := none }.modAt (fun v => !v.isLut && v.cyc == v.last + 1) fun v => { v with cyc := v.last + 2, outAt := s.cycle + 1 }
      let s1 := s.modArr core fun _ => a
      let s2 := if r.2 then s1.scaleRecord core x.tile ((s.tile core x.tile).sigma.getD 0) x.scale else s1
      .next ((x.ops.foldl (fun t o => t.answerOp o []) s2).foldsDone core)

/-- Deletes an ended team once no unit of its posts is left (R415). -/
def State.teamUnitsOver (s : State) (q : Nat) : State :=
  match NMap.find s.teams q with
  | some _ => s.dropEnded q
  | none => s

/-- A unit of a post retires; with the last one the post completes, frees its entry, and fires a binding under DEPAT 0 (R271, R279, R286). -/
def State.retirePost (s : State) (k : Nat) : State :=
  match NMap.find s.tables k with
  | none => s
  | some p =>
    let n := p.retired + 1
    if p.discarded then
      if n < p.granted then s.modPost k fun x => { x with retired := n } else (s.freeEntry k).teamUnitsOver p.queue
    else if n < p.units then s.modPost k fun x => { x with retired := n }
    else
      let s1 := s.freeEntry k
      let s2 := p.cmd.ops.foldl (fun t o => t.answerOp o [Word.ofNat (p.folds * 65536 + p.units)]) s1
      let s3 := s2.mxMod p.queue fun m => { m with done := (m.done + 1) % 4096 }
      match (s3.tile p.core p.tile).dep with
      | some (_, false, _) => if p.cmd.last then s3.fireDep p.core p.tile p.cmd.tileNo else s3
      | _ => s3

/-- Whether the oldest unit of an array may retire (R271). -/
def State.mayRetire (s : State) (u : PassUnit) : Bool :=
  if u.isLut then decide (u.grantAt + 25 ≤ s.cycle)
  else decide (u.grantAt + 9 + u.last ≤ s.cycle) && (if s.unitFolds u then u.cyc == u.last + 2 && decide (u.outAt ≤ s.cycle) else decide (u.last ≤ u.cyc))

/-- UNIT_RETIRE: the oldest unit of an array retires; an `mx.lut` leaves its tables in the table store. -/
def execUnitRetire (core : Nat) (s : State) : Out :=
  match (s.arr core).units with
  | [] => .next s
  | u :: us =>
    if !s.mayRetire u then .next s
    else
      let s1 := s.modArr core fun a =>
        { a with units := us,
                 lut := if u.isLut then some (u.queue, u.index, u.scale, u.rows) else a.lut }
      .next (s1.retirePost u.entry)

end Sys2Proof.Machine
end

