-- ==== Sys2Proof/Machine/Sched.lean ====
section
/-! DEFINITION. The events of issue: clause starts, splitting, slots, completion, exit, fences, waits, delivered traps (R34, R92 to R100, R113, R186, R189, R222, R224, R238, R242, R273, R413). -/

namespace Sys2Proof.Machine

/-! Starting a clause (R26 to R37, R93, R95, R100). -/


/-- The clause starts: every member stands at its first word; the group counts it while the QC is crowded (R99, R100, R234). -/
def State.enterClause (s : State) (g h : Nat) (code : List Loc) : State :=
  let s1 := s.modFibres (s.group g).members fun x => { x with pos := 1, npos := 1, hdr := h, code := code }
  (s1.modGroup g fun x => { x with stall := none, waited := 0, starts := if s.crowded (g / 16) then x.starts + 1 else 0 }).count (g / 64) 0x01 1

/-- Whether every flag named in WAIT stands at zero for each fibre given. -/
def State.allClear (s : State) (fs : List Nat) (h : Nat) : Bool := fs.all fun f => (s.fibre f).waitClear h

/-- Goes on with a fetched clause: absorbing all but some fibres, the WAIT of the fibres, the legality of the clause, its start. -/
def State.startClause (s : State) (g : Nat) (but : List Nat) (h : Nat) (code : List Loc) : State :=
  let note (t : State) : State := (t.group g).members.foldl (State.abandonFor h) (t.modFibres (t.group g).members fun x => { x with hdr := h })
  let s1 := note s
  if !s1.allClear (s1.group g).members h then s1.hold g .flags
  else
    let s2 := note (s1.absorb g but)
    let fs := byLane (s2.group g).members
    if !s2.allClear fs h then s2.hold g .flags
    else if !clauseLegal h ((code.drop 1).map s2.wordAtLoc) then
      s2.raise g fs (fs.map fun f => (f, Cond.plain clsIllegalClause))
    else s2.enterClause g h code

/-- Fetches the clause of a group that stands at its boundary, and starts it; it absorbs all but some fibres. -/
def State.beginClause (s : State) (g : Nat) (but : List Nat) : Out :=
  match byLane (s.group g).members with
  | [] => .next s
  | f :: fs =>
    match s.fetchClause f with
    | (_, .absent pa) => .fault (.physicalAddressAbsent pa)
    | (s1, .fault c) => .next (s1.raise g (f :: fs) ((f :: fs).map fun k => (k, c)))
    | (s1, .ok h code) => .next (s1.startClause g but h code)

/-- Whether a group stands whole at a clause boundary. -/
def State.atBoundary (s : State) (g : Nat) : Bool := (s.group g).members.all fun f => (s.fibre f).pos == 0

/-- Evicts a group: its fibres are READY with their stamps unchanged and its slot is filled (R100). -/
def State.evict (s : State) (g : Nat) : State := (((s.dropGroup g).unseat (s.group g).members).count (g / 64) 0x0A 1).refill (g / 16)

/-- A group starts its clause (R34); one whose count has reached 4096 is evicted there (R100). -/
def execClauseStart (g : Nat) (s : State) : Out :=
  if !s.mayIssue g || !s.atBoundary g then .next s
  else if 4096 ≤ (s.group g).starts ∧ s.crowded (g / 16) = true then .next (s.evict g)
  else s.beginClause g []

/-- A group that has started 4096 clauses while fibres wait is evicted at its boundary (R100). -/
def execGroupEviction (g : Nat) (s : State) : Out :=
  if 4096 ≤ (s.group g).starts ∧ s.crowded (g / 16) = true ∧ s.atBoundary g = true ∧ (s.group g).members ≠ [] then .next (s.evict g) else .next s

/-- Fibres wait in the fibre table, BLOCKED; one whose own flags already satisfy the condition is READY at once (R413). -/
def State.block (s : State) (fs : List Nat) (w : Fibre → Wait) : State :=
  fs.foldl State.wakeFlags (s.modFibres fs fun y => { y with status := .blocked, wait := some (w y) })

/-- After 64 cycles of partial readiness the ready quads keep the slot and start the clause; the others take a free slot or wait in the fibre table (R95). The group absorbs what it may, but not the quads just split off (R93). -/
def execQuadSplit (g : Nat) (s : State) : Out :=
  let x := s.group g
  let quads := partsBy (fun f => laneOf f / 4) (byLane x.members)
  let isReady (q : List Nat) : Bool := q.all fun f => (s.fibre f).waitClear (s.fibre f).hdr
  let go := (quads.filter isReady).flatten
  let stay := (quads.filter fun q => !isReady q).flatten
  if x.stall ≠ some .flags ∨ x.waited < 64 ∨ go.isEmpty = true ∨ stay.isEmpty = true ∨ s.atBoundary g = false ∨ s.mayIssue g = false then .next s
  else
    let s1 := s.modGroup g fun y => { y with members := go, stall := none, waited := 0 }
    let s2 := match s1.freeGroups (g / 16) with
      | k :: _ => (s1.seat k stay).hold k .flags
      | [] => s1.block stay fun _ => .flags
    s2.beginClause g stay

/-- A ready group that has issued nothing for 4096 cycles takes priority 3 (R99). -/
def execGroupPriorityBoost (g : Nat) (s : State) : Out :=
  if 4096 ≤ (s.group g).ready then .next (s.modGroup g fun x => { x with boosted := true }) else .next s

/-! Releasing a slot (R97, R413). -/

/-- The wait each fibre keeps. -/
def Wait.kept (w : Wait) (x : Fibre) : Wait := x.wait.getD w

/-- Whether a stall is one that R97 releases a slot for: every one but the order of memory accesses and of commands, and a back-edge on a pending register. -/
def Wait.releases : Wait → Bool
  | .memory => false
  | _ => true

/-- A fibre of a released group takes its own place among the waits of its pipe. -/
def State.joinWait (w : Wait) (s : State) (f : Nat) : State :=
  let enter (k : Nat) (inbox : Bool) : State := s.modPipe k fun p =>
    if p.waiting.any fun e => e.fibre == f && e.ops.isEmpty then p
    else { p with waiting := p.waiting ++ [{ fibre := f, acquire := inbox, ops := [] }] }
  match w with
  | .reserve k => enter k false
  | .acquire k => enter k true
  | _ => s

/-- A group unable to issue for 256 cycles releases its slot while a READY fibre finds none: its fibres are BLOCKED and keep their position, and its pool requests are withdrawn (R97, R413). -/
def execGroupSlotRelease (g : Nat) (s : State) : Out :=
  let x := s.group g
  match x.stall with
  | none => .next s
  | some w =>
    if x.waited < 256 ∨ w.releases = false ∨ s.crowded (g / 16) = false then .next s
    else
      let s1 := x.members.foldl (State.joinWait w) ((s.dropGroup g).count (g / 64) 0x0B 1)
      .next ((s1.block x.members w.kept).refill (g / 16))

/-! Completion (R34, R36, R179, R242). -/

/-- Lanes of a load or reply whose results go to a queue: all have their words, and they are pushed in lane order at once (R242). -/
def State.pushLanes (s : State) (o q : Nat) (x : Op) : State :=
  let ids := sortBy (fun i => match NMap.find s.ops i with | some y => y.fibre | none => 0) (o :: x.peers.filter fun p => (NMap.find s.ops p).isSome)
  let vals := ids.map fun i => (NMap.find s.ops i).bind fun y => if y.left = 0 then y.value else none
  if vals.any Option.isNone then s
  else
    let ws := (vals.map fun v => v.getD []).flatten
    let core := coreOf x.fibre
    match s.poolAsk (waiterOp (ids.headD o)) core [(instQreg q, freshEntries ((s.core core).queue q) ws.length)] with
    | .ok t => ids.foldl State.completeOp (t.qPlace core q ws)
    | .error (t, _, _) => t

/-- Wakes the fibres of a core that wait for memory order. -/
def State.wakeMemory (s : State) (core : Nat) : State :=
  ((s.fibres.filter fun e => coreOf e.1 == core && decide (e.2.status = .blocked ∧ e.2.wait = some .memory)).map Prod.fst).foldl State.wake s

/-- A variable-latency instruction completes in a lane (R34); data that an uncorrectable error has poisoned ends the context instead (R179). -/
def execOperationComplete (op : Nat) (s : State) : Out :=
  match NMap.find s.ops op with
  | none => .next s
  | some x =>
    if x.left ≠ 0 then .next s
    else
      match x.poisoned with
      | some line => .next (s.poisonReset (s.ctxOf x.fibre) (s.originOf x.fibre) x.at_.1 x.at_.2 line)
      | none =>
        match x.dst with
        | .queue q => .next ((s.pushLanes op q x).wakeMemory (coreOf x.fibre))
        | _ => .next ((s.completeOp op).wakeMemory (coreOf x.fibre))

/-- An `exit` commits (R113). -/
def execExitCommit (f : Nat) (s : State) : Out := if s.exitReady f then .next (s.commitExit f) else .next s

/-! Fences and deferred accesses (R176, R186, R209, R351). -/

/-- The lanes of a deferred store or atomic, in lane order: operation, fibre and access. -/
def State.deferred (s : State) (o : Nat) (x : Op) : List (Nat × Nat × Todo) :=
  let ids := sortBy (fun i => match NMap.find s.ops i with | some y => y.fibre | none => 0) (o :: x.peers)
  ids.filterMap fun i => (NMap.find s.ops i).bind fun y => y.todo.map fun t => (i, y.fibre, t)

/-- Performs a deferred store or atomic once every lane's release is done; one that the write-combining buffer has no line for waits (R352). -/
def State.performDeferred (s : State) (o : Nat) (x : Op) (r : Rel) : State :=
  let core := coreOf x.fibre
  let s1 := s.modOp o fun y => { y with rel := none }
  if x.peers.any fun p => match NMap.find s1.ops p with | some y => y.rel.isSome | none => false then s1
  else
    let s2 := s1.perform core (s.fibre x.fibre).lat (s1.deferred o x)
    if s2.wcFits core then s2 else (s.closeOldest core).modOp o fun y => { y with rel := some r }

/-- A fence, or the release of a store or atomic, goes on with its waits, and ends when they are over (R186). -/
def execFenceDone (f : Nat) (s : State) : Out :=
  match NMap.find s.fibres f with
  | none => .next s
  | some x =>
    match x.fence with
    | some r => .next (s.fenceStep f r)
    | none =>
      match s.ops.find? fun e => e.2.fibre == f && e.2.rel.isSome with
      | none => .next s
      | some (o, y) =>
        match y.rel with
        | none => .next s
        | some r =>
          let t := s.relTick (coreOf f) f r
          if t.2.2 then .next (t.1.performDeferred o y t.2.1) else .next (t.1.modOp o fun z => { z with rel := some t.2.1 })

/-! Waits (R189, R238, R242). -/

/-- A fibre that watches a scratchpad word reads it again (R189). -/
def execWaitaddrWake (f : Nat) (s : State) : Out :=
  match (s.fibre f).wait with
  | some (.waitaddr _) => .next (s.wake f)
  | some (.woken _) => .next (s.wake f)
  | _ => .next s

/-- Whether the queue wait of some lanes is over (R242, R413). -/
def State.queueOver (s : State) (core lanes : Nat) : Wait → Bool
  | .pop q n => decide (n * lanes ≤ ((s.core core).queueWords q).length)
  | .push q n => s.qAdmits core q (n * lanes)
  | _ => false

/-- A waiting pop or push finds its words or its room: the group, or the BLOCKED fibre, issues it again and it completes whole (R242, R413). -/
def execQueueWaitDone (f : Nat) (s : State) : Out :=
  match s.groupOf f with
  | some g =>
    match (s.group g).stall with
    | some w => if s.queueOver (g / 64) (s.group g).members.length w then .next (s.unhold g) else .next s
    | none => .next s
  | none =>
    match (s.fibre f).wait with
    | some w => if s.queueOver (coreOf f) 1 w then .next (s.wake f) else .next s
    | none => .next s

/-- The oldest refused request of a core that may be granted now: its group issues again and takes its entries (R238). -/
def execPoolGrant (core : Nat) (s : State) : Out :=
  match s.poolq.find? fun r => r.core == core && !s.poolBehind r.who core r.inst && (s.core core).admits r.inst r.n with
  | some r => .next (s.unhold r.who)
  | none => .next s

/-! Delivered traps (R224, R273). -/

/-- A lane that waits for the handler window takes it (R224). -/
def execTrapTake (f : Nat) (s : State) : Out := .next (s.takeWaiting f)

/-- The position after the instruction a fibre has not issued yet. -/
def State.nposOf (s : State) (x : Fibre) : Nat :=
  if x.pos = 0 then 0
  else match x.code[x.pos]? with
    | some l => x.pos + 1 + extCount (s.wordAtLoc l).toNat
    | none => x.pos + 1

/-- Waits that SUMP_FULL ends: a clause WAIT or a blocking instruction, not a parked fault, another trap or a halt (R273). -/
def Wait.opens : Wait → Bool
  | .parked _ _ => false
  | .faultFull => false
  | .handlerWindow _ => false
  | .halted => false
  | _ => true

/-- SUMP_FULL is delivered to the fibre of a post before its next instruction (R273). -/
def execSumpFull (f : Nat) (s : State) : Out :=
  match NMap.find s.fibres f with
  | none => .next s
  | some x =>
    match x.sump with
    | [] => .next s
    | a :: _ =>
      let open_ := match x.wait with | some w => w.opens | none => true
      if decide (x.mode = .handler) || x.pos == arriving || !open_ then .next s
      else
        let s1 := match s.groupOf f with
          | some g => s.leave g [f]
          | none => s
        let s2 := { (s1.unseat [f]).modFibre f (fun y => { y with fence := none, npos := s.nposOf x }) with
          pipes := s1.pipes.map fun (e : Nat × Pipe) => (e.1, { e.2 with waiting := e.2.waiting.filter fun w => !(w.fibre == f && w.ops.isEmpty) }) }
        .next ((s2.toHandler none [(f, { Cond.plain clsSumpFull with addr := some a })]).refill (qcOf f))

/-! Leased stages (R222). -/

/-- The residency ranges of a stage: base and length. -/
def Stage.leases (g : Stage) : List (Nat × Nat) := (List.range 8).map fun i => (dwordAt g.rec_ (32 + 4 * i), dwordAt g.rec_ (34 + 4 * i))

/-- Whether every page of a range is mapped. -/
def State.rangeResident (s : State) (ctx : Nat) (r : Nat × Nat) : Bool :=
  (List.range ((r.1 % 4096 + r.2 + 4095) / 4096)).all fun i => match s.walk ctx (r.1 / 4096 * 4096 + 4096 * i) with | .ok _ => true | _ => false

/-- The loader walks the waiting pages of a leased stage again; once all are resident it may launch (R222). -/
def execLeaseRewalk (plan stage : Nat) (s : State) : Out :=
  match s.stage? plan stage with
  | none => .next s
  | some g =>
    if (g.leases.filter fun r => r.2 != 0).all (s.rangeResident (plan / 16)) then .next (s.modStage plan stage fun x => { x with pagesReady := true })
    else .next s

/-! Commands whose guard has been resolved (R243, R254). -/

/-- Runs a status read, or a launch that has waited for its fibre's memory instructions. -/
def runStatCmd (c : XCmd) (s : State) : State :=
  if c.fn = 0x07 then runCpStat c s else if c.fn = 0x53 then runFxStat c s else if c.fn = 0x45 then runLaunch c s else runMxStat c s

/-- Whether a command is another lane's of the `t.spawn` that a command belongs to. -/
def State.spawnMate (s : State) (c x : XCmd) : Bool :=
  c.fn == 0x42 && x.fn == 0x42 && c.ops.any fun o => match NMap.find s.ops o with | some y => x.ops.any y.peers.contains | none => false

/-- Runs the commands at the head of a queue as far as no guard holds them; the lanes of a `t.spawn` that run are one command, all or nothing (R327). -/
def State.drainQueue (core : Nat) (q : XQueue) (run : XCmd → State → State) : Nat → State → State
  | 0, s => s
  | n + 1, s =>
    match (s.core core).xq q with
    | [] => s
    | c :: r =>
      let mates := r.filter (s.spawnMate c)
      if c.guard.isSome || mates.any fun x => x.guard.isSome then s
      else
        State.drainQueue core q run n (run { c with lanes := c.lanes ++ mates.flatMap XCmd.lanes }
          (s.modCore core fun y => y.setXq q (r.filter fun x => !s.spawnMate c x)))

/-- Runs every status read that no guard holds; one does not wait for another. -/
def State.drainStats (s : State) (core : Nat) : State :=
  let xs := (s.core core).statq
  (xs.filter fun c => c.guard.isNone).foldl (fun t c => runStatCmd c t)
    (s.modCore core fun y => { y with statq := y.statq.filter fun c => c.guard.isSome })

/-- What the engines of a core do by themselves in a cycle. -/
def State.drainCore (s : State) (core : Nat) : State :=
  if (s.core core).phase ≠ .running ∧ (s.core core).phase ≠ .halting then s else
  let s1 := State.drainQueue core .pipe runPipeCmd (s.core core).pipeq.length s
  let s2 := State.drainQueue core .fab runFabCmd (s1.core core).fabq.length s1
  s2.drainStats core

/-- What every core's engines do by themselves in a cycle, the fences whose reflections have come back (R361), and the plans whose completion words wait for their release. -/
def State.drain (s : State) : State :=
  let s1 := (State.fxProgress ((s.cores.map Prod.fst).foldl State.drainCore s)).markCandidates
  (s1.plans.map Prod.fst).foldl State.planCheck s1

end Sys2Proof.Machine
end

