-- ==== Sys2Proof/Machine/Deadlock.lean ====
section
/-! DEFINITION. Deadlock among the stages of a plan: blocked stages, cycles, the spill grant, the drain and its image, probes across devices (R308 to R312, R400). -/

namespace Sys2Proof.Machine

/-! Blocked stages (R308, R321). -/

/-- A wait-for edge: the pipe waited on, and whether the wait is a full one. -/
structure Edge where
  pipe : Nat
  full : Bool
deriving DecidableEq, Repr

/-- The wait that holds a fibre before issue: its group's where it stands in one, else its own. -/
def State.heldBy (s : State) (f : Nat) : Option Wait :=
  match s.groupOf f with
  | some g => (s.group g).stall
  | none => (s.fibre f).wait

/-- The pipes a fibre waits on: the one it is held at before issue, or those at which a command waits whose flag its clause WAIT names. -/
def State.edgesOf (s : State) (f : Nat) : List Edge :=
  match s.heldBy f with
  | some (.reserve k) => [⟨k, true⟩]
  | some (.acquire k) => [⟨k, false⟩]
  | some .flags =>
    let counted (o : Nat) : Bool := match NMap.find s.ops o with
      | some x => x.fibre == f && (match x.flag with | some i => bit (s.fibre f).hdr (4 + i) | none => false)
      | none => false
    s.pipes.flatMap fun e => (e.2.waiting.filter fun w => w.ops.any counted).map fun w => ⟨e.1, !w.acquire⟩
  | _ => []

/-- The live fibres of a stage, those in shadow storage too. -/
def State.stageFibres (s : State) (plan stage : Nat) : List Nat := (s.stageTeams (stageKey plan stage)).flatMap s.teamFibres

/-- Whether a stage is blocked. -/
def State.stageBlocked (s : State) (plan stage : Nat) (g : Stage) : Bool :=
  let fs := s.stageFibres plan stage
  !fs.isEmpty && decide (g.teams ≤ g.next) && fs.all fun f => !(s.edgesOf f).isEmpty

/-- Notes since when each stage of a running plan has been blocked. -/
def State.markBlocked (s : State) : State :=
  (s.plans.filter fun e => decide (e.2.state = .running)).foldl (fun t e =>
    (indexed e.2.stages).foldl (fun u x =>
      u.modStage e.1 x.1 fun g => { g with blocked := if s.stageBlocked e.1 x.1 x.2 then some (g.blocked.getD s.horizon) else none }) t) s

/-! The wait-for graph (R308). -/

/-- Whether a stage has been blocked for the detection time. -/
def State.ripe (s : State) (x : Plan) (i : Nat) : Bool :=
  match (x.stages[i]?).bind Stage.blocked with
  | some t => decide (t + x.detect ≤ s.horizon)
  | none => false

/-- The edges of a stage. -/
def State.stageEdges (s : State) (plan i : Nat) : List Edge := ((s.stageFibres plan i).flatMap s.edgesOf).dedup

/-- The stage of this device that an edge leads to: none where it leads to the peer (R305, R308). -/
def State.edgeTo (s : State) (e : Edge) : Option Nat :=
  match s.pipe? e.pipe with
  | some p => if p.xdev then none else some (if e.full then p.cons else p.prod)
  | none => none

/-- The stages that a ripe stage waits for, ripe ones only. -/
def State.next (s : State) (plan : Nat) (x : Plan) (i : Nat) : List Nat :=
  if s.ripe x i then (((s.stageEdges plan i).filterMap s.edgeTo).filter (s.ripe x)).dedup else []

/-- The shortest path from a stage of a list of paths to a goal, by breadth; each path stands last stage first. -/
def State.pathTo (s : State) (plan : Nat) (x : Plan) (goal : Nat) : Nat → List (List Nat) → Option (List Nat)
  | 0, _ => none
  | n + 1, paths =>
    match paths.find? fun p => p.head? == some goal with
    | some p => some p
    | none =>
      State.pathTo s plan x goal n (paths.flatMap fun p => match p with
        | i :: _ => ((s.next plan x i).filter fun j => !p.contains j).map fun j => j :: p
        | [] => [])

/-- The stages of the shortest cycle through an edge from a stage to another. -/
def State.cycleBy (s : State) (plan : Nat) (x : Plan) (from_ goal : Nat) : Option (List Nat) :=
  if s.ripe x from_ && s.ripe x goal then s.pathTo plan x from_ (x.stages.length + 1) [[goal]] else none

/-- Every cycle found: its eligible pipe, or none for a cycle without a full wait, and its stages; eligible pipes first, ascending (R309). -/
def State.cycles (s : State) (plan : Nat) (x : Plan) : List (Option Nat × List Nat) :=
  let is := (List.range x.stages.length).filter (s.ripe x)
  let es := is.flatMap fun i => (s.stageEdges plan i).filterMap fun e => (s.edgeTo e).map fun j => (i, e, j)
  let full := es.filter fun e => e.2.1.full
  let keys := sortBy id ((full.map fun e => e.2.1.pipe).dedup)
  let a := keys.filterMap fun k => (full.filter fun e => e.2.1.pipe == k).findSome? fun e => (s.cycleBy plan x e.1 e.2.2).map fun c => (some k, c)
  let b := es.filterMap fun e => (s.cycleBy plan x e.1 e.2.2).map fun c => (none, c)
  a ++ b.take 1

/-! What is done about a deadlock (R309, R310, R400). -/

/-- The event PIPELINE_DEADLOCK. -/
def State.deadlockEvent (s : State) (x : Plan) (mask act : Nat) (probe : Bool) : State :=
  s.event 0x03 ([x.ctx + 16 * x.number, mask, act] ++ lowHigh s.horizon ++ [b2n probe])

/-- Tiles reserved and not published by the teams of a plan. -/
def State.reservedTiles (s : State) (plan : Nat) : Nat :=
  ((s.pipes.filter fun e => e.1 / 4096 == plan).map fun e =>
    ((e.2.rings.filter fun r => !r.inbox).map fun r => (r.slots.filter fun x => x.1 == 1).length).sum).sum

/-- Every team of a plan, those in shadow storage too. -/
def State.planTeams (s : State) (plan : Nat) : List Nat := (s.teams.filter fun e => e.2.plan == plan && !e.2.ended).map Prod.fst

/-- A pipe is drained: releases under way are performed, nothing waits at it any more (R306, R310, R415). -/
def Pipe.drain (p : Pipe) : Pipe :=
  { ((p.updates.filter fun u => !u.publish).foldl Pipe.applyRel p) with drained := true, updates := [], waiting := [] }

/-- A plan goes to DRAINING: its teams are ended, its pipes drained, queued tasks and counters discarded (R306, R310). -/
def State.drainPlan (s : State) (plan : Nat) (x : Plan) (mask : Nat) (probe : Bool) : State :=
  let lost := s.reservedTiles plan
  let s1 := (s.deadlockEvent x mask 0x80000FFF probe).modPlan plan fun y =>
    { y with state := .draining, cycle := mask, lost := lost, drainAt := s.horizon }
  let s2 := (s1.planTeams plan).foldl (fun t k => t.endTeam k true) s1
  (s2.planPipes plan).foldl (fun t k => t.modPipe k Pipe.drain)
    (s2.modPlan plan fun y => { y with stages := y.stages.map fun g =>
      { g with tasks := [], updates := [], held := [], counters := g.counters.map fun _ => 0 } })

/-- The spill grant: the pipe becomes EXTENDED and its oldest full wait is granted (R309). -/
def State.spillGrant (s : State) (plan : Nat) (x : Plan) (k mask : Nat) (probe : Bool) : State :=
  let s1 := (s.modPipe k fun p => { p with extended := true }).modPlan plan fun y => { y with grants := s.horizon :: y.grants }
  (s1.deadlockEvent x mask (k % 4096) probe).grantWaits k

/-- Whether every stage of a cycle became blocked within one detection time after an earlier grant. -/
def Plan.again (x : Plan) (c : List Nat) : Bool :=
  x.grants.any fun t => c.all fun i =>
    match (x.stages[i]?).bind Stage.blocked with
    | some b => decide (t ≤ b ∧ b ≤ t + x.detect)
    | none => false

/-- DPOL is DRAIN. -/
def Plan.drains (x : Plan) : Bool := bits (wordAt x.hdr 0) 31 30 == 1

/-- Handles one deadlock of a plan. -/
def State.handleCycle (s : State) (plan : Nat) (x : Plan) (c : Option Nat × List Nat) : State :=
  match c.1 with
  | none => s.drainPlan plan x (maskOf c.2) false
  | some k =>
    let extended := match s.pipe? k with | some p => p.extended | none => true
    if x.drains || extended || x.again c.2 then s.drainPlan plan x (maskOf c.2) false
    else s.spillGrant plan x k (maskOf c.2) false

/-! Probes (R312). -/

/-- No eligible pipe yet on the path of a probe. -/
def noLow : Nat × Nat := (2 ^ 16, 0)
/-- The lower of two (device, pipe) pairs. -/
def lowOf (a b : Nat × Nat) : Nat × Nat := if a.1 < b.1 ∨ (a.1 = b.1 ∧ a.2 ≤ b.2) then a else b

/-- The lowest eligible pair once an edge has been added to a path. -/
def lowBy (low : Nat × Nat) (e : Edge) : Nat × Nat := if e.full then lowOf low (ownDevice, e.pipe) else low

/-- Whether a stage is blocked. -/
def Plan.blocked (x : Plan) (i : Nat) : Bool := ((x.stages[i]?).bind Stage.blocked).isSome

/-- The cross-device edges reached from a stage along wait-for edges of blocked stages of this device, each with the lowest eligible pair of its path. -/
def State.remoteEdges (s : State) (plan : Nat) (x : Plan) : Nat → List Nat → Nat → Nat × Nat → List (Edge × (Nat × Nat))
  | 0, _, _, _ => []
  | n + 1, seen, i, low =>
    if !x.blocked i || seen.contains i then []
    else (s.stageEdges plan i).flatMap fun e =>
      match s.edgeTo e with
      | some j => State.remoteEdges s plan x n (i :: seen) j (lowBy low e)
      | none => match s.pipe? e.pipe with
        | some p => if p.xdev then [(e, lowBy low e)] else []
        | none => []

/-- Sends a probe over a remote edge to the pump at its far end. -/
def State.sendProbe (s : State) (origin : Nat × Nat) (crossed : Nat) (e : Edge × (Nat × Nat)) : State :=
  match s.pipe? e.1.pipe with
  | some p => { s with fabOut := s.fabOut ++ [.probe p.peer.1 p.peer.2 origin.1 origin.2 e.2.1 e.2.2 (crossed + 1)] }
  | none => s

/-- The probes of the stages of a plan that have been blocked on a cross-device pipe for the detection time. -/
def State.startProbes (s : State) (plan : Nat) (x : Plan) : State :=
  ((List.range x.stages.length).filter (s.ripe x)).foldl (fun t i =>
    (s.stageEdges plan i).foldl (fun u e =>
      match s.pipe? e.pipe with
      | some p => if p.xdev then u.sendProbe (ownDevice, e.pipe) 0 (e, lowBy noLow e) else u
      | none => u) t) s

/-- The stages of a plan that have been blocked for the detection time, one bit each. -/
def State.ripeMask (s : State) (x : Plan) : Nat := maskOf ((List.range x.stages.length).filter (s.ripe x))

/-- A grant for a pipe of this device, under R309: one slot, unless the pipe is EXTENDED already. -/
def State.takeGrant (s : State) (k : Nat) : State :=
  match s.plan? (k / 4096), s.pipe? k with
  | some x, some p =>
    if x.state ≠ .running then s
    else if p.extended then s.drainPlan (k / 4096) x (s.ripeMask x) true
    else s.spillGrant (k / 4096) x k (s.ripeMask x) true
  | _, _ => s

/-- A grant that comes from another device: it finds its deadlock, a full wait on the pipe of a stage blocked for the detection time, or has no effect (log 61). -/
def State.remoteGrant (s : State) (k : Nat) : State :=
  match s.plan? (k / 4096), s.pipe? k with
  | some x, some p => if s.ripe x p.prod && p.waiting.any fun w => !w.acquire then s.takeGrant k else s
  | _, _ => s

/-- A probe that has come back to its origin: a deadlock across devices, handled under the origin's DPOL. -/
def State.probeHome (s : State) (k : Nat) (x : Plan) (low : Nat × Nat) : State :=
  let plan := k / 4096
  let mask := s.ripeMask x
  if x.drains || low == noLow then s.drainPlan plan x mask true
  else if low.1 = ownDevice then s.takeGrant low.2
  else
    let t := s.deadlockEvent x mask (low.2 % 4096) true
    { t with fabOut := t.fabOut ++ [.grant low.1 low.2] }

/-- DEADLOCK_PROBE: a probe from the far end of a pipe of this device declares a deadlock when one of the edges it goes on along is its origin pipe's, is forwarded along every edge of a blocked stage, or is dropped (R312). A pipe is named by its key, which tells the plans of a device apart (log 56). -/
def execDeadlockProbe (pipe originDev originPipe lowDev lowPipe crossed : Nat) (s0 : State) : Out :=
  let s := s0.markBlocked
  match s.plan? (pipe / 4096), s.pipe? pipe with
  | some x, some p =>
    let i := if p.xend then p.cons else p.prod
    if x.state ≠ .running ∨ 1024 ≤ crossed then .next s
    else
      let es := s.remoteEdges (pipe / 4096) x 17 [] i (lowDev, lowPipe)
      match if originDev = ownDevice then es.find? fun e => e.1.pipe == originPipe else none with
      | some e => .next (s.probeHome originPipe x e.2)
      | none => .next (es.foldl (fun t e => t.sendProbe (originDev, originPipe) crossed e) s)
  | _, _ => .next s

/-! The scan (R308, R309). -/

/-- Examines one running plan, a cycle at a time and afresh after each. -/
def State.scanPlan (plan : Nat) : Nat → State → State
  | 0, s => s
  | n + 1, s =>
    match s.plan? plan with
    | none => s
    | some x =>
      if x.state ≠ .running then s
      else
        match s.cycles plan x with
        | c :: _ => State.scanPlan plan n ((s.handleCycle plan x c).markBlocked)
        | [] => s.startProbes plan x

/-- DEADLOCK_SCAN: grants that have arrived are taken, then every running plan is examined (R308, R309, R312). -/
def execDeadlockScan (s : State) : Out :=
  let s1 := s.grantsIn.foldl State.remoteGrant { s with grantsIn := [] }
  let s2 := s1.markBlocked
  .next ((s2.plans.map Prod.fst).foldl (fun t p => State.scanPlan p 64 t) s2)

/-! The drain image (R310). -/

/-- The bytes of the image of one pipe: its record, then its tiles in publication order. -/
def State.pipeImage (s : State) (k : Nat) : List Byte :=
  match s.pipe? k with
  | some p =>
    bytesOf [Word.ofNat (k % 4096), Word.ofNat p.tiles.length, Word.ofNat p.slotB, 0] ++ p.tiles.flatMap (s.tileBytes k p)
  | none => []

/-- The drain image of a plan. -/
def State.drainImage (s : State) (plan : Nat) (x : Plan) : List Byte :=
  let ks := s.planPipes plan
  let head := [Word.ofNat ks.length, Word.ofNat (s.tilesLeft plan), Word.ofNat (x.drainAt % 2 ^ 32), Word.ofNat (x.drainAt / 2 ^ 32)] ++ List.replicate 12 0
  bytesOf head ++ ks.flatMap s.pipeImage

/-- DRAIN_IMAGE_COMPLETE: the pumps have written the image, and the plan is STOPPED (R301, R310, R400). -/
def execDrainImageComplete (plan : Nat) (s : State) : Out :=
  match s.plan? plan with
  | none => .next s
  | some x =>
    if x.state ≠ .draining ∨ s.heldAct (s.partOf x.ctx) 1 = true then .next s
    else
      let bs := s.drainImage plan x
      let s1 := (s.virtWrite x.ctx x.spilla bs).meterLines (s.partOf x.ctx) (List.replicate (bs.length / 64) 0)
      .next ((s1.event 0x04 ([x.ctx + 16 * x.number, x.cycle, s.tilesLeft plan] ++ lowHigh s.horizon ++ [x.lost])).removePlan plan)

end Sys2Proof.Machine
end

