-- ==== Sys2Proof/Machine/FabricEvents.lean ====
section
/-! DEFINITION. The events of the pod fabric: egress, acknowledgment, refusal, resend, arrival and application of packets, planes (R347 to R361). -/

namespace Sys2Proof

/-- The bytes a packet touches in its window: first and past the last. -/
def PacketBody.extent : PacketBody → Nat × Nat
  | .store bs => (bs.foldl (fun m b => min m b.1) (2 ^ 32), bs.foldl (fun m b => max m (b.1 + 1)) 0)
  | .add o _ _ _ => (o, o + 4)
  | .sig o _ => (o, o + 4)
  | .reply o _ => (8 * o, 8 * o + 8)
  | _ => (0, 1)

/-- Whether a body needs W alone: a store, a reply, or the signal of a publication (R349, R359). -/
def PacketBody.stores : PacketBody → Bool
  | .add _ _ _ _ => false
  | .sig _ _ => false
  | _ => true

/-- Whether a body is a remote add, or the reply of one. -/
def PacketBody.isAdd : PacketBody → Bool
  | .add _ _ _ _ => true
  | _ => false
def PacketBody.isReply : PacketBody → Bool
  | .reply _ _ => true
  | _ => false

end Sys2Proof

namespace Sys2Proof.Machine

/-- A window enters ERROR; every fence that covers it fails (R357, R361). -/
def State.winError (s : State) (e reason : Nat) : State :=
  { (s.modWin e fun w => { w with state := .error, reason := reason }) with
    fxf := s.fxf.map fun x =>
      if x.covered.contains e then { x with failed := if x.failed.contains e then x.failed else e :: x.failed, since := s.horizon } else x }

/-- A line of a core's write-combining buffer is free: fibres that wait for one go on (R352). -/
def State.wakeLines (s : State) (core : Nat) : State :=
  ((s.fibres.filter fun e => coreOf e.1 == core && decide (e.2.status = .blocked ∧ e.2.wait = some .wcLine)).map Prod.fst).foldl State.wake s

/-- A producing pump sends again a tile it has not been told of as taken: one that is part sent, or whose publication has been discarded (R305). -/
def Pipe.unsent (e : Nat) (gone : List SentPacket) (p : Pipe) : Pipe :=
  let lost (t : PipeTile) : Bool := !t.delivered || gone.any fun q => !q.acked && q.body == .publish p.peer.2 t.num
  if p.xdev && !p.xend && p.win == e then
    { p with tiles := p.tiles.map fun t => if lost t then { t with delivered := false, lines := 0 } else t } else p

/-- Discards the packets and lines of an entry: their commands end without effect, and every fence that covers one fails (R357). -/
def State.winDiscard (s : State) (e : Nat) : State :=
  let w := s.win e
  let fs := (w.packets.flatMap SentPacket.fibres) ++ s.cores.flatMap fun c => (c.2.wcb.filter fun l => l.entry == e).flatMap WcLine.fibres
  let s1 := { s with
    fxf := s.fxf.map (fun (x : FxFence) => if fs.contains x.fibre && !x.failed.contains e then { x with failed := e :: x.failed } else x)
    pipes := s.pipes.map fun (x : Nat × Pipe) => (x.1, x.2.unsent e w.packets)
    cores := s.cores.map fun (c : Nat × Core) => (c.1, { c.2 with wcb := c.2.wcb.filter fun l => l.entry != e }) }
  let s2 := w.packets.foldl (fun t p => t.poolReturn p.core instFabric p.entries) (s1.modWin e fun x => { x with packets := [] })
  State.fxProgress ((s.cores.map Prod.fst).foldl State.wakeLines (s2.discardOps ((w.packets.filterMap SentPacket.op).dedup)))

/-! Egress (R352, R354, R355). -/

/-- What waits to leave under an entry: core, stamp, fibres, and whether it may go (a line once it is closed). -/
def State.egressItems (s : State) (e : Nat) : List (Nat × Nat × List Nat × Bool) :=
  (s.cores.flatMap fun c => (c.2.wcb.filter fun l => l.entry == e).map fun l => (c.1, l.stamp, l.fibres, l.closed)) ++
    ((s.win e).packets.filter fun p => !p.sent).map fun p => (p.core, p.stamp, p.fibres, true)

/-- What may leave next under an entry: core and stamp of the first of each core's stream, unless an older one of the same fibre stands in another's, whose core the fibre has left (R354). -/
def State.egressHeads (s : State) (e : Nat) : List (Nat × Nat) :=
  let xs := s.egressItems e
  ((xs.filter fun x => x.2.2.2 && xs.all fun y => decide (x.2.1 ≤ y.2.1) || (y.1 != x.1 && !y.2.2.1.any x.2.2.1.contains)).map
    fun x => (x.1, x.2.1)).dedup

/-- The stream that goes next; the interleaving of several cores' streams is open (R354). -/
def State.egressPick (s : State) (e : Nat) : Option (Nat × Nat) × State :=
  match s.egressHeads e with
  | [] => (none, s)
  | [x] => (some x, s)
  | xs => (xs[(Config.freeValue s.fresh).toNat % xs.length]?, { s with fresh := s.fresh + 1 })

/-- The message of a packet. -/
def WinEntry.message (w : WinEntry) (e : Nat) (p : SentPacket) : FabMsg :=
  let d := w.dests.getD p.dest (0, 0)
  .packet w.plane d.1 d.2 e p.seq p.body

/-- Packets of one entry leave: each takes the next sequence number of its destination. -/
def State.emit (s : State) (e core stamp : Nat) : State :=
  let w := s.win e
  let mine (p : SentPacket) : Bool := !p.sent && p.core == core && p.stamp == stamp
  let ps := w.packets.map fun p => if mine p then { p with sent := true, seq := w.nextSeq.getD p.dest 0, at_ := s.horizon } else p
  let out := (w.packets.filter mine).map fun p => w.message e { p with seq := w.nextSeq.getD p.dest 0 }
  let n := w.dests.length
  { (s.modWin e fun x => { x with packets := ps, nextSeq := (List.range n).map fun d => (w.nextSeq.getD d 0 + 1) % 2 ^ 32 }) with
    fabOut := s.fabOut ++ out }

/-- A closed line or a packet of a command leaves on its window's plane: a line takes one FABRIC entry for each destination and is freed. -/
def execPacketEgress (e : Nat) (s : State) : Out :=
  let w := s.win e
  if w.kind ≠ 1 ∨ w.state ≠ .live ∨ s.heldAct w.part 4 = true then .next s
  else
    match s.egressPick e with
    | (none, s1) => .next s1
    | (some (core, stamp), s1) =>
      let n := w.dests.length
      match (s1.core core).wcb.find? fun l => l.entry == e && l.closed && l.stamp == stamp with
      | none => .next ((s1.emit e core stamp).meter w.part 4 n)
      | some l =>
        if !(s1.core core).admits instFabric n then .next s1
        else
          let s2 := ((s1.poolTake core instFabric n).modCore core fun c => { c with wcb := c.wcb.filter (· != l) }).wakeLines core
          let ps := s2.packets core l.ctx e stamp (.store (l.bytes.map fun b => (l.off + b.1, b.2))) l.fibres l.cmds none 1
          .next (((s2.modWin e fun x => { x with packets := x.packets ++ ps }).emit e core stamp).meter w.part 4 n)

/-- The ageing timer of an open line expires and closes it (R352, R353). -/
def execWcLineAge (core line : Nat) (s : State) : Out :=
  .next (s.closeLines core fun l => l.stamp == line && decide (l.opened + (s.core core).fxctl.toNat % 65536 ≤ s.horizon))

/-! What comes back to the sender (R350, R355, R357, R361). -/

/-- Writes a byte of a line in an L1 copy that is not dirty. -/
def L1Block.refresh (line off : Nat) (v : Byte) (b : L1Block) : L1Block :=
  { b with bytes := NMap.edit b.bytes (byteKey line off) fun x => if x.dirty then x else { x with val := v, bad := false } }

/-- Writes a byte of a packet to the shadow of its window under the tables of the context that wrote it (R350): at the home, and in the copy of the core it left. -/
def State.shadowStore (s : State) (core ctx x : Nat) (b : Byte) : State :=
  match s.walk ctx x with
  | .ok e =>
    let l := e.place x
    if e.permits .write false && (l.host || decide (l.pa < deviceBytes)) then
      (((s.homeWrite (lineKey l)).2).setByte l b).modCore core fun c => { c with l1 := c.l1.map (L1Block.refresh (lineKey l) (l.pa % 64) b) }
    else s
  | _ => s

/-- The shadow of a packet that every destination has acknowledged, under late loop-back. -/
def State.lateShadow (s : State) (w : WinEntry) (p : SentPacket) : State :=
  match p.body with
  | .store bs => if w.lb = 2 then bs.foldl (fun t b => t.shadowStore p.core p.ctx (w.lbase + b.1) b.2) s else s
  | _ => s

/-- Whether a packet is the one a peer's message names. -/
def SentPacket.named (p : SentPacket) (dest seq : Nat) : Bool := p.sent && !p.acked && p.dest == dest && p.seq == seq

/-- An acknowledgment: the packet's pool entry returns, and the last of its destinations ends it; the 1 ms of its destination starts again (R355, R357, R358). -/
def execPacketAckReceive (e dest seq : Nat) (s : State) : Out :=
  let w := s.win e
  match w.packets.find? fun p => p.named dest seq with
  | none => .next s
  | some p =>
    let isAdd := p.body.isAdd
    let kept := if isAdd then w.packets.map fun q => if q == p then { q with acked := true, entries := 0 } else q
      else w.packets.filter (· != p)
    let ps := kept.map fun q => if q.dest == dest && q.sent && !q.acked then { q with at_ := s.horizon } else q
    let s1 := (s.modWin e fun x => { x with packets := ps }).poolReturn p.core instFabric p.entries
    if isAdd || (kept.any fun q => q.core == p.core && q.stamp == p.stamp) then .next s1
    else
      let s2 := s1.lateShadow w p
      .next (State.fxProgress (match p.op with | some o => s2.answerOp o [] | none => s2))

/-- A refusal puts the window in ERROR with reason 2 (R349, R357). -/
def execPacketRefusal (e dest seq : Nat) (s : State) : Out :=
  let w := s.win e
  if w.kind = 1 ∧ w.state = .live ∧ (w.packets.any fun p => p.named dest seq) = true then .next (s.winError e 2) else .next s

/-- Whether sequence number a is b or comes after it, modulo 2^32. -/
def seqFrom (a b : Nat) : Bool := decide ((a + 2 ^ 32 - b % 2 ^ 32) % 2 ^ 32 < 2 ^ 31)

/-- The packets of an entry that are sent again: those of one destination from a number on, or all, each destination's in sequence order, which counts on from its oldest packet modulo 2^32 (R355, R357). -/
def WinEntry.again (w : WinEntry) (e : Nat) (p : SentPacket → Bool) : List FabMsg :=
  let ps := w.packets.filter fun q => q.sent && !q.acked && p q
  let age (i : Nat) : Nat := match ps[i]? with | some q => (q.seq + 2 ^ 32 - w.nextSeq.getD q.dest 0 % 2 ^ 32) % 2 ^ 32 | none => 0
  ((sortBy age (List.range ps.length)).filterMap fun i => ps[i]?).map (w.message e)

/-- The receiver asks for a resend (R355). -/
def execResendRequest (e dest seq : Nat) (s : State) : Out :=
  let w := s.win e
  if w.kind = 1 ∧ w.state = .live then
    .next { s with fabOut := s.fabOut ++ w.again e fun p => p.dest == dest && seqFrom p.seq seq }
  else .next s

/-- A millisecond in nanoseconds (R357, R361). -/
def oneMs : Nat := 1000000

/-- A destination has acknowledged nothing for 1 ms while packets were outstanding (R357). -/
def execWindowAckTimeout (e : Nat) (s : State) : Out :=
  let w := s.win e
  let late (d : Nat) : Bool := w.packets.any fun p => p.dest == d && p.sent && !p.acked && decide (p.at_ + oneMs ≤ s.horizon)
  if w.kind = 1 ∧ w.state = .live ∧ (List.range w.dests.length).any late = true then .next (s.winError e 3) else .next s

/-- A switch plane fails: its live transmit windows enter ERROR with reason 1 (R357). -/
def execPlaneFailure (plane : Nat) (s : State) : Out :=
  let s1 := { s with planesDown := if s.planesDown.contains plane then s.planesDown else plane :: s.planesDown }
  .next ((s.wins.filter fun e => e.2.kind == 1 && decide (e.2.state = .live) && e.2.plane == plane).foldl
    (fun t e => t.winError e.1 1) s1)

/-- Windows a plane carries. -/
def State.planeLoad (s : State) (p : Nat) : Nat := (s.wins.filter fun e => e.2.kind == 1 && decide (e.2.state ≠ .free) && e.2.plane == p).length

/-- The live plane that carries the fewest windows, the lowest on a tie (R357). -/
def State.bestPlane (s : State) : Option Nat :=
  ((List.range 8).filter fun p => !s.planesDown.contains p).foldl (fun b p =>
    match b with
    | none => some p
    | some q => if s.planeLoad p < s.planeLoad q then some p else some q) none

/-- A window is LIVE again on a plane, and every unacknowledged packet is sent again in order, the tiles of pumps among them (R305, R357). -/
def State.winLive (s : State) (e plane : Nat) : State :=
  let s1 := s.modWin e fun w => { w with state := .live, reason := 0, plane := plane, packets := w.packets.map fun p => { p with at_ := s.horizon } }
  { s1 with fabOut := s1.fabOut ++ (s1.win e).again e fun _ => true
            fxf := s1.fxf.map fun x => if x.covered.contains e then { x with since := s.horizon } else x }

/-- The management controller rebinds a window to a live plane, in ascending entry number (R357); a receive entry is given its sender's plane, which the sender's side chooses (R403). -/
def execWindowRebind (e : Nat) (s : State) : Out :=
  let w := s.win e
  if w.kind = 2 then
    match (List.range 8).filter fun p => !s.planesDown.contains p with
    | [] => .next s
    | ps => .next { (s.modWin e fun x => { x with plane := ps.getD ((Config.freeValue s.fresh).toNat % ps.length) 0 }) with fresh := s.fresh + 1 }
  else if w.state ≠ .error ∨ w.reason = 2 then .next s
  else if w.reason = 1 ∧ (s.wins.any fun x => decide (x.1 < e) && x.2.kind == 1 && decide (x.2.state = .error) && x.2.reason == 1 && x.2.plane == w.plane) = true
    then .next s
  else
    match s.bestPlane with
    | none => .next s
    | some p => .next (s.winLive e p)

/-- A read from the fabric is answered with an error completion, and nothing is read (R347). -/
def execUalinkRead (addr : Nat) (s : State) : Out := .next { s with fabOut := s.fabOut ++ [.readError addr] }

/-- A fence whose covered windows have stood for 1 ms returns FAIL with the lowest entry that was in ERROR (R361). -/
def execFxFenceFail (f : Nat) (s : State) : Out :=
  match s.fxf.find? fun x => x.fibre == f && !x.failed.isEmpty && decide (x.since + oneMs ≤ s.horizon) with
  | none => .next s
  | some x => .next { (s.answerOp x.op [Word.ofNat (2 ^ 31 + x.failed.foldl min 255)]) with fxf := s.fxf.filter (· != x) }

/-! Arrival (R349, R355, R356). -/

/-- The place of a byte of a receive window under its context's tables, where the packet may touch it (R349). -/
def State.rxPlace (s : State) (w : WinEntry) (k : AccKind) (off : Nat) : Option Loc :=
  match s.ctx? w.ctxn with
  | none => none
  | some c =>
    if c.part ≠ w.part then none
    else
      match s.walk w.ctxn (w.lbase + off) with
      | .ok e =>
        let l := e.place (w.lbase + off)
        if e.permits k false && (l.host || decide (l.pa < deviceBytes)) then some l else none
      | _ => none

/-- Whether a receive entry admits a packet (R349, R359). -/
def State.rxAdmits (s : State) (w : WinEntry) (p : Packet) : Bool :=
  let x := p.body.extent
  let k := if p.body.stores then AccKind.write else AccKind.atomic
  (w.any || w.sender == p.device) && (w.atom || p.body.stores) && decide (x.2 ≤ w.len) &&
    (s.rxPlace w k x.1).isSome && (s.rxPlace w k (x.2 - 1)).isSome

/-- Expected number and greatest completion time of a sender's stream at a receive entry. -/
def WinEntry.stream (w : WinEntry) (dev snd : Nat) : Nat × Nat :=
  ((w.expected.find? fun x => x.1 == dev && x.2.1 == snd).map fun x => x.2.2).getD (0, 0)
def WinEntry.setStream (w : WinEntry) (dev snd : Nat) (x : Nat × Nat) : WinEntry :=
  { w with expected := (dev, snd, x) :: w.expected.filter fun y => !(y.1 == dev && y.2.1 == snd) }

def State.fabSend (s : State) (m : FabMsg) : State := { s with fabOut := s.fabOut ++ [m] }

/-- The consuming pipes of a partition that a window entry carries from a pipe's number on a device (R297, R305). -/
def State.pipesFrom (s : State) (w : WinEntry) (entry device pipe : Nat) : List Nat :=
  (s.pipes.filter fun e => e.2.xdev && e.2.xend && e.1 % 4096 == pipe && e.2.win == entry && e.2.peer.1 == device && s.partOf (e.1 / 65536) == w.part).map
    Prod.fst

/-- What a peer says of its pipes, which no window carries: the DEPTH and SLOTB of an end (R305; log 113), or that a pipe's stage is granted a spill (R312). -/
def State.peerSays (s : State) (p : Packet) : Option State :=
  match p.body with
  | .hello own peer depth slotb =>
    some { s with peerEnds := (p.device, peer, own, depth, slotb) :: s.peerEnds.filter fun x => !(x.1 == p.device && x.2.1 == peer && x.2.2.1 == own) }
  | .grant pipe => some { s with grantsIn := s.grantsIn ++ [pipe] }
  | _ => none

/-- A packet arrives (R349, R355): refused, taken in sequence, acknowledged again, or dropped with a request to resend. A reply has no sequence number of its own. -/
def execQuacyPacketReceive (p : Packet) (s : State) : Out :=
  match s.peerSays p with
  | some t => .next t
  | none =>
  let w := s.win p.entry
  let isReply := p.body.isReply
  if w.kind ≠ 2 ∨ w.state = .free then .next (s.fabSend (.refuse p.device p.sender p.seq))
  else
    let x := w.stream p.device p.sender
    if !isReply && p.seq != x.1 then
      if seqFrom p.seq x.1 then .next (s.fabSend (.resend p.device p.sender x.1))
      else if s.inbox.any fun q => q.entry == p.entry && q.device == p.device && q.sender == p.sender && q.seq == p.seq then .next s
      else .next (s.fabSend (.ack p.device p.sender p.seq))
    else if !s.rxAdmits w p then .next (s.fabSend (.refuse p.device p.sender p.seq))
    else
      let s1 := { s with inbox := s.inbox ++ [p] }
      if isReply then .next s1
      else .next (s1.modWin p.entry fun y => { y.setStream p.device p.sender ((x.1 + 1) % 2 ^ 32, x.2) with lastFrom := some (p.device, p.sender) })

/-- Whether a packet stands first among those taken of its sender. -/
def State.rxFirst (s : State) (p : Packet) : Bool :=
  s.inbox.find? (fun q => q.device == p.device && q.sender == p.sender && q.entry == p.entry) == some p

/-- Performs bytes of a packet at their homes as stores at device scope; the greatest completion time, none where a place does not translate (R172, R349, R356). -/
def State.rxStore (s : State) (w : WinEntry) : List (Nat × Byte) → Option (Nat × State)
  | [] => some (0, s)
  | (o, b) :: bs =>
    (s.rxPlace w .write o).bind fun l =>
      let h := s.homeWrite (lineKey l)
      (State.rxStore (h.2.setByte l b) w bs).map fun r => (max h.1 r.1, r.2)

/-- A packet taken whose target no longer translates when it is to be applied: it is refused and changes nothing, and what has been taken of its sender from it on is taken again (R349, R355, R356). -/
def State.rxRefuse (s : State) (p : Packet) : State :=
  let back (q : Packet) : Bool := q.device == p.device && q.sender == p.sender && q.entry == p.entry && !q.body.isReply && seqFrom q.seq p.seq
  if p.body.isReply then { s with inbox := s.inbox.erase p }.fabSend (.refuse p.device p.sender p.seq)
  else
    (State.modWin { s with inbox := s.inbox.filter fun q => !back q } p.entry fun w =>
      w.setStream p.device p.sender (p.seq, (w.stream p.device p.sender).2)).fabSend (.refuse p.device p.sender p.seq)

/-- The bytes of a receive window from an offset on, none where one does not translate. -/
def State.rxLoad (s : State) (w : WinEntry) (off n : Nat) : Option (List Byte) :=
  let bs := (List.range n).map fun i => (s.rxPlace w .write (off + i)).bind fun l => (s.bytesAt l 1).head?
  if bs.any Option.isNone then none else some (bs.filterMap id)

/-- A publication of a cross-device pipe: the tile stands in its slot of the window, at DEPTH slots of SLOTB bytes from the window's first byte (R305; log 113), and is handed to its pipe. -/
def State.rxPublish (s : State) (w : WinEntry) (p : Packet) (pipe num : Nat) : Option State :=
  match s.pipesFrom w p.entry p.device pipe with
  | [] => some s
  | k :: _ =>
    (s.pipe? k).bind fun x => (s.rxLoad w (num % x.depth * x.slotB) x.slotB).map fun bs => { s with tilesIn := s.tilesIn ++ [(k, num, bs)] }

/-- A packet is applied: it leaves the queue, its completion time is noted, and it is acknowledged. -/
def State.rxDone (s : State) (p : Packet) (ct : Nat) : State :=
  let s1 := { s with inbox := s.inbox.erase p }
  (s1.modWin p.entry fun w => w.setStream p.device p.sender ((w.stream p.device p.sender).1, max (w.stream p.device p.sender).2 ct)).fabSend
    (.ack p.device p.sender p.seq)

/-- The remote add of this device that a reply answers: the oldest to that device with that reply slot (R359). -/
def State.addFor (s : State) (p : Packet) (off : Nat) : Option (Nat × SentPacket) :=
  s.wins.findSome? fun e =>
    (e.2.packets.find? fun q => q.sent && (e.2.dests.getD q.dest (0, 0)).1 == p.device &&
      (match q.body with | .add _ _ re ro => re == p.entry && ro == off | _ => false)).map fun q => (e.1, q)

/-- A reply has landed: its remote add completes (R358, R359). -/
def State.addLanded (s : State) (p : Packet) (off : Nat) : State :=
  match s.addFor p off with
  | none => s
  | some (e, q) =>
    let s1 := (s.modWin e fun w => { w with packets := w.packets.filter (· != q) }).poolReturn q.core instFabric q.entries
    State.fxProgress (match q.op with | some o => s1.answerOp o [] | none => s1)

/-- A store packet, or the reply of a remote add, is performed at its home and acknowledged; a publication is, once horizon time has passed the completion times of the packets before it (R305, R356, R360). -/
def execQuacyPacketApply (p : Packet) (s : State) : Out :=
  if !s.rxFirst p then .next s
  else
    let w := s.win p.entry
    match p.body with
    | .store bs =>
      match s.rxStore w bs with
      | some r => .next (r.2.rxDone p r.1)
      | none => .next (s.rxRefuse p)
    | .reply off v =>
      match s.rxStore w ((indexed (Byte.split 8 (v % 2 ^ 32 + 2 ^ 32))).map fun b => (8 * off + b.1, b.2)) with
      | some r => .next ((r.2.rxDone p r.1).addLanded p off)
      | none => .next (s.rxRefuse p)
    | .publish pipe num =>
      if s.horizon < (w.stream p.device p.sender).2 then .next s
      else
        match s.rxPublish w p pipe num with
        | some t => .next (t.rxDone p 0)
        | none => .next (s.rxRefuse p)
    | _ => .next s

/-- A 32-bit atomic of the receiver at the home: the old value, and the completion time (R203). -/
def State.rxAtomic (s : State) (w : WinEntry) (off : Nat) (new : Nat → Nat) : Option (Nat × Nat × State) :=
  (s.rxPlace w .atomic off).map fun l =>
    let old := Byte.join (s.bytesAt l 4)
    let h := s.homeWrite (lineKey l)
    (old, h.1, h.2.setBytes l (Byte.split 4 (new old)))

/-- A remote add runs at the peer and its old value is reflected (R359). -/
def execFxAddApply (p : Packet) (s : State) : Out :=
  match p.body with
  | .add off v re ro =>
    let w := s.win p.entry
    if !s.rxFirst p then .next s
    else
      match s.rxAtomic w off fun old => (old + v) % 2 ^ 32 with
      | none => .next (s.rxRefuse p)
      | some (old, ct, s1) => .next ((s1.fabSend (.reply w.plane p.device re ro old)).rxDone p ct)
  | _ => .next s

/-- A signal decrements its counter once horizon time has passed the completion times of the packets before it (R360). -/
def execFxSigApply (p : Packet) (s : State) : Out :=
  match p.body with
  | .sig off v =>
    let w := s.win p.entry
    if !s.rxFirst p ∨ s.horizon < (w.stream p.device p.sender).2 then .next s
    else
      match s.rxAtomic w off fun old => (old + 2 ^ 32 - v % 2 ^ 32) % 2 ^ 32 with
      | none => .next (s.rxRefuse p)
      | some (_, ct, s1) => .next (s1.rxDone p ct)
  | _ => .next s

end Sys2Proof.Machine
end

