-- ==== Sys2Proof/Machine/Transc.lean ====
section
/-! DEFINITION. The functions of R157, each the exact value rounded once: evaluated between two bounds in fixed point, with more bits until both bounds round alike. -/

namespace Sys2Proof.Machine

/-- A bracket of a non-negative real in fixed point: lo ≤ value · 2^b ≤ hi. -/
structure Brk where
  lo : Nat
  hi : Nat
deriving DecidableEq, Repr

/-- x · y / 2^b, both bounds of non-negative brackets. -/
def Brk.mul (b : Nat) (x y : Brk) : Brk := ⟨x.lo * y.lo / 2 ^ b, x.hi * y.hi / 2 ^ b + 1⟩

/-- The sum of the terms t, t·x/i, t·x²/(i(i+1)), … over `fuel` terms: the exponential series from term i. -/
def expSeries (b : Nat) (x : Brk) : Nat → Nat → Brk → Brk → Brk
  | 0, _, _, acc => acc
  | fuel + 1, i, t, acc =>
    let t' := Brk.mul b t x
    let u : Brk := ⟨t'.lo / i, t'.hi / i + 1⟩
    expSeries b x fuel (i + 1) u ⟨acc.lo + u.lo, acc.hi + u.hi⟩

/-- e^x for 0 ≤ x ≤ 1 in b fractional bits; the tail after b + 8 terms is below the last unit. -/
def expBrk (b : Nat) (x : Brk) : Brk :=
  let one : Brk := ⟨2 ^ b, 2 ^ b⟩
  let r := expSeries b x (b + 8) 1 one one
  ⟨r.lo, r.hi + 2⟩

/-- atanh series term sum: z + z³/3 + z⁵/5 + … for a bracket z below 1/2, z2 its square. -/
def atanhSeries (b : Nat) (z2 : Brk) : Nat → Nat → Brk → Brk → Brk
  | 0, _, _, acc => acc
  | fuel + 1, i, t, acc =>
    let t' := Brk.mul b t z2
    let u : Brk := ⟨t'.lo / i, t'.hi / i + 1⟩
    atanhSeries b z2 fuel (i + 2) t' ⟨acc.lo + u.lo, acc.hi + u.hi⟩

/-- ln((1+z)/(1−z)) = 2 atanh z for the rational z = n/d below 1/2. -/
def lnRatio (b n d : Nat) : Brk :=
  let z : Brk := ⟨n * 2 ^ b / d, n * 2 ^ b / d + 1⟩
  let r := atanhSeries b (Brk.mul b z z) (b + 4) 3 z z
  ⟨2 * r.lo, 2 * (r.hi + 2)⟩

/-- ln 2. -/
def ln2Brk (b : Nat) : Brk := lnRatio b 1 3

/-- arctan(1/k) by its alternating series. -/
def arctanInv (b k : Nat) : Nat → Nat → Nat → Bool → Brk → Brk
  | 0, _, _, _, acc => acc
  | fuel + 1, p, i, plus, acc =>
    let u : Brk := ⟨p / i, p / i + 1⟩
    arctanInv b k fuel (p / (k * k)) (i + 2) (!plus)
      (if plus then ⟨acc.lo + u.lo, acc.hi + u.hi + 1⟩ else ⟨acc.lo - (u.hi + 1), acc.hi - u.lo⟩)

/-- π = 16 arctan(1/5) − 4 arctan(1/239). -/
def piBrk (b : Nat) : Brk :=
  let x := arctanInv b 5 (b / 2 + 8) (2 ^ b / 5) 1 true ⟨0, 0⟩
  let y := arctanInv b 239 (b / 2 + 8) (2 ^ b / 239) 1 true ⟨0, 0⟩
  ⟨16 * x.lo - 4 * y.hi - 64, 16 * x.hi - 4 * y.lo + 64⟩

/-- Alternating series 1 − y/(1·2) + … of cosine (i = 1) or 1 − y/(2·3) + … of sine over x (i = 2), y = x². -/
def cosSeries (b : Nat) (y : Brk) : Nat → Nat → Bool → Brk → Brk → Brk
  | 0, _, _, _, acc => acc
  | fuel + 1, i, plus, t, acc =>
    let t' := Brk.mul b t y
    let d := i * (i + 1)
    let u : Brk := ⟨t'.lo / d, t'.hi / d + 1⟩
    cosSeries b y fuel (i + 2) (!plus) u
      (if plus then ⟨acc.lo + u.lo, acc.hi + u.hi⟩ else ⟨acc.lo - u.hi, acc.hi - u.lo⟩)

/-- cos x for 0 ≤ x ≤ 1. -/
def cosBrk (b : Nat) (x : Brk) : Brk :=
  let one : Brk := ⟨2 ^ b, 2 ^ b⟩
  let r := cosSeries b (Brk.mul b x x) (b / 2 + 8) 1 false one one
  ⟨r.lo - 2, r.hi + 2⟩

/-- sin x / x for 0 < x ≤ 1. -/
def sincBrk (b : Nat) (x : Brk) : Brk :=
  let one : Brk := ⟨2 ^ b, 2 ^ b⟩
  let r := cosSeries b (Brk.mul b x x) (b / 2 + 8) 2 false one one
  ⟨r.lo - 2, r.hi + 2⟩

/-- Rounds a bracketed, never exactly representable, magnitude in b fractional bits times 2^x; none while the bounds round apart. -/
def Fmt.roundBrk (f : Fmt) (rm : RMode) (neg : Bool) (v : Brk) (b : Nat) (x : Int) : Option (Nat × Nat) :=
  if v.lo = 0 then none else
  let lo := f.roundMag rm neg v.lo (x - b) true
  let hi := f.roundMag rm neg (v.hi - 1) (x - b) true
  if v.lo < v.hi ∧ lo = hi then some lo else none

/-- Tries more and more fractional bits. -/
def refine (k : Nat → Option (Nat × Nat)) (d : Nat × Nat) : List Nat → Nat × Nat
  | [] => d
  | b :: bs =>
    match k b with
    | some r => r
    | none => refine k d bs

/-- The precisions tried: for 24 significant bits and one argument the last is far beyond the distance at which two values of these functions can lie. -/
def precisions : List Nat := [64, 96, 160, 320]

/-- 2^A for a finite A = ±m·2^e that is no integer, split as n + r with 0 < r < 1, r = k/2^s. -/
def exp2Frac (f : Fmt) (rm : RMode) (n : Int) (k s : Nat) : Nat × Nat :=
  refine (fun b =>
    let r : Brk := ⟨k * 2 ^ b / 2 ^ s, k * 2 ^ b / 2 ^ s + 1⟩
    f.roundBrk rm false (expBrk b (Brk.mul b r (ln2Brk b))) b n) (f.nan, 0) precisions

/-- `fexp2` of R157. -/
def Fmt.exp2 (f : Fmt) (rm : RMode) (a : Nat) : Nat × Nat :=
  match f.read a with
  | .nan s => f.nanR s
  | .inf neg => (if neg then f.zero false else f.inf false, 0)
  | .fin neg m e =>
    if m = 0 then f.round rm false 1 0
    else if leadExp m e > 11 then
      -- |A| ≥ 2^12: beyond every exponent of these formats
      f.roundMag rm false 1 (if neg then -5000 else 5000) true
    else if 0 ≤ e then f.round rm false 1 (smant neg (m * 2 ^ e.toNat))
    else
      let s := (-e).toNat
      let v := smant neg m
      let n := v / (2 ^ s : Nat)
      let k := (v % (2 ^ s : Nat)).toNat
      if k = 0 then f.round rm false 1 n
      else if 400 < s then
        -- |A| < 2^−100: the result lies just above 1, or just below
        f.roundMag rm false (if neg then 2 ^ 200 - 1 else 2 ^ 200) (-200) true
      else exp2Frac f rm n k s

/-- log2 of a finite positive value that is no power of two: ±(integer part) with the logarithm of its significand. -/
def log2Frac (f : Fmt) (rm : RMode) (m : Nat) (e : Int) : Nat × Nat :=
  let l := bitLen m
  -- significand c = m / 2^(l−1) in (1, 2); c above 3/2 is taken as c/2 with exponent plus 1
  let big := decide (3 * 2 ^ (l - 1) < 2 * m)
  let p := if big then 2 ^ l else 2 ^ (l - 1)
  let x : Int := (l : Int) - 1 + e + (if big then 1 else 0)
  -- log2 = x + sign · ln(ratio)/ln 2, ratio = (1+z)/(1−z) with z = |m−p|/(m+p)
  let n := if p ≤ m then m - p else p - m
  refine (fun b =>
    let g := lnRatio b n (m + p)
    let h := ln2Brk b
    let q : Brk := ⟨g.lo * 2 ^ b / h.hi, g.hi * 2 ^ b / h.lo + 1⟩
    let s : Int := if p ≤ m then 1 else -1
    let w := x * (2 ^ b : Nat)
    let lo := if 0 < s then w + q.lo else w - q.hi
    let hi := if 0 < s then w + q.hi else w - q.lo
    if 0 < lo then f.roundBrk rm false ⟨lo.natAbs, hi.natAbs⟩ b 0
    else if hi < 0 then f.roundBrk rm true ⟨hi.natAbs, lo.natAbs⟩ b 0
    else none) (f.nan, 0) precisions

/-- `flog2` of R157. -/
def Fmt.log2 (f : Fmt) (rm : RMode) (a : Nat) : Nat × Nat :=
  match f.read a with
  | .nan s => f.nanR s
  | .inf neg => if neg then f.nanR true else (f.inf false, 0)
  | .fin neg m e =>
    if m = 0 then (f.inf true, flagDZ)
    else if neg then f.nanR true
    else if m = 2 ^ (bitLen m - 1) then
      let x := leadExp m e
      f.round rm (decide (x < 0)) x.natAbs 0
    else log2Frac f rm m e

/-- sin(π·k/2^s) for 0 < k/2^s ≤ 1/4, as a bracket times 2^−s·k… : the sine by its quotient with the argument. -/
def sinSmall (b k s : Nat) : Brk :=
  let p := piBrk b
  -- x = π k / 2^s in b bits, at most about 0.79
  let x : Brk := ⟨p.lo * k / 2 ^ s, p.hi * k / 2 ^ s + 1⟩
  Brk.mul b p (sincBrk b x)

/-- cos(π·k/2^s) for 0 < k/2^s ≤ 1/4. -/
def cosSmall (b k s : Nat) : Brk :=
  let p := piBrk b
  cosBrk b ⟨p.lo * k / 2 ^ s, p.hi * k / 2 ^ s + 1⟩

/-- sin(π·k/2^s) for 0 < k/2^s < 1 rounded with a sign: reflected into the first eighth of the turn. -/
def sinTurn (f : Fmt) (rm : RMode) (neg : Bool) (k s : Nat) : Nat × Nat :=
  let full := 2 ^ s
  let j := if 2 * k ≤ full then k else full - k
  if 2 * j = full then f.round rm neg 1 0
  else if 4 * j ≤ full then
    -- sine of a small angle: π · sinc, times j / 2^s exactly
    refine (fun b =>
      let v := sinSmall b j s
      f.roundBrk rm neg ⟨v.lo * j, v.hi * j⟩ b (-(s : Int))) (f.nan, 0) precisions
  else
    -- cosine of the complement 1/2 − j/2^s = (2^s − 2j) / 2^(s+1)
    refine (fun b => f.roundBrk rm neg (cosSmall b (full - 2 * j) (s + 1)) b 0) (f.nan, 0) precisions

/-- `fsin` of R157. -/
def Fmt.sin (f : Fmt) (rm : RMode) (a : Nat) : Nat × Nat :=
  match f.read a with
  | .nan s => f.nanR s
  | .inf _ => f.nanR true
  | .fin neg m e =>
    if m = 0 ∨ 0 ≤ e then (f.zero neg, 0)
    else
      let s := (-e).toNat
      let k := m % 2 ^ (s + 1)
      if k % 2 ^ s = 0 then (f.zero neg, 0)
      else sinTurn f rm (neg != decide (2 ^ s < k)) (k % 2 ^ s) s

/-- `fcos` of R157. -/
def Fmt.cos (f : Fmt) (rm : RMode) (a : Nat) : Nat × Nat :=
  match f.read a with
  | .nan s => f.nanR s
  | .inf _ => f.nanR true
  | .fin _ m e =>
    if m = 0 then f.round rm false 1 0
    else if 0 ≤ e then f.round rm (m * 2 ^ e.toNat % 2 == 1) 1 0
    else
      let s := (-e).toNat
      if s + 2 < bitLen m + 2 ∨ s ≤ 100 then
        -- cos(πA) = sin(π(A + 1/2))
        let k := (2 * m + 2 ^ s) % 2 ^ (s + 2)
        if k % 2 ^ (s + 1) = 0 then (f.zero false, 0)
        else sinTurn f rm (decide (2 ^ (s + 1) < k)) (k % 2 ^ (s + 1)) (s + 1)
      else
        -- |A| below 2^−70: the cosine lies just below 1
        f.roundMag rm false (2 ^ 200 - 1) (-200) true

/-- `ftanh` of R157. -/
def Fmt.tanh (f : Fmt) (rm : RMode) (a : Nat) : Nat × Nat :=
  match f.read a with
  | .nan s => f.nanR s
  | .inf neg => f.round rm neg 1 0
  | .fin neg m e =>
    if m = 0 then (f.zero neg, 0)
    else if leadExp m e > 6 then
      -- |A| ≥ 2^7: just below 1
      f.roundMag rm neg (2 ^ 200 - 1) (-200) true
    else if leadExp m e < -40 then
      -- tanh A = A − A³/3 + …: just below |A|
      f.roundMag rm neg (m * 2 ^ 64 - 1) (e - 64) true
    else
      -- tanh |A| = (E − 1)/(E + 1), E = e^(2|A|) = 2^n · e^r with r below ln 2
      refine (fun b0 =>
        let b := b0 + 64
        let y := if 0 ≤ e then m * 2 ^ (e.toNat + 1) * 2 ^ b else 2 * m * 2 ^ b / 2 ^ (-e).toNat
        let ex : Bool := decide (0 ≤ e) || 2 * m * 2 ^ b % 2 ^ (-e).toNat == 0
        let l := ln2Brk b
        let n := y / l.hi
        let r : Brk := ⟨y - n * l.hi, y + (if ex then 0 else 1) - n * l.lo⟩
        let g := expBrk b r
        let lo := g.lo * 2 ^ n
        let hi := g.hi * 2 ^ n
        let one := 2 ^ b
        f.roundBrk rm neg ⟨(lo - one) * 2 ^ b / (lo + one), (hi - one) * 2 ^ b / (hi + one) + 1⟩ b 0)
        (f.nan, 0) precisions

end Sys2Proof.Machine
end

