-- ==== Sys2Proof/Machine/FloatArith.lean ====
section
/-! DEFINITION. Float instructions: opcodes 0x27 to 0x3D (R75 to R77, R147 to R157). -/

namespace Sys2Proof

/-- The element format of a float instruction (R147). -/
def FloatForm.fmt : FloatForm → Machine.Fmt
  | .f32 => Machine.fp32 | .f64 => Machine.fp64 | .f16x2 => Machine.fp16 | .bf16x2 => Machine.bf16

/-- Elements of an operand (R61, R147). -/
def FloatForm.count : FloatForm → Nat
  | .f16x2 | .bf16x2 => 2
  | _ => 1

/-- The format as one that `fcvt`-free unary forms share (R157). -/
def ShortFloat.form : ShortFloat → FloatForm
  | .f32 => .f32 | .f16x2 => .f16x2 | .bf16x2 => .bf16x2

end Sys2Proof

namespace Sys2Proof.Machine

/-- Element i of an operand of a format (R61). -/
def element (f : FloatForm) (x i : Nat) : Nat := x / 2 ^ (f.fmt.width * i) % 2 ^ f.fmt.width

/-- A result made element by element: the packed value and the flags of all (R61, R67). -/
def perElement (f : FloatForm) (k : Nat → Nat × Nat) : Nat × Nat :=
  (List.range f.count).foldl (fun r i => (r.1 + (k i).1 * 2 ^ (f.fmt.width * i), r.2 ||| (k i).2)) (0, 0)

/-- A lane's result with flags. -/
def LaneOut.flt (words : Nat) (r : Nat × Nat) : LaneOut := { words := Word.split words r.1, flags := r.2, pred := none }

/-- The value of b' of R147. -/
def readB (f : FloatForm) (neg : Bool) (x : Nat) : FVal :=
  let v := f.fmt.read x
  if neg then v.neg else v

/-- The bits of b' of R147. -/
def bitsB (f : FloatForm) (neg : Bool) (x : Nat) : Nat :=
  if neg then f.fmt.copySign true x x else x

/-- The frame of a two-source float instruction on one rounding mode per lane. -/
def State.float2 (s : State) (info : Nat) (f : FloatForm) (a b : Src) (d : Dst) (k : RMode → Nat → Nat → Nat × Nat) : Out :=
  s.alu info [(f.words, a), (f.words, b)] (some (f.words, d)) fun x l =>
    LaneOut.flt f.words (perElement f fun i => k x.rm (element f (l.n 0) i) (element f (l.n 1) i))

/-- The frame of a one-source float instruction. -/
def State.float1 (s : State) (info : Nat) (f : FloatForm) (a : Src) (d : Dst) (k : RMode → Nat → Nat × Nat) : Out :=
  s.alu info [(f.words, a)] (some (f.words, d)) fun x l =>
    LaneOut.flt f.words (perElement f fun i => k x.rm (element f (l.n 0) i))

/-- `fmov` (R151). -/
def execFmov (f : FloatForm) (neg : Bool) (a b : Src) (d : Dst) (s : State) : Out :=
  s.float2 0x27 f a b d fun _ x y => (f.fmt.copySign neg x y, 0)

/-- `fadd` (R148). -/
def execFadd (f : FloatForm) (neg : Bool) (a b : Src) (d : Dst) (s : State) : Out :=
  s.float2 0x28 f a b d fun rm x y => f.fmt.add rm (f.fmt.read x) (readB f neg y)

/-- `fsub` (R148). -/
def execFsub (f : FloatForm) (neg : Bool) (a b : Src) (d : Dst) (s : State) : Out :=
  s.float2 0x29 f a b d fun rm x y => f.fmt.add rm (f.fmt.read x) (readB f neg y).neg

/-- `fmul` (R148). -/
def execFmul (f : FloatForm) (neg : Bool) (a b : Src) (d : Dst) (s : State) : Out :=
  s.float2 0x2A f a b d fun rm x y => f.fmt.mul rm (f.fmt.read x) (readB f neg y)

/-- `ffma` (R148): the destination is the addend. -/
def execFfma (f : FloatForm) (neg : Bool) (a b : Src) (d : Dst) (s : State) : Out :=
  s.alu 0x2B [(f.words, a), (f.words, b), (f.words, d.asSrc)] (some (f.words, d)) fun x l =>
    LaneOut.flt f.words (perElement f fun i =>
      f.fmt.fma x.rm (f.fmt.read (element f (l.n 0) i)) (readB f neg (element f (l.n 1) i)) (f.fmt.read (element f (l.n 2) i)))

/-- `fmin` (R149). -/
def execFmin (f : FloatForm) (neg : Bool) (a b : Src) (d : Dst) (s : State) : Out :=
  s.float2 0x2C f a b d fun _ x y => f.fmt.minMax false x (bitsB f neg y)

/-- `fmax` (R149). -/
def execFmax (f : FloatForm) (neg : Bool) (a b : Src) (d : Dst) (s : State) : Out :=
  s.float2 0x2D f a b d fun _ x y => f.fmt.minMax true x (bitsB f neg y)

/-- `fcmp` (R150): true where the condition holds for every element. -/
def execFcmp (f : FloatForm) (neg : Bool) (c : FCond) (a b : Src) (p : Pred) (s : State) : Out :=
  s.alu 0x2E [(f.words, a), (f.words, b)] none fun _ l =>
    let rs := (List.range f.count).map fun i => fcmpOne f.fmt c (element f (l.n 0) i) (bitsB f neg (element f (l.n 1) i))
    { words := [], flags := rs.foldl (fun m r => m ||| r.2) 0, pred := some (p.val, rs.all fun r => r.1) }

/-- The rounding mode of a conversion code (R65, R75). -/
def RoundCode.mode (c : RoundCode) (x : Fibre) : RMode :=
  match c with
  | .rne => .rne | .rtz => .rtz | .rdn => .rdn | .rup => .rup | .rna => .rna | .dyn => x.rm

/-- Two elements from a register pair, packed (R75). -/
def cvtPair (dst : Fmt) (rm : RMode) (a : Nat) : Nat × Nat :=
  let lo := cvtFloat fp32 dst rm (a % 2 ^ 32)
  let hi := cvtFloat fp32 dst rm (a / 2 ^ 32 % 2 ^ 32)
  (lo.1 + 2 ^ 16 * hi.1, lo.2 ||| hi.2)

/-- The conversions of R75. -/
def convert (c : FloatConv) (rm : RMode) (a : Nat) : Nat × Nat :=
  match c with
  | .f32f64 => cvtFloat fp32 fp64 rm a
  | .f64f32 => cvtFloat fp64 fp32 rm a
  | .f32f16 => cvtFloat fp32 fp16 rm a
  | .f16f32 => cvtFloat fp16 fp32 rm (a % 65536)
  | .f32bf16 => cvtFloat fp32 bf16 rm a
  | .bf16f32 => cvtFloat bf16 fp32 rm (a % 65536)
  | .f32s32 => cvtToInt fp32 32 true rm a
  | .f32u32 => cvtToInt fp32 32 false rm a
  | .s32f32 => cvtFromInt fp32 rm (sext a 32)
  | .u32f32 => cvtFromInt fp32 rm a
  | .f64s64 => cvtToInt fp64 64 true rm a
  | .f64u64 => cvtToInt fp64 64 false rm a
  | .s64f64 => cvtFromInt fp64 rm (sext a 64)
  | .u64f64 => cvtFromInt fp64 rm a
  | .f32bf16x2 => cvtPair bf16 rm a
  | .f32f16x2 => cvtPair fp16 rm a

/-- `fcvt` (R75, R76, R152). -/
def execFcvt (c : FloatConv) (rm : RoundCode) (a : Src) (d : Dst) (s : State) : Out :=
  s.alu 0x30 [(c.srcWords, a)] (some (c.dstWords, d)) fun x l =>
    LaneOut.flt c.dstWords (convert c (RoundCode.mode rm x) (l.n 0))

/-- `frnd` (R153). -/
def execFrnd (f : FloatForm) (rm : RoundCode) (a : Src) (d : Dst) (s : State) : Out :=
  s.alu 0x31 [(f.words, a)] (some (f.words, d)) fun x l =>
    LaneOut.flt f.words (perElement f fun i => f.fmt.rnd (RoundCode.mode rm x) (element f (l.n 0) i))

/-- `fclass` (R154): element 1's mask stands at bit 16. -/
def execFclass (f : FloatForm) (a : Src) (d : Dst) (s : State) : Out :=
  s.alu 0x32 [(f.words, a)] (some (1, d)) fun _ l =>
    LaneOut.num 1 (((List.range f.count).map fun i => f.fmt.classMask (element f (l.n 0) i) * 2 ^ (16 * i)).sum)

/-- `fscale` (R155): one exponent for every element. -/
def execFscale (f : FloatForm) (a b : Src) (d : Dst) (s : State) : Out :=
  s.alu 0x33 [(f.words, a), (1, b)] (some (f.words, d)) fun x l =>
    LaneOut.flt f.words (perElement f fun i => f.fmt.scale x.rm (element f (l.n 0) i) (sext (l.n 1) 32))

/-- `frcp` (R156). -/
def execFrcp (f : FloatForm) (a : Src) (d : Dst) (s : State) : Out :=
  s.float1 0x34 f a d fun rm x => f.fmt.rcp rm (f.fmt.read x)

/-- `frsq` (R156). -/
def execFrsq (f : FloatForm) (a : Src) (d : Dst) (s : State) : Out :=
  s.float1 0x35 f a d fun rm x => f.fmt.rsqrt rm (f.fmt.read x)

/-- `fsqrt` (R156). -/
def execFsqrt (f : FloatForm) (a : Src) (d : Dst) (s : State) : Out :=
  s.float1 0x36 f a d fun rm x => f.fmt.sqrt rm (f.fmt.read x)

/-- `fdiv` (R156). -/
def execFdiv (f : FloatForm) (neg : Bool) (a b : Src) (d : Dst) (s : State) : Out :=
  s.float2 0x37 f a b d fun rm x y => f.fmt.div rm (f.fmt.read x) (readB f neg y)

/-- `fexp2` (R157). -/
def execFexp2 (f : ShortFloat) (a : Src) (d : Dst) (s : State) : Out :=
  s.float1 0x38 f.form a d fun rm x => f.form.fmt.exp2 rm x

/-- `flog2` (R157). -/
def execFlog2 (f : ShortFloat) (a : Src) (d : Dst) (s : State) : Out :=
  s.float1 0x39 f.form a d fun rm x => f.form.fmt.log2 rm x

/-- `fsin` (R157). -/
def execFsin (f : ShortFloat) (a : Src) (d : Dst) (s : State) : Out :=
  s.float1 0x3A f.form a d fun rm x => f.form.fmt.sin rm x

/-- `fcos` (R157). -/
def execFcos (f : ShortFloat) (a : Src) (d : Dst) (s : State) : Out :=
  s.float1 0x3B f.form a d fun rm x => f.form.fmt.cos rm x

/-- `ftanh` (R157). -/
def execFtanh (f : ShortFloat) (a : Src) (d : Dst) (s : State) : Out :=
  s.float1 0x3C f.form a d fun rm x => f.form.fmt.tanh rm x

/-- The conversions of R77. -/
def lnsConvert (c : LnsConv) (rm : RMode) (a : Nat) : Nat × Nat :=
  match c with
  | .f32lns => lnsEncode rm (fp32.read a)
  | .lnsf32 => lnsDecode fp32 rm (a % 64)
  | .bf16lns => lnsEncode rm (bf16.read (a % 65536))
  | .lnsbf16 => lnsDecode bf16 rm (a % 64)
  | .f16lns => lnsEncode rm (fp16.read (a % 65536))
  | .lnsf16 => lnsDecode fp16 rm (a % 64)

/-- `lcvt` (R77, R152). -/
def execLcvt (c : LnsConv) (rm : RoundCode) (a : Src) (d : Dst) (s : State) : Out :=
  s.alu 0x3D [(1, a)] (some (1, d)) fun x l => LaneOut.flt 1 (lnsConvert c (RoundCode.mode rm x) (l.n 0))

end Sys2Proof.Machine
end

