-- ==== Sys2Proof/Machine/Moving.lean ====
section
/-! DEFINITION. Moving what a core or a team holds to another core, or to shadow storage and back: what R227, R240, R283, R371 and R373 save and restore. -/

namespace Sys2Proof.Machine

/-! New names (R240). -/

/-- How what names a core's fibres, teams and reservation-table entries is renamed when they move: the cores, which fibres move, and the new numbers. -/
structure Names where
  src : Nat
  dst : Nat
  moves : Nat → Bool
  fib : Nat → Nat
  team : Nat → Nat
  post : Nat → Nat

/-- A release that was under way starts again (R210, R227). -/
def Rel.anew (r : Rel) : Rel := { r with flush := none }

/-- A fibre as it is saved: READY at its word, its clause to be fetched again, with nothing under way and no register pending (R36, R227, R240); it keeps the wait that held it, for R308. -/
def Fibre.saved (held : Option Wait) (x : Fibre) : Fibre :=
  { x with status := .ready, wait := held, code := [], pend := [], hidden := [], fence := none, sump := [], ct := 0, ot := 0 }

namespace Names

def tag (n : Names) (g : Option GuardTag) : Option GuardTag := g.map fun x => { x with fibre := n.fib x.fibre }
def queue (n : Names) (q : Nat) : Nat := if q = handlerQueue n.src then handlerQueue n.dst else n.team q
def xcmd (n : Names) (c : XCmd) : XCmd :=
  { c with guard := n.tag c.guard, rel := c.rel.map Rel.anew, lanes := c.lanes.map fun (l : Nat × Nat × List Nat) => (n.fib l.1, l.2.1, l.2.2) }
def mxcmd (n : Names) (c : MxCmd) : MxCmd := { c with fibre := n.fib c.fibre, guard := n.tag c.guard, rel := c.rel.map Rel.anew }
def offer (n : Names) (o : Offer) : Offer := { o with fibre := n.fib o.fibre, guard := n.tag o.guard }
/-- A copy command; one that had parked faults again (R227). -/
def copycmd (n : Names) (c : CopyCmd) : CopyCmd := { c with team := n.team c.team, guard := n.tag c.guard, fault := none, rel := c.rel.map Rel.anew }
def halt (n : Names) (h : Nat × Option Nat) : Nat × Option Nat := (h.1, h.2.map n.post)
def claim (n : Names) (c : Option Nat × List Nat) : Option Nat × List Nat := (c.1.map n.post, c.2)
/-- A matrix queue: posts keep their places under their new entry numbers. -/
def mxq (n : Names) (q : MxQueue) : MxQueue :=
  { q with cmds := q.cmds.map n.mxcmd, offers := q.offers.map n.offer, halts := q.halts.map n.halt, claims := q.claims.map n.claim }
/-- A post; it is a candidate afresh (R283). -/
def postRec (n : Names) (p : Post) : Post :=
  { p with core := if p.core = n.src then n.dst else p.core, queue := n.queue p.queue, cmd := n.mxcmd p.cmd, since := none }
def dep (n : Names) (x : Tile) : Tile := { x with dep := x.dep.map fun d => (d.1, d.2.1, n.team d.2.2) }
def unit_ (n : Names) (u : Nat × Bool × List Nat) : Nat × Bool × List Nat := (n.team u.1, u.2.1, u.2.2.map n.fib)
def request (n : Names) (e : Nat × Nat × Nat) : Nat × Nat × Nat := (e.1, e.2.1, n.fib e.2.2)
def taskUpd (n : Names) (u : TaskUpd) : TaskUpd :=
  { u with fibre := n.fib u.fibre, core := if n.moves u.fibre then n.dst else u.core, team := n.team u.team,
           rels := u.rels.map fun (r : Nat × Rel) => (n.fib r.1, if n.moves r.1 then r.2.anew else r.2) }
def stage (n : Names) (g : Stage) : Stage := { g with live := g.live.map n.team, updates := g.updates.map n.taskUpd, held := g.held.map n.taskUpd }
def pipe (n : Names) (p : Pipe) : Pipe :=
  { p with rings := p.rings.map (fun (r : Ring) => { r with team := n.team r.team }),
           tiles := p.tiles.map (fun (t : PipeTile) => { t with src := t.src.map fun (x : Nat × Nat × List Nat) => (n.team x.1, x.2.1, x.2.2) }),
           waiting := (p.waiting.filter fun w => !(n.moves w.fibre && w.ops.isEmpty)).map (fun (w : PipeWait) => { w with fibre := n.fib w.fibre }),
           updates := p.updates.map fun (u : PipeUpd) => { u with team := n.team u.team, fibre := n.fib u.fibre, rel := if n.moves u.fibre then u.rel.map Rel.anew else u.rel } }
def bar (n : Names) (b : StageBar) : StageBar :=
  { b with arrived := b.arrived.map n.fib, sent := b.sent.map n.team, inCluster := b.inCluster.map n.team, reported := b.reported.map n.team,
           counted := b.counted.map n.team }

end Names

/-- Renames fibres and teams where other units name them: stages, pipes, barriers, windows, fences. -/
def State.renameAll (n : Names) (s : State) : State :=
  { s with
    plans := s.plans.map (fun (e : Nat × Plan) => (e.1, { e.2 with stages := e.2.stages.map n.stage })),
    pipes := s.pipes.map (fun (e : Nat × Pipe) => (e.1, n.pipe e.2)),
    sbars := s.sbars.map n.bar,
    bmsgs := s.bmsgs.map (fun (e : Nat × BarMsg) => (e.1, { e.2 with teams := e.2.teams.map n.team })),
    wins := s.wins.map (fun (e : Nat × WinEntry) => (e.1, { e.2 with packets := e.2.packets.map fun (p : SentPacket) => { p with fibres := p.fibres.map n.fib } })),
    cores := s.cores.map (fun (e : Nat × Core) => (e.1, { e.2 with wcb := e.2.wcb.map fun (l : WcLine) => { l with fibres := l.fibres.map n.fib } })),
    fxf := s.fxf.map fun (x : FxFence) => { x with fibre := n.fib x.fibre } }

/-! A whole core (R227, R240, R283, R371). -/

/-- The names of a core's holdings at another core number, everything at the same places within the core; reservation entries go to the keys given. -/
def coreNames (a b : Nat) (posts : List (Nat × Nat)) : Names :=
  { src := a, dst := b, moves := fun f => coreOf f == a,
    fib := fun f => if coreOf f = a then f - 1024 * a + 1024 * b else f,
    team := fun t => if t / 16 = a then 16 * b + t % 16 else t,
    post := fun k => ((posts.find? fun e => e.1 == k).map Prod.snd).getD k }

/-- Copies the entries of one core's part of a map to another core's. -/
def NMap.copyPart {α : Type} (m : NMap α) (size a b : Nat) : NMap α :=
  NMap.paste (NMap.clearRange m (size * b) (size * (b + 1))) (size * b) (NMap.slice m (size * a) (size * (a + 1)))

/-- Moves the entries of one core's part of a map to another core's. -/
def NMap.shift {α : Type} (m : NMap α) (size a b : Nat) : NMap α := NMap.clearRange (NMap.copyPart m size a b) (size * a) (size * (a + 1))

/-- A map with the values of one core's part changed. -/
def NMap.within {α : Type} (m : NMap α) (size b : Nat) (k : Nat → α → α) : NMap α :=
  m.map fun e => if e.1 / size = b then (e.1, k e.1 e.2) else e

/-- What a core's engines, units and queues hold, under new names: no unit runs on its array, no cell holds a sum, the tables are dropped (R283), its caches are empty (R227). -/
def Names.core (n : Names) (c : Core) : Core :=
  { c with
    phase := .vacated, l1 := [], tlb := [], ev := 0, wcb := [], starved := [], waits := [],
    copy := { c.copy with queue := c.copy.queue.map n.copycmd, parked := none },
    arr := { c.arr with cells := [], bad := [], sump := [], resident := none, shadow := none, units := [], opensAt := 0, lut := none,
                        tiles := c.arr.tiles.map (fun (e : Nat × Tile) => (e.1, n.dep e.2)),
                        drain := c.arr.drain.foldl (fun m (e : Nat × Nat) => NMap.put m (n.queue e.1) e.2) [] },
    hq := n.mxq c.hq, rangeq := c.rangeq.map n.request, units := c.units.map (fun (e : Nat × (Nat × Bool × List Nat)) => (e.1, n.unit_ e.2)),
    pipeq := c.pipeq.map n.xcmd, fabq := c.fabq.map n.xcmd, statq := c.statq.map n.xcmd }

/-- The reservation entries of a core, in ascending order. -/
def State.corePosts (s : State) (core : Nat) : List Nat := (s.tables.filter fun e => e.2.core == core).map Prod.fst

/-- A team's record at another core number. -/
def Names.teamRec (n : Names) (x : Team) : Team :=
  { x with slots := x.slots.map n.fib, spans := x.spans.map fun (e : Nat × Nat × Nat) => (128 * n.dst + e.1 % 128, e.2.1, e.2.2) }

/-- Moves everything that stands under one core number to another at the same places: fibres, teams, held handler windows, queues and engines; registers, scratchpad and tiles are copied. `left` is the first core's record afterwards, `took` the second's from what it was and what comes. -/
def State.shiftCore (s0 : State) (a b : Nat) (posts : List (Nat × Nat)) (left : Core → Core) (took : Core → Core → Core) : State :=
  let n := coreNames a b posts
  let s : State := s0.renameAll n
  let tab := s.tables.foldl (fun m (e : Nat × Post) => if e.2.core = a then NMap.put m (n.post e.1) (n.postRec e.2) else NMap.put m e.1 e.2) []
  let op (x : Op) : Op := if coreOf x.fibre = a then { x with fibre := n.fib x.fibre, marks := [], rel := x.rel.map Rel.anew } else x
  { s with
    regs := NMap.copyPart s.regs 65536 a b, spad := NMap.copyPart s.spad spadBytes a b, uregs := NMap.shift s.uregs 1024 a b,
    fibres := NMap.within (NMap.shift s.fibres 1024 a b) 1024 b fun f x =>
      { x.saved (s0.heldBy (f - 1024 * b + 1024 * a)) with team := n.team x.team },
    teams := NMap.within (NMap.shift s.teams 16 a b) 16 b fun _ x => n.teamRec x,
    hwins := NMap.within (NMap.shift s.hwins 128 a b) 128 b fun _ w => { w with holder := n.fib w.holder },
    groups := s.groups.filter (fun e => e.1 / 64 != a),
    cur := match s.cur with | some g => if g / 64 = a then none else some g | none => none,
    poolq := (s.poolq.filter fun r => !(r.core == a && decide (r.who < 2 ^ 50))).map (fun (r : PoolReq) =>
      if r.core = a then { r with core := b, who := if r.who = waiterCopy a then waiterCopy b else if 2 ^ 61 ≤ r.who then waiterDrain (n.queue (r.who - 2 ^ 61)) else r.who } else r),
    mxq := NMap.within (NMap.shift s.mxq 16 a b) 16 b fun _ q => n.mxq q,
    ops := s.ops.map (fun (e : Nat × Op) => (e.1, op e.2)),
    tables := tab,
    lprs := NMap.clearRange s.lprs (128 * a) (128 * (a + 1)),
    cores := NMap.put (NMap.put s.cores a (left (s.core a))) b (took (s.core b) (n.core (s.core a))) }

/-! One team (R227, R240, R373). -/

/-- One home lane of a move, counted within the core: fibre slots before and after, the first register and length of the span before, the first register after. -/
structure LaneMove where
  lane : Nat
  old : List Nat
  new : List Nat
  first : Nat
  len : Nat
  goal : Nat
deriving DecidableEq, Repr

/-- A move of a team: cores and team numbers, lanes, scratchpad units and tiles (first before, number, first after), reservation-table entries and barrier units with their new numbers. -/
structure Move where
  src : Nat
  dst : Nat
  team : Nat
  newTeam : Nat
  lanes : List LaneMove
  sp : Nat × Nat × Nat
  ac : Nat × Nat × Nat
  posts : List (Nat × Nat)
  units : List (Nat × Nat)
deriving DecidableEq, Repr

/-- The number a list gives a number; itself where it gives none. -/
def renamed (m : List (Nat × Nat)) (x : Nat) : Nat := ((m.find? fun e => e.1 == x).map Prod.snd).getD x

namespace Move

/-- The new number of a fibre of the team. -/
def fib (m : Move) (f : Nat) : Nat :=
  let k := match m.lanes.find? fun l => l.lane == hlOf f % 128 with
    | some l => l.new.getD (l.old.findIdx (· == f % 8)) (f % 8)
    | none => f % 8
  8 * (128 * m.dst + hlOf f % 128) + k

/-- The new number of a register of a home lane: one of the span moves with it, one of the handler window keeps its number. -/
def reg (m : Move) (hl r : Nat) : Nat :=
  match m.lanes.find? fun l => l.lane == hl % 128 with
  | some l => if l.first ≤ r ∧ r < l.first + l.len then r - l.first + l.goal else r
  | none => r

/-- A loop stack with its induction registers renumbered. -/
def loops (m : Move) (hl : Nat) (ls : List LoopEntry) : List LoopEntry :=
  ls.map fun x => match x with
    | .count a b n => .count a b n
    | .index a b v bound step r => .index a b v bound step (m.reg hl r)

/-- A fibre as it is moved. -/
def fibre (m : Move) (f : Nat) (held : Option Wait) (x : Fibre) : Fibre :=
  { x.saved held with team := m.newTeam, base := if x.mode = .user then m.reg (hlOf f) x.base else x.base, loops := m.loops (hlOf f) x.loops }

/-- The new number of a physical tile. -/
def tile (m : Move) (t : Nat) : Nat := if m.ac.1 ≤ t ∧ t < m.ac.1 + m.ac.2.1 then t - m.ac.1 + m.ac.2.2 else t

end Move

/-- How the team's fibres, its number and its reservation entries are renamed. -/
def State.names (s : State) (m : Move) : Names :=
  let mine (f : Nat) : Bool := (s.fibre f).team == m.team && coreOf f == m.src
  { src := m.src, dst := m.dst, moves := mine, fib := fun f => if mine f then m.fib f else f,
    team := fun t => if t = m.team then m.newTeam else t, post := renamed m.posts }

/-- The fibres of the team that moves. -/
def State.moved (s : State) (m : Move) : List (Nat × Fibre) := s.fibres.filter fun e => e.2.team == m.team

/-- The registers of a home lane from a to a+n, copied to another. -/
def State.copyRegs (s : State) (hl a hl2 b n : Nat) : State := (List.range n).foldl (fun t i => t.setReg hl2 (b + i) (s.reg hl (a + i))) s

/-- Moves the registers of the team's spans, and the handler windows its fibres hold with their registers. -/
def State.moveRegs (m : Move) (s : State) : State :=
  let s1 := m.lanes.foldl (fun t l => t.copyRegs (128 * m.src + l.lane) l.first (128 * m.dst + l.lane) l.goal l.len) s
  (s.hwins.filter fun e => (s.fibre e.2.holder).team == m.team).foldl (fun t (e : Nat × HandlerWin) =>
    let hl := 128 * m.dst + e.1 % 128
    let w := { e.2 with holder := m.fib e.2.holder, tbase := Word.ofNat (m.reg e.1 e.2.tbase.toNat), loops := m.loops e.1 e.2.loops }
    let h := s.hws e.2.holder
    { (t.copyRegs e.1 (512 - h) hl (512 - h) h) with hwins := NMap.put (NMap.del t.hwins e.1) hl w }) s1

/-- Moves the team's scratchpad range. -/
def State.moveSpad (m : Move) (s : State) : State :=
  let n := m.sp.2.1 * 4096
  let mine := NMap.slice s.spad (spadBytes * m.src + m.sp.1 * 4096) (spadBytes * m.src + m.sp.1 * 4096 + n)
  let at_ := spadBytes * m.dst + m.sp.2.2 * 4096
  { s with spad := NMap.paste (NMap.clearRange s.spad at_ (at_ + n)) at_ mine }

/-- Moves the entries, the poison and the state of one tile. -/
def State.moveTile (m : Move) (s : State) (i : Nat) : State :=
  let a := (s.core m.src).arr
  let old := m.ac.1 + i
  let new := m.ac.2.2 + i
  let mine := NMap.slice a.entries (4096 * old) (4096 * old + 4096)
  let bad := (a.poison.filter fun k => k / 4096 == old).map fun k => 4096 * new + k % 4096
  let x := NMap.get a.tiles old Tile.clear
  let y := { x with dep := x.dep.map fun d => (d.1, d.2.1, if d.2.2 = m.team then m.newTeam else d.2.2) }
  s.modCore m.dst fun c => { c with arr := { c.arr with
    entries := NMap.paste (NMap.clearRange c.arr.entries (4096 * new) (4096 * new + 4096)) (4096 * new) mine,
    poison := (c.arr.poison.filter fun k => k / 4096 != new) ++ bad,
    tiles := NMap.store c.arr.tiles new y Tile.clear } }

/-- What the handler queue of a core takes from another's with a team: the team's commands, offers, posts and halts, and while it is unused the configuration too. -/
def MxQueue.join (q : MxQueue) (n : Names) (mine : Nat → Bool) (posts : List Nat) (from_ : MxQueue) : MxQueue :=
  let own (k : Option Nat) : Bool := match k with | some x => posts.contains x | none => true
  let moved : MxQueue := n.mxq { from_ with cmds := from_.cmds.filter fun c => mine c.fibre, offers := from_.offers.filter fun o => mine o.fibre,
                                            halts := from_.halts.filter fun h => own h.2, claims := from_.claims.filter fun c => own c.1 }
  if q = MxQueue.empty then moved
  else { q with cmds := q.cmds ++ moved.cmds, offers := q.offers ++ moved.offers, halts := q.halts ++ moved.halts, claims := q.claims ++ moved.claims }

/-- What is left of it. -/
def MxQueue.without (q : MxQueue) (mine : Nat → Bool) (posts : List Nat) : MxQueue :=
  let own (k : Option Nat) : Bool := match k with | some x => posts.contains x | none => true
  { q with cmds := q.cmds.filter fun c => !mine c.fibre, offers := q.offers.filter fun o => !mine o.fibre,
           halts := q.halts.filter fun h => !own h.2, claims := q.claims.filter fun c => !own c.1 }

/-- Whether a team has a fibre in a handler. -/
def State.inHandler (s : State) (t : Nat) : Bool := s.hwins.any fun e => (s.fibre e.2.holder).team == t

/-- Moves the queued engine commands of the team, those of a core in their order (R240), and with a fibre that stands in a handler what it has given the handler queue (R280). -/
def State.moveCmds (m : Move) (s : State) : State :=
  let n := s.names m
  let a := s.core m.src
  let mine (f : Nat) : Bool := n.moves f
  let serves (c : XCmd) : Bool := c.lanes.any fun l => mine l.1
  let posts := m.posts.map Prod.fst
  let hand := s.inHandler m.team
  let s1 := s.modCore m.src fun c =>
    { c with copy := { c.copy with queue := c.copy.queue.filter fun x => x.team != m.team },
             pipeq := c.pipeq.filter fun x => !serves x, fabq := c.fabq.filter fun x => !serves x, statq := c.statq.filter fun x => !serves x,
             rangeq := c.rangeq.filter fun e => !mine e.2.2, hq := if hand then c.hq.without mine posts else c.hq,
             arr := { c.arr with drain := NMap.del (if hand then NMap.del c.arr.drain (handlerQueue m.src) else c.arr.drain) m.team } }
  let s2 := s1.modCore m.dst fun c =>
    { c with copy := { c.copy with queue := c.copy.queue ++ (a.copy.queue.filter fun x => x.team == m.team).map n.copycmd },
             pipeq := c.pipeq ++ (a.pipeq.filter serves).map n.xcmd, fabq := c.fabq ++ (a.fabq.filter serves).map n.xcmd,
             statq := c.statq ++ (a.statq.filter serves).map n.xcmd,
             rangeq := c.rangeq ++ (a.rangeq.filter fun e => mine e.2.2).map n.request,
             hq := if hand then c.hq.join n mine posts a.hq else c.hq,
             arr := { c.arr with drain :=
               let d := NMap.store c.arr.drain m.newTeam (NMap.get a.arr.drain m.team 0) 0
               if hand then NMap.store d (handlerQueue m.dst) (NMap.get a.arr.drain (handlerQueue m.src) (NMap.get d (handlerQueue m.dst) 0)) 0 else d } }
  let q := s.mxQueue m.team
  { s2 with mxq := NMap.store (NMap.del s2.mxq m.team) m.newTeam (n.mxq q) MxQueue.empty }

/-- Moves the reservation entries of the team: its queue's, and the handler queue's that its fibres posted. -/
def State.movePosts (m : Move) (s : State) : State :=
  let n := s.names m
  m.posts.foldl (fun t e =>
    match NMap.find t.tables e.1 with
    | none => t
    | some p => { t with tables := NMap.put (NMap.del t.tables e.1) e.2 { n.postRec p with tile := m.tile p.tile } }) s

/-- Moves one outstanding instruction of the team, with the pool entries it holds. -/
def State.moveOp (m : Move) (s : State) (e : Nat × Op) : State :=
  let hl := hlOf e.2.fibre
  let dst := match e.2.dst with | .regs rs => .regs (rs.map (m.reg hl)) | d => d
  let s1 := s.modOp e.1 fun x => { x with fibre := m.fib x.fibre, dst := dst, marks := [], rel := x.rel.map Rel.anew }
  e.2.holds.foldl (fun t h => (t.poolGive m.src h.1 h.2).poolTake m.dst h.1 h.2) s1

/-- Moves the barrier units of the team with their counts and phases (R336). -/
def State.moveUnits (m : Move) (s : State) : State :=
  m.units.foldl (fun t e =>
    match NMap.find (s.core m.src).units e.1 with
    | none => t
    | some (_, ph, fs) =>
      (t.modCore m.src fun c => { c with units := NMap.del c.units e.1 }).modCore m.dst fun c =>
        { c with units := NMap.put c.units e.2 (m.newTeam, ph, fs.map m.fib) }) s

/-- The record of the team at its new place; its allotment registers move with the allotments. -/
def Move.teamRec (m : Move) (x : Team) : Team :=
  let b := bits x.spalloc.toNat 6 0 + m.sp.2.2 + 128 - m.sp.1
  let a := bits x.acalloc.toNat 5 0 + m.ac.2.2 + 64 - m.ac.1
  { x with slots := x.slots.map m.fib,
           spans := x.spans.map (fun (e : Nat × Nat × Nat) => (128 * m.dst + e.1 % 128, m.reg e.1 e.2.1, e.2.2)),
           spalloc := Word.ofNat (x.spalloc.toNat / 128 * 128 + b % 128), acalloc := Word.ofNat (x.acalloc.toNat / 64 * 64 + a % 64),
           area := (m.sp.2.2, m.sp.2.1, m.ac.2.2, m.ac.2.1), units := x.units.map fun (u : Nat × Nat) => (u.1, renamed m.units u.2) }

/-- Takes the fibres of the team out of their groups. -/
def State.ungroup (s : State) (fs : List Nat) : State :=
  fs.foldl (fun t f => match t.groupOf f with | some g => t.leave g [f] | none => t) s

/-- Moves a team with all it holds; with a fibre that stands in a handler goes the handler's tile, where the core's is its own (R280). -/
def State.moveTeam (s0 : State) (m : Move) : State :=
  let fs := s0.moved m
  let s := s0.ungroup (fs.map Prod.fst)
  let mine := s.ops.filter fun e => (fs.map Prod.fst).contains e.2.fibre
  let s1 := (List.range m.ac.2.1).foldl (State.moveTile m) ((s.moveRegs m).moveSpad m)
  let s1 := if s.inHandler m.team && !(s.hwins.any fun e => e.1 / 128 == m.dst) then s1.moveTile { m with ac := (47, 1, 47) } 0 else s1
  let s2 := ((s1.moveCmds m).movePosts m).moveUnits m
  let s3 := mine.foldl (State.moveOp m) (s2.renameAll (s.names m))
  let x := s.team m.team
  let u := NMap.slice s.uregs (64 * m.team) (64 * m.team + 64)
  { s3 with
    fibres := fs.foldl (fun a e => NMap.put (NMap.del a e.1) (m.fib e.1) (m.fibre e.1 (s0.heldBy e.1) e.2)) s3.fibres,
    teams := NMap.put (NMap.del s3.teams m.team) m.newTeam (m.teamRec x),
    uregs := NMap.paste (NMap.clearRange s3.uregs (64 * m.team) (64 * m.team + 64)) (64 * m.newTeam) u }

end Sys2Proof.Machine
end

