-- ==== Sys2Proof/Machine/Partition.lean ====
section
/-! DEFINITION. The events of partitions: budgets, pre-emption, resume, context reset, gangs, compaction, the windlass (R313, R314, R364 to R377). -/

namespace Sys2Proof.Machine

/-! Budgets (R367). -/

/-- A budget in the smallest unit of its activity: none where it is unmetered. -/
def budgetOf (r : List Word) (a : Nat) : Option Nat :=
  if wordAt r (16 + a) = 0xFFFFFFFF then none else some (wordAt r (16 + a) * meterUnit a)

/-- A meter at the start of a period: its debt, capped at one budget. -/
def debtOf (b : Option Nat) (m : Nat) : Nat := match b with | none => 0 | some x => min (m - x) x

/-- A partition at a period boundary: a pending record takes effect, meters restart from their debt, holds lift; one that starts at its budget is exhausted at once. -/
def Part.nextPeriod (p : Part) (n : Nat) : Part :=
  let r := p.pendingRec.getD p.rec_
  let ms := (List.range 6).map fun a => debtOf (budgetOf p.rec_ a) (p.meters.getD a 0)
  let held := (List.range 6).map fun a => match budgetOf r a with | none => false | some b => decide (b ≤ ms.getD a 0)
  { p with rec_ := r, pendingRec := none, meters := ms, held := held, period := n }

/-- The requests that waited for a meter which is held no longer may begin. -/
def State.beginReqs (s : State) : State :=
  { s with reqs := s.reqs.map fun (e : Nat × Req) => if s.heldAct e.2.part 1 then e else (e.1, { e.2 with begun := true }) }

/-- BUDGET_PERIOD: each partition whose meters count an earlier period starts the one that horizon time lies in, and what the meters held may begin (R367). -/
def execBudgetPeriod (s : State) : Out :=
  let n := s.horizon / 10000
  .next (State.beginReqs { s with parts := s.parts.map fun (e : Nat × Part) => if e.2.period < n then (e.1, e.2.nextPeriod n) else e })

/-! Requests (R370, R373, R374). -/

/-- RELHOP of a partition (R364). -/
def State.relhop (s : State) (part : Nat) : Bool :=
  match NMap.find s.parts part with | some p => bit (wordAt p.rec_ 0) 23 | none => false

/-- The virtual number of a cluster's first core. -/
def State.clusterNumber (s : State) (cl : Nat) : Nat := s.vcore (4 * cl)

/-- The clusters of a stage that give way first: those of highest virtual number (R314, R373). -/
def State.giveUp (s : State) (g : Stage) (n : Nat) : List Nat := ((sortBy s.clusterNumber g.clusters).reverse).take n

/-- A core stops issuing: its groups hold where they stand, its open lines close (R352, R370). -/
def State.haltCore (s : State) (c : Nat) : State :=
  (s.modCore c fun x => { x with phase := .halting, since := s.cycle }).closeLines c fun _ => true

/-- Whether a request may be started: no cluster of it belongs to a DRAINING plan (R310, R370). -/
def State.mayStart (s : State) (r : Preempt) : Bool :=
  (clusterCores r.clusters).all fun c =>
    match (s.core c).plan.bind fun p => s.plan? p.1 with
    | some x => decide (x.state ≠ .draining)
    | none => true

/-- The clusters that a context's plans hold. -/
def State.ctxClusters (s : State) (ctx : Nat) : List Nat :=
  (s.plans.filter fun e => e.2.ctx == ctx).flatMap fun e => e.2.stages.flatMap Stage.clusters

/-- Clusters a stage may give up: those above MINCL, none under RELHOP (R373, R374). -/
def State.spare (s : State) (plan : Nat) (g : Stage) : Nat :=
  if s.relhop (s.partOf (plan / 16)) then 0 else g.clusters.length - recMin g.rec_

/-- The fewest clusters a stage may keep: MINCL, and for a RESIDENT stage those that hold all its teams (R313). -/
def Stage.floor (g : Stage) (hctl : Word) : Nat :=
  if recResident g.rec_ then max (recMin g.rec_) (ceilDiv g.teams (4 * teamCapacity g.rec_ hctl)) else recMin g.rec_

/-- The clusters a request takes, as they stand when it is served: a whole context's, those it names, or the donor's of highest virtual number, for the windlass above its floor and of the receiver's dies (R314, R373). -/
def State.pickClusters (s : State) (r : Preempt) : List Nat :=
  if r.whole then s.ctxClusters r.ctx
  else
    match s.stage? r.plan r.stage with
    | none => []
    | some g =>
      if r.count = 0 then r.clusters.filter g.clusters.contains
      else
        match r.receiver.bind fun q => s.stage? q.1 q.2 with
        | some h =>
          ((s.giveUp g g.clusters.length).filter (onDies h.rec_)).take
            (min r.count (min (g.clusters.length - g.floor (s.hctlOf r.ctx)) (recMax h.rec_ - h.clusters.length)))
        | none => s.giveUp g (min r.count (s.spare r.plan g))

/-- Serves the first request of a partition, if none is being served and it may be; one that finds no cluster to take is over (R370). -/
def State.servePreempt (part : Nat) : Nat → State → State
  | 0, s => s
  | n + 1, s =>
    match s.preempts.findIdx? fun r => r.part == part with
    | none => s
    | some i =>
      match s.preempts[i]? with
      | none => s
      | some r =>
        let x := { r with clusters := s.pickClusters r }
        if r.started then s
        else if x.clusters.isEmpty then State.servePreempt part n { s with preempts := s.preempts.eraseIdx i }
        else if !s.mayStart x then s
        else
          (clusterCores x.clusters).foldl (fun t c => if (t.core c).plan.isSome then t.haltCore c else t)
            { s with preempts := s.preempts.set i { x with started := true } }
def State.startPreempt (s : State) (part : Nat) : State := State.servePreempt part (s.preempts.length + 1) s

/-- Adds a request behind those of its partition. -/
def State.request (s : State) (r : Preempt) : State := ({ s with preempts := s.preempts ++ [r] }).startPreempt r.part

/-- A request that a whole context leaves. -/
def State.wholeRequest (s : State) (ctx : Nat) : Preempt :=
  { part := s.partOf ctx, ctx := ctx, plan := 16 * ctx, stage := 0, count := 0, clusters := [], whole := true, started := false, receiver := none }

/-- PREEMPT_REQUEST: the scheduler asks a stage for clusters, or with a stage of 16 the whole context of the plan; with none it goes on with the requests that wait (R370, R373). -/
def execPreemptRequest (plan stage clusters : Nat) (s : State) : Out :=
  let part := s.partOf (plan / 16)
  if clusters = 0 then .next (s.startPreempt part)
  else if stage = 16 then .next (s.request (s.wholeRequest (plan / 16)))
  else
    match s.stage? plan stage with
    | none => .next s
    | some _ => .next (s.request { part := part, ctx := plan / 16, plan := plan, stage := stage, count := clusters, clusters := [], whole := false,
                                   started := false, receiver := none })

/-! Halting (R210, R227, R251, R283, R370). -/

/-- Whether an operation keeps its core from being saved: a memory instruction that is not complete, unless its words wait for room in a queue register (R210, R239), or a release under way. -/
def Op.keeps (x : Op) : Bool := x.rel.isSome || (x.isMem && !(x.left == 0 && (match x.dst with | .queue _ => true | _ => false)))

/-- Whether a core's fibres have a memory instruction, a result on its way to its register or an update with a release under way, or its lines have still to drain into a LIVE window (R36, R210, R361). -/
def State.memBusy (s : State) (core : Nat) : Bool :=
  (s.ops.any fun e => coreOf e.2.fibre == core && e.2.keeps) || (s.reqs.any fun e => e.2.core == core && decide (e.2.stage ≠ .landed)) ||
    (s.flying.any fun x => coreOf x.fibre == core) || ((s.core core).wcb.any fun l => decide ((s.win l.entry).state = .live)) ||
    (s.pipes.any fun e => e.2.updates.any fun u => u.team / 16 == core) ||
    (s.plans.any fun e => e.2.stages.any fun g => g.updates.any fun u => u.core == core)

/-- Whether a copy step that has begun cannot go on: one that waits for words or room of a queue register, or for a line of a window in ERROR (R239); it is saved with its data (log 110). -/
def State.copyStuck (s : State) (core : Nat) : Bool :=
  match execCopyStep core s with
  | .next t => decide ((t.core core).copy = (s.core core).copy)
  | _ => false

/-- Whether a core's engines have still to come to rest: a unit, sums in the cells, a copy step under way (R283, R370, R414). -/
def State.enginesBusy (s : State) (core : Nat) : Bool :=
  let c := s.core core
  !c.arr.units.isEmpty || c.arr.resident.isSome || c.arr.shadow.isSome ||
    (match c.copy.queue with | x :: _ => c.copy.inStep x && !s.copyStuck core | [] => false)

/-- The greatest completion or settle time a core's fibres and evictions owe. -/
def State.owedTime (s : State) (core : Nat) : Nat :=
  (s.fibres.filter fun e => coreOf e.1 == core).foldl (fun m e => max m (max e.2.ct e.2.ot)) (s.core core).ev

/-- CORE_HALTED: every memory operation is performed, every unit complete, every dirty block written back, and horizon time has passed what the core owes: the save begins (R370). -/
def execCoreHalted (core : Nat) (s : State) : Out :=
  if (s.core core).phase ≠ .halting ∨ s.memBusy core = true ∨ s.enginesBusy core = true then .next s
  else if (s.core core).l1.any L1Block.isDirty then .next (s.startFlush core)
  else if s.horizon < s.owedTime core then .next s
  else .next (s.modCore core fun c => { c with phase := .saving })

/-! Saving (R227, R240, R371 to R373). -/

/-- The reservation entries of a team: its queue's, and those its fibres posted from handlers. -/
def State.postsOf (s : State) (t : Nat) : List Nat :=
  (s.tables.filter fun e => e.2.queue == t || (e.2.queue == handlerQueue (t / 16) && (s.fibre e.2.cmd.fibre).team == t)).map Prod.fst

/-- Frees the wait-table entries of a core: their tokens are stale (R227). -/
def State.clearWaits (s : State) (core : Nat) : State :=
  s.modCore core fun c => { c with waits := freeWaits c.waits, copy := { c.copy with parked := none } }

/-- A core as its save leaves it: the lines and packets that could not leave stay with it (R355). -/
def State.emptied (s : State) (core : Nat) (c : Core) : Core :=
  { (c.afterReset (c.ctx.getD 0)) with phase := .vacated, waits := c.waits, wcb := c.wcb, l1 := [], tlb := [], ev := 0, plan := none, pool := s.fabHeld core }

/-- Two pools in one, as counts by instance. -/
def poolSum (a b : NMap Nat) : NMap Nat := b.foldl (fun m e => NMap.store m e.1 (NMap.get m e.1 0 + e.2) 0) a
/-- A pool without what another counts. -/
def poolLess (a b : NMap Nat) : NMap Nat := b.foldl (fun m e => NMap.store m e.1 (NMap.get m e.1 0 - e.2) 0) a

/-- The bytes of shadow storage an image takes (R371). -/
def imageSize : Nat := 2560 * 1024

/-- Whether the images of a partition on a die no longer fit its shadow ways (R365, R371). -/
def State.shadowFull (s : State) (part die : Nat) : Bool :=
  match NMap.find s.parts part with
  | some p => decide (bits (wordAt p.rec_ 0) 28 24 * 64 * 2 ^ 20 < imageSize * (s.images.filter fun i => s.partOf i.ctx == part && dieOf i.from_ == die).length)
  | none => false

/-- The stages of a plan whose context has been swapped out hold no cluster. -/
def State.leavePlan (ctx : Nat) (e : Nat × Plan) : Nat × Plan :=
  if e.2.ctx = ctx then (e.1, { e.2 with stages := e.2.stages.map fun g => { g with clusters := [] } }) else e

/-- Takes the cores' clusters of a finished request from the donor and gives them to the receiver (R314, R370, R373). -/
def State.endPreempt (s : State) (r : Preempt) : State :=
  let s1 := if r.whole then { s with plans := s.plans.map (State.leavePlan r.ctx) }
    else s.modStage r.plan r.stage fun g => { g with clusters := g.clusters.filter fun c => !r.clusters.contains c }
  let s2 := if r.whole then s1.modCtx r.ctx (fun c => { c with vmap := [] })
    else s1.modCtx r.ctx fun c => { c with vmap := c.vmap.filter fun e => !(clusterCores r.clusters).contains e.2 }
  let s3 := { s2 with preempts := s2.preempts.erase r }
  let s4 := match r.receiver with
    | some (p, i) => if (s3.plan? p).isSome then r.clusters.foldl (fun (t : State) c => t.takeCluster p i c) s3 else s3
    | none => s3
  s4.startPreempt r.part

/-- A request whose cores are all vacated is done. -/
def State.checkPreempts (s : State) : State :=
  match s.preempts.find? fun r => r.started && (clusterCores r.clusters).all fun c => decide ((s.core c).phase = .vacated) || (s.core c).plan.isNone with
  | some r => s.endPreempt r
  | none => s

/-- Saves a core: all it holds stands in an image, and the core is VACATED. -/
def State.saveCore (s : State) (core : Nat) (whole : Bool) (p : Nat × Nat) : State :=
  let n := s.nextId
  let dst := 4096 + n
  let img : Image := { num := n, ctx := (s.core core).ctx.getD 0, plan := p.1, stage := p.2, from_ := core, vcore := s.vcore core, whole := whole, placed := none, msgs := [] }
  let ts := (s.teams.filter fun e => e.1 / 16 == core).map Prod.fst
  let s1 := { (s.clearWaits core) with nextId := n + 1, images := s.images ++ [img] }
  let keys := (indexed (s.corePosts core)).map fun e => (e.2, 2 ^ 32 * dst + e.1)
  let s3 := s1.shiftCore core dst keys (s.emptied core) fun _ c => { c with pool := poolLess c.pool (s.fabHeld core) }
  let s4 := s3.modStage p.1 p.2 fun g => { g with saved := g.saved ++ ts.map fun k => (s.team k).index }
  if s4.shadowFull (s4.partOf img.ctx) (dieOf core) then s4.eventOpen 0x09 else s4

/-- CORE_SAVED: the image is complete and the core is VACATED; a core without a team leaves no image (R371, R372). -/
def execCoreSaved (core : Nat) (s : State) : Out :=
  if (s.core core).phase ≠ .saving then .next s
  else
    let whole := s.preempts.any fun r => r.started && r.whole && (clusterCores r.clusters).contains core
    let s1 := match (s.core core).plan with
      | some p =>
        if (s.teams.any fun e => e.1 / 16 == core) || whole then s.saveCore core whole p
        else s.modCore core (s.emptied core)
      | none => s
    .next ({ s1 with groups := s1.groups.filter (fun e => e.1 / 64 != core), lprs := NMap.clearRange s1.lprs (128 * core) (128 * (core + 1)) }).checkPreempts

/-! Resuming (R227, R300, R373, R374). -/

/-- What a saved team needs of a core. -/
def Team.need (x : Team) : Need :=
  { lanes := x.spans.map fun e => (e.1 % 128, (x.slots.filter fun f => f / 8 == e.1).length, e.2.2), scr := x.area.2.1, acc := x.area.2.2.2 }

/-- The move of a saved team into the room found on a core: none where barrier units, reservation entries or a handler window lack. -/
def State.resumeMove (s : State) (t core : Nat) (r : Room) : Option Move :=
  let x := s.team t
  let lanes := r.lanes.map fun l =>
    let e := (x.spans.find? fun e => e.1 % 128 == l.1).getD (0, 0, 0)
    ({ lane := l.1, old := (x.slots.filter fun f => f / 8 == e.1).map (· % 8), new := l.2.1, first := e.2.1, len := e.2.2, goal := l.2.2 } : LaneMove)
  let posts := s.postsOf t
  let keys := ((List.range 64).map (64 * clusterOf core + ·)).filter fun k => (NMap.find s.tables k).isNone
  let free := (List.range 16).filter fun u => (NMap.find (s.core core).units u).isNone
  let wins := (s.hwins.filter fun e => (s.fibre e.2.holder).team == t).map fun e => 128 * core + e.1 % 128
  if keys.length < posts.length ∨ free.length < x.units.length ∨ wins.any (fun h => (NMap.find s.hwins h).isSome) = true then none
  else some { src := t / 16, dst := core, team := t, newTeam := 16 * core + r.slot, lanes := lanes, sp := (x.area.1, x.area.2.1, r.sp),
              ac := (x.area.2.2.1, x.area.2.2.2, r.ac), posts := posts.zip keys, units := (x.units.map Prod.snd).zip free }

/-- The saved team of a stage that resumes first: the lowest TEAMID (R373). -/
def State.firstSaved (s : State) (plan stage : Nat) : Option Nat :=
  ((s.teams.filter fun e => decide (4096 ≤ e.1 / 16) && e.2.plan == plan && e.2.stage == stage && !e.2.ended).foldl (fun (b : Option (Nat × Nat)) e =>
    match b with
    | some (_, n) => if e.2.index < n then some (e.1, e.2.index) else b
    | none => some (e.1, e.2.index)) none).map Prod.fst

/-- An image that holds no team any more hands what is left to a core: queue contents, and range slots that are empty there (log 25). -/
def State.closeImage (s : State) (i : Image) (core : Nat) : State :=
  if s.teams.any fun e => e.1 / 16 == i.shadow then s
  else
    let g := s.core i.shadow
    (s.modCore core fun c =>
      { c with queues := g.queues.foldl (fun m e =>
                 let old := NMap.get m e.1 ([], 0)
                 NMap.put m e.1 (old.1 ++ e.2.1, old.2 + e.2.2)) c.queues,
               pool := poolSum c.pool g.pool,
               ranges := g.ranges.foldl (fun m e => if (c.range e.1).cur < (c.range e.1).hi then m else NMap.put m e.1 e.2) c.ranges }).freeImages
      fun x => x.num == i.num

/-- A message that came for a vacated core is handed to the core where it resumes; an access to its scratchpad is performed there (R342). -/
def State.handIn (core : Nat) (s : State) (m : Msg) : State :=
  match m.body with
  | .request r =>
    match NMap.find s.reqs r with
    | some x => if 2 ^ 60 ≤ x.line then s.performWindow r core x else s.handOver m
    | none => s
  | _ => s.handOver m

/-- Hands over the messages of an image, before any fibre of the core issues (R342). -/
def State.handMsgs (s : State) (i : Image) (core : Nat) : State :=
  let ms := (s.images.filter fun x => x.num == i.num).flatMap Image.msgs
  ms.foldl (State.handIn core) { s with images := s.images.map fun x => if x.num = i.num then { x with msgs := [] } else x }

/-- Gives back its wait to a fibre of a restored core: it is READY with none. -/
def State.ready (s : State) (t : Nat) : State := s.modFibres (s.teamFibres t) fun x => { x with wait := none }

/-- Restores one saved team on a core of its stage. -/
def State.restoreTeam (s : State) (i : Image) (t core : Nat) (m : Move) : State :=
  let x := s.team t
  let s1 := (s.moveTeam m).ready m.newTeam
  let s2 := s1.modStage x.plan x.stage fun g => { g with saved := g.saved.erase x.index }
  let s3 := (s2.handMsgs i core).closeImage i core
  [0, 1, 2, 3].foldl (fun u q => u.refill (4 * core + q)) s3

/-- The first core of a stage's share with room for a saved team, and the move there (R300, R373). -/
def State.resumeAt (s : State) (plan : Nat) (g : Stage) (t : Nat) : Option (Nat × Move) :=
  ((s.shareCores g).filter s.coreRuns).findSome? fun c => ((s.room c (plan / 16) (s.team t).need).bind (s.resumeMove t c)).map fun m => (c, m)

/-- Gives a virtual number another physical core, the context being quiesced; the number that named that core takes the one left (R344, R373). -/
def State.swapNumber (s : State) (ctx v core : Nat) : State :=
  let old := NMap.find s.mesh.remap (256 * ctx + v)
  let other := s.numberOf ctx core
  s.writeRemap ctx fun r =>
    NMap.put (match other, old with | some w, some o => NMap.put r (256 * ctx + w) o | _, _ => r) (256 * ctx + v) core

/-- Places an image of a swapped-out context on a free core of its partition: the core is RESTORING. -/
def State.placeImage (s : State) (i : Image) (core : Nat) : State :=
  let s1 := (s.passCore i.ctx core).swapNumber i.ctx i.vcore core
  let s2 := { s1 with images := s1.images.map fun x => if x = i then { x with placed := some core } else x }
  let s3 := s2.modCore core fun c => { c with phase := .restoring, plan := some (i.plan, i.stage) }
  let cl := clusterOf core
  (s3.modStage i.plan i.stage fun g => { g with clusters := if g.clusters.contains cl then g.clusters else g.clusters ++ [cl] }).modCtx i.ctx
    fun c => { c with vmap := NMap.put c.vmap i.vcore core }

/-- Whether a cluster is free for the images of a context: no stage holds it but one that is being restored there. -/
def State.freeFor (s : State) (ctx : Nat) (plan : Option (Nat × Nat)) (cl : Nat) : Bool :=
  (s.partClusters ctx).contains cl && (clusterCores [cl]).all fun c =>
    (s.core c).plan.isNone || (decide ((s.core c).phase = .restoring) &&
      (match plan with | some p => decide ((s.core c).plan = some p) | none => match (s.core c).plan with | some p => p.1 / 16 == ctx | none => true))

/-- A cluster moved by a number of columns and rows, where that stays on the grid. -/
def movedBy (dx dy : Int) (cl : Nat) : Option Nat :=
  let x := clusterX cl + dx
  let y := clusterY cl + dy
  if 0 ≤ x ∧ x < 8 ∧ 0 ≤ y ∧ y < 8 then some (8 * y.toNat + x.toNat) else none

/-- The clusters of the smallest rectangle around some clusters. -/
def boundOf (cls : List Nat) : List Nat :=
  let xs := cls.map clusterX
  let ys := cls.map clusterY
  (List.range 64).filter fun c => decide (xs.foldl min 7 ≤ clusterX c ∧ clusterX c ≤ xs.foldl max 0 ∧ ys.foldl min 7 ≤ clusterY c ∧ clusterY c ≤ ys.foldl max 0)

/-- Under RELHOP: whether a core stands to the one an image left as every image of its context may stand to its own: at the same place of its cluster, with the whole rectangle moved alike and free (R374). -/
def State.sameShape (s : State) (i : Image) (core : Nat) : Bool :=
  let all := s.images.filter fun x => x.ctx == i.ctx && x.whole
  let dx : Int := clusterX (clusterOf core) - clusterX (clusterOf i.from_)
  let dy : Int := clusterY (clusterOf core) - clusterY (clusterOf i.from_)
  core % 4 == i.from_ % 4 &&
    ((boundOf (all.map fun x => clusterOf x.from_)).all fun c => match movedBy dx dy c with | some d => s.freeFor i.ctx none d | none => false) &&
    all.all fun x => match x.placed with | some c => movedBy dx dy (clusterOf x.from_) == some (clusterOf c) | none => true

/-- Reservation entries that the images placed in a cluster bring with them. -/
def State.postsComing (s : State) (cl : Nat) : Nat :=
  ((s.images.filter fun x => match x.placed with | some c => clusterOf c == cl | none => false).map fun x => (s.corePosts x.shadow).length).sum

/-- Whether a gang of a partition can start on the clusters that are free, which it does as soon as they are (R375). -/
def State.gangFits (s : State) (part : Nat) : Bool :=
  s.gangs.any fun g => s.partOf g.ctx == part && match s.plan? g.plan with
    | some x => decide (x.state = .loaded ∧ s.frontPlan x.ctx = some g.plan) && (shares (x.stages.map Stage.rec_) (s.freeClustersOf x.ctx)).isSome
    | none => false

/-- Whether a core may take an image of a swapped-out context: in the partition, held by no stage, its cluster free but for images of the same stage and for no gang that can start, with reservation entries enough; under RELHOP in the same shape (R373 to R375). -/
def State.mayPlace (s : State) (i : Image) (core : Nat) : Bool :=
  !s.gangFits (s.partOf i.ctx) && s.freeFor i.ctx (some (i.plan, i.stage)) (clusterOf core) && (s.core core).plan.isNone && (s.teamsOn core).isEmpty &&
    decide ((s.core core).phase = .running ∨ (s.core core).phase = .vacated) &&
    decide (s.postsComing (clusterOf core) + (s.corePosts i.shadow).length ≤ 64) && (!s.relhop (s.partOf i.ctx) || s.sameShape i core)

/-- RESUME_PLACED: a saved team resumes on the first core of its stage that has room, or an image of a swapped-out context is placed on a free core, its tables rewritten; until the context is quiesced the routers refuse that with BUSY (R344, R373). -/
def execResumePlaced (image core : Nat) (s : State) : Out :=
  match s.images[image]? with
  | none => .next s
  | some i =>
    if i.whole then
      if i.placed.isSome || !s.mayPlace i core then .next s
      else if !s.quiesced i.ctx then .next { s with mesh := { s.mesh with busy := true } }
      else .next (s.placeImage i core)
    else
      match s.firstSaved i.plan i.stage, s.stage? i.plan i.stage with
      | some t, some g =>
        if t / 16 ≠ i.shadow then .next s
        else
          match s.resumeAt i.plan g t with
          | some (c, m) => if c = core then .next (s.restoreTeam i t core m) else .next s
          | none => .next s
      | _, _ => .next s

/-- A core as it takes up its image: its own lines, packets and wait-table generations stay, and the registers that the partition's record has loaded (R237, R340, R353). -/
def Core.restored (now : Nat) (c image : Core) : Core :=
  { image with ctx := c.ctx, phase := .running, since := now, plan := c.plan, poolcfg := c.poolcfg, netctl := c.netctl, fxctl := c.fxctl,
               wcb := c.wcb, waits := c.waits, pool := poolSum c.pool image.pool }

/-- Gives back a whole core what its image holds, at the same places within the core. -/
def State.restoreCore (s : State) (i : Image) (core : Nat) : State :=
  let ts := (s.teams.filter fun e => e.1 / 16 == i.shadow).map Prod.fst
  let keys := ((List.range 64).map (64 * clusterOf core + ·)).filter fun k => (NMap.find s.tables k).isNone
  let s1 := s.shiftCore i.shadow core ((s.corePosts i.shadow).zip keys) id (Core.restored s.cycle)
  let s2 := ts.foldl (fun (u : State) t => u.ready (16 * core + t % 16)) s1
  let s3 := s2.modStage i.plan i.stage fun g => { g with saved := g.saved.filter fun n => !(ts.map fun t => (s.team t).index).contains n }
  [0, 1, 2, 3].foldl (fun u q => u.refill (4 * core + q)) ((s3.handMsgs i core).freeImages fun x => x.num == i.num)

/-- CORE_RESTORED: the image is read back and the core runs, once every core of the context has been placed; the messages that came meanwhile are handed over first (R342, R370, R373). -/
def execCoreRestored (core : Nat) (s : State) : Out :=
  match s.images.find? fun i => i.placed == some core with
  | none => .next s
  | some i =>
    if (s.core core).phase ≠ .restoring ∨ (s.images.any fun x => x.ctx == i.ctx && x.whole && x.placed.isNone) = true then .next s
    else .next (s.restoreCore i core)

/-! Context reset (R368). -/

/-- CONTEXT_RESET: a placed context is reset for a cause. -/
def execContextReset (ctx cause : Nat) (s : State) : Out :=
  if (s.ctx? ctx).isSome then .next (s.resetContext ctx cause) else .next s

/-! Gangs (R375 to R377). -/

/-- Whether a context still holds a core that is halting or being saved. -/
def State.leaving (s : State) (ctx : Nat) : Bool :=
  (s.ctxCores ctx).any fun c => decide ((s.core c).phase = .halting ∨ (s.core c).phase = .saving)

/-- GRACE and PLACE of a partition in nanoseconds (R364). -/
def State.graceOf (s : State) (part : Nat) : Nat :=
  let g := match NMap.find s.parts part with | some p => wordAt p.rec_ 22 | none => 0
  (if g = 0 then 50 else g) * 1000
def State.placeOf (s : State) (part : Nat) : Nat :=
  let g := match NMap.find s.parts part with | some p => wordAt p.rec_ 23 | none => 0
  (if g = 0 then 1000 else g) * 1000

/-- GANG_GRACE_EXPIRE: the victim of a gang that is still leaving after GRACE is reset, and the gang's plan starts (R376). -/
def execGangGraceExpire (k : Nat) (s : State) : Out :=
  match s.gangs[k]? with
  | none => .next s
  | some g =>
    match g.victim with
    | none => .next s
    | some v =>
      if s.horizon < g.since + s.graceOf (s.partOf g.ctx) ∨ s.leaving v = false then .next s
      else
        let s1 := s.resetContext v 0x21
        execPlanStart g.plan { s1 with gangs := s1.gangs.map fun x => if x = g then { x with victim := none } else x }

/-- A rectangle of clusters: its first column and row, width and height. -/
def rectClusters (x y w h : Nat) : List Nat := (List.range h).flatMap fun j => (List.range w).map fun i => 8 * (y + j) + x + i

/-- The rectangles of the 8 × 8 grid. -/
def rectangles : List (List Nat) :=
  (List.range 8).flatMap fun y => (List.range 8).flatMap fun x =>
    (List.range (8 - y)).flatMap fun h => (List.range (8 - x)).map fun w => rectClusters x y (w + 1) (h + 1)

/-- What a plan's stages need. -/
def Plan.needs (x : Plan) : List (Nat × Nat) := x.stages.map fun g => (recDies g.rec_, recMin g.rec_)

/-- The clusters of a list that a stage or a team holds. -/
def State.occupied (s : State) (cls : List Nat) : List Nat := cls.filter fun c => !s.clusterFree c

/-- The rectangles a gang's plan could use, fewest occupied clusters first, then lowest first cluster (R377). -/
def State.gangRects (s : State) (x : Plan) : List (List Nat) :=
  let part := s.partClusters x.ctx
  let fit := rectangles.filter fun r => r.all part.contains && placeable x.needs r
  let key (r : List Nat) : Nat := 64 * (s.occupied r).length + r.headD 0
  (sortBy (fun i => key (fit.getD i [])) (List.range fit.length)).map fun i => fit.getD i []

/-- The stages that hold clusters of a list, plans that started earliest first, each with its clusters there. -/
def State.occupants (s : State) (cls : List Nat) : List (Nat × Nat × List Nat) :=
  let ps := sortBy (fun p => match s.plan? p with | some x => x.order | none => 0) (s.plans.map Prod.fst)
  (ps.flatMap fun p => match s.plan? p with
    | some x => (indexed x.stages).map fun e => (p, e.1, e.2.clusters.filter cls.contains)
    | none => []).filter fun e => !e.2.2.isEmpty

/-- Gives each occupant as many free clusters outside, on its dies, and asks it for its own; none where one cannot be served. -/
def State.evacuate (s : State) : List (Nat × Nat × List Nat) → List Nat → Option State
  | [], _ => some s
  | (p, i, cs) :: es, free =>
    match s.stage? p i with
    | none => none
    | some g =>
      let mine : List Nat := (free.filter (onDies g.rec_)).take cs.length
      if mine.length < cs.length ∨ s.relhop (s.partOf (p / 16)) = true then none
      else
        let s1 := mine.foldl (fun (t : State) c => t.takeCluster p i c) s
        State.evacuate (s1.request { part := s.partOf (p / 16), ctx := p / 16, plan := p, stage := i, count := 0, clusters := cs, whole := false,
                                     started := false, receiver := none }) es (free.filter fun c => !mine.contains c)

/-- The first rectangle whose occupants can all be moved. -/
def State.compactBy (s : State) (ctx : Nat) : List (List Nat) → Option State
  | [] => none
  | r :: rs =>
    let free := (s.freeClustersOf ctx).filter fun c => !r.contains c
    if free.length < (s.occupied r).length then State.compactBy s ctx rs
    else
      match s.evacuate (s.occupants r) free with
      | some t => some t
      | none => State.compactBy s ctx rs

/-- COMPACTION: a gang that has waited longer than PLACE has the occupants of a rectangle moved, or GANG_BLOCKED is raised (R377). -/
def execCompaction (k : Nat) (s : State) : Out :=
  match s.gangs[k]? with
  | none => .next s
  | some g =>
    match s.plan? g.plan with
    | none => .next s
    | some x =>
      if s.horizon ≤ g.since + s.placeOf (s.partOf g.ctx) ∨ g.compacting = true ∨ x.state ≠ .loaded then .next s
      else
        match s.compactBy g.ctx (s.gangRects x) with
        | some t => .next { t with gangs := t.gangs.map fun y => if y = g then { y with compacting := true } else y }
        | none => .next (s.eventOpen 0x0A)

/-! The windlass (R313, R314). -/

/-- The pressure of a stage: none where it consumes no local pipe. -/
def State.pressure (s : State) (plan i : Nat) : Option Nat :=
  let ps := (s.planPipes plan).filterMap fun k => (s.pipe? k).filter fun p => !p.xdev && p.cons == i
  match ps with
  | [] => none
  | _ => some (ps.foldl (fun m p => max m (p.occ * 256 / p.depth)) 0)


/-- The stages that take part, with their pressures. -/
def State.taking (s : State) (plan : Nat) (x : Plan) : List (Nat × Nat × Stage) :=
  (indexed x.stages).filterMap fun e => if e.2.rest = 0 then (s.pressure plan e.1).map fun p => (e.1, p, e.2) else none

/-- The pair chosen: donor and receiver; ties go to the lower index (R313). -/
def State.choosePair (s : State) (plan : Nat) (x : Plan) : Option (Nat × Nat) :=
  let ts := s.taking plan x
  let recv := (ts.filter fun e => decide (e.2.2.clusters.length < recMax e.2.2.rec_)).foldl (fun (b : Option (Nat × Nat)) e =>
    match b with | some (_, p) => if p < e.2.1 then some (e.1, e.2.1) else b | none => some (e.1, e.2.1)) none
  match recv with
  | none => none
  | some (r, pr) =>
    let donor := (ts.filter fun e => e.1 != r && decide (e.2.2.floor (s.hctlOf x.ctx) < e.2.2.clusters.length)).foldl (fun (b : Option (Nat × Nat)) e =>
      match b with | some (_, p) => if e.2.1 < p then some (e.1, e.2.1) else b | none => some (e.1, e.2.1)) none
    match donor with
    | some (d, pd) => if pr < pd + 64 then none else some (d, r)
    | none => none

/-- Clusters moved by one windlass move (R314). -/
def Plan.moveSize (x : Plan) (d r : Stage) (hctl : Word) : Nat :=
  min (bits (wordAt x.hdr 0) 27 26 + 1) (min (d.clusters.length - d.floor hctl) (recMax r.rec_ - r.clusters.length))

/-- Asks for the move of a pair chosen twice in a row; neither stage takes part in the next two intervals. -/
def State.windlassMove (s : State) (plan : Nat) (x : Plan) (p : Nat × Nat) : State :=
  match x.stages[p.1]?, x.stages[p.2]? with
  | some d, some r =>
    let s1 := (s.modStage plan p.1 fun g => { g with rest := 2 }).modStage plan p.2 fun g => { g with rest := 2 }
    let n := x.moveSize d r (s.hctlOf x.ctx)
    if n = 0 then s1
    else s1.request { part := s.partOf x.ctx, ctx := x.ctx, plan := plan, stage := p.1, count := n, clusters := [], whole := false, started := false,
                      receiver := some (plan, p.2) }
  | _, _ => s

/-- WINDLASS_INTERVAL: the windlass chooses a pair for a running plan with BAL set, and moves one chosen at the interval before (R313, R314). -/
def execWindlassInterval (plan : Nat) (s : State) : Out :=
  match s.plan? plan with
  | none => .next s
  | some x =>
    if x.state ≠ .running ∨ bit (wordAt x.hdr 0) 28 = false ∨ s.relhop (s.partOf x.ctx) = true ∨ s.horizon < x.nextInterval then .next s
    else
      let pair := s.choosePair plan x
      let s1 := s.modPlan plan fun y =>
        { y with nextInterval := y.nextInterval + x.balint, pair := pair, stages := y.stages.map fun g => { g with rest := g.rest - 1 } }
      match pair with
      | some p => if x.pair = some p then .next ((s1.windlassMove plan x p).modPlan plan fun y => { y with pair := none }) else .next s1
      | none => .next s1

end Sys2Proof.Machine
end

