-- ==== Sys2Proof/Machine/HostEvents.lean ====
section
/-! DEFINITION. The host link: the launch channel and its messages, BAR0 writes with behaviour of their own, boot, power and health (R21, R221, R232, R348, R363 to R365, R375, R378 to R393). -/

namespace Sys2Proof.Machine

/-! The rings (R379, R380, R382, R384, R385). -/

def HostLink.sqSlots (h : HostLink) : Nat := 2 ^ h.sqlog
def HostLink.cqSlots (h : HostLink) : Nat := 2 ^ h.cqlog
/-- Messages between the slot read next and the doorbell. -/
def HostLink.waiting (h : HostLink) : Nat := (h.sqtail + h.sqSlots - h.sqhead % h.sqSlots) % h.sqSlots
/-- Completion slots the device may write: one stays empty, so that a full ring is not an empty one. -/
def HostLink.cqFree (h : HostLink) : Nat := (h.cqhead % h.cqSlots + 2 * h.cqSlots - 1 - h.cqtail % h.cqSlots) % h.cqSlots
/-- Whether the device writes completion entries now. -/
def State.cqOpen (s : State) : Bool :=
  s.host.en && !s.host.restart && decide (s.boot = .ready) && decide (s.throttle < 3) && decide (0 < s.host.cqFree)

/-- Writes an entry into the next completion slot. -/
def State.putEntry (s : State) (e : List Word) : State :=
  let h := s.host
  let s1 := s.setHostWords (h.cqbase + 64 * (h.cqtail % h.cqSlots)) e
  { s1 with host := { h with cqtail := (h.cqtail + 1) % h.cqSlots } }

/-- Writes a new entry: it takes the next DSEQ and HACK as it stands, and is retained (R382, R384). -/
def State.newEntry (s : State) (e : List Word) : State :=
  let h := s.host
  let n := (h.dseqw + 1) % 2 ^ 32
  let x := (e.set 1 (Word.ofNat n)).set 2 (Word.ofNat h.hack)
  let kept := h.retained ++ [x]
  State.putEntry { s with host := { h with dseqw := n, retained := kept.drop (kept.length - 256) } } x

/-- The status codes of R383. -/
inductive Status where
  | ok | dup | seqGap | badType | busy | stale | illFormed | noRoom | badField | noCtx
deriving DecidableEq, Repr

def Status.code : Status → Nat
  | .ok => 0 | .dup => 1 | .seqGap => 2 | .badType => 3 | .busy => 4 | .stale => 5 | .illFormed => 6 | .noRoom => 7 | .badField => 8 | .noCtx => 9

/-- Completes a message: its entry is written, or waits for a slot and for what stands before it. -/
def State.completeMsg (s : State) (st : Status) (hseq : Nat) (reply : List Nat) : State :=
  let e := (st.code * 2 ^ 16 :: 0 :: 0 :: hseq :: (reply ++ List.replicate (12 - reply.length) 0)).map Word.ofNat
  if s.cqOpen && s.host.replay.isEmpty && s.host.due.isEmpty then s.newEntry e
  else { s with host := { s.host with due := s.host.due ++ [e] } }

/-- EVENT_WRITE: the next entry that waits is written: one to be written again, then a completion, then an event or notice (R384, R385). -/
def execEventWrite (s : State) : Out :=
  if !s.cqOpen then .next s
  else
    match s.host.replay, s.host.due, s.host.events with
    | e :: es, _, _ => .next (State.putEntry { s with host := { s.host with replay := es } } e)
    | [], e :: es, _ => .next (State.newEntry { s with host := { s.host with due := es } } e)
    | [], [], e :: es => .next (State.newEntry { s with host := { s.host with events := es } } e)
    | [], [], [] => .next s

/-! Accepting a message (R380 to R382). -/

/-- What a message comes to: its status and reply words, or nothing yet. -/
abbrev Answer := Option (Status × List Nat)

/-- The message at the head of the submission ring, where the device may accept one. -/
def State.headMsg (s : State) : Option (List Word) :=
  let h := s.host
  if s.boot = .ready ∧ s.throttle < 3 ∧ h.en = true ∧ h.restart = false ∧ 0 < h.waiting ∧ 2 ≤ h.cqFree then
    some (s.hostWords (h.sqbase + 64 * (h.sqhead % h.sqSlots)) 16)
  else none

def msgType (m : List Word) : Nat := bits (wordAt m 0) 31 24

/-- Accepts the head message if it is of a kind: its HSEQ is checked, then it runs, and its completion is written (R382). -/
def State.accept (s : State) (kind : List Word → Bool) (run : List Word → State → Answer × State) : Out :=
  match s.headMsg with
  | none => .next s
  | some m =>
    if !kind m then .next s
    else
      let h := s.host
      let n := wordAt m 1
      let s1 := { s with host := { h with sqhead := (h.sqhead + 1) % h.sqSlots } }
      if n = (h.hack + 1) % 2 ^ 32 then
        match run m { s1 with host := { s1.host with hack := n } } with
        | (some (st, r), s2) => .next (s2.completeMsg st n r)
        | (none, s2) => .next s2
      else .next (s1.completeMsg (if (h.hack + 2 ^ 32 - n) % 2 ^ 32 < 2 ^ 31 then .dup else .seqGap) n [])

/-- Accepts a message that writes remap tables; one whose write the routers would refuse with BUSY stays at the head of the ring, to be tried again (R344). -/
def State.acceptRemap (s : State) (kind : List Word → Bool) (run : List Word → State → Answer × State) : Out :=
  match s.headMsg with
  | none => .next s
  | some m =>
    let t := (run m { s with mesh := { s.mesh with busy := false } }).2
    if kind m ∧ wordAt m 1 = (s.host.hack + 1) % 2 ^ 32 ∧ t.mesh.busy = true then .next { s with mesh := { s.mesh with busy := true } }
    else s.accept kind run

/-- An answer without a reply. -/
def plain (st : Status) (s : State) : Answer × State := (some (st, []), s)

/-- The bits of w0 that a message leaves zero (R380). -/
def badHead (m : List Word) : Bool := bits (wordAt m 0) 23 20 != 0 || bits (wordAt m 0) 15 4 != 0

/-- Whether the body is zero from a word on. -/
def zeroFrom (m : List Word) (i : Nat) : Bool := (m.drop i).all (· == 0)

/-- Runs a message that names a placed context by slot and partition (R380, R383). -/
def onContext (run : Nat → List Word → State → Answer × State) (m : List Word) (s : State) : Answer × State :=
  let c := bits (wordAt m 0) 3 0
  match s.ctx? c with
  | none => plain .noCtx s
  | some x =>
    if x.part ≠ bits (wordAt m 0) 19 16 then plain .noCtx s
    else if badHead m then plain .badField s
    else run c m s

/-- Runs a message of the device. -/
def onDevice (run : List Word → State → Answer × State) (m : List Word) (s : State) : Answer × State :=
  if badHead m then plain .badField s else run m s

/-! PLACE, RESET, UNPLACE (R368, R381, R416). -/

/-- The virtual numbers of a partition's cores: 64 × die + rank in ascending physical number (R416). -/
def numbering (cls : List Nat) : List (Nat × Nat) :=
  [0, 1, 2, 3].flatMap fun d => (indexed ((clusterCores cls).filter fun c => dieOf c == d)).map fun e => (64 * d + e.1, e.2)

/-- A context as its descriptor describes it. -/
def placedAs (d : List Word) : Ctx :=
  { part := bits (wordAt d 0) 3 0, troot0 := BitVec.ofNat 64 (dwordAt d 1 &&& csrMask 0x408), troot1 := BitVec.ofNat 64 (dwordAt d 3 &&& csrMask 0x409),
    tvec := BitVec.ofNat 64 (dwordAt d 5 &&& csrMask 0x400), hctl := Word.ofNat (wordAt d 7 &&& csrMask 0x401),
    frBase := dwordAt d 8, frSize := 2 ^ (wordAt d 10 + 8), frHead := 0, frTail := 0,
    erBase := dwordAt d 11, erSize := 2 ^ (wordAt d 13 + 6), erHead := 0, erTail := 0, vmap := [], dropping := false, dropOp := [] }

/-- The remap tables hold for a context its partition's numbering (R344, R416). -/
def State.numberCores (s : State) (c : Nat) (cls : List Nat) : State :=
  s.writeRemap c fun r => (numbering cls).foldl (fun m e => NMap.put m (256 * c + e.1) e.2) (NMap.clearRange r (256 * c) (256 * c + 256))

/-- Whether a descriptor breaks its limits or names no partition. -/
def State.badDescriptor (s : State) (d : List Word) : Bool :=
  bits (wordAt d 0) 31 8 != 0 || dwordAt d 8 % 4096 != 0 || dwordAt d 11 % 4096 != 0 || decide (8 < wordAt d 10 ∨ 8 < wordAt d 13) ||
    (NMap.find s.parts (bits (wordAt d 0) 3 0)).isNone

/-- Places a context from its descriptor. -/
def runPlace (m : List Word) (s : State) : Answer × State :=
  let d := m.drop 2
  let c := bits (wordAt d 0) 7 4
  if (s.ctx? c).isSome then plain .noCtx s
  else if s.badDescriptor d then plain .badField s
  else
    let s1 := { s with ctxs := NMap.put s.ctxs c (placedAs d) }
    plain .ok (s1.numberCores c (s1.partClusters c))

/-- PLACE (R381). -/
def execPlace (s : State) : Out := s.acceptRemap (fun m => msgType m == 1) (onDevice runPlace)

/-- RESET (R368). -/
def execResetMessage (s : State) : Out :=
  s.accept (fun m => msgType m == 7) (onContext fun c m t => if zeroFrom m 2 then plain .ok (t.resetContext c 0x23) else plain .badField t)

/-- Takes a context out of its slot: its cores are held by none, its numbers are gone. -/
def State.unplace (s : State) (c : Nat) : State :=
  State.writeRemap
    { s with ctxs := NMap.del s.ctxs c, cores := s.cores.map (fun (e : Nat × Core) => if e.2.ctx = some c then (e.1, { e.2 with ctx := none }) else e) }
    c fun r => NMap.clearRange r (256 * c) (256 * c + 256)

/-- UNPLACE (R381): refused while a plan of the context is not over. -/
def execUnplace (s : State) : Out :=
  s.acceptRemap (fun m => msgType m == 9) (onContext fun c m t =>
    if !zeroFrom m 2 then plain .badField t
    else if (t.plans.any fun e => e.2.ctx == c) then plain .busy t
    else plain .ok (t.unplace c))

/-! LAUNCH and GANG (R375, R381). -/

/-- The answer of the loader. -/
def launched : Loaded × State → Answer × State
  | (.plan n, s) => (some (.ok, [n]), s)
  | (.illFormed, s) => plain .illFormed s
  | (.noRoom, s) => plain .noRoom s

/-- Whether an override meets a record of more than one stage. -/
def State.overrideBad (s : State) (c a over_ : Nat) : Bool :=
  bits over_ 31 14 != 0 || (over_ != 0 && match s.readVirt none c a with | some w => decide (1 < bits w.toNat 4 0) | none => false)

/-- Launches a plan record. -/
def runLaunchMsg (c : Nat) (m : List Word) (s : State) : Answer × State :=
  let a := dwordAt m 2
  if a % 64 ≠ 0 ∨ s.overrideBad c a (wordAt m 4) = true then plain .badField s else launched (s.loadPlan none c a (wordAt m 4))

/-- LAUNCH (R381). -/
def execLaunchMessage (s : State) : Out := s.accept (fun m => msgType m == 2) (onContext runLaunchMsg)

/-- Contexts of the partition that hold clusters, other than one. -/
def State.victims (s : State) (c : Nat) : List Nat :=
  (s.ctxs.map Prod.fst).filter fun k => k != c && s.partOf k == s.partOf c && !(s.ctxClusters k).isEmpty

/-- A gang waits for its clusters; where they are not free a victim is asked to leave. Which one is open (R375). -/
def State.startGang (s : State) (c n : Nat) : State :=
  let p := 16 * c + n
  let fits := match s.plan? p with | some x => (shares (x.stages.map Stage.rec_) (s.freeClustersOf c)).isSome | none => true
  let g : Gang := { ctx := c, plan := p, since := s.horizon, victim := none, compacting := false }
  match fits, s.victims c with
  | false, v :: vs =>
    let w := (v :: vs).getD ((Config.freeValue s.fresh).toNat % (vs.length + 1)) v
    let s1 := { s with fresh := s.fresh + 1, gangs := s.gangs ++ [{ g with victim := some w }] }
    s1.request (s1.wholeRequest w)
  | _, _ => { s with gangs := s.gangs ++ [g] }

/-- Loads a gang's plan record. -/
def runGang (c : Nat) (m : List Word) (s : State) : Answer × State :=
  let a := dwordAt m 2
  if a % 64 ≠ 0 then plain .badField s
  else
    match s.loadPlan none c a 0 with
    | (.plan n, t) => (some (.ok, [n]), t.startGang c n)
    | r => launched r

/-- GANG (R375, R381). -/
def execGang (s : State) : Out := s.accept (fun m => msgType m == 8) (onContext runGang)

/-! REPLAY (R221, R222). -/

/-- The held entries a REPLAY names: core and index. -/
def State.replayed (s : State) (c : Nat) (m : List Word) : List (Nat × Nat) :=
  let tok := wordAt m 3
  let a := dwordAt m 4
  if bit (wordAt m 2) 1 then
    s.cores.flatMap fun x => ((List.range 64).filter fun i =>
      let e := x.2.waitEntry i
      e.held && e.ctx == c && decide (e.page ≤ a ∧ a < e.page + e.size)).map fun i => (x.1, i)
  else
    let core := bits tok 13 6
    let e := (s.core core).waitEntry (bits tok 5 0)
    if e.held && e.ctx == c && e.gen == bits tok 21 14 then [(core, bits tok 5 0)] else []

/-- The fibres parked under an entry, with their traps. -/
def State.parkedAt (s : State) (core i : Nat) : List (Nat × TrapInfo) :=
  ((s.core core).waitEntry i).fibres.filterMap fun f =>
    match (s.fibre f).wait with
    | some (.parked j t) => if i = j then some (f, t) else none
    | _ => none

/-- Whether the copy engine of a core is parked under an entry. -/
def State.engineAt (s : State) (core i : Nat) : Bool := (s.core core).copy.parked == some i

/-- RETRY of one entry: its fibres are READY at their words, its engine goes on, the entry is free. -/
def State.retryEntry (s : State) (x : Nat × Nat) : State :=
  let s1 := s.reissue ((s.parkedAt x.1 x.2).map Prod.fst)
  let s2 := if s.engineAt x.1 x.2 then
      (s1.modCore x.1 fun c => { c with copy := { c.copy with parked := none } }).copyHead x.1 fun y => { y with fault := none }
    else s1
  s2.freeWait x.1 x.2

/-- The condition a parked fault is delivered as. -/
def TrapInfo.cond (t : TrapInfo) : Cond := { cls := t.cls, kind := t.kind, info := t.info, addr := t.addr, page := 0, size := 0 }

/-- KILL in the fibres that one instruction of one group parked: they take their fault as a trap, as one group (R224). -/
def State.killParked (s : State) (es : List (Nat × TrapInfo)) : State :=
  let live := es.filter fun e => (NMap.find s.fibres e.1).isSome
  match live with
  | [] => s
  | (f, _) :: _ =>
    let s1 := live.foldl (fun t e => match t.groupOf e.1 with | some g => t.leave g [e.1] | none => t) s
    ((s1.unseat (live.map Prod.fst)).toHandler none (live.map fun e => (e.1, e.2.cond))).refill (qcOf f)

/-- The parts of a list of parked fibres that parked together: on one QC, in one cycle, at one word. -/
def State.parkedTogether (s : State) (es : List (Nat × TrapInfo)) : List (List (Nat × TrapInfo)) :=
  let key (e : Nat × TrapInfo) : Nat × Nat × Nat × Nat := let x := s.fibre e.1; (qcOf e.1, x.since, x.pc, x.pos)
  (es.map key).dedup.map fun k => es.filter fun e => key e == k

/-- KILL of one entry: its fibres take the trap, its engine halts with reason 8 (R251), the entry is free. -/
def State.killEntry (s : State) (x : Nat × Nat) : State :=
  let s1 := (s.parkedTogether (s.parkedAt x.1 x.2)).foldl State.killParked s
  let s2 := match s.engineAt x.1 x.2, (s1.core x.1).copy.queue with
    | true, y :: _ => let f := y.fault.getD (0, 0); s1.copyHalt x.1 y 8 f.1 f.2
    | _, _ => s1
  if ((s2.core x.1).waitEntry x.2).held then s2.freeWait x.1 x.2 else s2

/-- A REPLAY by page that names an address of a leased stage has its pages walked again at once (R222). -/
def State.rewalkAt (s : State) (c a : Nat) : State :=
  (s.plans.filter fun e => e.2.ctx == c).foldl (fun t e => (indexed e.2.stages).foldl (fun u x =>
    if !x.2.pagesReady && (x.2.leases.any fun r => decide (r.1 ≤ a ∧ a < r.1 + r.2)) && (x.2.leases.filter fun r => r.2 != 0).all (u.rangeResident c) then
      u.modStage e.1 x.1 fun g => { g with pagesReady := true }
    else u) t) s

/-- A REPLAY: the entries it names, and how many. -/
def runReplay (each : State → Nat × Nat → State) (c : Nat) (m : List Word) (s : State) : Answer × State :=
  let xs := s.replayed c m
  let s1 := xs.foldl each s
  if bit (wordAt m 2) 1 then (some (.ok, [xs.length]), s1.rewalkAt c (dwordAt m 4))
  else if xs.isEmpty then plain .stale s
  else (some (.ok, [xs.length]), s1)

/-- REPLAY with RETRY (R221). -/
def execReplayRetry (s : State) : Out := s.accept (fun m => msgType m == 3 && !bit (wordAt m 2) 0) (onContext (runReplay State.retryEntry))
/-- REPLAY with KILL (R221). -/
def execReplayKill (s : State) : Out := s.accept (fun m => msgType m == 3 && bit (wordAt m 2) 0) (onContext (runReplay State.killEntry))

/-! INVAL and the end of a drop (R232). -/

/-- Starts the drop of the translations that a test selects; the message completes with it. -/
def runInval (p : Nat → PageEntry → Bool) (c : Nat) (m : List Word) (s : State) : Answer × State :=
  let s1 := s.dropTranslations c (p (dwordAt m 3))
  (none, { s1 with host := { s1.host with invals := s1.host.invals ++ [(c, wordAt m 1)] } })

/-- INVAL of one page (R232). -/
def execInvalVa (s : State) : Out :=
  s.accept (fun m => msgType m == 4 && !bit (wordAt m 2) 0) (onContext (runInval fun a e => decide (e.va ≤ a ∧ a < e.va + e.size)))
/-- INVAL of a whole context (R232). -/
def execInvalContext (s : State) : Out := s.accept (fun m => msgType m == 4 && bit (wordAt m 2) 0) (onContext (runInval fun _ _ => true))

/-- TRANSLATION_DROP_DONE: the blocking `tlbi` groups of the context go on, and its invalidations complete (R232). -/
def execTranslationDropDone (ctx : Nat) (s : State) : Out :=
  if !s.dropOver ctx then .next s
  else
    let s1 := s.modCtx ctx fun c => { c with dropping := false, dropOp := [] }
    let gs := (s.groups.filter fun e => decide (e.2.stall = some (.tlbi ctx))).map Prod.fst
    let s2 := gs.foldl (fun t g => (t.modFibres (t.group g).members fun x => { x with wait := none }).done g) s1
    let fs := (s2.fibres.filter fun e => decide (e.2.wait = some (.tlbi ctx) ∧ e.2.status = .blocked)).map Prod.fst
    let s3 := fs.foldl State.wake s2
    let over_ := (s3.host.invals.filter fun x => x.1 == ctx).map Prod.snd
    .next (over_.foldl (fun (t : State) n => t.completeMsg .ok n []) { s3 with host := { s3.host with invals := s3.host.invals.filter fun x => x.1 != ctx } })

/-! MAPWR (R348, R357). -/

def winKind (ws : List Word) : Nat := bits (wordAt ws 0) 31 30
def winPart (ws : List Word) : Nat := bits (wordAt ws 0) 22 19

/-- Whether the words of a KIND other than FREE break R348, other windows left aside. -/
def winBad (ws : List Word) : Bool :=
  let w0 := wordAt ws 0
  let len := wordAt ws 1
  let base := dwordAt ws 2
  let rest := (List.range 4).map fun i => wordAt ws (4 + i)
  bits w0 17 4 != 0 || decide (len < 4096 ∨ 2 ^ 31 < len) || len % 4096 != 0 || base % 4096 != 0 ||
    (match winKind ws with
     | 1 => bits w0 29 28 == 3 || bit w0 18 || (indexed rest).any fun e => if e.1 ≤ bits w0 24 23 then bits e.2 31 26 != 0 || bits e.2 15 8 != 0 else e.2 != 0
     | 2 => bits w0 29 28 != 0 || bits w0 24 23 != 0 || bits (rest.getD 0 0) 30 26 != 0 || bits (rest.getD 0 0) 15 0 != 0 ||
         (rest.drop 1).any (· != 0) || decide (base < 2 ^ 56 ∨ 2 ^ 57 ≤ base)
     | _ => true)

/-- The transmit windows of a partition beside entry e. -/
def State.transmits (s : State) (part e : Nat) : List (List Word) :=
  (s.wins.filter fun x => x.1 != e && decide (x.2.state ≠ .free) && winKind x.2.words == 1 && winPart x.2.words == part).map fun x => x.2.words

/-- Whether a transmit window is one too many or overlaps another of its partition. -/
def State.winClash (s : State) (e : Nat) (ws : List Word) : Bool :=
  let os := s.transmits (winPart ws) e
  winKind ws == 1 && (decide (32 ≤ os.length) || os.any fun o =>
    decide (dwordAt o 2 < dwordAt ws 2 + wordAt ws 1 ∧ dwordAt ws 2 < dwordAt o 2 + wordAt o 1))

/-- Whether an entry holds a packet that is not acknowledged: sent or not, in a line that is open or closed, or taken and not applied. -/
def State.winHolds (s : State) (e : Nat) : Bool :=
  !(s.win e).open_.isEmpty || (s.cores.any fun c => c.2.wcb.any fun l => l.entry == e) || s.inbox.any fun p => p.entry == e

/-- A window that a map write makes LIVE. -/
def WinEntry.make (ws : List Word) : WinEntry :=
  { WinEntry.empty with words := ws, part := winPart ws, state := .live, plane := bits (wordAt ws 0) 27 25 }

/-- Writes an entry of the window map. -/
def runMapwr (m : List Word) (s : State) : Answer × State :=
  let e := wordAt m 2
  let ws := (m.drop 3).take 8 ++ List.replicate 8 0
  let w := s.win e
  if 256 ≤ e ∨ zeroFrom m 11 = false then plain .badField s
  else if winKind ws = 0 then
    if bits (wordAt ws 0) 17 4 ≠ 0 then plain .badField s
    else if w.state = .live ∧ s.winHolds e = true then plain .busy s
    else plain .ok { (s.winDiscard e) with wins := NMap.del (s.winDiscard e).wins e }
  else if w.state ≠ .free then
    if w.kind = 1 ∧ w.state = .error ∧ w.reason = 2 ∧ w.words = ws then plain .ok (s.winLive e w.plane) else plain .busy s
  else if winBad ws || s.winClash e ws then plain .badField s
  else plain .ok { s with wins := NMap.put s.wins e (WinEntry.make ws) }

/-- MAPWR (R348). -/
def execMapwr (s : State) : Out := s.accept (fun m => msgType m == 5) (onDevice runMapwr)

/-! PARTWR (R363 to R365). -/

/-- Ranges that share a number; an empty one shares none. -/
def overlaps (a n b m : Nat) : Bool := decide (0 < n ∧ 0 < m ∧ a < b + m ∧ b < a + n)

/-- HBASE and HLEN of a record. -/
def recHbm (r : List Word) : Nat × Nat := (bits (wordAt r 4) 5 0, bits (wordAt r 4) 21 16)
/-- The clusters of CLMASK. -/
def recClusters (r : List Word) : List Nat := setBits (dwordAt r 1) 64
/-- SHW of a record. -/
def recShw (r : List Word) : Nat := bits (wordAt r 0) 28 24
/-- The lease length a record selects (R364). -/
def recLease (r : List Word) : Nat := if wordAt r 5 = 0 then 4000 else wordAt r 5

/-- Whether the POOL values break R237. -/
def poolsBad (r : List Word) : Bool :=
  let cfg := (r.drop 8).take 7
  (List.range 7).any fun k => poolBad cfg k (wordAt cfg k) || wordAt cfg k &&& 0xF000F000 != 0

/-- Whether a record by itself breaks R365. -/
def partBad (r : List Word) : Bool :=
  let h := recHbm r
  bits (wordAt r 0) 30 29 != 0 || bits (wordAt r 0) 22 0 != 0 || decide (recShw r = 0 ∨ 24 < recShw r) || bits (wordAt r 3) 31 24 != 0 ||
    wordAt r 4 &&& 0xFFC0FFC0 != 0 || decide (48 < h.1 + h.2) || offLimits (wordAt r 5) 256 64000 || decide (wordAt r 6 < 64 ∨ 65535 < wordAt r 6) ||
    wordAt r 7 &&& 0x7F00FF80 != 0 || decide (bits (wordAt r 7) 6 0 = 0 ∨ 64 < bits (wordAt r 7) 6 0) || poolsBad r || wordAt r 15 != 0 ||
    ((List.range 6).any fun a => wordAt r (16 + a) == 0) || offLimits (wordAt r 22) 10 1000 || offLimits (wordAt r 23) 100 100000 ||
    ((List.range 8).any fun i => wordAt r (24 + i) != 0) || decide (popCount 24 (wordAt r 3) < recShw r) ||
    [0, 1, 2, 3].any fun d => decide (recShw r * 64 * 2 ^ 20 < imageSize * (4 * ((recClusters r).filter fun c => dieOfCluster c == d).length))

/-- Whether a record takes what another partition holds. -/
def State.partOverlaps (s : State) (n : Nat) (r : List Word) : Bool :=
  s.parts.any fun e => e.1 != n &&
    (dwordAt e.2.rec_ 1 &&& dwordAt r 1 != 0 || wordAt e.2.rec_ 3 &&& wordAt r 3 != 0 ||
      overlaps (recHbm e.2.rec_).1 (recHbm e.2.rec_).2 (recHbm r).1 (recHbm r).2)

/-- Whether a record changes CLMASK, WAYS, HBM or LEASE. -/
def partMoves (old r : List Word) : Bool :=
  dwordAt old 1 != dwordAt r 1 || wordAt old 3 != wordAt r 3 || wordAt old 4 != wordAt r 4 || recLease old != recLease r

/-- Whether two records differ in budgets, GRACE and PLACE only. -/
def budgetsOnly (old r : List Word) : Bool := old.take 16 == r.take 16 && old.drop 24 == r.drop 24

/-- Takes a partition away; its windows are FREE (R348, R357). -/
def State.removePart (s : State) (n : Nat) : State :=
  let es := (s.wins.filter fun e => winPart e.2.words == n).map Prod.fst
  let s1 := es.foldl State.winDiscard s
  { s1 with parts := NMap.del s1.parts n, wins := s1.wins.filter (fun e => winPart e.2.words != n), inbox := s1.inbox.filter fun p => !es.contains p.entry }

/-- Writes the allotment record of a partition. -/
def runPartwr (m : List Word) (s : State) : Answer × State :=
  let n := wordAt m 2
  let r0 := s.hostWords (dwordAt m 3) 32
  let placed := s.ctxs.any fun e => e.2.part == n
  if 16 ≤ n then plain .badField s
  else if !bit (wordAt r0 0) 31 then
    if placed then plain .busy s else if partBad r0 || s.partOverlaps n r0 then plain .badField s else plain .ok (s.removePart n)
  else
    let r := withClusters r0 ((recClusters r0).filter fun c => !s.withdrawn.contains c)
    if partBad r0 || s.partOverlaps n r then plain .badField s
    else
      match NMap.find s.parts n with
      | none =>
        let p : Part := { rec_ := r, meters := List.replicate 6 0, held := List.replicate 6 false, pendingRec := none, period := s.horizon / 10000 }
        plain .ok { s with parts := NMap.put s.parts n p }
      | some p =>
        if placed && partMoves p.rec_ r then plain .badField s
        else if budgetsOnly p.rec_ r then plain .ok { s with parts := NMap.put s.parts n { p with pendingRec := some r } }
        else plain .ok { s with parts := NMap.put s.parts n { p with rec_ := r, pendingRec := none } }

/-- PARTWR (R363 to R365). -/
def execPartwr (s : State) : Out := s.accept (fun m => msgType m == 6) (onDevice runPartwr)

/-! ATTEST, HEALTH, BADTYPE (R381, R390, R392). -/

/-- The certificate length of the device. -/
def certLen : Nat := min (Config.certLength 0) 1528

/-- The bytes of the valid allotment records, in ascending partition number. -/
def State.recordBytes (s : State) : List Byte := s.parts.flatMap fun e => bytesOf e.2.rec_

/-- Byte i of an attestation report: the nonce, the digests of the running image and of the allotment records, horizon time and a signature of the report's own, and the device's number, key and certificate (R390). -/
def State.attestByte (s : State) (nonce : List Byte) (i : Nat) : Byte :=
  if i < 32 then nonce.getD i 0
  else if i < 96 then Config.digestByte s.host.image s.host.imageLen (i - 32)
  else if i < 112 then Config.reportByte 0 i
  else if i < 176 then Config.digestByte ((indexed s.recordBytes).filter fun e => e.2 != 0) s.recordBytes.length (i - 112)
  else if i < 184 then (Byte.split 8 s.horizon).getD (i - 176) 0
  else if i < 512 then 0
  else if i < 1024 then Config.reportByte (s.fresh + 1) i
  else if i < 1540 then Config.reportByte 0 i
  else if i < 1544 then (Byte.split 4 certLen).getD (i - 1540) 0
  else if i < 1544 + certLen then Config.reportByte 0 i
  else 0

/-- Writes an attestation report into host memory. -/
def runAttest (m : List Word) (s : State) : Answer × State :=
  let bs := (List.range 3072).map (s.attestByte (bytesOf ((m.drop 2).take 8)))
  (some (.ok, [1024, certLen]), { (s.setBytes ⟨true, dwordAt m 10⟩ bs) with fresh := s.fresh + 1 })

/-- ATTEST (R390). -/
def execAttest (s : State) : Out := s.accept (fun m => msgType m == 10) (onDevice runAttest)

/-- What a die reports before its first sample (log 4). -/
def Health.unknown : Health := { drift := 0, stress := 0, life := 0xFFFFFFFF, junction := 0 }

/-- The report of a die. -/
def Health.words (x : Health) : List Word :=
  [BitVec.ofInt 32 x.drift, Word.ofNat x.stress, Word.ofNat (min x.life 0xFFFFFFFF), Word.ofNat x.junction, 0, 0, 0, 0]

/-- Writes one report per die into host memory. -/
def runHealth (m : List Word) (s : State) : Answer × State :=
  (some (.ok, [4]), s.setHostWords (dwordAt m 2) ([0, 1, 2, 3].flatMap fun d => (NMap.get s.health d Health.unknown).words))

/-- HEALTH (R392). -/
def execHealth (s : State) : Out := s.accept (fun m => msgType m == 11) (onDevice runHealth)

/-- A message of a TYPE that R381 does not list. -/
def execBadtype (s : State) : Out := s.accept (fun m => msgType m == 0 || decide (11 < msgType m)) fun _ t => plain .badType t

/-! BAR0 writes with behaviour of their own (R379, R380, R384 to R386, R388). -/

/-- Whether a doorbell names a slot the device has passed: one of those that lie less than half the ring behind the slot it reads next. -/
def HostLink.passed (h : HostLink) (v : Nat) : Bool :=
  let back := (h.sqhead % h.sqSlots + h.sqSlots - v % h.sqSlots) % h.sqSlots
  decide (0 < back ∧ 2 * back < h.sqSlots)

/-- SQTAIL: a doorbell; one written while the channel is not enabled counts in the rings to come (R380, R384). -/
def execSqtail (v : Nat) (s : State) : Out :=
  let h := s.host
  if h.en && !h.restart && h.passed v then .next s else .next { s with host := { h with sqtail := v % 2 ^ 32 } }

/-- CQHEAD: the driver frees completion slots (R385). -/
def execCqhead (v : Nat) (s : State) : Out := .next { s with host := { s.host with cqhead := v % 2 ^ 32 } }

/-- Notes that a register has been written since a restart began. -/
def HostLink.note (h : HostLink) (off : Nat) : HostLink := { h with written := if h.written.contains off then h.written else off :: h.written }

/-- The beginning of a restart: the device begins both rings again at slot 0; SQTAIL and CQHEAD, which the driver writes, keep their values (R7, R384). -/
def HostLink.restartNow (h : HostLink) : HostLink := { h with restart := true, written := [], sqhead := 0, cqtail := 0, replay := [] }

/-- The retained entries above CQREPLAY, in DSEQ order. -/
def HostLink.toReplay (h : HostLink) : List (List Word) :=
  h.retained.filter fun e => let d := (wordAt e 1 + 2 ^ 32 - h.cqreplay) % 2 ^ 32; decide (0 < d ∧ d < 2 ^ 31)

/-- A write of LCCTL: EN stays 0 where a ring size is out of its limits; RESTART starts a restart; EN ends one once the three addresses are written, and where the same write sets RESTART the next begins, so that the bit is set (R13, R379, R384). -/
def HostLink.lcctl (h : HostLink) (v : Nat) : HostLink :=
  let sq := bits v 11 8
  let cq := bits v 3 0
  let en := bit v 31 && decide (4 ≤ sq ∧ sq ≤ 12 ∧ 4 ≤ cq ∧ cq ≤ 12)
  let h1 := { h with en := en, sqlog := sq, cqlog := cq }
  if h.restart then
    if en && [0x08, 0x10, 0x3C].all h.written.contains then
      if bit v 30 then h1.restartNow else { h1 with restart := false, replay := h1.toReplay }
    else h1
  else if bit v 30 then h1.restartNow
  else h1

/-- LCCTL as it reads. -/
def HostLink.lcctlRead (h : HostLink) : Nat := b2n h.en * 2 ^ 31 + b2n h.restart * 2 ^ 30 + h.sqlog * 2 ^ 8 + h.cqlog

/-- LCCTL_ENABLE: a value is written to LCCTL with EN set (R379). -/
def execLcctlEnable (v : Nat) (s : State) : Out := .next { s with host := s.host.lcctl (v ||| 2 ^ 31) }

/-- RESTART: LCCTL is written with RESTART set and its other fields as they are (R384). -/
def execRestart (s : State) : Out := .next { s with host := s.host.lcctl (s.host.lcctlRead ||| 2 ^ 30) }

/-- PROVCMD: in RECOVERY the image of a length in the staging window is committed (R379, R388). -/
def execProvcmd (n : Nat) (s : State) : Out :=
  if s.boot ≠ .recovery then .next s
  else .next { s with boot := .verify, host := { s.host with provcmd := n % 2 ^ 32, image := NMap.slice s.host.staging 0 (n % 2 ^ 32), imageLen := n % 2 ^ 32 } }

/-- How many records a write of a ring head frees: it names a slot, counted modulo the ring size (R386). -/
def headStep (head tail size v : Nat) : Nat :=
  let d := (v % size + size - head % size) % size
  if d ≤ tail - head then d else 0

/-- The value a write leaves in FRHEAD (at its slot) or ERHEAD (16 above it), which reads return (R7). DESIGN CHOICE (log 103): of 32 bits. -/
def State.keepHead (s : State) (i v : Nat) : State :=
  { s with host := { s.host with heads := NMap.put s.host.heads i (v % 2 ^ 32) } }

/-- FRHEAD of a context slot (R386); records freed let faults that found no slot try again (R219). -/
def execFrhead (ctx v : Nat) (s : State) : Out :=
  let s1 := (s.keepHead ctx v).modCtx ctx fun c => { c with frHead := c.frHead + headStep c.frHead c.frTail c.frSize v }
  .next ((s1.ctxCores ctx).foldl State.retryFull s1)

/-- ERHEAD of a context slot (R386). -/
def execErhead (ctx v : Nat) (s : State) : Out :=
  .next ((s.keepHead (16 + ctx) v).modCtx ctx fun c => { c with erHead := c.erHead + headStep c.erHead c.erTail c.erSize v })

/-! Boot, power and health (R21, R388, R391, R393). -/

/-- The device as a reset leaves it, with what a reset does not reach: host memory, the firmware image, the always-on supply's records, horizon time, and the model's own fields. -/
def State.resetDevice (s : State) : State :=
  { State.reset with cycle := s.cycle, agenda := s.agenda, fresh := s.fresh, nextId := s.nextId, hmem := s.hmem, fabOut := s.fabOut,
                     host := { HostLink.init with image := s.host.image, imageLen := s.host.imageLen }, health := s.health, warned := s.warned }

/-- DEVICE_RESET: power-on or a function-level reset; the device passes RESET and stands in VERIFY (R378, R388). What HBM4E held is kept. -/
def execDeviceReset (s : State) : Out := .next { s.resetDevice with boot := .verify, mem := s.mem, poison := s.poison }

/-- IMAGE_VERIFY: the signature check ends in READY or RECOVERY (R388). -/
def execImageVerify (s : State) : Out :=
  if s.boot = .ready ∨ s.boot = .recovery then .next s
  else .next { s with boot := if Config.imageVerifies s.host.image s.host.imageLen then .ready else .recovery }

/-- POWER_THROTTLE: the power manager sets how far it throttles: not, grants, issue too (R21). -/
def execPowerThrottle (level : Nat) (s : State) : Out := .next (if s.throttle = 3 then s else { s with throttle := min level 2 })

/-- THERMAL_THROTTLE: one more stage of the throttle of R21 (R393). -/
def execThermalThrottle (s : State) : Out := .next (if s.throttle = 3 then s else { s with throttle := min (s.throttle + 1) 2 })

/-- THERMAL_TRIP: every context is reset, the event raised, the domains powered down (R393). -/
def execThermalTrip (s : State) : Out :=
  if s.throttle = 3 then .next s
  else
    let s1 := (s.ctxs.map Prod.fst).foldl (fun t c => t.resetContext c 0x22) s
    .next { s1.eventOpen 0x0C with throttle := 3 }

/-- THERMAL_RECOVER: the device passes to RESET; what powered-down memory held is lost (R388, R393). -/
def execThermalRecover (s : State) : Out := .next (if s.throttle = 3 then s.resetDevice else s)

/-- HEALTH_SAMPLE: the controller samples a die; AGEING_WARN is raised once (R391, R392). -/
def execHealthSample (die : Nat) (drift : Int) (stress life junction : Nat) (s : State) : Out :=
  let s1 := { s with health := NMap.put s.health (die % 4) { drift := drift, stress := stress, life := life, junction := junction } }
  if life < 8760 ∧ s.warned = false then .next { s1.eventOpen 0x0B with warned := true } else .next s1

end Sys2Proof.Machine
end

