-- ==== Sys2Proof/Machine/IntArith.lean ====
section
/-! DEFINITION. Integer arithmetic, logic, shifts, bit fields, compare and select: opcodes 0x00 to 0x1C (R52, R130 to R141). -/

namespace Sys2Proof.Machine

/-- Two sources of a width and a destination of a width. -/
def State.alu2 (s : State) (info wa wb wd : Nat) (a b : Src) (d : Dst) (k : Nat → Nat → Nat) : Out :=
  s.alu info [(wa, a), (wb, b)] (some (wd, d)) fun _ l => LaneOut.num wd (k (l.n 0) (l.n 1))

/-- One source and a destination. -/
def State.alu1 (s : State) (info wa wd : Nat) (a : Src) (d : Dst) (k : Nat → Nat) : Out :=
  s.alu info [(wa, a)] (some (wd, d)) fun _ l => LaneOut.num wd (k (l.n 0))

/-- Two sources and the destination as a third. -/
def State.alu3 (s : State) (info wa wb wd : Nat) (a b : Src) (d : Dst) (k : Nat → Nat → Nat → Nat) : Out :=
  s.alu info [(wa, a), (wb, b), (wd, d.asSrc)] (some (wd, d)) fun _ l => LaneOut.num wd (k (l.n 0) (l.n 1) (l.n 2))

/-- `nop` (R52). -/
def execNop (s : State) : Out := s.onGroup fun g _ => .next (s.done g)

/-- Sum or difference of R130, `sub` for a difference. -/
def addValue (sub : Bool) (f : AddForm) (a b : Nat) : Nat :=
  let pm (x y : Int) : Int := if sub then x - y else x + y
  match f with
  | .wrap => narrow (pm a b) 32
  | .satS => narrow (satI (pm (sext a 32) (sext b 32)) (-2 ^ 31) (2 ^ 31 - 1)) 32
  | .satU => narrow (satI (pm a b) 0 (2 ^ 32 - 1)) 32
  | .b64 => narrow (pm a b) 64

/-- `iadd` (R130). -/
def execIadd (f : AddForm) (a b : Src) (d : Dst) (s : State) : Out :=
  s.alu2 0x01 f.words f.words f.words a b d (addValue false f)

/-- `isub` (R130). -/
def execIsub (f : AddForm) (a b : Src) (d : Dst) (s : State) : Out :=
  s.alu2 0x02 f.words f.words f.words a b d (addValue true f)

/-- `iaddc` (R131): the carry of pk in, the carry out into pk. -/
def execIaddc (k : Pred) (a b : Src) (d : Dst) (s : State) : Out :=
  s.alu 0x03 [(1, a), (1, b)] (some (1, d)) fun x l =>
    let t := l.n 0 + l.n 1 + b2n (x.pred k.val)
    { words := [Word.ofNat t], flags := 0, pred := some (k.val, decide (2 ^ 32 ≤ t)) }

/-- `isubb` (R131): the borrow of pk in, the borrow out into pk. -/
def execIsubb (k : Pred) (a b : Src) (d : Dst) (s : State) : Out :=
  s.alu 0x04 [(1, a), (1, b)] (some (1, d)) fun x l =>
    let t : Int := (l.n 0 : Int) - l.n 1 - b2n (x.pred k.val)
    { words := [Word.ofNat (narrow t 32)], flags := 0, pred := some (k.val, decide (t < 0)) }

/-- The product of R132. -/
def mulValue (f : MulForm) (a b : Nat) : Nat :=
  match f with
  | .lo => a * b % 2 ^ 32
  | .wideS => narrow (sext a 32 * sext b 32) 64
  | .wideU => a * b
  | .b64 => a * b % 2 ^ 64

/-- `imul` (R132). -/
def execImul (f : MulForm) (a b : Src) (d : Dst) (s : State) : Out :=
  s.alu2 0x05 f.srcWords f.srcWords f.dstWords a b d (mulValue f)

/-- The high word of a product (R132). -/
def highValue (f : HighForm) (a b : Nat) : Nat :=
  match f with
  | .s => narrow ((sext a 32 * sext b 32) / 2 ^ 32) 32
  | .u => a * b / 2 ^ 32
  | .su => narrow ((sext a 32 * (b : Int)) / 2 ^ 32) 32

/-- `imulh` (R132). -/
def execImulh (f : HighForm) (a b : Src) (d : Dst) (s : State) : Out := s.alu2 0x06 1 1 1 a b d (highValue f)

/-- Product and addend of R132. -/
def madValue (f : MadForm) (a b d : Nat) : Nat :=
  match f with
  | .lo => (a * b + d) % 2 ^ 32
  | .wideS => narrow (sext a 32 * sext b 32 + (d : Int)) 64
  | .wideU => (a * b + d) % 2 ^ 64

/-- `imad` (R132): reads d as its addend. -/
def execImad (f : MadForm) (a b : Src) (d : Dst) (s : State) : Out := s.alu3 0x07 1 1 f.dstWords a b d (madValue f)

/-- Bits of an operand. -/
def iBits : IForm → Nat
  | .s32 | .u32 => 32
  | .s64 | .u64 => 64
/-- Whether a form is signed. -/
def iSigned : IForm → Bool
  | .s32 | .s64 => true
  | .u32 | .u64 => false
/-- An operand as a number of its form. -/
def iVal (f : IForm) (a : Nat) : Int := if iSigned f then sext a (iBits f) else (zext a (iBits f) : Int)

/-- Quotient and remainder of R133. -/
def divRem (f : IForm) (a b : Nat) : Nat × Nat :=
  let n := iBits f
  let x := iVal f a
  let y := iVal f b
  if y = 0 then (2 ^ n - 1, a)
  else
    let q := Int.tdiv x y
    (narrow q n, narrow (x - q * y) n)

/-- `idiv` (R133). -/
def execIdiv (f : IForm) (a b : Src) (d : Dst) (s : State) : Out :=
  s.alu2 0x08 f.words f.words f.words a b d fun x y => (divRem f x y).1

/-- `irem` (R133). -/
def execIrem (f : IForm) (a b : Src) (d : Dst) (s : State) : Out :=
  s.alu2 0x09 f.words f.words f.words a b d fun x y => (divRem f x y).2

/-- `imin` (R134). -/
def execImin (f : IForm) (a b : Src) (d : Dst) (s : State) : Out :=
  s.alu2 0x0A f.words f.words f.words a b d fun x y => if iVal f x ≤ iVal f y then x else y

/-- `imax` (R134). -/
def execImax (f : IForm) (a b : Src) (d : Dst) (s : State) : Out :=
  s.alu2 0x0B f.words f.words f.words a b d fun x y => if iVal f x ≤ iVal f y then y else x

/-- An integer stored with or without saturation (R134). -/
def satWord (sat : Bool) (x : Int) : Nat := narrow (if sat then satI x (-2 ^ 31) (2 ^ 31 - 1) else x) 32

/-- `iabs` (R134). -/
def execIabs (sat : Bool) (a : Src) (d : Dst) (s : State) : Out :=
  s.alu1 0x0C 1 1 a d fun x => satWord sat ((sext x 32).natAbs : Int)

/-- `ineg` (R134). -/
def execIneg (sat : Bool) (a : Src) (d : Dst) (s : State) : Out := s.alu1 0x0D 1 1 a d fun x => satWord sat (-(sext x 32))

/-- The eight functions of R135 on n bits. -/
def logicValue (op : LogicOp) (n a b : Nat) : Nat :=
  let m := 2 ^ n - 1
  let no (x : Nat) : Nat := m - x % 2 ^ n
  match op with
  | .and => a &&& b
  | .or => a ||| b
  | .xor => a ^^^ b
  | .andn => a &&& no b
  | .orn => a ||| no b
  | .xnor => no (a ^^^ b)
  | .nand => no (a &&& b)
  | .nor => no (a ||| b)

/-- `lop` (R135). -/
def execLop (op : LogicOp) (a b : Src) (d : Dst) (s : State) : Out := s.alu2 0x0E 1 1 1 a b d (logicValue op 32)

/-- Operand bits of the shifts (R136). -/
def shiftBits (wide : Bool) : Nat := if wide then 64 else 32

/-- `shl` (R136). -/
def execShl (wide : Bool) (a b : Src) (d : Dst) (s : State) : Out :=
  let n := shiftBits wide
  s.alu2 0x10 (wideWords wide) 1 (wideWords wide) a b d fun x k => if n ≤ k then 0 else x * 2 ^ k % 2 ^ n

/-- `shr` (R136). -/
def execShr (wide : Bool) (a b : Src) (d : Dst) (s : State) : Out :=
  let n := shiftBits wide
  s.alu2 0x11 (wideWords wide) 1 (wideWords wide) a b d fun x k => if n ≤ k then 0 else x / 2 ^ k

/-- `sar` (R136): amounts of n or more give all sign bits. -/
def execSar (wide : Bool) (a b : Src) (d : Dst) (s : State) : Out :=
  let n := shiftBits wide
  s.alu2 0x12 (wideWords wide) 1 (wideWords wide) a b d fun x k => narrow (sext x n / 2 ^ min k n) n

/-- `rot` (R136): left by s mod n. -/
def execRot (wide : Bool) (a b : Src) (d : Dst) (s : State) : Out :=
  let n := shiftBits wide
  s.alu2 0x13 (wideWords wide) 1 (wideWords wide) a b d fun x k =>
    x * 2 ^ (k % n) % 2 ^ n + x / 2 ^ (n - k % n)

/-- Position and length of R137. -/
def fieldPos (b : Nat) : Nat := bits b 7 0
def fieldLen (b : Nat) : Nat := min (bits b 15 8) 32

/-- The field `bfx` extracts (R137). -/
def bfxValue (sgn : Bool) (a b : Nat) : Nat :=
  let x : Int := if sgn then sext a 32 else (a : Int)
  let n := fieldLen b
  let f := narrow (x / 2 ^ fieldPos b) n
  if n = 0 then 0 else if sgn then narrow (sext f n) 32 else f

/-- `bfx` (R137). -/
def execBfx (sgn : Bool) (a b : Src) (d : Dst) (s : State) : Out := s.alu2 0x14 1 1 1 a b d (bfxValue sgn)

/-- The word `bfi` leaves (R137). -/
def bfiValue (a b d : Nat) : Nat :=
  let mask := (2 ^ fieldLen b - 1) * 2 ^ fieldPos b % 2 ^ 32
  (d &&& (2 ^ 32 - 1 - mask)) ||| (a * 2 ^ fieldPos b % 2 ^ 32 &&& mask)

/-- `bfi` (R137): reads d. -/
def execBfi (a b : Src) (d : Dst) (s : State) : Out := s.alu3 0x15 1 1 1 a b d bfiValue

/-- `popc` (R138). -/
def execPopc (wide : Bool) (a : Src) (d : Dst) (s : State) : Out :=
  s.alu1 0x16 (wideWords wide) 1 a d fun x => popCount (shiftBits wide) x

/-- `clz` (R138). -/
def execClz (wide : Bool) (a : Src) (d : Dst) (s : State) : Out :=
  s.alu1 0x17 (wideWords wide) 1 a d fun x => leadZeros (shiftBits wide) x

/-- `ctz` (R138). -/
def execCtz (wide : Bool) (a : Src) (d : Dst) (s : State) : Out :=
  s.alu1 0x18 (wideWords wide) 1 a d fun x => trailZeros (shiftBits wide) x

/-- `brev` (R138). -/
def execBrev (wide : Bool) (a : Src) (d : Dst) (s : State) : Out :=
  s.alu1 0x19 (wideWords wide) (wideWords wide) a d fun x => bitReverse (shiftBits wide) x

/-- The conditions of R139. -/
def condHolds (c : ICond) (x y : Int) : Bool :=
  match c with
  | .eq => decide (x = y)
  | .ne => decide (x ≠ y)
  | .lt => decide (x < y)
  | .le => decide (x ≤ y)
  | .gt => decide (y < x)
  | .ge => decide (y ≤ x)

/-- An operand extended by signedness from 32 or 64 bits (R139). -/
def extended (uns wide : Bool) (x : Nat) : Int := if uns then (zext x (shiftBits wide) : Int) else sext x (shiftBits wide)

/-- `icmp` (R139). -/
def execIcmp (c : ICond) (uns wide : Bool) (a b : Src) (p : Pred) (s : State) : Out :=
  s.alu 0x1A [(wideWords wide, a), (wideWords wide, b)] none fun _ l =>
    LaneOut.setp p.val (condHolds c (extended uns wide (l.n 0)) (extended uns wide (l.n 1)))

/-- `isel` (R140). -/
def execIsel (p : Pred) (a b : Src) (d : Dst) (s : State) : Out :=
  s.alu 0x1B [(1, a), (1, b)] (some (1, d)) fun x l => LaneOut.num 1 (if x.pred p.val then l.n 0 else l.n 1)

/-- `lea` (R141). -/
def execLea (k : Fin 8) (a b : Src) (d : Dst) (s : State) : Out :=
  s.alu2 0x1C 2 1 2 a b d fun x y => narrow ((x : Int) + sext y 32 * 2 ^ k.val) 64

end Sys2Proof.Machine
end

