-- ==== Sys2Proof/Machine/Moves.lean ====
section
/-! DEFINITION. Moves, packing and predicate moves: opcodes 0x1D to 0x26 (R142 to R146). -/

namespace Sys2Proof.Machine

/-- `mov` (R142). -/
def execMov (w : MovWidth) (b : Src) (d : Dst) (s : State) : Out := s.alu1 0x1D w.words w.words b d id

/-- `movi` (R142). -/
def execMovi (imm : BitVec 18) (d : Dst) (s : State) : Out :=
  s.alu 0x1E [] (some (1, d)) fun _ _ => LaneOut.num 1 (narrow (sext imm.toNat 18) 32)

/-- `movh` (R142): reads d. -/
def execMovh (imm : BitVec 18) (d : Dst) (s : State) : Out :=
  s.alu1 0x20 1 1 d.asSrc d fun x => imm.toNat * 2 ^ 14 + x % 2 ^ 14

/-- Writes consecutive team-uniform registers. -/
def State.setUregs (s : State) (t n : Nat) : List Word → State
  | [] => s
  | w :: ws => State.setUregs (s.setUreg t n w) t (n + 1) ws

/-- `movs` (R125, R143): the elected lane's value, written once. -/
def execMovs (wide : Bool) (b : Src) (sd : Nat) (s : State) : Out :=
  s.onGroup fun g fs =>
    s.withOperands g fs { info := 0x21, srcs := [(wideWords wide, b)], dsts := [] } fun s1 ls =>
      match ls with
      | [] => .next s
      | l :: _ => .next ((s1.setUregs (s.fibre l.f).team sd (l.vals.getD 0 [])).done g)

/-- The conversions of R144. -/
def narrowValue (f : NarrowForm) (a : Nat) : Nat :=
  match f with
  | .s8 => narrow (sext a 8) 32
  | .u8 => zext a 8
  | .s16 => narrow (sext a 16) 32
  | .u16 => zext a 16
  | .satS8 => narrow (satI (sext a 32) (-128) 127) 32
  | .satU8 => narrow (satI (sext a 32) 0 255) 32
  | .satS16 => narrow (satI (sext a 32) (-32768) 32767) 32
  | .satU16 => narrow (satI (sext a 32) 0 65535) 32

/-- `cvti` (R144). -/
def execCvti (f : NarrowForm) (a : Src) (d : Dst) (s : State) : Out := s.alu1 0x22 1 1 a d (narrowValue f)

/-- A half of `pack` (R145). -/
def packHalf (f : PackForm) (x : Nat) : Nat :=
  match f with
  | .b16 => x % 65536
  | .satS16 => narrow (satI (sext x 32) (-32768) 32767) 16
  | .satU16 => narrow (satI (sext x 32) 0 65535) 16

/-- `pack` (R145). -/
def execPack (f : PackForm) (a b : Src) (d : Dst) (s : State) : Out :=
  s.alu2 0x23 1 1 1 a b d fun x y => packHalf f x + 65536 * packHalf f y

/-- The registers `unpk` writes (R145). -/
def unpackWords (f : UnpackForm) (a : Nat) : List Word :=
  match f with
  | .s16 => (List.range 2).map fun j => Word.ofNat (narrow (sext (a / 2 ^ (16 * j)) 16) 32)
  | .u16 => (List.range 2).map fun j => Word.ofNat (zext (a / 2 ^ (16 * j)) 16)
  | .s8 => (List.range 4).map fun j => Word.ofNat (narrow (sext (a / 2 ^ (8 * j)) 8) 32)
  | .u8 => (List.range 4).map fun j => Word.ofNat (zext (a / 2 ^ (8 * j)) 8)

/-- `unpk` (R145). -/
def execUnpk (f : UnpackForm) (a : Src) (d : Dst) (s : State) : Out :=
  s.alu 0x24 [(1, a)] (some (f.words, d)) fun _ l => LaneOut.val (unpackWords f (l.n 0))

/-- `plop` (R146). -/
def execPlop (op : LogicOp) (pa pb pd : Pred) (s : State) : Out :=
  s.alu 0x25 [] none fun x _ =>
    LaneOut.setp pd.val (logicValue op 1 (b2n (x.pred pa.val)) (b2n (x.pred pb.val)) == 1)

/-- `pmov` (R146). -/
def execPmov (d : Dst) (s : State) : Out := s.alu 0x26 [] (some (1, d)) fun x _ => LaneOut.num 1 x.predWord

/-- `pmov.w` (R146). -/
def execPmovW (a : Src) (s : State) : Out :=
  s.onGroup fun g fs =>
    s.withOperands g fs { info := 0x26, srcs := [(1, a)], dsts := [] } fun s1 ls =>
      .next ((ls.foldl (fun t l => t.modFibre l.f fun x => { x with preds := predsFrom (l.n 0) }) s1).done g)

end Sys2Proof.Machine
end

