-- ==== Sys2Proof/Machine/RegWrites.lean ====
section
/-! DEFINITION. Writes of registers with behaviour of their own, the register map of BAR0 and the staging window BAR2 (R8, R67, R162, R212, R231, R237, R340, R353, R378, R379). -/

namespace Sys2Proof.Machine

/-- `csrwr` of FPCTL (R67). -/
def execFpctlWrite (a : Src) (s : State) : Out := s.writeCsr 0x000 a
/-- `csrwr` of POOLCFG0 to POOLCFG6 (R237). -/
def execPoolcfgWrite (k : Fin 7) (a : Src) (s : State) : Out := s.writeCsr (0x420 + k.val) a
/-- `csrwr` of SPALLOC (R162). -/
def execSpallocWrite (a : Src) (s : State) : Out := s.writeCsr 0x40A a
/-- `csrwr` of TROOT0 or TROOT1 (R212). -/
def execTrootWrite (half : Bool) (a : Src) (s : State) : Out := s.writeCsr (if half then 0x409 else 0x408) a
/-- `csrwr` of NETCTL (R340). -/
def execNetctlWrite (a : Src) (s : State) : Out := s.writeCsr 0x430 a
/-- `csrwr` of FXCTL (R353). -/
def execFxctlWrite (a : Src) (s : State) : Out := s.writeCsr 0x431 a

/-! BAR0 (R379). -/

/-- DEVSTAT of a boot state (R388). -/
def Boot.code : Boot → Nat
  | .reset => 0 | .verify => 1 | .ready => 2 | .recovery => 3

/-- The context slot of an offset in a table of registers 8 bytes apart. -/
def slotOf (base off : Nat) : Option Nat := if base ≤ off ∧ off < base + 128 ∧ off % 8 = 0 then some ((off - base) / 8) else none

/-- What a BAR0 register reads; an offset that the table does not list reads as zero. -/
def State.bar0Read (s : State) (off : Nat) : Nat :=
  let h := s.host
  match slotOf 0x100 off, slotOf 0x180 off with
  | some c, _ => NMap.get h.heads c 0
  | _, some c => NMap.get h.heads (16 + c) 0
  | none, none =>
    if off = 0x00 then s.boot.code
    else if off = 0x08 then h.sqbase
    else if off = 0x10 then h.cqbase
    else if off = 0x18 then h.lcctlRead
    else if off = 0x20 then h.sqtail
    else if off = 0x24 then h.cqhead
    else if off = 0x28 then h.hack
    else if off = 0x2C then h.dseqw
    else if off = 0x30 then h.evlost
    else if off = 0x34 then h.sqhead
    else if off = 0x38 then h.cqtail
    else if off = 0x3C then h.cqreplay
    else if off = 0x40 then h.provcmd
    else 0

/-- A write of BAR0: read-only registers and offsets the table does not list ignore it. DESIGN CHOICE (log 103): a write of SQBASE or CQBASE that is not a multiple of 4096 leaves its low 12 bits 0. -/
def State.bar0Write (s : State) (off v : Nat) : Out :=
  match slotOf 0x100 off, slotOf 0x180 off with
  | some c, _ => execFrhead c v s
  | _, some c => execErhead c v s
  | none, none =>
    if off = 0x08 then .next { s with host := { s.host.note off with sqbase := v % 2 ^ 64 / 4096 * 4096 } }
    else if off = 0x10 then .next { s with host := { s.host.note off with cqbase := v % 2 ^ 64 / 4096 * 4096 } }
    else if off = 0x18 then .next { s with host := s.host.lcctl v }
    else if off = 0x20 then execSqtail v s
    else if off = 0x24 then execCqhead v s
    else if off = 0x3C then .next { s with host := { s.host.note off with cqreplay := v % 2 ^ 32 } }
    else if off = 0x40 then execProvcmd v s
    else .next s

/-- A write of one byte of the staging window: accepted in RECOVERY (R378). -/
def State.bar2Write (s : State) (off : Nat) (b : Byte) : Out :=
  if s.boot = .recovery ∧ off < 64 * 2 ^ 20 then .next { s with host := { s.host with staging := NMap.store s.host.staging off b 0 } } else .next s

/-- REGISTER_WRITE: a write of a special register by its number, of BAR0 or of BAR2. -/
def execRegisterWrite (t : RegTarget) (s : State) : Out :=
  match t with
  | .csr n a => s.writeCsr n a
  | .bar0 off v => s.bar0Write off v
  | .bar2 off b => s.bar2Write off b

end Sys2Proof.Machine
end

