-- ==== Sys2Proof/Machine/Dispatch.lean ====
section
/-! DEFINITION. One arm per instruction and event: a direct call of its meaning. -/

namespace Sys2Proof.Machine

def exec (i : Instr) (s : State) : Host.Outcome State Fault Refusal :=
  match i with
  | .nop => Sys2Proof.Machine.execNop s
  | .iadd f a b d => Sys2Proof.Machine.execIadd f a b d s
  | .isub f a b d => Sys2Proof.Machine.execIsub f a b d s
  | .iaddc k a b d => Sys2Proof.Machine.execIaddc k a b d s
  | .isubb k a b d => Sys2Proof.Machine.execIsubb k a b d s
  | .imul f a b d => Sys2Proof.Machine.execImul f a b d s
  | .imulh f a b d => Sys2Proof.Machine.execImulh f a b d s
  | .imad f a b d => Sys2Proof.Machine.execImad f a b d s
  | .idiv f a b d => Sys2Proof.Machine.execIdiv f a b d s
  | .irem f a b d => Sys2Proof.Machine.execIrem f a b d s
  | .imin f a b d => Sys2Proof.Machine.execImin f a b d s
  | .imax f a b d => Sys2Proof.Machine.execImax f a b d s
  | .iabs sat a d => Sys2Proof.Machine.execIabs sat a d s
  | .ineg sat a d => Sys2Proof.Machine.execIneg sat a d s
  | .lop op a b d => Sys2Proof.Machine.execLop op a b d s
  | .shl wide a b d => Sys2Proof.Machine.execShl wide a b d s
  | .shr wide a b d => Sys2Proof.Machine.execShr wide a b d s
  | .sar wide a b d => Sys2Proof.Machine.execSar wide a b d s
  | .rot wide a b d => Sys2Proof.Machine.execRot wide a b d s
  | .bfx sgn a b d => Sys2Proof.Machine.execBfx sgn a b d s
  | .bfi a b d => Sys2Proof.Machine.execBfi a b d s
  | .popc wide a d => Sys2Proof.Machine.execPopc wide a d s
  | .clz wide a d => Sys2Proof.Machine.execClz wide a d s
  | .ctz wide a d => Sys2Proof.Machine.execCtz wide a d s
  | .brev wide a d => Sys2Proof.Machine.execBrev wide a d s
  | .icmp c uns wide a b p => Sys2Proof.Machine.execIcmp c uns wide a b p s
  | .isel p a b d => Sys2Proof.Machine.execIsel p a b d s
  | .lea k a b d => Sys2Proof.Machine.execLea k a b d s
  | .mov w b d => Sys2Proof.Machine.execMov w b d s
  | .movi imm d => Sys2Proof.Machine.execMovi imm d s
  | .movh imm d => Sys2Proof.Machine.execMovh imm d s
  | .movs wide b sd => Sys2Proof.Machine.execMovs wide b sd s
  | .cvti f a d => Sys2Proof.Machine.execCvti f a d s
  | .pack f a b d => Sys2Proof.Machine.execPack f a b d s
  | .unpk f a d => Sys2Proof.Machine.execUnpk f a d s
  | .plop op pa pb pd => Sys2Proof.Machine.execPlop op pa pb pd s
  | .pmov d => Sys2Proof.Machine.execPmov d s
  | .pmovW a => Sys2Proof.Machine.execPmovW a s
  | .fmov f neg a b d => Sys2Proof.Machine.execFmov f neg a b d s
  | .fadd f neg a b d => Sys2Proof.Machine.execFadd f neg a b d s
  | .fsub f neg a b d => Sys2Proof.Machine.execFsub f neg a b d s
  | .fmul f neg a b d => Sys2Proof.Machine.execFmul f neg a b d s
  | .ffma f neg a b d => Sys2Proof.Machine.execFfma f neg a b d s
  | .fmin f neg a b d => Sys2Proof.Machine.execFmin f neg a b d s
  | .fmax f neg a b d => Sys2Proof.Machine.execFmax f neg a b d s
  | .fcmp f neg c a b p => Sys2Proof.Machine.execFcmp f neg c a b p s
  | .fcvt c rm a d => Sys2Proof.Machine.execFcvt c rm a d s
  | .frnd f rm a d => Sys2Proof.Machine.execFrnd f rm a d s
  | .fclass f a d => Sys2Proof.Machine.execFclass f a d s
  | .fscale f a b d => Sys2Proof.Machine.execFscale f a b d s
  | .frcp f a d => Sys2Proof.Machine.execFrcp f a d s
  | .frsq f a d => Sys2Proof.Machine.execFrsq f a d s
  | .fsqrt f a d => Sys2Proof.Machine.execFsqrt f a d s
  | .fdiv f neg a b d => Sys2Proof.Machine.execFdiv f neg a b d s
  | .fexp2 f a d => Sys2Proof.Machine.execFexp2 f a d s
  | .flog2 f a d => Sys2Proof.Machine.execFlog2 f a d s
  | .fsin f a d => Sys2Proof.Machine.execFsin f a d s
  | .fcos f a d => Sys2Proof.Machine.execFcos f a d s
  | .ftanh f a d => Sys2Proof.Machine.execFtanh f a d s
  | .lcvt c rm a d => Sys2Proof.Machine.execLcvt c rm a d s
  | .bra off => Sys2Proof.Machine.execBra off s
  | .brp p off => Sys2Proof.Machine.execBrp p off s
  | .brx a => Sys2Proof.Machine.execBrx a s
  | .call w off => Sys2Proof.Machine.execCall w off s
  | .callx w a => Sys2Proof.Machine.execCallx w a s
  | .ret w => Sys2Proof.Machine.execRet w s
  | .loop c off => Sys2Proof.Machine.execLoop c off s
  | .loopi sgn a b d off => Sys2Proof.Machine.execLoopi sgn a b d off s
  | .brk p => Sys2Proof.Machine.execBrk p s
  | .fork w a p => Sys2Proof.Machine.execFork w a p s
  | .exit => Sys2Proof.Machine.execExit s
  | .wbase a => Sys2Proof.Machine.execWbase a s
  | .yield => Sys2Proof.Machine.execYield s
  | .elect p => Sys2Proof.Machine.execElect p s
  | .vote m ps pd => Sys2Proof.Machine.execVote m ps pd s
  | .ballot ps d => Sys2Proof.Machine.execBallot ps d s
  | .matchAny wide a d => Sys2Proof.Machine.execMatchAny wide a d s
  | .shfl m a b d => Sys2Proof.Machine.execShfl m a b d s
  | .redux op wide a d => Sys2Proof.Machine.execRedux op wide a d s
  | .qswap dir a d => Sys2Proof.Machine.execQswap dir a d s
  | .qbcast k a d => Sys2Proof.Machine.execQbcast k a d s
  | .qred op a d => Sys2Proof.Machine.execQred op a d s
  | .gset k p => Sys2Proof.Machine.execGset k p s
  | .gsetRun k => Sys2Proof.Machine.execGsetRun k s
  | .gsetDrop k => Sys2Proof.Machine.execGsetDrop k s
  | .ld z o a b d => Sys2Proof.Machine.execLd z o a b d s
  | .st z o a b d => Sys2Proof.Machine.execSt z o a b d s
  | .lds z o a b d => Sys2Proof.Machine.execLds z o a b d s
  | .sts z o a b d => Sys2Proof.Machine.execSts z o a b d s
  | .ldc z o a b d => Sys2Proof.Machine.execLdc z o a b d s
  | .atom wide o a b d => Sys2Proof.Machine.execAtom wide o a b d s
  | .atoms wide o a b d => Sys2Proof.Machine.execAtoms wide o a b d s
  | .red wide o a b d => Sys2Proof.Machine.execRed wide o a b d s
  | .fence sc => Sys2Proof.Machine.execFence sc s
  | .cflush o a b => Sys2Proof.Machine.execCflush o a b s
  | .cflushAll o => Sys2Proof.Machine.execCflushAll o s
  | .pref o a b => Sys2Proof.Machine.execPref o a b s
  | .prefBlk o a b => Sys2Proof.Machine.execPrefBlk o a b s
  | .waitaddr wide o a b d => Sys2Proof.Machine.execWaitaddr wide o a b d s
  | .trap p k => Sys2Proof.Machine.execTrap p k s
  | .eret => Sys2Proof.Machine.execEret s
  | .eretSkip => Sys2Proof.Machine.execEretSkip s
  | .csrrd n d => Sys2Proof.Machine.execCsrrd n d s
  | .csrwr n a => Sys2Proof.Machine.execCsrwr n a s
  | .bkpt p k => Sys2Proof.Machine.execBkpt p k s
  | .tlbiVa a => Sys2Proof.Machine.execTlbiVa a s
  | .tlbiCtx => Sys2Proof.Machine.execTlbiCtx s
  | .clk f d => Sys2Proof.Machine.execClk f d s
  | .perf c d => Sys2Proof.Machine.execPerf c d s
  | .perfClr c d => Sys2Proof.Machine.execPerfClr c d s
  | .bar l ix => Sys2Proof.Machine.execBar l ix s
  | .barArr l ix => Sys2Proof.Machine.execBarArr l ix s
  | .netclsBulk => Sys2Proof.Machine.execNetclsBulk s
  | .netclsLat => Sys2Proof.Machine.execNetclsLat s
  | .cpTile a => Sys2Proof.Machine.execCpTile a s
  | .cpStore a => Sys2Proof.Machine.execCpStore a s
  | .cpLin a => Sys2Proof.Machine.execCpLin a s
  | .cpGather a => Sys2Proof.Machine.execCpGather a s
  | .cpScatter a => Sys2Proof.Machine.execCpScatter a s
  | .cpFill a => Sys2Proof.Machine.execCpFill a s
  | .cpSig a => Sys2Proof.Machine.execCpSig a s
  | .cpStat a d => Sys2Proof.Machine.execCpStat a d s
  | .cpStatResume a d => Sys2Proof.Machine.execCpStatResume a d s
  | .mxCfg a => Sys2Proof.Machine.execMxCfg a s
  | .mxPass a d => Sys2Proof.Machine.execMxPass a d s
  | .mxPair a d => Sys2Proof.Machine.execMxPair a d s
  | .mxBq b a => Sys2Proof.Machine.execMxBq b a s
  | .mxLut a => Sys2Proof.Machine.execMxLut a s
  | .mxFold a => Sys2Proof.Machine.execMxFold a s
  | .mxFoldSump a => Sys2Proof.Machine.execMxFoldSump a s
  | .mxDrain a => Sys2Proof.Machine.execMxDrain a s
  | .mxClr a => Sys2Proof.Machine.execMxClr a s
  | .acLd a => Sys2Proof.Machine.execAcLd a s
  | .acSt a => Sys2Proof.Machine.execAcSt a s
  | .mxStat a d => Sys2Proof.Machine.execMxStat a d s
  | .mxStatResume a d => Sys2Proof.Machine.execMxStatResume a d s
  | .mxDep a b => Sys2Proof.Machine.execMxDep a b s
  | .pRsv a d => Sys2Proof.Machine.execPRsv a d s
  | .pPub a b => Sys2Proof.Machine.execPPub a b s
  | .pAcq a d => Sys2Proof.Machine.execPAcq a d s
  | .pRel a b => Sys2Proof.Machine.execPRel a b s
  | .pOcc a d => Sys2Proof.Machine.execPOcc a d s
  | .pBind a => Sys2Proof.Machine.execPBind a s
  | .pUnbind a => Sys2Proof.Machine.execPUnbind a s
  | .rsInit a => Sys2Proof.Machine.execRsInit a s
  | .rsNext a d => Sys2Proof.Machine.execRsNext a d s
  | .tSpawn a b d => Sys2Proof.Machine.execTSpawn a b d s
  | .tDec a => Sys2Proof.Machine.execTDec a s
  | .tPop d => Sys2Proof.Machine.execTPop d s
  | .launch a d => Sys2Proof.Machine.execLaunch a d s
  | .tCntWr a b => Sys2Proof.Machine.execTCntWr a b s
  | .tCntRd b d => Sys2Proof.Machine.execTCntRd b d s
  | .fxAdd a => Sys2Proof.Machine.execFxAdd a s
  | .fxSig a => Sys2Proof.Machine.execFxSig a s
  | .fxFence d => Sys2Proof.Machine.execFxFence d s
  | .fxStat a d => Sys2Proof.Machine.execFxStat a d s
  | .fpctlWrite a => Sys2Proof.Machine.execFpctlWrite a s
  | .poolcfgWrite k a => Sys2Proof.Machine.execPoolcfgWrite k a s
  | .spallocWrite a => Sys2Proof.Machine.execSpallocWrite a s
  | .trootWrite half a => Sys2Proof.Machine.execTrootWrite half a s
  | .netctlWrite a => Sys2Proof.Machine.execNetctlWrite a s
  | .fxctlWrite a => Sys2Proof.Machine.execFxctlWrite a s
  | .registerWrite t => Sys2Proof.Machine.execRegisterWrite t s
  | .clauseStart g => Sys2Proof.Machine.execClauseStart g s
  | .quadSplit g => Sys2Proof.Machine.execQuadSplit g s
  | .groupSlotRelease g => Sys2Proof.Machine.execGroupSlotRelease g s
  | .groupPriorityBoost g => Sys2Proof.Machine.execGroupPriorityBoost g s
  | .groupEviction g => Sys2Proof.Machine.execGroupEviction g s
  | .operationComplete op => Sys2Proof.Machine.execOperationComplete op s
  | .exitCommit f => Sys2Proof.Machine.execExitCommit f s
  | .fenceDone f => Sys2Proof.Machine.execFenceDone f s
  | .waitaddrWake f => Sys2Proof.Machine.execWaitaddrWake f s
  | .queueWaitDone f => Sys2Proof.Machine.execQueueWaitDone f s
  | .poolGrant core => Sys2Proof.Machine.execPoolGrant core s
  | .trapTake f => Sys2Proof.Machine.execTrapTake f s
  | .sumpFull f => Sys2Proof.Machine.execSumpFull f s
  | .leaseRewalk plan stage => Sys2Proof.Machine.execLeaseRewalk plan stage s
  | .cisternRead r => Sys2Proof.Machine.execCisternRead r s
  | .cisternWrite r => Sys2Proof.Machine.execCisternWrite r s
  | .cisternAtomic r => Sys2Proof.Machine.execCisternAtomic r s
  | .writeAck r => Sys2Proof.Machine.execWriteAck r s
  | .l1Fill r => Sys2Proof.Machine.execL1Fill r s
  | .windowRequest r => Sys2Proof.Machine.execWindowRequest r s
  | .routerCycle layer router => Sys2Proof.Machine.execRouterCycle layer router s
  | .starve core => Sys2Proof.Machine.execStarve core s
  | .remapWrite ctx vcore phys => Sys2Proof.Machine.execRemapWrite ctx vcore phys s
  | .barrierArrivalMessage k => Sys2Proof.Machine.execBarrierArrivalMessage k s
  | .barrierRelease k => Sys2Proof.Machine.execBarrierRelease k s
  | .linkRetrain router port => Sys2Proof.Machine.execLinkRetrain router port s
  | .linkRetrainDone router port ok => Sys2Proof.Machine.execLinkRetrainDone router port ok s
  | .copyCommandHead core => Sys2Proof.Machine.execCopyCommandHead core s
  | .copyStep core => Sys2Proof.Machine.execCopyStep core s
  | .copyComplete core => Sys2Proof.Machine.execCopyComplete core s
  | .postEnterTable q => Sys2Proof.Machine.execPostEnterTable q s
  | .matrixCommandHead q => Sys2Proof.Machine.execMatrixCommandHead q s
  | .passGrant core => Sys2Proof.Machine.execPassGrant core s
  | .postPriorityRise entry => Sys2Proof.Machine.execPostPriorityRise entry s
  | .arrayCycle core => Sys2Proof.Machine.execArrayCycle core s
  | .unitRetire core => Sys2Proof.Machine.execUnitRetire core s
  | .foldMove core => Sys2Proof.Machine.execFoldMove core s
  | .foldWriteDone core => Sys2Proof.Machine.execFoldWriteDone core s
  | .drainComplete q => Sys2Proof.Machine.execDrainComplete q s
  | .acTransferComplete q => Sys2Proof.Machine.execAcTransferComplete q s
  | .planStart plan => Sys2Proof.Machine.execPlanStart plan s
  | .teamLaunch plan stage => Sys2Proof.Machine.execTeamLaunch plan stage s
  | .pipeCounterUpdate pipe => Sys2Proof.Machine.execPipeCounterUpdate pipe s
  | .pumpPull pipe => Sys2Proof.Machine.execPumpPull pipe s
  | .pumpDeliver pipe => Sys2Proof.Machine.execPumpDeliver pipe s
  | .crossDeviceCredit pipe rel => Sys2Proof.Machine.execCrossDeviceCredit pipe rel s
  | .deadlockScan => Sys2Proof.Machine.execDeadlockScan s
  | .drainImageComplete plan => Sys2Proof.Machine.execDrainImageComplete plan s
  | .deadlockProbe pipe originDev originPipe lowDev lowPipe crossed => Sys2Proof.Machine.execDeadlockProbe pipe originDev originPipe lowDev lowPipe crossed s
  | .windlassInterval plan => Sys2Proof.Machine.execWindlassInterval plan s
  | .rangeSteal f => Sys2Proof.Machine.execRangeSteal f s
  | .taskUpdate stage => Sys2Proof.Machine.execTaskUpdate stage s
  | .wcLineAge core line => Sys2Proof.Machine.execWcLineAge core line s
  | .packetEgress entry => Sys2Proof.Machine.execPacketEgress entry s
  | .quacyPacketReceive p => Sys2Proof.Machine.execQuacyPacketReceive p s
  | .quacyPacketApply p => Sys2Proof.Machine.execQuacyPacketApply p s
  | .fxAddApply p => Sys2Proof.Machine.execFxAddApply p s
  | .fxSigApply p => Sys2Proof.Machine.execFxSigApply p s
  | .packetAckReceive entry dest seq => Sys2Proof.Machine.execPacketAckReceive entry dest seq s
  | .packetRefusal entry dest seq => Sys2Proof.Machine.execPacketRefusal entry dest seq s
  | .resendRequest entry dest seq => Sys2Proof.Machine.execResendRequest entry dest seq s
  | .windowAckTimeout entry => Sys2Proof.Machine.execWindowAckTimeout entry s
  | .planeFailure plane => Sys2Proof.Machine.execPlaneFailure plane s
  | .windowRebind entry => Sys2Proof.Machine.execWindowRebind entry s
  | .ualinkRead addr => Sys2Proof.Machine.execUalinkRead addr s
  | .budgetPeriod => Sys2Proof.Machine.execBudgetPeriod s
  | .preemptRequest plan stage clusters => Sys2Proof.Machine.execPreemptRequest plan stage clusters s
  | .coreHalted core => Sys2Proof.Machine.execCoreHalted core s
  | .coreSaved core => Sys2Proof.Machine.execCoreSaved core s
  | .resumePlaced image core => Sys2Proof.Machine.execResumePlaced image core s
  | .coreRestored core => Sys2Proof.Machine.execCoreRestored core s
  | .contextReset ctx cause => Sys2Proof.Machine.execContextReset ctx cause s
  | .gangGraceExpire k => Sys2Proof.Machine.execGangGraceExpire k s
  | .compaction k => Sys2Proof.Machine.execCompaction k s
  | .place => Sys2Proof.Machine.execPlace s
  | .launchMessage => Sys2Proof.Machine.execLaunchMessage s
  | .replayRetry => Sys2Proof.Machine.execReplayRetry s
  | .replayKill => Sys2Proof.Machine.execReplayKill s
  | .invalVa => Sys2Proof.Machine.execInvalVa s
  | .invalContext => Sys2Proof.Machine.execInvalContext s
  | .mapwr => Sys2Proof.Machine.execMapwr s
  | .partwr => Sys2Proof.Machine.execPartwr s
  | .resetMessage => Sys2Proof.Machine.execResetMessage s
  | .gang => Sys2Proof.Machine.execGang s
  | .unplace => Sys2Proof.Machine.execUnplace s
  | .attest => Sys2Proof.Machine.execAttest s
  | .health => Sys2Proof.Machine.execHealth s
  | .badtype => Sys2Proof.Machine.execBadtype s
  | .sqtail v => Sys2Proof.Machine.execSqtail v s
  | .cqhead v => Sys2Proof.Machine.execCqhead v s
  | .lcctlEnable v => Sys2Proof.Machine.execLcctlEnable v s
  | .restart => Sys2Proof.Machine.execRestart s
  | .provcmd n => Sys2Proof.Machine.execProvcmd n s
  | .frhead ctx v => Sys2Proof.Machine.execFrhead ctx v s
  | .erhead ctx v => Sys2Proof.Machine.execErhead ctx v s
  | .eventWrite => Sys2Proof.Machine.execEventWrite s
  | .deviceReset => Sys2Proof.Machine.execDeviceReset s
  | .imageVerify => Sys2Proof.Machine.execImageVerify s
  | .powerThrottle level => Sys2Proof.Machine.execPowerThrottle level s
  | .thermalThrottle => Sys2Proof.Machine.execThermalThrottle s
  | .thermalTrip => Sys2Proof.Machine.execThermalTrip s
  | .thermalRecover => Sys2Proof.Machine.execThermalRecover s
  | .healthSample die drift stress life junction => Sys2Proof.Machine.execHealthSample die drift stress life junction s
  | .illegalInstruction w => Sys2Proof.Machine.execIllegalInstruction w s
  | .translationDropDone ctx => Sys2Proof.Machine.execTranslationDropDone ctx s
  | .fxFenceFail f => Sys2Proof.Machine.execFxFenceFail f s

end Sys2Proof.Machine
end

