-- ==== Sys2Proof/Machine/Pending.lean ====
section
/-! DEFINITION. The events a state waits for, in the order in which the machine takes them when the agenda names no turn (log 6). Each does nothing where it is not due. -/

namespace Sys2Proof.Machine

/-- Events of fibres, groups and pools. -/
def State.fibreEvents (s : State) : List Instr :=
  (s.ops.map fun e => Instr.operationComplete e.1) ++
    (s.fibres.flatMap fun e => [.exitCommit e.1, .fenceDone e.1, .queueWaitDone e.1, .trapTake e.1, .sumpFull e.1]) ++
    (s.groups.flatMap fun e => [.groupSlotRelease e.1, .groupPriorityBoost e.1, .groupEviction e.1, .quadSplit e.1]) ++
    (s.cores.map fun e => .poolGrant e.1) ++ s.cores.flatMap fun e => e.2.rangeq.map fun r => .rangeSteal r.2.2

/-- Events of memory requests. -/
def State.memEvents (s : State) : List Instr :=
  s.reqs.flatMap fun e =>
    match e.2.stage, e.2.kind with
    | .home, .read _ _ _ => [.cisternRead e.1]
    | .home, .write _ => [.cisternWrite e.1]
    | .home, .atomic _ => [.cisternAtomic e.1]
    | .home, _ => [.windowRequest e.1]
    | .done, .read _ _ _ => [.l1Fill e.1]
    | .done, .write _ => [.writeAck e.1]
    | .done, .atomic _ => [.writeAck e.1]
    | .done, _ => [.windowRequest e.1]
    | _, _ => []

/-- Events of the mesh and of barriers. -/
def State.meshEvents (s : State) : List Instr :=
  let busy := (s.mesh.flits.map fun f => (f.layer, f.at_)) ++ s.mesh.outq.map fun e => (e.1 % 4, routerOf (e.1 / 4))
  (busy.dedup.map fun e => Instr.routerCycle e.1 e.2) ++ (s.mesh.starve.map fun e => .starve (e.1 / 4)) ++
    (s.bmsgs.map fun e => .barrierArrivalMessage e.1) ++
    (s.cores.flatMap fun c => c.2.units.map fun u => .barrierRelease (16 * c.1 + u.1)) ++ (indexed s.sbars).map fun b => .barrierRelease (stageBarBase + b.1)

/-- Events of the copy engines and the matrix units: a fold ends before its unit retires, and a unit retires before its slot is granted again (R271). -/
def State.engineEvents (s : State) : List Instr :=
  let qs := (s.mxq.map Prod.fst) ++ s.cores.map fun c => handlerQueue c.1
  (s.cores.flatMap fun c => if c.2.copy.queue.isEmpty then [] else [Instr.copyCommandHead c.1, .copyStep c.1, .copyComplete c.1]) ++
    (qs.flatMap fun q => [.matrixCommandHead q, .postEnterTable q, .drainComplete q, .acTransferComplete q]) ++
    (s.tables.map fun e => .postPriorityRise e.1) ++
    s.cores.flatMap fun c => [.foldWriteDone c.1, .foldMove c.1, .arrayCycle c.1, .unitRetire c.1, .passGrant c.1]

/-- Whether a scan has something to do: a grant has arrived, a stage blocked for the detection time stands in a cycle, or probes are sent (R308, R312). -/
def State.scanDue (s : State) : Bool :=
  !s.grantsIn.isEmpty ||
    s.plans.any fun p =>
      decide (p.2.state = .running) && (List.range p.2.stages.length).any (s.ripe p.2) &&
        (s.cycle % 1024 == 0 || !(s.cycles p.1 p.2).isEmpty)

/-- Events of plans, pipes and task queues. -/
def State.planEvents (s : State) : List Instr :=
  (s.plans.flatMap fun p =>
    [Instr.planStart p.1, .windlassInterval p.1, .drainImageComplete p.1] ++
      (indexed p.2.stages).flatMap fun g => [.leaseRewalk p.1 g.1, .teamLaunch p.1 g.1, .taskUpdate (16 * p.1 + g.1)]) ++
    (s.pipes.flatMap fun k => [.pipeCounterUpdate k.1, .pumpPull k.1, .pumpDeliver k.1]) ++
    if s.scanDue then [.deadlockScan] else []

/-- Events of the fabric. -/
def State.fabricEvents (s : State) : List Instr :=
  (s.cores.flatMap fun c => c.2.wcb.map fun l => Instr.wcLineAge c.1 l.stamp) ++
    (s.wins.flatMap fun e => [.packetEgress e.1, .windowAckTimeout e.1] ++ if e.2.state = .error then [.windowRebind e.1] else []) ++
    s.inbox.flatMap fun p => [.quacyPacketApply p, .fxAddApply p, .fxSigApply p]

/-- Whether a gang has begun in this cycle to wait longer than a multiple of PLACE, when a compaction is tried (R377; log 6). -/
def State.placeOver (s : State) (g : Gang) : Bool :=
  let passed (now : Nat) : Nat := (now - g.since - 1) / s.placeOf (s.partOf g.ctx)
  passed s.horizon != passed ((s.cycle - 1) * 10 / 21)

/-- Events of partitions: budgets, pre-emption, gangs. -/
def State.partEvents (s : State) : List Instr :=
  [Instr.budgetPeriod] ++ (s.preempts.map fun r => .preemptRequest r.plan 0 0) ++
    (s.cores.flatMap fun c => match c.2.phase with
      | .halting => [.coreHalted c.1] | .saving => [.coreSaved c.1] | .restoring => [.coreRestored c.1] | _ => []) ++
    ((indexed s.images).flatMap fun i => (clusterCores (s.partClusters i.2.ctx)).map fun c => .resumePlaced i.1 c) ++
    (indexed s.gangs).flatMap fun g => [Instr.gangGraceExpire g.1] ++ if s.placeOver g.2 then [.compaction g.1] else []

/-- Events of the host link and the boot controller. -/
def State.hostEvents (s : State) : List Instr :=
  (if s.boot = .reset ∨ s.boot = .verify then [Instr.imageVerify] else []) ++
    (if s.headMsg.isSome then [.place, .launchMessage, .replayRetry, .replayKill, .invalVa, .invalContext, .mapwr, .partwr, .resetMessage, .gang,
                               .unplace, .attest, .health, .badtype] else []) ++
    if s.cqOpen then [.eventWrite] else []

/-- The ends of drops and of failed fences. -/
def State.lastEvents (s : State) : List (State → Out) :=
  ((s.ctxs.filter fun c => c.2.dropping).map fun c => execTranslationDropDone c.1) ++ (s.host.invals.map fun x => execTranslationDropDone x.1) ++
    s.fxf.map fun x => execFxFenceFail x.fibre

/-- Every event a state waits for, but those of `lastEvents`. -/
def State.pending (s : State) : List Instr :=
  s.fibreEvents ++ s.memEvents ++ s.meshEvents ++ s.engineEvents ++ s.planEvents ++ s.fabricEvents ++ s.partEvents ++ s.hostEvents

/-- The groups of a QC in the order in which they may issue: highest effective priority first, then oldest (R99). DESIGN CHOICE (log 99): of one priority and one age, the lowest slot. -/
def State.issueOrder (s : State) (q : Nat) : List Nat :=
  let gs := (s.groups.filter fun e => e.1 / 16 == q).map Prod.fst
  sortBy (fun g => 3 - s.effPrio (s.group g)) (sortBy (fun g => s.ageOf (s.group g).members) gs)

end Sys2Proof.Machine
end

