-- ==== Sys2Proof/Machine/Run.lean ====
section
/-! DEFINITION. A turn of the machine: a group issues its next word, an event happens, or cycles pass (R29, R38, R39, R99). -/

namespace Sys2Proof.Machine

/-- Whether a word that decodes to no instruction names a privileged instruction or register, which R38 checks first (R9, R231, R232, R235). -/
def privilegedWord (w : Nat) : Bool :=
  !isX w && (opOf w == 0x71 || opOf w == 0x75 || ((opOf w == 0x72 || opOf w == 0x73) && decide (0x400 ≤ csrNumber w)))

/-- INFO of ILLEGAL_INSTRUCTION and ILLEGAL_OPERAND: function and major opcode (R225). -/
def wordInfo (w : Nat) : Nat := opOf w + if isX w then 128 * fnOf w else 0

/-- X functions that the elected lane runs (R284, R320, R358). -/
def electedFn (fn : Nat) : Bool :=
  (decide (0x10 ≤ fn ∧ fn ≤ 0x1B) && fn != 0x13) || decide (0x30 ≤ fn ∧ fn ≤ 0x35) || fn == 0x40 || fn == 0x45 || fn == 0x53

/-- The active lanes of a word that breaks an operand rule: those whose guarding predicate is true for `trap` and `bkpt`, the elected lane for `ldc`, the X functions it runs and a `csrwr` that is made once, otherwise every lane (R43, R217, R229). -/
def State.activeAt (s : State) (w : Nat) (fs : List Nat) : List Nat :=
  if isX w then (if electedFn (fnOf w) then fs.take 1 else fs)
  else if opOf w = 0x70 ∨ opOf w = 0x74 then fs.filter fun f => (s.fibre f).pred (bits w 31 28)
  else if opOf w = 0x64 ∨ (opOf w = 0x73 ∧ csrPerLane (csrNumber w) = false) then fs.take 1
  else fs

/-- A word breaks an operand rule: PRIVILEGE first where it is privileged, otherwise ILLEGAL_OPERAND, in every active lane (R38); where none is active the group goes on. -/
def State.badOperand (s : State) (g w : Nat) : State :=
  let all := byLane (s.group g).members
  let fs := s.activeAt w all
  let user := match all with | f :: _ => decide ((s.fibre f).mode = .user) | [] => false
  let perfShut := !isX w && opOf w == 0x77 && !bit (s.core (g / 64)).perfctl.toNat 0
  let c := if user && (privilegedWord w || perfShut) then Cond.plain clsPrivilege else Cond.withInfo clsIllegalOperand (wordInfo w)
  if fs.isEmpty then s.doneBy g fs else s.raise g fs (fs.map fun f => (f, c))

/-- Notes where the instruction being issued ends, and that its group is the one that issues. -/
def State.setIssue (s : State) (g npos : Nat) : State :=
  { s.modFibres (s.group g).members (fun x => { x with npos := npos }) with cur := some g }

/-- The words of a group's clause from its position on. -/
def State.codeAt (s : State) (x : Fibre) : List Word := (x.code.drop x.pos).map s.wordAtLoc

/-- Issues the word at the position of a group inside its clause. -/
def State.issueWord (s : State) (g : Nat) (x : Fibre) : Out :=
  match s.codeAt x with
  | [] => .next s
  | w :: ws =>
    let s1 := s.setIssue g (x.pos + 1 + extCount w.toNat)
    match decode (w :: ws) with
    | .ok i => exec i s1
    | .error .reserved => execIllegalInstruction w s1
    | .error _ => .next (s1.badOperand g w.toNat)

/-- A fibre that resumes inside a clause fetches its words again (R39); past the clause's end it arrives at the next. DESIGN CHOICE (log 100): a fault of this fetch is reported at position 0 as R217 says, so the clause starts again from its header after the fault. -/
def State.refetch (s : State) (g f : Nat) : Out :=
  match s.fetchClause f with
  | (_, .absent pa) => .fault (.physicalAddressAbsent pa)
  | (s1, .fault c) =>
    let s2 := s1.modFibres (s1.group g).members fun x => { x with pos := 0 }
    .next (s2.raise g (s2.group g).members ((s2.group g).members.map fun h => (h, c)))
  | (s1, .ok h code) =>
    let s2 := s1.modFibres (s1.group g).members fun x => { x with hdr := h, code := code }
    if hdrLen h < (s2.fibre f).pos then .next (s2.endClause g fun k => nextClause (s2.fibre k).pc h)
    else .next s2

/-- The turn of a group slot. -/
def State.issueTurn (s : State) (g : Nat) : Out :=
  if !s.mayIssue g then .next s
  else
    match (s.group g).members with
    | [] => .next s
    | f :: _ =>
      let x := s.fibre f
      if x.pos = arriving then .next (s.arrive g)
      else if x.pos = 0 then exec (.clauseStart g) s
      else if x.code.isEmpty then s.refetch g f
      else s.issueWord g x

/-- Whether a group stands before an instruction whose words it holds. -/
def State.atWord (s : State) (g : Nat) : Bool :=
  match (s.group g).members with
  | [] => true
  | f :: _ => decide ((s.fibre f).pos ≠ arriving) && (s.fibre f).pos != 0 && !(s.fibre f).code.isEmpty

/-- Whether an attempt has left a group held where it stood. -/
def State.stuck (s t : State) (g : Nat) : Bool :=
  match NMap.find t.groups g, (s.group g).members with
  | some x, f :: _ => x.stall.isSome && (t.fibre f).pos == (s.fibre f).pos
  | _, _ => false

/-- A group tries to issue its next instruction: it arrives at its boundary, starts its clause or fetches it again first, and issues in the same cycle (R99). The answer says whether it has issued. -/
def State.attempt (g : Nat) : Nat → State → Bool × Out
  | 0, s => (false, .next s)
  | n + 1, s =>
    if !s.mayIssue g then (false, .next s)
    else
      match s.issueTurn g with
      | .next t =>
        if s.atWord g then (!s.stuck t g, .next t)
        else if (t.group g).stall.isSome then (false, .next t)
        else State.attempt g n t
      | o => (true, o)

/-- Steps of an attempt: arrival, clause start, fetch, issue. -/
def attemptSteps : Nat := 4

/-- A group that is ready, since its next instruction can issue, and issues nothing counts the cycles; one that is not ready pauses (R99). -/
def State.readyTick (n : Nat) (s : State) (g : Nat) : State :=
  if (State.attempt g attemptSteps s).1 then s.modGroup g fun x => { x with ready := x.ready + n } else s

/-- The first group of a list that can issue does; those after it count the cycle if they were ready (R99). -/
def State.issueFirst : List Nat → State → Out
  | [], s => .next s
  | g :: gs, s =>
    match State.attempt g attemptSteps s with
    | (true, .next t) => .next (gs.foldl (State.readyTick 1) t)
    | (false, .next t) => State.issueFirst gs t
    | (_, o) => o

/-- A QC issues: its groups in order of effective priority, then age (R99). -/
def State.issueQc (q : Nat) (s : State) : Out := State.issueFirst (s.issueOrder q) s

/-- Cycles pass: stages that have become blocked are noted, engines go on by themselves, flits age (R308, R338). -/
def State.pass (s : State) (n : Nat) : State := (s.markBlocked.elapse n).drain.ageMesh n

/-- An event happens. -/
def State.happens (e : Instr) (s : State) : Out := exec e { s with cur := none }

/-- One turn. -/
def State.runTurn (s : State) (t : Turn) : Out :=
  match t with
  | .issue g => s.issueTurn g
  | .happen e => State.happens e s
  | .elapse n => .next (((s.groups.map Prod.fst).foldl (State.readyTick n) s).pass n)

/-- Actions in sequence, up to the first that stops. -/
def runAll : List (State → Out) → State → Out
  | [], s => .next s
  | k :: ks, s =>
    match k s with
    | .next s1 => runAll ks s1
    | o => o

/-- A cycle: on each QC one group issues, in ascending order of QCs, every event that is due happens, and time passes. -/
def State.cycleTurn (s : State) : Out :=
  runAll (s.busyQcs.map State.issueQc ++ s.pending.map State.happens ++ s.lastEvents ++ [fun t => .next (t.pass 1)]) s

/-- A turn is taken from the agenda; where it names none, a cycle. -/
def State.turn (s : State) : Out :=
  match s.agenda with
  | t :: ts => State.runTurn { s with agenda := ts } t
  | [] => s.cycleTurn

/-- Where `withFetchWord` places an instruction in device memory. -/
def placeBase : Nat := 0x100000

/-- The fibre that issues a placed instruction: user mode, at position 1 of a clause that counts on f0. -/
def placedFibre (n : Nat) : Fibre :=
  { Fibre.blank with team := 0, status := .running, pos := 1, hdr := n, pc := placeBase, win := 120,
                     code := (List.range (n + 1)).map fun i => { host := false, pa := placeBase + 4 * i } }

/-- Its stage: one team on demand. -/
def placedStage : Stage :=
  { rec_ := List.replicate 4 0 ++ [1] ++ List.replicate 59 0, unif := List.replicate 64 0, clusters := [0], next := 1, live := [0],
    finished := 0, ended := 0, saved := [], blocked := none, tasks := [], counters := [], updates := [], held := [], rest := 0, pagesReady := true }

/-- Its plan: number 0 of context 0, running. -/
def placedPlan : Plan :=
  { ctx := 0, number := 0, state := .running, hdr := [1], stages := [placedStage], pair := none, grants := [],
    nextInterval := 0, order := 0, cycle := 0, lost := 0, drainAt := 0, settle := 0, doneAt := none }

/-- Its context: no tables, a handler window of 32 registers. -/
def placedCtx : Ctx :=
  { part := 0, troot0 := 0, troot1 := 0, tvec := 0, hctl := 2, frBase := 0, frSize := 256, frHead := 0, frTail := 0, erBase := 65536,
    erSize := 64, erHead := 0, erTail := 0, vmap := [(0, 0)], dropping := false, dropOp := [] }

end Sys2Proof.Machine
end

