-- ==== Sys2Proof/Machine/Step.lean ====
section
/-! DEFINITION. One step of the machine, and the placing of a numbered instruction where it is fetched next. -/

namespace Sys2Proof.Machine

/-- One step: one turn (log 6). -/
def step (s : State) : Host.Outcome State Fault Refusal := s.turn

/-- The state in which the next step issues a numbered instruction of the opcode table: it stands for a launch that has brought one fibre to that word (log 7). -/
def State.withFetchWord (s : State) (nbits w : Nat) : State :=
  let n := maxWords
  { s.setBytes ⟨false, placeBase + 4⟩ (bytesOf (tableWords nbits w)) with
    agenda := [.issue 0],
    fibres := NMap.put s.fibres 0 (placedFibre n),
    groups := NMap.put s.groups 0 (Group.fresh [0]),
    teams := NMap.put s.teams 0 { Team.blank with slots := [0], spans := [(0, 0, 120)] },
    cores := NMap.put s.cores 0 { Core.init with ctx := some 0, plan := some (0, 0) },
    plans := NMap.put s.plans 0 placedPlan,
    ctxs := NMap.put s.ctxs 0 placedCtx }

end Sys2Proof.Machine
end

