-- ==== Sys2Proof/Safety.lean ====
section
/-! DEFINITION. What claims speak of: the canonical forms, a safe run, a group that issues with its operands readable, and what an instruction gives each lane and leaves alone (R38, R41, R91, R109, R128, R129). -/

namespace Sys2Proof.Machine

/-! Canonical forms. -/

/-- A map is in canonical form: keys rising, and no entry equal to what an unlisted key reads as. -/
abbrev NMap.canon {α : Type} [DecidableEq α] (m : NMap α) (d : α) : Prop := NMap.wf m = true ∧ ∀ e ∈ m, e.2 ≠ d

/-- The tables of the state have rising keys. -/
abbrev State.Sorted (s : State) : Prop :=
  NMap.wf s.fibres = true ∧ NMap.wf s.groups = true ∧ NMap.wf s.teams = true ∧ NMap.wf s.hwins = true ∧ NMap.wf s.cores = true ∧
    NMap.wf s.ops = true ∧ NMap.wf s.reqs = true ∧ NMap.wf s.tables = true ∧ NMap.wf s.plans = true ∧ NMap.wf s.pipes = true ∧
    NMap.wf s.ctxs = true ∧ NMap.wf s.parts = true ∧ NMap.wf s.wins = true

/-- Memory, scratchpads, registers and queues are in canonical form, and the tables are sorted. -/
abbrev State.Canon (s : State) : Prop :=
  ((Memory.wf s.mem = true ∧ Memory.wf s.hmem = true) ∧ s.Sorted) ∧ NMap.canon s.regs 0 ∧ NMap.canon s.uregs 0 ∧ NMap.canon s.spad 0 ∧
    ∀ e ∈ s.cores, NMap.canon e.2.queues ([], 0)

/-- A step goes on to a next state. -/
def State.goesOn (s : State) : Prop := ∃ t, step s = .next t

/-! A group that issues. -/

/-- Group g issues: it is the current group, its members in home-lane order are fs, and they stand on different home lanes (R91). -/
abbrev State.Issues (s : State) (g : Nat) (fs : List Nat) : Prop :=
  s.cur = some g ∧ byLane (s.group g).members = fs ∧ fs ≠ [] ∧ (fs.map hlOf).Nodup ∧ ∀ f ∈ fs, (NMap.find s.fibres f).isSome = true

/-- Where a fibre stands after an instruction: program counter, position in the clause, loop stack, and the induction registers written by a back-edge (R29, R109). -/
structure Landing where
  pc : Nat
  pos : Nat
  loops : List LoopEntry
  writes : List (Nat × Word)
deriving DecidableEq, Repr

/-- Whether a back-edge of some lane would write a pending register at the boundaries `tgt` (R109). -/
def State.boundaryHeld (s : State) (fs : List Nat) (loops : Nat → List LoopEntry) (tgt : Nat → Nat) : Bool :=
  fs.any fun f => (loopCheck (tgt f) (loops f)).write.any fun w => (s.fibre f).pend.contains w.1

/-- Where lane f stands when its group ends its clause with the boundaries `tgt` and the loop stacks `loops` (R29, R109). -/
def State.landing (s : State) (fs : List Nat) (loops : Nat → List LoopEntry) (tgt : Nat → Nat) (f : Nat) : Landing :=
  if s.boundaryHeld fs loops tgt then { pc := tgt f, pos := arriving, loops := loops f, writes := [] }
  else
    let r := loopCheck (tgt f) (loops f)
    { pc := r.pc, pos := 0, loops := r.loops, writes := r.write.map fun w => (w.1, Word.ofNat w.2) }

/-- Whether the instruction being issued ends its group's clause. -/
def State.lastWord (s : State) (g : Nat) : Bool :=
  match (s.group g).members with
  | [] => false
  | f :: _ => decide ((s.fibre f).hdr % 16 < (s.fibre f).npos)

/-- Where lane f stands after an instruction that transfers no control: at the next word, or past its clause (R29). -/
def State.onward (s : State) (g : Nat) (fs : List Nat) (loops : Nat → List LoopEntry) (f : Nat) : Landing :=
  if s.lastWord g then s.landing fs loops (fun h => nextClause (s.fibre h).pc (s.fibre h).hdr) f
  else { pc := (s.fibre f).pc, pos := (s.fibre f).npos, loops := loops f, writes := [] }

/-- The loop stacks as they are. -/
def State.loopsOf (s : State) (f : Nat) : List LoopEntry := (s.fibre f).loops

/-- What an instruction gives one lane: registers of its home lane with their words, predicates, FPCTL, and where it stands. -/
structure Effect where
  words : List (Nat × Word)
  preds : BitVec 16
  fpctl : Word
  at_ : Landing
deriving DecidableEq, Repr

/-- The last word written to physical register r. -/
def lastAt (ws : List (Nat × Word)) (r : Nat) : Option Word := (ws.reverse.find? fun w => w.1 % 512 == r % 512).map Prod.snd

/-- A fibre without what an instruction of the datapath may change: place, loop stack, predicates, FPCTL and scheduling status. -/
def Fibre.still (x : Fibre) : Fibre :=
  { x with status := .ready, wait := none, since := 0, cohort := none, pc := 0, pos := 0, code := [], loops := [], preds := 0, fpctl := 0 }
/-- A core without its counters, queues and pool. -/
def Core.still (c : Core) : Core := { c with perfcnt := [], queues := [], pool := [] }
/-- The state without the parts that an issue to the datapath may change. -/
def State.rest (s : State) : State := { s with fibres := [], groups := [], cores := [], parts := [], regs := [], flying := [], poolq := [] }

/-- The results of a fibre that have left for their registers and not landed (R122). -/
def State.flights (s : State) (f : Nat) : List Flight := s.flying.filter fun e => e.fibre == f

/-- From s the machine goes to t, lane f is given `e f`, queue words are pushed, and nothing else changes: registers of other home lanes, other fibres and their results, other parts of the lanes and of the cores, memory, scratchpads, team-uniform registers, accumulators and all other state (R129). What a lane is given it reads from then on; in the register itself a result lands later, and only a back-edge writes at once (R122). -/
abbrev State.Gives (s t : State) (fs : List Nat) (e : Nat → Effect) (push : Option (Nat × Nat × List Word)) : Prop :=
  t.rest = s.rest ∧
  (∀ f, f ∉ fs → t.fibre f = s.fibre f) ∧
  (∀ f ∈ fs, (t.fibre f).still = (s.fibre f).still ∧ (t.fibre f).pc = (e f).at_.pc ∧ (t.fibre f).pos = (e f).at_.pos ∧
    (t.fibre f).loops = (e f).at_.loops ∧ (t.fibre f).preds = (e f).preds ∧ (t.fibre f).fpctl = (e f).fpctl) ∧
  (∀ f ∈ fs, ∀ r, t.view f r = (lastAt ((e f).words ++ (e f).at_.writes) r).getD (s.view f r) ∧
    t.reg (hlOf f) r = (lastAt (e f).at_.writes r).getD (s.reg (hlOf f) r)) ∧
  (∀ h, h ∉ fs.map hlOf → ∀ r, t.reg h r = s.reg h r) ∧ (∀ f, f ∉ fs → t.flights f = s.flights f) ∧
  (∀ c, (t.core c).still = (s.core c).still) ∧
  ∀ c i, (t.core c).queueWords i = (s.core c).queueWords i ++
    match push with
    | some (c', i', ws) => if c = c' ∧ i = i' then ws else []
    | none => []

/-- The operands of the lanes fs are readable: inside the window, not pending, queue words there. The sources are read in order, which leaves s1 and gives the lanes ls their values (R36, R38, R41, R128, R242). -/
abbrev State.Operands (s : State) (fs : List Nat) (srcs : List (Nat × Src)) (dsts : List (Nat × Dst)) (s1 : State) (ls : List Lane) : Prop :=
  (∀ f ∈ fs, (∀ e ∈ srcs, e.2.inWin e.1 (s.fibre f).win = true) ∧ ∀ e ∈ dsts, e.2.inWin e.1 (s.fibre f).win = true) ∧
  (∀ f ∈ fs, (∀ e ∈ srcs, ∀ r ∈ e.2.phys e.1 (s.fibre f).base, r ∉ (s.fibre f).pend) ∧
    ∀ e ∈ dsts, ∀ r ∈ e.2.phys e.1 (s.fibre f).base, r ∉ (s.fibre f).pend) ∧
  ∃ vss, s.readSrcs fs srcs = .ok (s1, vss) ∧ ls = lanesFrom fs vss

/-- The pool has room for what a queue destination takes: `words` words of each lane (R238, R242). -/
abbrev State.Room (s : State) (g : Nat) (fs : List Nat) (d : Option Dst) (words : Nat) : Prop :=
  match d, fs with
  | some (.q k), f :: _ =>
    ∃ t, s.poolAsk g (coreOf f)
      [(instQreg (pushIdx (qcOf f % 4) k), freshEntries ((s.core (coreOf f)).queue (pushIdx (qcOf f % 4) k)) (words * fs.length))] = .ok t
  | _, _ => True

/-- The registers a destination names in a lane with the words given. -/
def Dst.gets (d : Option Dst) (base : Nat) (ws : List Word) : List (Nat × Word) :=
  match d with
  | some (.v n) => (indexed ws).map fun e => (base + n + e.1, e.2)
  | _ => []

/-- What a lane is given by an instruction of the datapath that goes on to the next word (R29, R67, R126). -/
def State.effect (s : State) (g : Nat) (fs : List Nat) (d : Option Dst) (out : Nat → LaneOut) (f : Nat) : Effect :=
  { words := Dst.gets d (s.fibre f).base (out f).words,
    preds := match (out f).pred with | some (p, b) => ((s.fibre f).setPred p b).preds | none => (s.fibre f).preds,
    fpctl := (s.fibre f).fpctl ||| Word.ofNat ((out f).flags % 64),
    at_ := s.onward g fs s.loopsOf f }

/-- What a queue destination is pushed: the words of the lanes in home-lane order (R128). -/
def pushed (fs : List Nat) (d : Option Dst) (out : Nat → LaneOut) : Option (Nat × Nat × List Word) :=
  match d, fs with
  | some (.q k), f :: _ => some (coreOf f, pushIdx (qcOf f % 4) k, fs.flatMap fun h => (out h).words)
  | _, _ => none

/-- An instruction of the datapath completes: every lane f is given `out f` (R129). -/
abbrev State.Completes (s s1 t : State) (g : Nat) (fs : List Nat) (d : Option Dst) (out : Nat → LaneOut) : Prop :=
  s1.Gives t fs (s.effect g fs d out) (pushed fs d out)

/-- Whenever the operands are readable and a queue destination has room, `exec` of the instruction answers a next state in which lane f is given `out ls f`, ls being the lanes with their source values. -/
abbrev State.Does (s : State) (g : Nat) (fs : List Nat) (i : Instr) (srcs : List (Nat × Src)) (d : Option (Nat × Dst))
    (out : List Lane → Nat → LaneOut) : Prop :=
  ∀ s1 ls, s.Operands fs srcs d.toList s1 ls → s1.Room g fs (d.map Prod.snd) ((d.map Prod.fst).getD 0) →
    ∃ t, exec i s = .next t ∧ s.Completes s1 t g fs (d.map Prod.snd) (out ls)

/-- The instruction writes a number of w words, computed in each lane from the numbers its sources read. -/
abbrev State.Maps (s : State) (g : Nat) (fs : List Nat) (i : Instr) (srcs : List (Nat × Src)) (w : Nat) (d : Dst)
    (k : (Nat → Nat) → Nat) : Prop :=
  s.Does g fs i srcs (some (w, d)) fun ls f => LaneOut.num w (k (laneFor ls f).n)

/-- The two's complement number in the low n bits of a number (R60). -/
def signed (n x : Nat) : Int := (BitVec.ofNat n x).toInt
/-- An integer stored modulo 2^n (R129). -/
def stored (n : Nat) (x : Int) : Nat := (BitVec.ofInt n x).toNat
/-- An integer brought into a range (R60). -/
def clamp (lo hi x : Int) : Int := max lo (min hi x)

/-- The instruction writes, element by element, a float computed from the elements of its sources in the fibre's rounding mode, and raises the flags of all elements (R61, R67, R147). -/
abbrev State.Floats (s : State) (g : Nat) (fs : List Nat) (i : Instr) (f : FloatForm) (srcs : List (Nat × Src)) (d : Dst)
    (k : RMode → (Nat → Nat) → Nat × Nat) : Prop :=
  s.Does g fs i srcs (some (f.words, d)) fun ls h =>
    LaneOut.flt f.words (perElement f fun e => k (s.fibre h).rm fun j => element f ((laneFor ls h).n j) e)

/-- The rational number of a finite float value (R62). -/
def FVal.rat : FVal → Option Rat
  | .fin neg m e => some ((if neg then -(m : Rat) else m) * (2 : Rat) ^ e)
  | _ => none

/-- What an instruction gives a lane that only goes somewhere. -/
def State.goes (s : State) (at_ : Nat → Landing) (f : Nat) : Effect :=
  { words := [], preds := (s.fibre f).preds, fpctl := (s.fibre f).fpctl, at_ := at_ f }

/-- The state with each of the fibres fs changed. -/
def State.withLanes (s : State) (fs : List Nat) (k : Nat → Fibre → Fibre) : State :=
  { s with fibres := s.fibres.map fun e => (e.1, if fs.contains e.1 then k e.1 e.2 else e.2) }

/-- The address H + 4 · offset, modulo 2^64 (R45, R107). -/
def labelOf (h : Nat) {n : Nat} (off : BitVec n) : Nat := (BitVec.ofNat 64 h + 4 * off.signExtend 64).toNat

/-! What an instruction leaves alone, and the operations it opens. -/

/-- The physical register of an indexed loop (R109). -/
def LoopEntry.induction : LoopEntry → Option Nat
  | .index _ _ _ _ _ r => some (r % 512)
  | .count _ _ _ => none

/-- What only the instructions that name it change in a fibre: team, mode, window, predicates, FPCTL, guard generations. -/
def Fibre.own (x : Fibre) : Nat × Mode × Nat × Nat × BitVec 16 × Word × List Nat :=
  (x.team, x.mode, x.base, x.win, x.preds, x.fpctl, x.guards)

/-- Registers keep their values, but for the induction registers of the lanes fs, which a back-edge at the end of their clause may write (R109). -/
abbrev State.KeepsRegs (s t : State) (fs : List Nat) : Prop :=
  ∀ h r, (∀ f ∈ fs, hlOf f = h → ∀ e ∈ (s.fibre f).loops, e.induction ≠ some (r % 512)) → t.reg h r = s.reg h r

/-- Memory, host memory, uniform registers, trap registers, the fibres' windows, modes and predicates keep their values, and registers but for back-edges. -/
abbrev State.Quiet (s t : State) (fs : List Nat) : Prop :=
  t.mem = s.mem ∧ t.hmem = s.hmem ∧ t.uregs = s.uregs ∧ t.hwins = s.hwins ∧ (∀ f, (t.fibre f).own = (s.fibre f).own) ∧ s.KeepsRegs t fs

/-- The lanes fs have left their word for the next one, or for where their clause ends, with the registers pending in t (R29, R36, R109). -/
abbrev State.MovesOn (s t : State) (g : Nat) (fs : List Nat) : Prop :=
  let u := s.withLanes fs fun f x => { x with pend := (t.fibre f).pend }
  ∀ f ∈ fs, (t.fibre f).pc = (u.onward g fs s.loopsOf f).pc ∧ (t.fibre f).pos = (u.onward g fs s.loopsOf f).pos ∧
    (t.fibre f).loops = (u.onward g fs s.loopsOf f).loops

/-- An instruction that has no result of its own at issue has issued: its lanes move on and the rest is quiet. -/
abbrev State.Passes (s t : State) (g : Nat) (fs : List Nat) : Prop := s.Quiet t fs ∧ s.MovesOn t g fs

/-- A variable-latency instruction opens one operation in each lane of fs, numbered in lane order: its flag is raised and its destination pending (R33, R34, R36); p says what the operation of lane f, the i-th, is. -/
abbrev State.Opens (s t : State) (fs : List Nat) (p : Nat → Nat → Op → Prop) : Prop :=
  ∀ e ∈ indexed fs, ∃ x, NMap.find t.ops (s.nextId + e.1) = some x ∧ x.fibre = e.2 ∧ x.flag = s.flagOf fs ∧ p e.1 e.2 x ∧
    (t.fibre e.2).pend = (s.fibre e.2).pend ++ x.marks ∧
    (t.fibre e.2).flags = match s.flagOf fs with | some i => (s.fibre e.2).flags.modify i (· + 1) | none => (s.fibre e.2).flags

/-- Nothing holds a memory instruction: order, its flag, its pool entries (R34, R176, R195, R238). -/
abbrev State.Ready (s s1 : State) (g : Nat) (fs : List Nat) (isStore : Bool) (rs : List (Nat × Nat)) : Prop :=
  s.allReady fs isStore = true ∧ s.flagStop fs = none ∧ ∃ u, s1.poolAsk g (g / 64) rs = .ok u

/-- Nothing stands before a command of a queue of the core: its flag, its pool entries, a guard, an earlier command (R34, R238, R243). -/
abbrev State.Sends (s s1 : State) (g : Nat) (fs : List Nat) (inst n : Nat) (q : XQueue) : Prop :=
  s.flagStop fs = none ∧ (∃ u, s1.poolAsk g (g / 64) [(inst, n)] = .ok u) ∧ (∀ f ∈ fs, s.guardOf f = none ∧ coreOf f = g / 64) ∧
    (s.core (g / 64)).xq q = []

/-- From s to t an operation is answered with words: they are its value and nothing is left of it. -/
abbrev State.Answers (s t : State) (op : Nat) (ws : List Word) : Prop :=
  ∀ y, NMap.find s.ops op = some y → NMap.find t.ops op = some { y with value := some ws, left := 0 }

/-- The flits in transit and those that wait in a core are distinct, and their messages are known. -/
abbrev State.FlitsApart (s : State) : Prop :=
  (s.mesh.flits.map fun f => (f.msg, f.num)).Nodup ∧ (∀ f ∈ s.mesh.flits, (s.msg? f.msg).isSome = true) ∧
    ∀ e ∈ s.mesh.outq, ∀ f ∈ s.mesh.flits, (f.msg, f.num) ∉ e.2

/-- The device has taken the message at the head of the submission ring, in sequence: its slot is passed and HACK is its number (R382). -/
def State.taken (s : State) (n : Nat) : State := { s with host := { s.host with sqhead := (s.host.sqhead + 1) % s.host.sqSlots, hack := n } }

/-- A message is answered: a status and reply words, in a state of which c holds. -/
abbrev State.Replies (s : State) (i : Instr) (n : Nat) (st : Status) (r : List Nat) (c : State → Prop) : Prop :=
  ∃ w, exec i s = .next (w.completeMsg st n r) ∧ c w

/-- An access goes to the home of a line or to a scratchpad of the die window. -/
def Route.reaches : Route → Bool
  | .home _ _ _ _ => true
  | .win _ _ => true
  | _ => false

/-- The requests of a state are numbered below the next one, and the write that carries a dirty byte of an L1 is among them. -/
abbrev State.CarriersKnown (s : State) : Prop :=
  (∀ e ∈ s.reqs, e.1 < s.nextId) ∧ ∀ c, ∀ b ∈ (s.core c).l1, ∀ e ∈ b.bytes, ∀ r, e.2.going = some r →
    ∃ q, NMap.find s.reqs r = some q ∧ q.isWrite = true

/-- Every dirty byte of a block of a core is on its way home, with operation o waiting for it. -/
abbrev State.Flushed (t : State) (core o : Nat) (b : L1Block) : Prop :=
  ∃ c, (t.core core).block? b.first = some c ∧ ∀ e ∈ c.bytes, lineOfUnit (e.1 / 32) ∈ unitLines c.first c.size → e.2.dirty = true →
    ∃ r q, e.2.going = some r ∧ NMap.find t.reqs r = some q ∧ q.isWrite = true ∧ o ∈ q.ops

/-- Whether a request is a read of a line. -/
def ReqKind.reads : ReqKind → Bool
  | .read .. => true
  | _ => false

/-- A request of a kind to a line and its home, which serves an operation. -/
abbrev State.Requests (t : State) (op line home : Nat) (k : ReqKind → Prop) : Prop :=
  ∃ e ∈ t.reqs, k e.2.kind ∧ e.2.line = line ∧ e.2.home = home ∧ op ∈ e.2.ops

end Sys2Proof.Machine
end

