-- ==== Sys2Proof/Certificates/Slice0/Obligations.lean ====
section
/-! DEFINITION. The statements for the provers. -/

open Sys2Proof Sys2Proof.Machine

/-- Sums and differences: wrapping, saturating, of pairs, with a carry or borrow through pk (R130, R131). Products: low, wide and high parts, and a product with an addend read from d (R132). Quotient and remainder truncate toward zero; division by zero gives all ones and the dividend; the least number divided by minus one gives itself and 0 (R133). -/
def Obligations.IntegerArithmetic : Prop :=
  (∀ (s : State) (g : Nat) (fs : List Nat), s.Canon → s.Issues g fs → ∀ a b d,
  (∀ f : AddForm, s.Maps g fs (.iadd f a b d) [(f.words, a), (f.words, b)] f.words d fun x =>
    match f with
    | .wrap => (x 0 + x 1) % 2 ^ 32
    | .satS => stored 32 (clamp (-2 ^ 31) (2 ^ 31 - 1) (signed 32 (x 0) + signed 32 (x 1)))
    | .satU => min (x 0 + x 1) (2 ^ 32 - 1)
    | .b64 => (x 0 + x 1) % 2 ^ 64) ∧
  (∀ f : AddForm, s.Maps g fs (.isub f a b d) [(f.words, a), (f.words, b)] f.words d fun x =>
    match f with
    | .wrap => stored 32 ((x 0 : Int) - x 1)
    | .satS => stored 32 (clamp (-2 ^ 31) (2 ^ 31 - 1) (signed 32 (x 0) - signed 32 (x 1)))
    | .satU => x 0 - x 1
    | .b64 => stored 64 ((x 0 : Int) - x 1)) ∧
  (∀ k : Pred, s.Does g fs (.iaddc k a b d) [(1, a), (1, b)] (some (1, d)) fun ls f =>
    let t := (laneFor ls f).n 0 + (laneFor ls f).n 1 + b2n ((s.fibre f).pred k.val)
    { words := [Word.ofNat t], flags := 0, pred := some (k.val, decide (t ≥ 2 ^ 32)) }) ∧
  (∀ k : Pred, s.Does g fs (.isubb k a b d) [(1, a), (1, b)] (some (1, d)) fun ls f =>
    let t : Int := (laneFor ls f).n 0 - (laneFor ls f).n 1 - b2n ((s.fibre f).pred k.val)
    { words := [BitVec.ofInt 32 t], flags := 0, pred := some (k.val, decide (t < 0)) })) ∧
  (∀ (s : State) (g : Nat) (fs : List Nat), s.Canon → s.Issues g fs → ∀ a b d,
  (∀ f : MulForm, s.Maps g fs (.imul f a b d) [(f.srcWords, a), (f.srcWords, b)] f.dstWords d fun x =>
    match f with
    | .lo => x 0 * x 1 % 2 ^ 32
    | .wideS => stored 64 (signed 32 (x 0) * signed 32 (x 1))
    | .wideU => x 0 * x 1
    | .b64 => x 0 * x 1 % 2 ^ 64) ∧
  (∀ f : HighForm, s.Maps g fs (.imulh f a b d) [(1, a), (1, b)] 1 d fun x =>
    match f with
    | .s => stored 32 ((signed 32 (x 0) * signed 32 (x 1)) / 2 ^ 32)
    | .u => x 0 * x 1 / 2 ^ 32
    | .su => stored 32 (signed 32 (x 0) * x 1 / 2 ^ 32)) ∧
  (∀ f : MadForm, s.Maps g fs (.imad f a b d) [(1, a), (1, b), (f.dstWords, d.asSrc)] f.dstWords d fun x =>
    match f with
    | .lo => (x 0 * x 1 + x 2) % 2 ^ 32
    | .wideS => stored 64 (signed 32 (x 0) * signed 32 (x 1) + x 2)
    | .wideU => (x 0 * x 1 + x 2) % 2 ^ 64)) ∧
  (∀ (s : State) (g : Nat) (fs : List Nat), s.Canon → s.Issues g fs → ∀ (f : IForm) a b d,
  (s.Maps g fs (.idiv f a b d) [(f.words, a), (f.words, b)] f.words d fun x =>
    if x 1 = 0 then 2 ^ (32 * f.words) - 1
    else match f with
      | .s32 | .s64 => stored (32 * f.words) ((signed (32 * f.words) (x 0)).tdiv (signed (32 * f.words) (x 1)))
      | .u32 | .u64 => x 0 / x 1) ∧
  s.Maps g fs (.irem f a b d) [(f.words, a), (f.words, b)] f.words d fun x =>
    if x 1 = 0 then x 0
    else match f with
      | .s32 | .s64 => stored (32 * f.words) ((signed (32 * f.words) (x 0)).tmod (signed (32 * f.words) (x 1)))
      | .u32 | .u64 => x 0 % x 1)

/-- Minimum, maximum, absolute value and negation; the last two wrap or saturate (R134). The eight bitwise functions of `lop` (R135). Shifts and rotation by any amount: what leaves the width is lost, amounts of the width or more give 0 or sign bits, rotation is modulo the width (R136). -/
def Obligations.ExtremesBitwiseAndShifts : Prop :=
  (∀ (s : State) (g : Nat) (fs : List Nat), s.Canon → s.Issues g fs → ∀ a b d,
  (∀ f : IForm, s.Maps g fs (.imin f a b d) [(f.words, a), (f.words, b)] f.words d fun x =>
    match f with
    | .s32 | .s64 => stored (32 * f.words) (min (signed (32 * f.words) (x 0)) (signed (32 * f.words) (x 1)))
    | .u32 | .u64 => min (x 0) (x 1)) ∧
  (∀ f : IForm, s.Maps g fs (.imax f a b d) [(f.words, a), (f.words, b)] f.words d fun x =>
    match f with
    | .s32 | .s64 => stored (32 * f.words) (max (signed (32 * f.words) (x 0)) (signed (32 * f.words) (x 1)))
    | .u32 | .u64 => max (x 0) (x 1)) ∧
  (∀ sat : Bool, s.Maps g fs (.iabs sat a d) [(1, a)] 1 d fun x =>
    if sat = true ∧ x 0 = 2 ^ 31 then 2 ^ 31 - 1 else (signed 32 (x 0)).natAbs) ∧
  ∀ sat : Bool, s.Maps g fs (.ineg sat a d) [(1, a)] 1 d fun x =>
    if sat = true ∧ x 0 = 2 ^ 31 then 2 ^ 31 - 1 else (-(BitVec.ofNat 32 (x 0))).toNat) ∧
  (∀ (s : State) (g : Nat) (fs : List Nat), s.Canon → s.Issues g fs → ∀ (op : LogicOp) a b d,
  s.Maps g fs (.lop op a b d) [(1, a), (1, b)] 1 d fun x =>
    let A : Word := BitVec.ofNat 32 (x 0)
    let B : Word := BitVec.ofNat 32 (x 1)
    BitVec.toNat <| match op with
    | .and => A &&& B
    | .or => A ||| B
    | .xor => A ^^^ B
    | .andn => A &&& ~~~B
    | .orn => A ||| ~~~B
    | .xnor => ~~~(A ^^^ B)
    | .nand => ~~~(A &&& B)
    | .nor => ~~~(A ||| B)) ∧
  (∀ (s : State) (g : Nat) (fs : List Nat), s.Canon → s.Issues g fs → ∀ (wide : Bool) a b d,
  let w := wideWords wide
  (s.Maps g fs (.shl wide a b d) [(w, a), (1, b)] w d fun x => (BitVec.ofNat (32 * w) (x 0) <<< x 1).toNat) ∧
  (s.Maps g fs (.shr wide a b d) [(w, a), (1, b)] w d fun x => x 0 / 2 ^ x 1) ∧
  (s.Maps g fs (.sar wide a b d) [(w, a), (1, b)] w d fun x => ((BitVec.ofNat (32 * w) (x 0)).sshiftRight (x 1)).toNat) ∧
  s.Maps g fs (.rot wide a b d) [(w, a), (1, b)] w d fun x => ((BitVec.ofNat (32 * w) (x 0)).rotateLeft (x 1)).toNat)

/-- Bit fields and counts: extraction and insertion at bits [7:0] of B over the length in bits [15:8], population count, zeros before and behind, reversal (R137, R138). `icmp` sets pd by the condition on its operands, extended as the form says (R139). -/
def Obligations.BitFieldsCountsAndCompares : Prop :=
  (∀ (s : State) (g : Nat) (fs : List Nat), s.Canon → s.Issues g fs → ∀ a b d,
  (∀ sgn : Bool, s.Maps g fs (.bfx sgn a b d) [(1, a), (1, b)] 1 d fun x =>
    let pos := x 1 % 256
    let len := min (x 1 / 256 % 256) 32
    if len = 0 then 0
    else if sgn then stored 32 (signed len (stored len (signed 32 (x 0) / 2 ^ pos))) else x 0 / 2 ^ pos % 2 ^ len) ∧
  (s.Maps g fs (.bfi a b d) [(1, a), (1, b), (1, d.asSrc)] 1 d fun x =>
    let pos := x 1 % 256
    let len := min (x 1 / 256 % 256) 32
    let mask : Word := BitVec.ofNat 32 ((2 ^ len - 1) * 2 ^ pos)
    ((BitVec.ofNat 32 (x 2) &&& ~~~mask) ||| (BitVec.ofNat 32 (x 0 * 2 ^ pos) &&& mask)).toNat) ∧
  ∀ wide : Bool,
    (s.Maps g fs (.popc wide a d) [(wideWords wide, a)] 1 d fun x => ((List.range (32 * wideWords wide)).filter (x 0).testBit).length) ∧
    (s.Maps g fs (.clz wide a d) [(wideWords wide, a)] 1 d fun x => 32 * wideWords wide - (if x 0 = 0 then 0 else Nat.log2 (x 0) + 1)) ∧
    (s.Maps g fs (.ctz wide a d) [(wideWords wide, a)] 1 d fun x =>
      ((List.range (32 * wideWords wide)).takeWhile fun i => !(x 0).testBit i).length) ∧
    s.Maps g fs (.brev wide a d) [(wideWords wide, a)] (wideWords wide) d fun x => (BitVec.ofNat (32 * wideWords wide) (x 0)).reverse.toNat) ∧
  (∀ (s : State) (g : Nat) (fs : List Nat), s.Canon → s.Issues g fs → ∀ a b,
  (∀ (c : ICond) (uns wide : Bool) (p : Pred),
    s.Does g fs (.icmp c uns wide a b p) [(wideWords wide, a), (wideWords wide, b)] none fun ls f =>
      let n := 32 * wideWords wide
      let A : Int := if uns then (laneFor ls f).n 0 else signed n ((laneFor ls f).n 0)
      let B : Int := if uns then (laneFor ls f).n 1 else signed n ((laneFor ls f).n 1)
      LaneOut.setp p.val (match c with
        | .eq => A == B | .ne => A != B | .lt => decide (A < B) | .le => decide (A ≤ B) | .gt => decide (A > B) | .ge => decide (A ≥ B))))

/-- Moves, conversions of width, packing and unpacking (R142, R144, R145). -/
def Obligations.MovesAndPacking : Prop := ∀ (s : State) (g : Nat) (fs : List Nat), s.Canon → s.Issues g fs → ∀ a b d,
  (∀ w : MovWidth, s.Maps g fs (.mov w b d) [(w.words, b)] w.words d fun x => x 0) ∧
  (∀ imm : BitVec 18, s.Maps g fs (.movi imm d) [] 1 d fun _ => (imm.signExtend 32).toNat) ∧
  (∀ imm : BitVec 18, s.Maps g fs (.movh imm d) [(1, d.asSrc)] 1 d fun x => imm.toNat * 2 ^ 14 + x 0 % 2 ^ 14) ∧
  (∀ f : NarrowForm, s.Maps g fs (.cvti f a d) [(1, a)] 1 d fun x =>
    match f with
    | .s8 => stored 32 (signed 8 (x 0))
    | .u8 => x 0 % 256
    | .s16 => stored 32 (signed 16 (x 0))
    | .u16 => x 0 % 65536
    | .satS8 => stored 32 (clamp (-128) 127 (signed 32 (x 0)))
    | .satU8 => stored 32 (clamp 0 255 (signed 32 (x 0)))
    | .satS16 => stored 32 (clamp (-32768) 32767 (signed 32 (x 0)))
    | .satU16 => stored 32 (clamp 0 65535 (signed 32 (x 0)))) ∧
  (∀ f : PackForm, s.Maps g fs (.pack f a b d) [(1, a), (1, b)] 1 d fun x =>
    let half (y : Nat) : Nat := match f with
      | .b16 => y % 65536
      | .satS16 => stored 16 (clamp (-32768) 32767 (signed 32 y))
      | .satU16 => stored 16 (clamp 0 65535 (signed 32 y))
    half (x 0) + 2 ^ 16 * half (x 1)) ∧
  ∀ f : UnpackForm, s.Does g fs (.unpk f a d) [(1, a)] (some (f.words, d)) fun ls h =>
    let x : Word := BitVec.ofNat 32 ((laneFor ls h).n 0)
    LaneOut.val (match f with
      | .s16 => [(x.extractLsb' 0 16).signExtend 32, (x.extractLsb' 16 16).signExtend 32]
      | .u16 => [(x.extractLsb' 0 16).zeroExtend 32, (x.extractLsb' 16 16).zeroExtend 32]
      | .s8 => [(x.extractLsb' 0 8).signExtend 32, (x.extractLsb' 8 8).signExtend 32, (x.extractLsb' 16 8).signExtend 32, (x.extractLsb' 24 8).signExtend 32]
      | .u8 => [(x.extractLsb' 0 8).zeroExtend 32, (x.extractLsb' 8 8).zeroExtend 32, (x.extractLsb' 16 8).zeroExtend 32, (x.extractLsb' 24 8).zeroExtend 32])

/-- `plop` writes a function of two predicates, and `pmov` reads the predicate word with bit 0 set (R126, R146). `movs` writes the lowest active lane's value once to the team's uniform registers, and `pmov.w` sets p1 to p15 of every lane from its operand (R125, R143, R146). -/
def Obligations.PredicatesAndUniforms : Prop :=
  (∀ (s : State) (g : Nat) (fs : List Nat), s.Canon → s.Issues g fs →
  (∀ (op : LogicOp) (pa pb pd : Pred), s.Does g fs (.plop op pa pb pd) [] none fun _ f =>
    let A := (s.fibre f).pred pa.val
    let B := (s.fibre f).pred pb.val
    LaneOut.setp pd.val (match op with
      | .and => A && B | .or => A || B | .xor => A ^^ B | .andn => A && !B | .orn => A || !B
      | .xnor => !(A ^^ B) | .nand => !(A && B) | .nor => !(A || B))) ∧
  ∀ d, s.Does g fs (.pmov d) [] (some (1, d)) fun _ f => LaneOut.num 1 ((s.fibre f).preds.toNat ||| 1)) ∧
  (∀ (s : State) (g : Nat) (fs : List Nat), s.Canon → s.Issues g fs →
  (∀ (wide : Bool) b sd s1 ls, s.Operands fs [(wideWords wide, b)] [] s1 ls → ∃ t u, exec (.movs wide b sd) s = .next t ∧
    { s1 with uregs := u }.Gives t fs (s.goes (s.onward g fs s.loopsOf)) none ∧
    ∀ f0, fs.head? = some f0 → ∀ k n, n < 64 → sd + wideWords wide ≤ 64 → NMap.get u (64 * k + n) 0 =
      if k = (s.fibre f0).team ∧ sd ≤ n ∧ n < sd + wideWords wide then Word.ofNat ((laneFor ls f0).n 0 / 2 ^ (32 * (n - sd))) else s.ureg k n) ∧
  ∀ a s1 ls, s.Operands fs [(1, a)] [] s1 ls → ∃ t, exec (.pmovW a) s = .next t ∧
    s1.Gives t fs (fun f => { s.goes (s.onward g fs s.loopsOf) f with preds := BitVec.ofNat 16 ((laneFor ls f).n 0 % 2 ^ 16 / 2 * 2) }) none)

/-- Float arithmetic, element by element, rounded once in the fibre's mode with the flags of every element: sum, difference, product, fused product and sum with d as the addend, minimum, maximum, sign copy, and a comparison that holds for every element (R147 to R151). `neg` inverts b. -/
def Obligations.FloatArithmetic : Prop := ∀ (s : State) (g : Nat) (fs : List Nat), s.Canon → s.Issues g fs → ∀ (f : FloatForm) (neg : Bool) a b d,
  let B (y : Nat) : FVal := if neg then (f.fmt.read y).neg else f.fmt.read y
  let bitsOfB (y : Nat) : Nat := if neg then f.fmt.copySign true y y else y
  (s.Floats g fs (.fadd f neg a b d) f [(f.words, a), (f.words, b)] d fun rm x => f.fmt.add rm (f.fmt.read (x 0)) (B (x 1))) ∧
  (s.Floats g fs (.fsub f neg a b d) f [(f.words, a), (f.words, b)] d fun rm x => f.fmt.add rm (f.fmt.read (x 0)) (B (x 1)).neg) ∧
  (s.Floats g fs (.fmul f neg a b d) f [(f.words, a), (f.words, b)] d fun rm x => f.fmt.mul rm (f.fmt.read (x 0)) (B (x 1))) ∧
  (s.Floats g fs (.ffma f neg a b d) f [(f.words, a), (f.words, b), (f.words, d.asSrc)] d fun rm x =>
    f.fmt.fma rm (f.fmt.read (x 0)) (B (x 1)) (f.fmt.read (x 2))) ∧
  (s.Floats g fs (.fmin f neg a b d) f [(f.words, a), (f.words, b)] d fun _ x => f.fmt.minMax false (x 0) (bitsOfB (x 1))) ∧
  (s.Floats g fs (.fmax f neg a b d) f [(f.words, a), (f.words, b)] d fun _ x => f.fmt.minMax true (x 0) (bitsOfB (x 1))) ∧
  (s.Floats g fs (.fmov f neg a b d) f [(f.words, a), (f.words, b)] d fun _ x => (f.fmt.copySign neg (x 0) (x 1), 0)) ∧
  ∀ (c : FCond) (p : Pred), s.Does g fs (.fcmp f neg c a b p) [(f.words, a), (f.words, b)] none fun ls h =>
    let r (e : Nat) := fcmpOne f.fmt c (element f ((laneFor ls h).n 0) e) (bitsOfB (element f ((laneFor ls h).n 1) e))
    { words := [], flags := if f.count = 1 then (r 0).2 else (r 0).2 ||| (r 1).2,
      pred := some (p.val, if f.count = 1 then (r 0).1 else (r 0).1 && (r 1).1) }

/-- Float conversions, rounding to an integer, class masks and scaling (R75 to R77, R152 to R155). Reciprocal, roots, quotient and the elementary functions, element by element, each rounded in the fibre's mode (R156, R157). -/
def Obligations.FloatConversionsAndFunctions : Prop :=
  (∀ (s : State) (g : Nat) (fs : List Nat), s.Canon → s.Issues g fs → ∀ a b d,
  (∀ (c : FloatConv) (rm : RoundCode), s.Does g fs (.fcvt c rm a d) [(c.srcWords, a)] (some (c.dstWords, d)) fun ls h =>
    LaneOut.flt c.dstWords (convert c (match rm with | .rne => .rne | .rtz => .rtz | .rdn => .rdn | .rup => .rup | .rna => .rna | .dyn => (s.fibre h).rm)
      ((laneFor ls h).n 0))) ∧
  (∀ (f : FloatForm) (rm : RoundCode), s.Floats g fs (.frnd f rm a d) f [(f.words, a)] d fun m x =>
    f.fmt.rnd (match rm with | .rne => .rne | .rtz => .rtz | .rdn => .rdn | .rup => .rup | .rna => .rna | .dyn => m) (x 0)) ∧
  (∀ f : FloatForm, s.Maps g fs (.fclass f a d) [(f.words, a)] 1 d fun x =>
    f.fmt.classMask (element f (x 0) 0) + if f.count = 1 then 0 else f.fmt.classMask (element f (x 0) 1) * 2 ^ 16) ∧
  (∀ f : FloatForm, s.Does g fs (.fscale f a b d) [(f.words, a), (1, b)] (some (f.words, d)) fun ls h =>
    LaneOut.flt f.words (perElement f fun e => f.fmt.scale (s.fibre h).rm (element f ((laneFor ls h).n 0) e) (signed 32 ((laneFor ls h).n 1)))) ∧
  ∀ (c : LnsConv) (rm : RoundCode), s.Does g fs (.lcvt c rm a d) [(1, a)] (some (1, d)) fun ls h =>
    let m : RMode := match rm with | .rne => .rne | .rtz => .rtz | .rdn => .rdn | .rup => .rup | .rna => .rna | .dyn => (s.fibre h).rm
    let x := (laneFor ls h).n 0
    LaneOut.flt 1 (match c with
      | .f32lns => lnsEncode m (fp32.read x)
      | .bf16lns => lnsEncode m (bf16.read (x % 2 ^ 16))
      | .f16lns => lnsEncode m (fp16.read (x % 2 ^ 16))
      | .lnsf32 => lnsDecode fp32 m (x % 64)
      | .lnsbf16 => lnsDecode bf16 m (x % 64)
      | .lnsf16 => lnsDecode fp16 m (x % 64))) ∧
  (∀ (s : State) (g : Nat) (fs : List Nat), s.Canon → s.Issues g fs → ∀ a b d,
  (∀ f : FloatForm,
    (s.Floats g fs (.frcp f a d) f [(f.words, a)] d fun rm x => f.fmt.rcp rm (f.fmt.read (x 0))) ∧
    (s.Floats g fs (.frsq f a d) f [(f.words, a)] d fun rm x => f.fmt.rsqrt rm (f.fmt.read (x 0))) ∧
    (s.Floats g fs (.fsqrt f a d) f [(f.words, a)] d fun rm x => f.fmt.sqrt rm (f.fmt.read (x 0))) ∧
    ∀ neg : Bool, s.Floats g fs (.fdiv f neg a b d) f [(f.words, a), (f.words, b)] d fun rm x =>
      f.fmt.div rm (f.fmt.read (x 0)) (if neg then (f.fmt.read (x 1)).neg else f.fmt.read (x 1))) ∧
  ∀ f : ShortFloat,
    (s.Floats g fs (.fexp2 f a d) f.form [(f.form.words, a)] d fun rm x => f.form.fmt.exp2 rm (x 0)) ∧
    (s.Floats g fs (.flog2 f a d) f.form [(f.form.words, a)] d fun rm x => f.form.fmt.log2 rm (x 0)) ∧
    (s.Floats g fs (.fsin f a d) f.form [(f.form.words, a)] d fun rm x => f.form.fmt.sin rm (x 0)) ∧
    (s.Floats g fs (.fcos f a d) f.form [(f.form.words, a)] d fun rm x => f.form.fmt.cos rm (x 0)) ∧
    s.Floats g fs (.ftanh f a d) f.form [(f.form.words, a)] d fun rm x => f.form.fmt.tanh rm (x 0))

/-- Rounding to a format (R60, R62, R65, R68): a value that the format holds rounds to itself and raises no flag; under RTZ, RDN and RUP a finite result lies on its side of the exact value; and the result of an exact value that is no zero raises NX exactly when it differs from it or is no finite number. -/
def Obligations.RoundingLaws : Prop := ∀ f ∈ [fp16, bf16, fp32, fp64], ∀ (rm : RMode) (neg : Bool) (m : Nat) (e : Int),
  (∀ x < 2 ^ f.width, f.read x = .fin neg m e → f.round rm neg m e = (x, 0)) ∧
  ∀ v, (FVal.fin neg m e).rat = some v → ∀ r fl, f.round rm neg m e = (r, fl) →
    (∀ y, (f.read r).rat = some y →
      (rm = .rtz → |y| ≤ |v|) ∧ (rm = .rdn → y ≤ v) ∧ (rm = .rup → v ≤ y) ∧ (fl % 2 = 1 ↔ y ≠ v)) ∧
    ((f.read r).rat = none → fl % 2 = 1)

/-- Instructions that look across the active lanes (R102, R116, R117): the lowest lane is elected, votes and ballots go over the active lanes only, `match` gives the lanes of equal value, `shfl` reads the lane it names or its own when that one is not active, and `redux` reduces over the active lanes. Quad instructions (R104, R118): a position of a quad that holds no active lane stands for its horizontal, else vertical, else diagonal neighbour; swaps, broadcasts and reductions over the four positions. -/
def Obligations.CrossLaneAndQuadOperations : Prop :=
  (∀ (s : State) (g : Nat) (fs : List Nat), s.Canon → s.Issues g fs → ∀ a b d,
  let held (p : Pred) : List Bool := fs.map fun f => (s.fibre f).pred p.val
  (∀ p : Pred, s.Does g fs (.elect p) [] none fun _ f => LaneOut.setp p.val (fs.head? == some f)) ∧
  (∀ (m : VoteMode) (ps pd : Pred), s.Does g fs (.vote m ps pd) [] none fun _ _ => LaneOut.setp pd.val (match m with
    | .every => (held ps).all id
    | .some => (held ps).any id
    | .same => (held ps).all id || (held ps).all (!·)
    | .odd => (held ps).foldl (· ^^ ·) false)) ∧
  (∀ ps : Pred, s.Does g fs (.ballot ps d) [] (some (1, d)) fun _ _ =>
    LaneOut.num 1 (maskOf ((fs.filter fun f => (s.fibre f).pred ps.val).map laneOf))) ∧
  (∀ wide : Bool, s.Does g fs (.matchAny wide a d) [(wideWords wide, a)] (some (1, d)) fun ls f =>
    LaneOut.num 1 (maskOf ((fs.filter fun h => (laneFor ls h).n 0 == (laneFor ls f).n 0).map laneOf))) ∧
  (∀ m : ShflMode, s.Does g fs (.shfl m a b d) [(1, a), (1, b)] (some (1, d)) fun ls f =>
    let k := (laneFor ls f).n 1
    let src : Int := match m with
      | .pick => k
      | .lower => (laneOf f : Int) - k
      | .upper => laneOf f + k
      | .mirror => (laneOf f ^^^ k : Nat)
      | .ring => ((laneOf f + k) % 32 : Nat)
    LaneOut.num 1 ((laneFor ls ((fs.find? fun h => (laneOf h : Int) == src).getD f)).n 0)) ∧
  ∀ (op : ReduxOp) (wide : Bool), s.Does g fs (.redux op wide a d) [(wideWords wide, a)] (some (wideWords wide, d)) fun ls _ =>
    let n := 32 * wideWords wide
    let xs := fs.map fun f => (laneFor ls f).n 0
    LaneOut.num (wideWords wide) (match op with
      | .add => xs.sum % 2 ^ n
      | .minS => stored n ((xs.map (signed n)).foldl min (2 ^ (n - 1) - 1))
      | .maxS => stored n ((xs.map (signed n)).foldl max (-2 ^ (n - 1)))
      | .minU => xs.foldl min (2 ^ n - 1)
      | .maxU => xs.foldl max 0
      | .and => (xs.map (BitVec.ofNat n)).foldl (· &&& ·) (BitVec.allOnes n) |>.toNat
      | .or => (xs.map (BitVec.ofNat n)).foldl (· ||| ·) 0 |>.toNat
      | .xor => (xs.map (BitVec.ofNat n)).foldl (· ^^^ ·) 0 |>.toNat)) ∧
  (∀ (s : State) (g : Nat) (fs : List Nat), s.Canon → s.Issues g fs → ∀ a d,
  let value (ls : List Lane) (f q : Nat) : Nat :=
    let at_ (j : Nat) : Option Nat := fs.find? fun h => laneOf h == laneOf f / 4 * 4 + j
    ((((at_ q).or (at_ (q ^^^ 1))).or (at_ (q ^^^ 2))).or (at_ (q ^^^ 3))).elim 0 fun h => (laneFor ls h).n 0
  (∀ dir : QuadDir, s.Does g fs (.qswap dir a d) [(1, a)] (some (1, d)) fun ls f =>
    LaneOut.num 1 (value ls f ((laneOf f % 4) ^^^ (match dir with | .h => 1 | .v => 2 | .d => 3)))) ∧
  (∀ k : Fin 4, s.Does g fs (.qbcast k a d) [(1, a)] (some (1, d)) fun ls f => LaneOut.num 1 (value ls f k.val)) ∧
  ∀ op : QuadOp, s.Does g fs (.qred op a d) [(1, a)] (some (1, d)) fun ls f =>
    let x := value ls f
    let rm := (s.fibre f).rm
    let tree (k : Nat → Nat → Nat × Nat) : LaneOut :=
      { words := [Word.ofNat (k (k (x 0) (x 1)).1 (k (x 2) (x 3)).1).1], pred := none,
        flags := (k (x 0) (x 1)).2 ||| (k (x 2) (x 3)).2 ||| (k (k (x 0) (x 1)).1 (k (x 2) (x 3)).1).2 }
    match op with
    | .add => LaneOut.num 1 ((x 0 + x 1 + x 2 + x 3) % 2 ^ 32)
    | .minS => LaneOut.num 1 (stored 32 (min (min (signed 32 (x 0)) (signed 32 (x 1))) (min (signed 32 (x 2)) (signed 32 (x 3)))))
    | .maxS => LaneOut.num 1 (stored 32 (max (max (signed 32 (x 0)) (signed 32 (x 1))) (max (signed 32 (x 2)) (signed 32 (x 3)))))
    | .fadd => tree fun y z => fp32.add rm (fp32.read y) (fp32.read z)
    | .fmin => tree (fp32.minMax false)
    | .fmax => tree (fp32.minMax true))

/-- Branches end the clause: `bra` goes to its label, `brp` to its label where pn holds and past the clause elsewhere, `brx` to the address in its pair (R107); nothing else changes. Calls move the window up by 8w, write the address past the clause into the two registers below it and go to their target; `ret` goes to the address below the window and moves it down (R108). -/
def Obligations.BranchesCallsAndReturns : Prop :=
  (∀ (s : State) (g : Nat) (fs : List Nat), s.Canon → s.Issues g fs →
  (∀ off, ∃ t, exec (.bra off) s = .next t ∧
    s.Gives t fs (s.goes (s.landing fs s.loopsOf fun f => labelOf (s.fibre f).pc off)) none) ∧
  (∀ (p : Pred) off, ∃ t, exec (.brp p off) s = .next t ∧
    s.Gives t fs (s.goes (s.landing fs s.loopsOf fun f =>
      if (s.fibre f).pred p.val then labelOf (s.fibre f).pc off else nextClause (s.fibre f).pc (s.fibre f).hdr)) none) ∧
  ∀ a s1 ls, s.Operands fs [(2, a)] [] s1 ls → (∀ f ∈ fs, (laneFor ls f).n 0 % 4 = 0) → ∃ t, exec (.brx a) s = .next t ∧
    s1.Gives t fs (s.goes (s.landing fs s.loopsOf fun f => (laneFor ls f).n 0)) none) ∧
  (∀ (s : State) (g : Nat) (fs : List Nat), s.Canon → s.Issues g fs → ∀ w : Fin 16, 0 < w.val →
  let up (f : Nat) : Nat := (s.fibre f).base + 8 * w.val
  let link (f : Nat) : Nat := nextClause (s.fibre f).pc (s.fibre f).hdr
  let entered (at_ : Nat → Landing) (f : Nat) : Effect :=
    s.goes (fun f => { at_ f with writes := [(up f - 2, Word.ofNat (link f)), (up f - 1, Word.ofNat (link f / 2 ^ 32))] ++ (at_ f).writes }) f
  let fits : Prop := ∀ f ∈ fs, up f + (s.fibre f).win ≤ 512 ∧ up f - 2 ∉ (s.fibre f).pend ∧ up f - 1 ∉ (s.fibre f).pend
  (fits → ∀ off, ∃ t, exec (.call w off) s = .next t ∧
    (s.withLanes fs fun f x => { x with base := up f }).Gives t fs
      (entered (s.landing fs s.loopsOf fun f => labelOf (s.fibre f).pc off)) none) ∧
  (fits → ∀ a s1 ls, s.Operands fs [(2, a)] [] s1 ls → (∀ f ∈ fs, (laneFor ls f).n 0 % 4 = 0) → ∃ t, exec (.callx w a) s = .next t ∧
    (s1.withLanes fs fun f x => { x with base := up f }).Gives t fs
      (entered (s.landing fs s.loopsOf fun f => (laneFor ls f).n 0)) none) ∧
  let back (f : Nat) : Nat :=
    (s.view f ((s.fibre f).base - 2)).toNat + 2 ^ 32 * (s.view f ((s.fibre f).base - 1)).toNat
  (∀ f ∈ fs, 8 * w.val ≤ (s.fibre f).base ∧ back f % 4 = 0 ∧ (s.fibre f).base - 2 ∉ (s.fibre f).pend ∧
      (s.fibre f).base - 1 ∉ (s.fibre f).pend) → ∃ t, exec (.ret w) s = .next t ∧
    (s.withLanes fs fun f x => { x with base := (s.fibre f).base - 8 * w.val }).Gives t fs (s.goes (s.landing fs s.loopsOf back)) none)

/-- Loops: a count of 0 skips to the label, any other pushes a counted entry and enters the body; an indexed loop enters while its first value has not passed the bound; `brk` pops the top entry where pn holds and goes to its end (R110, R111). The loop check of R109 at an arrival: it goes back to the start of the innermost loop whose end is reached and that has iterations left, writes the induction register of an indexed one, and pops the loops that have none left. -/
def Obligations.LoopsAndBackEdges : Prop :=
  (∀ (s : State) (g : Nat) (fs : List Nat), s.Canon → s.Issues g fs →
  let next (f : Nat) : Nat := nextClause (s.fibre f).pc (s.fibre f).hdr
  let starts (off : BitVec 18) (s1 : State) (entry : Nat → Option LoopEntry) (t : State) : Prop :=
    s1.Gives t fs (s.goes (s.landing fs (fun f => (entry f).toList ++ (s.fibre f).loops)
      fun f => if (entry f).isSome then next f else (s.fibre f).pc + 4 * off.toNat)) none
  let room (off : BitVec 18) (entry : Nat → Option LoopEntry) : Prop :=
    ∀ f ∈ fs, 3 + (s.fibre f).hdr % 16 ≤ off.toNat ∧ ((entry f).isSome → (s.fibre f).loops.length < 4)
  (∀ c off s1 ls, s.Operands fs [(1, c)] [] s1 ls →
    let entry (f : Nat) : Option LoopEntry :=
      if (laneFor ls f).n 0 = 0 then none else some (.count (next f) ((s.fibre f).pc + 4 * off.toNat) ((laneFor ls f).n 0))
    room off entry → ∃ t, exec (.loop c off) s = .next t ∧ starts off s1 entry t) ∧
  (∀ (sgn : Bool) a b n off s1 ls, s.Operands fs [(1, a), (1, b), (1, .v n)] [] s1 ls →
    let ext (x : Nat) : Int := if sgn then signed 32 x else x
    let entry (f : Nat) : Option LoopEntry :=
      let v := ext ((laneFor ls f).n 2)
      let bound := ext ((laneFor ls f).n 0)
      let step := signed 32 ((laneFor ls f).n 1)
      if (step > 0 ∧ v > bound) ∨ (step < 0 ∧ v < bound) then none
      else some (.index (next f) ((s.fibre f).pc + 4 * off.toNat) v bound step ((s.fibre f).base + n))
    room off entry → (∀ f ∈ fs, (laneFor ls f).n 1 ≠ 0) → ∃ t, exec (.loopi sgn a b (.v n) off) s = .next t ∧ starts off s1 entry t) ∧
  ∀ p : Pred, (∀ f ∈ fs, (s.fibre f).pred p.val = true → (s.fibre f).loops ≠ []) → ∃ t, exec (.brk p) s = .next t ∧
    s.Gives t fs (s.goes (s.landing fs (fun f => if (s.fibre f).pred p.val then (s.fibre f).loops.tail else (s.fibre f).loops)
      fun f => if (s.fibre f).pred p.val then
          match (s.fibre f).loops with | .count _ e _ :: _ => e | .index _ e _ _ _ _ :: _ => e | [] => 0
        else next f)) none) ∧
  (∀ (x : Nat) (ls : List LoopEntry),
  (∀ e, ls.head? = some e → loopEndOf e ≠ x → loopCheck x ls = ⟨x, ls, []⟩) ∧
  (∀ st n r, 1 < n → ls = .count st x n :: r → loopCheck x ls = ⟨st, .count st x (n - 1) :: r, []⟩) ∧
  (∀ st r, ls = .count st x 1 :: r → loopCheck x ls = loopCheck x r) ∧
  (∀ st v b k q r, ls = .index st x v b k q :: r →
    if (k > 0 ∧ v + k ≤ b) ∨ (k < 0 ∧ v + k ≥ b) then
      loopCheck x ls = ⟨st, .index st x (v + k) b k q :: r, [(q, stored 32 (v + k))]⟩
    else loopCheck x ls = loopCheck x r) ∧
  loopCheck x [] = ⟨x, [], []⟩)

/-- `wbase` sets the window base to its operand, a multiple of 8 that keeps the window in the file; `yield` sets the ready stamps to the horizon time; `nop` does nothing (R52, R114, R115). `gset` (R243, R245) advances the generation of slot k in every lane; no command of the core is left under the generation it resolves; `gset.run` and `gset.drop` do so whatever the predicate. Registers but for back-edges, and memory, stay. `clk` reads horizon time, the cycles since the core's launch or the low word of horizon time; `perf` reads a counter of the core, and `perf.clr` clears it as it reads; `netcls` sets the fibres' mesh class (R233, R235, R346). -/
def Obligations.WindowsGuardsClocksAndClasses : Prop :=
  (∀ (s : State) (g : Nat) (fs : List Nat), s.Canon → s.Issues g fs →
  (∀ a s1 ls, s.Operands fs [(1, a)] [] s1 ls → (∀ f ∈ fs, (laneFor ls f).n 0 % 8 = 0 ∧ (laneFor ls f).n 0 + (s.fibre f).win ≤ 512) →
    ∃ t, exec (.wbase a) s = .next t ∧
      (s1.withLanes fs fun f x => { x with base := (laneFor ls f).n 0 }).Gives t fs (s.goes (s.onward g fs s.loopsOf)) none) ∧
  (∃ t, exec .yield s = .next t ∧
    (s.withLanes fs fun _ x => { x with stamp := s.horizon, stampAt := s.cycle }).Gives t fs (s.goes (s.onward g fs s.loopsOf)) none) ∧
  ∃ t, exec .nop s = .next t ∧ s.Gives t fs (s.goes (s.onward g fs s.loopsOf)) none) ∧
  (∀ (s : State) (g : Nat) (fs : List Nat), s.Canon → s.Issues g fs → ∀ (k : Fin 8) (p : Pred),
  ∀ i ∈ [Instr.gset k p, .gsetRun k, .gsetDrop k], ∃ t, exec i s = .next t ∧
    (∀ f ∈ fs, (t.fibre f).guards = (s.fibre f).guards.set k.val (((s.fibre f).guards.getD k.val 0 + 1) % 256) ∧
      { fibre := f, slot := k.val, gen := (s.fibre f).guards.getD k.val 0 } ∉ t.openTags (coreOf f)) ∧
    (∀ f ∈ fs, ∀ r, t.reg (hlOf f) r = (lastAt (s.onward g fs s.loopsOf f).writes r).getD (s.reg (hlOf f) r)) ∧
    t.mem = s.mem ∧ t.hmem = s.hmem ∧ t.uregs = s.uregs ∧ t.spad = s.spad) ∧
  (∀ (s : State) (g : Nat) (fs : List Nat), s.Canon → s.Issues g fs →
  (∀ d, (s.Does g fs (.clk .horizon d) [] (some (2, d)) fun _ _ => LaneOut.num 2 s.horizon) ∧
    (s.Does g fs (.clk .cycles d) [] (some (2, d)) fun _ f => LaneOut.num 2 (s.cycle - (s.core (coreOf f)).since)) ∧
    s.Does g fs (.clk .low d) [] (some (1, d)) fun _ _ => LaneOut.num 1 s.horizon) ∧
  (((∃ f ∈ fs, (s.fibre f).mode = .handler) ∨ (s.core (g / 64)).perfctl.toNat % 2 = 1) → ∀ (c : Fin 8) d,
    (s.Does g fs (.perf c d) [] (some (2, d)) fun _ _ => LaneOut.num 2 ((s.core (g / 64)).perfcnt.getD c.val 0)) ∧
    (s.Does g fs (.perfClr c d) [] (some (2, d)) fun _ _ => LaneOut.num 2 ((s.core (g / 64)).perfcnt.getD c.val 0)) ∧
    ∃ t, exec (.perfClr c .vz) s = .next t ∧ (t.core (g / 64)).perfcnt.getD c.val 0 ≤ 1) ∧
  ∀ e ∈ [(true, Instr.netclsLat), (false, .netclsBulk)], ∃ t, exec e.2 s = .next t ∧
    (s.withLanes fs fun _ x => { x with lat := e.1 }).Gives t fs (s.goes (s.onward g fs s.loopsOf)) none)

/-- `fork` (R112): a lane whose team holds a FREE slot on its home lane has pd set and a child in the lowest such slot, with the window base moved up by 8w, the entry address, user mode, no predicates and an empty loop stack; any other lane has pd cleared. Registers but for back-edges, and memory, stay. `exit` (R113) removes its lanes at once where their flags stand at zero and none of their instructions is outstanding; otherwise they wait, and the commit removes a waiting fibre when that is so. Registers and memory keep their values through both; a commit that leaves its team without a fibre completes the team, which is not said here. -/
def Obligations.ForkAndExit : Prop :=
  (∀ (s : State) (g : Nat) (fs : List Nat), s.Canon → s.Issues g fs → ∀ (w : Fin 16) a (p : Pred) s1 ls,
  s.Operands fs [(2, a)] [] s1 ls → (∀ f ∈ fs, (laneFor ls f).n 0 % 4 = 0 ∧ (s.fibre f).base + 8 * w.val + (s.fibre f).win ≤ 512) →
  ∃ t, exec (.fork w a p) s = .next t ∧ t.rest = s1.rest ∧
    (∀ f ∈ fs, (t.fibre f).pred p.val = (decide (p.val = 0) || (s.freeSlot f).isSome) ∧ (t.fibre f).base = (s.fibre f).base) ∧
    (∀ f ∈ fs, ∀ h, s.freeSlot f = some h → h / 8 = f / 8 ∧ NMap.find s.fibres h = none ∧ (NMap.find t.fibres h).isSome ∧
      (t.fibre h).pc = (laneFor ls f).n 0 ∧ (t.fibre h).base = (s.fibre f).base + 8 * w.val ∧ (t.fibre h).win = (s.fibre f).win ∧
      (t.fibre h).team = (s.fibre f).team ∧ (t.fibre h).mode = .user ∧ (t.fibre h).preds = 0 ∧ (t.fibre h).loops = [] ∧
      (t.fibre h).pos = 0 ∧ (t.fibre h).stamp = s.horizon) ∧
    ∀ f ∈ fs, ∀ r, t.reg (hlOf f) r = (lastAt (s.onward g fs s.loopsOf f).writes r).getD (s1.reg (hlOf f) r)) ∧
  (∀ (s : State),
  (∀ g fs, s.Sorted → s.Issues g fs → (∀ f ∈ fs, (s.fibre f).wait ≠ some .exit) →
    ((∀ f ∈ fs, (∀ n ∈ (s.fibre f).flags, n = 0) ∧ (∀ e ∈ s.ops, e.2.fibre ≠ f) ∧ s.coreRuns (coreOf f) = true) →
      ∃ t, exec .exit s = .next t ∧ (∀ f ∈ fs, NMap.find t.fibres f = none) ∧
        ((∀ f ∈ fs, ∃ h, h ∉ fs ∧ ∃ y, NMap.find s.fibres h = some y ∧ y.team = (s.fibre f).team) → t.regs = s.regs ∧ t.mem = s.mem ∧ t.hmem = s.hmem)) ∧
    ((∀ c, let y := s.core c
        y.copy.queue = [] ∧ y.pipeq = [] ∧ y.fabq = [] ∧ y.statq = []) → (∀ q, (s.mxGet q).cmds = [] ∧ (s.mxGet q).offers = []) →
      (∀ f ∈ fs, ∃ e ∈ s.ops, e.2.fibre = f) → ∃ t, exec .exit s = .next t ∧ (∀ f ∈ fs, (t.fibre f).wait = some .exit ∧ (t.fibre f).pc = (s.fibre f).pc) ∧
        (t.group g).stall = some .exit ∧ t.regs = s.regs ∧ t.mem = s.mem ∧ t.hmem = s.hmem)) ∧
  ∀ f x, s.Sorted → NMap.find s.fibres f = some x → x.wait = some .exit → (∀ n ∈ x.flags, n = 0) → (∀ e ∈ s.ops, e.2.fibre ≠ f) →
    s.coreRuns (coreOf f) = true →
    ∃ t, exec (.exitCommit f) s = .next t ∧ NMap.find t.fibres f = none ∧
      ((∃ h, h ≠ f ∧ ∃ y, NMap.find s.fibres h = some y ∧ y.team = x.team) → t.regs = s.regs ∧ t.mem = s.mem ∧ t.hmem = s.hmem))

/-- Taking a trap (R224, R225, R229): on `trap`, `bkpt` and a reserved word, with the handler window of every trapping lane free and a handler window size set, each trapping lane takes its window: it saves program counter, cause, window, predicates and loop stack, and stands at the handler's first clause in handler mode with the handler window, no predicates and an empty loop stack. No other home lane's window, no register and no byte of memory changes. A trap in handler mode is never delivered, nor one in user mode where HCTL sets no window: it resets the context, and no fibre on the context's cores and no plan of the context remains (R223, R224, R368). Delivered traps (R222, R224, R273): a lane that waits for its handler window takes it once it is free, and SUMP_FULL is delivered to the fibre of a post before its next instruction; a leased stage whose ranges are all mapped may launch. -/
def Obligations.Traps : Prop :=
  (∀ (s : State) (g : Nat) (fs : List Nat), s.Canon → s.Issues g fs →
  (∀ f ∈ fs, (s.fibre f).mode = .user ∧ s.hws f ≠ 0 ∧ NMap.find s.hwins (hlOf f) = none) →
  let taken (cls info : Nat) (on : Nat → Prop) (t : State) : Prop :=
    (∀ f ∈ fs, on f →
      (t.fibre f).mode = .handler ∧ (t.fibre f).base = 512 - s.hws f ∧ (t.fibre f).win = s.hws f ∧ (t.fibre f).pc = s.tvec f ∧
      (t.fibre f).pos = 0 ∧ (t.fibre f).preds = 0 ∧ (t.fibre f).loops = [] ∧
      NMap.find t.hwins (hlOf f) = some
        { holder := f, tpc := (s.fibre f).pc,
          tcause := Word.ofNat (info % 2 ^ 16 * 2 ^ 16 + (s.fibre f).pos % 16 * 2 ^ 8 + cls),
          taddr := 0, tbase := Word.ofNat (s.fibre f).base, tpred := (s.fibre f).preds, loops := (s.fibre f).loops,
          win := (s.fibre f).win, npos := (s.fibre f).npos, sump := false } ∧
      (t.fibre f).pend = [] ∧ (t.fibre f).hidden = (s.fibre f).pend) ∧
    (∀ h, (∀ f ∈ fs, on f → h ≠ hlOf f) → NMap.find t.hwins h = NMap.find s.hwins h) ∧
    t.mem = s.mem ∧ t.hmem = s.hmem ∧ t.uregs = s.uregs ∧ t.spad = s.spad
  (∀ w : Word, ∃ t, exec (.illegalInstruction w) s = .next t ∧
    taken clsIllegalInstruction (opOf w.toNat + if isX w.toNat then 128 * fnOf w.toNat else 0) (fun _ => True) t ∧ t.regs = s.regs) ∧
  ∀ (p : Pred) (k : BitVec 7), let on (f : Nat) : Prop := (s.fibre f).pred p.val = true
    ((∃ f ∈ fs, on f) → ∃ t u, exec (.trap p k) s = .next t ∧ taken clsUserTrap k.toNat on t ∧
      exec (.bkpt p k) s = .next u ∧ taken clsBreakpoint k.toNat on u) ∧
    ((∀ f ∈ fs, ¬ on f) → ∃ t u, exec (.trap p k) s = .next t ∧ s.Gives t fs (s.goes (s.onward g fs s.loopsOf)) none ∧
      exec (.bkpt p k) s = .next u ∧ s.Gives u fs (s.goes (s.onward g fs s.loopsOf)) none)) ∧
  (∀ (s : State) (g : Nat) (fs : List Nat) (f : Nat) (w : Word), s.Issues g fs → fs.head? = some f →
  ((s.fibre f).mode = .handler ∨ s.hws f = 0) →
  ∃ t, exec (.illegalInstruction w) s = .next t ∧ (∀ e ∈ t.fibres, coreOf e.1 ∉ s.ctxCores (s.ctxOf f)) ∧ (∀ e ∈ t.plans, e.1 / 16 ≠ s.ctxOf f) ∧
    t.mem = s.mem) ∧
  (∀ (s : State), s.Canon →
  let inHandler (t : State) (f : Nat) (k : TrapInfo) : Prop := (t.fibre f).mode = .handler ∧ (t.fibre f).pc = s.tvec f ∧ (t.fibre f).pos = 0 ∧
    (t.fibre f).base = 512 - s.hws f ∧ (t.fibre f).win = s.hws f ∧ (t.fibre f).preds = 0 ∧ t.regs = s.regs ∧ t.mem = s.mem ∧
    ∃ w, NMap.find t.hwins (hlOf f) = some w ∧ w.holder = f ∧ w.tpc = (s.fibre f).pc ∧ w.tcause = Word.ofNat k.cause ∧ w.taddr = k.addr.getD 0 ∧
      w.tbase = Word.ofNat (s.fibre f).base ∧ w.tpred = (s.fibre f).preds ∧ w.sump = (k.cls == clsSumpFull)
  (∀ f x k, NMap.find s.fibres f = some x → x.wait = some (.handlerWindow k) → s.windowFree f = true → ∃ t, exec (.trapTake f) s = .next t ∧ inHandler t f k) ∧
  (∀ f x a as, NMap.find s.fibres f = some x → x.sump = a :: as → x.mode = .user → x.wait = none → x.pos ≠ arriving → s.hws f ≠ 0 → s.windowFree f = true →
    ∃ t, exec (.sumpFull f) s = .next t ∧ inHandler t f { cls := clsSumpFull, pos := x.pos, kind := 0, info := 0, addr := some a, npos := 0 }) ∧
  ∀ plan i st, s.stage? plan i = some st → (∀ r ∈ st.leases, r.2 ≠ 0 → s.rangeResident (plan / 16) r = true) →
    ∃ t, exec (.leaseRewalk plan i) s = .next t ∧ t.stage? plan i = some { st with pagesReady := true } ∧ t.mem = s.mem ∧ t.regs = s.regs)

/-- Return from a handler (R230): each lane gets back user mode, window, predicates, loop stack and the marks of its pending registers, releases its handler window, and stands where the trap registers say: `eret` at the trapping word, `eret.skip` after the trapping instruction. A lane whose word lies past its clause's end arrives at the boundary, with the loop check there. Memory, the other lanes and every register that no back-edge writes stay. -/
def Obligations.ReturnFromHandler : Prop := ∀ (s : State) (g : Nat) (fs : List Nat), s.Canon → s.Issues g fs →
  (∀ f ∈ fs, (s.fibre f).mode = .handler ∧ ∃ w, NMap.find s.hwins (hlOf f) = some w ∧ w.tpc % 4 = 0) →
  let returned (at_ : HandlerWin → Nat) (t : State) : Prop :=
    (∀ f ∈ fs, ∀ w, NMap.find s.hwins (hlOf f) = some w → let y := t.fibre f
      let stands (pc pos : Nat) (loops : List LoopEntry) : Prop := y.pc = pc ∧ y.pos = pos ∧ y.loops = loops
      y.mode = .user ∧ y.base = w.tbase.toNat ∧ y.win = w.win ∧ y.preds = w.tpred ∧ y.pend = (s.fibre f).hidden ++ (s.fibre f).pend ∧ y.hidden = [] ∧
      NMap.find t.hwins (hlOf f) = none ∧
      (stands w.tpc (at_ w) w.loops ∨ ∃ h, at_ w ≠ 0 ∧ hdrLen h < at_ w ∧
        let past := nextClause w.tpc h
        stands past arriving w.loops ∨ stands (loopCheck past w.loops).pc 0 (loopCheck past w.loops).loops) ∧
      ∀ r, (∀ e ∈ w.loops, e.induction ≠ some (r % 512)) → t.reg (hlOf f) r = s.reg (hlOf f) r) ∧
    (∀ h, h ∉ fs.map hlOf → NMap.find t.hwins h = NMap.find s.hwins h ∧ ∀ r, t.reg h r = s.reg h r) ∧
    t.mem = s.mem ∧ t.hmem = s.hmem ∧ t.uregs = s.uregs ∧ t.spad = s.spad
  (∃ t, exec .eret s = .next t ∧ returned (fun w => w.tcause.toNat / 2 ^ 8 % 16) t) ∧
  ((∀ f ∈ fs, ∀ w, NMap.find s.hwins (hlOf f) = some w → w.tcause.toNat / 2 ^ 8 % 16 ≠ 0) →
    ∃ t, exec .eretSkip s = .next t ∧ returned HandlerWin.npos t)

/-- Privilege (R9, R230 to R232, R235): in user mode every access to a register 0x400 and above, `tlbi`, `eret` in both forms, and `perf` while UEN is 0 raise PRIVILEGE in every active lane and do nothing else; of a write that the elected lane makes for its core, team or context, that lane alone is active. -/
def Obligations.PrivilegedInstructions : Prop := ∀ (s : State) (g : Nat) (fs : List Nat), s.Issues g fs →
  (∀ f ∈ fs, (s.fibre f).mode = .user) →
  let refusedIn (act : List Nat) (i : Instr) : Prop := exec i s = .next (s.raise g act (act.map fun f => (f, Cond.plain clsPrivilege)))
  let refused := refusedIn fs
  let once := refusedIn (fs.take 1)
  (∀ (n : BitVec 11) a d, 0x400 ≤ n.toNat → refused (.csrrd n d) ∧ if csrPerLane n.toNat then refused (.csrwr n a) else once (.csrwr n a)) ∧
  (∀ (k : Fin 7) (h : Bool) a, once (.poolcfgWrite k a) ∧ once (.spallocWrite a) ∧ once (.trootWrite h a) ∧ once (.netctlWrite a) ∧
    once (.fxctlWrite a) ∧ refused (.tlbiVa a)) ∧
  refused .tlbiCtx ∧ refused .eret ∧ refused .eretSkip ∧
  ((s.core (g / 64)).perfctl.toNat % 2 = 0 → ∀ c d, refused (.perf c d) ∧ refused (.perfClr c d))

/-- Reads of special registers (R228, R231): in any mode below 0x400, in handler mode for all, `csrrd` gives each lane the value of the register's row of R228's table. -/
def Obligations.SpecialRegisterReads : Prop := ∀ (s : State) (g : Nat) (fs : List Nat), s.Canon → s.Issues g fs → ∀ (n : BitVec 11) d,
  (n.toNat < 0x400 ∨ ∃ f ∈ fs, (s.fibre f).mode = .handler) →
  let reads (num words : Nat) (v : Nat → Nat) : Prop :=
    n.toNat = num → s.Does g fs (.csrrd n d) [] (some (words, d)) fun _ f => LaneOut.num words (v f)
  let team (f : Nat) : Team := s.team (s.fibre f).team
  let window {α : Type} (k : HandlerWin → α) (z : α) (f : Nat) : α := ((NMap.find s.hwins (hlOf f)).map k).getD z
  let context {α : Type} (k : Ctx → α) (z : α) (f : Nat) : α := ((NMap.find s.ctxs (s.ctxOf f)).map k).getD z
  reads 0x000 1 (fun f => (s.fibre f).fpctl.toNat) ∧ reads 0x001 1 laneOf ∧ reads 0x002 1 (fun f => laneOf f / 4) ∧
  reads 0x003 1 (fun f => (s.fibre f).fibreId) ∧ reads 0x004 1 (fun f => (team f).index) ∧
  reads 0x005 1 (fun f => stageId (team f).plan (team f).stage) ∧ reads 0x006 1 (fun f => s.vcore (coreOf f)) ∧
  reads 0x007 1 (fun f => s.spBase (s.fibre f).team) ∧ reads 0x008 1 (fun f => s.spSize (s.fibre f).team) ∧
  reads 0x010 2 (fun _ => s.horizon) ∧ reads 0x020 1 (fun f => s.acSize (s.fibre f).team) ∧ reads 0x021 1 (fun f => s.partOf (s.ctxOf f)) ∧
  reads 0x400 2 (context (fun c => c.tvec.toNat) 0) ∧ reads 0x401 1 (context (fun c => c.hctl.toNat) 0) ∧
  reads 0x402 2 (window HandlerWin.tpc 0) ∧ reads 0x403 1 (window (fun w => w.tcause.toNat) 0) ∧ reads 0x404 2 (window HandlerWin.taddr 0) ∧
  reads 0x405 1 (window (fun w => w.tbase.toNat) 0) ∧ reads 0x406 1 (window (fun w => w.tpred.toNat - w.tpred.toNat % 2) 0) ∧
  reads 0x408 2 (context (fun c => c.troot0.toNat) 0) ∧ reads 0x409 2 (context (fun c => c.troot1.toNat) 0) ∧
  reads 0x40A 1 (fun f => (team f).spalloc.toNat) ∧ reads 0x428 1 (fun f => (team f).acalloc.toNat) ∧
  (∀ k < 8, reads (0x410 + k) 1 fun f => wordAt (s.core (coreOf f)).perfsel k) ∧ reads 0x418 1 (fun f => (s.core (coreOf f)).perfctl.toNat) ∧
  (∀ k < 7, reads (0x420 + k) 1 fun f => wordAt (s.core (coreOf f)).poolcfg k) ∧ reads 0x427 1 (fun f => ((s.core (coreOf f)).poolFree % 4096).toNat) ∧
  reads 0x430 1 (fun f => (s.core (coreOf f)).netctl.toNat % 2 ^ 31 + if (s.core (coreOf f)).starved = [] then 0 else 2 ^ 31) ∧
  reads 0x431 1 (fun f => (s.core (coreOf f)).fxctl.toNat) ∧
  (∀ k < 6, reads (0x440 + k) 1 fun f => s.meterRead (s.partOf (s.ctxOf f)) k) ∧ reads 0x446 1 (fun f => s.holdMask (s.partOf (s.ctxOf f)))

/-- Writes of special registers (R8, R66, R228, R231): a value that no row refuses is taken with its reserved bits as zero and reads back so; FPCTL takes the rounding mode and clears the flags written as 1, in each lane; the registers of the core, the team and the context take the elected lane's value. The rows of the table that write one register with a behaviour of its own do what `csrwr` of that register does. General registers but for back-edges, team-uniform registers, scratchpads and memory stay. -/
def Obligations.SpecialRegisterWrites : Prop := ∀ (s : State) (g : Nat) (fs : List Nat), s.Canon → s.Issues g fs → ∀ (n : BitVec 11) a s1 ls,
  let act := if csrPerLane n.toNat then fs else fs.take 1
  csrWritable n.toNat = true → (n.toNat < 0x400 ∨ ∃ f ∈ fs, (s.fibre f).mode = .handler) → s.Operands act [(csrWords n.toNat, a)] [] s1 ls →
  (∀ f ∈ act, s.csrBad n.toNat (coreOf f) ((laneFor ls f).n 0) = false) →
  let names (i : Instr) : Prop := i = .csrwr n a ∨ i = .registerWrite (.csr n.toNat a) ∨ n.toNat = 0 ∧ i = .fpctlWrite a ∨
    (∃ k : Fin 7, n.toNat = 0x420 + k.val ∧ i = .poolcfgWrite k a) ∨ n.toNat = 0x40A ∧ i = .spallocWrite a ∨ n.toNat = 0x408 ∧ i = .trootWrite false a ∨
    n.toNat = 0x409 ∧ i = .trootWrite true a ∨ n.toNat = 0x430 ∧ i = .netctlWrite a ∨ n.toNat = 0x431 ∧ i = .fxctlWrite a
  (∀ i, names i → ∃ t, exec i s = .next t ∧ t.mem = s.mem ∧ t.hmem = s.hmem ∧ t.uregs = s.uregs ∧ t.spad = s.spad ∧
    (∀ f ∈ fs, ∀ r, t.reg (hlOf f) r = (lastAt (s.onward g fs s.loopsOf f).writes r).getD (s.reg (hlOf f) r)) ∧
    (n.toNat = 0 → ∀ f ∈ fs, (t.fibre f).fpctl.toNat =
      (laneFor ls f).n 0 / 2 ^ 8 % 8 * 2 ^ 8 + ((List.range 6).map fun i =>
        if (s.fibre f).fpctl.toNat.testBit i && !((laneFor ls f).n 0).testBit i then 2 ^ i else 0).sum) ∧
    (n.toNat ≠ 0 → ∀ f ∈ act, (NMap.find s.hwins (hlOf f)).isSome → (NMap.find s.ctxs (s.ctxOf f)).isSome → (NMap.find s.teams (s.fibre f).team).isSome →
      (s.core (coreOf f)).perfsel.length = 8 → (s.core (coreOf f)).poolcfg.length = 7 → (s.core (coreOf f)).starved = [] →
      t.csrRead n.toNat f = (laneFor ls f).n 0 &&& csrMask n.toNat)) ∧
  (n.toNat = 0 → exec (.fpctlWrite a) s = exec (.csrwr n a) s) ∧ (∀ k : Fin 7, n.toNat = 0x420 + k.val → exec (.poolcfgWrite k a) s = exec (.csrwr n a) s) ∧
  (n.toNat = 0x40A → exec (.spallocWrite a) s = exec (.csrwr n a) s) ∧ (n.toNat = 0x408 → exec (.trootWrite false a) s = exec (.csrwr n a) s) ∧
  (n.toNat = 0x409 → exec (.trootWrite true a) s = exec (.csrwr n a) s) ∧ (n.toNat = 0x430 → exec (.netctlWrite a) s = exec (.csrwr n a) s) ∧
  (n.toNat = 0x431 → exec (.fxctlWrite a) s = exec (.csrwr n a) s) ∧ exec (.registerWrite (.csr n.toNat a)) s = exec (.csrwr n a) s

/-- Scratchpad loads, stores and atomics (R161 to R167, R182, R183): inside the allotment and aligned, with no earlier access of the fibres to this scratchpad through the window under way (R194), `lds` has its bytes at issue, or meets the uncorrectable error among them (R179); `sts` and `atoms` write in lane order at once, or after their release work; the lanes go on. Out of bounds in every lane raises SCRATCH_BOUNDS. -/
def Obligations.ScratchpadAccess : Prop := ∀ (s : State) (g : Nat) (fs : List Nat), s.Canon → s.Issues g fs → ∀ a b s1 ls,
  let place (o : Int) (f : Nat) : Int := spadOff ((laneFor ls f).n 0) ((laneFor ls f).n 1) o
  let fits (o : Int) (width : Nat) : Prop := s.spadFree (g / 64) fs = true ∧
    ∀ f ∈ fs, 0 ≤ place o f ∧ place o f + width ≤ s.spSize (s.fibre f).team ∧ place o f % width = 0
  let byte0 (o : Int) (f : Nat) : Nat := s.spBase (s.fibre f).team + (place o f).toNat
  (∀ z o d, s.Operands fs [(1, a), (1, b)] [(z.words, d)] s1 ls → 
    (fits (offsOf o) z.bytes → s.Ready s1 g fs false [] → ∃ t, exec (.lds z o a b d) s = .next t ∧ s.Passes t g fs ∧ t.spad = s.spad ∧
      s.Opens t fs fun _ f x => x.left = 0 ∧ (x.dst, x.marks) = s.dstOf f z.words d ∧
        if s.spadBad (g / 64) (byte0 (offsOf o) f) z.bytes then x.value = none ∧ x.poisoned.isSome = true
        else x.value = some (Word.split z.words (s.spadNum (g / 64) (byte0 (offsOf o) f) z.bytes)) ∧ x.poisoned = none) ∧
    ((∀ f ∈ fs, place (offsOf o) f < 0 ∨ (s.spSize (s.fibre f).team : Int) < place (offsOf o) f + z.bytes) →
      exec (.lds z o a b d) s = .next (s.raise g fs (fs.map fun f => (f, Cond.offset clsScratchBounds .read))))) ∧
  (∀ z o v, s.Operands fs [(1, a), (1, b), (z.words, v)] [] s1 ls → fits (offsOf o) z.bytes → s.Ready s1 g fs true [] →
    ∃ t, exec (.sts z o a b v) s = .next t ∧ s.Passes t g fs ∧
      (s.Opens t fs fun _ _ x => x.dst = .none ∧ x.isStore = true ∧ x.left = if (ordOf o).releases then 1 else 0) ∧
      t.spad = if (ordOf o).releases then s.spad
        else (fs.foldl (fun (u : State) f => u.spadWrite (g / 64) (byte0 (offsOf o) f) (Byte.split z.bytes ((laneFor ls f).n 2))) s).spad) ∧
  ∀ wide o d, s.Operands fs [(1, a), (1, b), (atomWords wide o, d.asSrc)] [(atomWords wide o, d)] s1 ls →
    fits o.offs.toInt (atomBytes wide) → s.Ready s1 g fs true [] →
    let item (f : Nat) : AtomicItem := atomicItem 0 (byte0 o.offs.toInt f) wide o ((laneFor ls f).n 2)
    let run := fs.foldl (fun (p : State × List Nat) f => let q := p.1.spadAtomic (g / 64) 0 (item f); (q.2, p.2 ++ [q.1])) (s, [])
    ∃ t, exec (.atoms wide o a b d) s = .next t ∧ s.Passes t g fs ∧
      (s.Opens t fs fun _ f x => (x.dst, x.marks) = s.dstOf f (wideWords wide) d ∧ x.left = if o.ord.releases then 1 else 0) ∧
      (o.ord.releases = true → t.spad = s.spad) ∧
      (o.ord.releases = false → (∀ f ∈ fs, s.spadBad (g / 64) (byte0 o.offs.toInt f) (atomBytes wide) = false) → t.spad = run.1.spad ∧
        s.Opens t fs fun i _ x => x.value = some (valueWords wide (run.2.getD i 0)))

/-- `waitaddr` (R189): when every lane's word differs from the expected value, each lane is given the word it read; otherwise the lanes that match sleep on their word, the others keep what they read, and a wake has the group issue again. -/
def Obligations.WaitOnScratchpad : Prop := (∀ (s : State) f k p v, s.Sorted → s.groupOf f = some k →
    ((s.fibre f).wait = some (.waitaddr p) ∨ (s.fibre f).wait = some (.woken v)) → ∃ t, exec (.waitaddrWake f) s = .next t ∧
      (t.group k).stall = none ∧ t.fibres = s.fibres ∧ t.regs = s.regs ∧ t.mem = s.mem ∧ t.spad = s.spad) ∧
  ∀ (s : State) (g : Nat) (fs : List Nat), s.Canon → s.Issues g fs → ∀ wide o a b d s1 ls,
  let w := wideWords wide
  let place (f : Nat) : Int := spadOff ((laneFor ls f).n 0) ((laneFor ls f).n 1) (offsOf o)
  let byte0 (f : Nat) : Nat := s.spBase (s.fibre f).team + (place f).toNat
  let word (f : Nat) : Nat := s.spadNum (g / 64) (byte0 f) (4 * w)
  s.Operands fs [(1, a), (1, b), (w, d.asSrc)] [(w, d)] s1 ls → s.allReady fs false = true → s.spadFree (g / 64) fs = true →
  (∀ f ∈ fs, 0 ≤ place f ∧ place f + (4 * w : Nat) ≤ s.spSize (s.fibre f).team ∧ place f % (4 * w : Nat) = 0 ∧ (s.fibre f).wait = none ∧
    s.spadBad (g / 64) (byte0 f) (4 * w) = false) →
  ((∀ f ∈ fs, word f ≠ (laneFor ls f).n 2) → s1.Room g fs (some d) w →
    ∃ t, exec (.waitaddr wide o a b d) s = .next t ∧ s.Completes s1 t g fs (some d) fun f => LaneOut.num w (word f)) ∧
  ((∃ f ∈ fs, word f = (laneFor ls f).n 2) → ∃ t, exec (.waitaddr wide o a b d) s = .next t ∧ s.Quiet t fs ∧ t.regs = s.regs ∧
    t.spad = s.spad ∧ (t.group g).stall = some (.waitaddr 0) ∧
    ∀ f ∈ fs, (t.fibre f).wait = some (if word f = (laneFor ls f).n 2 then .waitaddr (byte0 f) else .woken (word f)))

/-- Loads (R170, R176, R180, R195): a load whose accesses translate opens an operation in every lane and goes on: the L1 gives its bytes where it holds them, otherwise a fill of the line, or a read of the scratchpad window, is under way, one of the core's own scratchpad perhaps answered; bytes with an uncorrectable error give no value (R179). `ldc` reads at the elected lane's address for all. A misaligned address in every lane raises MISALIGNED. -/
def Obligations.MemoryLoads : Prop := ∀ (s : State) (g : Nat) (fs : List Nat), s.Canon → s.Issues g fs → ∀ z o a b d s1 ls,
  let route (f : Nat) : Route := s.route f (addrOf ((laneFor ls f).n 0) ((laneFor ls f).n 1) (offsOf o)) z.bytes .read
  let far := (ordOf o).acquires && (scopeOf o).wide
  let given (bad : Bool) (x : Op) (v : List Word) : Prop := x.left = 0 ∧ if bad then x.value = none ∧ x.poisoned.isSome = true else x.value = some v
  let asked (x : Op) : Prop := x.left = 1 ∧ x.value = none
  let served (t : State) (op : Nat) (x : Op) : Route → Prop
    | .home line _ off _ =>
      if far = false ∧ (s.core (g / 64)).hits s.horizon line off z.bytes = true then
        given ((s.core (g / 64)).badIn line off z.bytes) x (readWords ((s.core (g / 64)).l1Map line off z.bytes) off z.bytes)
      else asked x ∧ ∃ h, t.Requests op line h (·.reads = true)
    | .win v off => (asked x ∧ t.Requests op (winLine v off) v (· = .winRead (off % 64) z.bytes)) ∨
      (s.remap? (s.ctxOfCore (g / 64)) v = some (g / 64) ∧
        given (s.spadBad (g / 64) off z.bytes) x (Word.split z.words (s.spadNum (g / 64) off z.bytes)))
    | _ => False
  let free (f : Nat) : Prop := (route f).reaches = true ∧ s.readWaits (g / 64) f far z.bytes (route f) = false
  let opened (t : State) (at_ : Nat → Route) : Prop := s.Passes t g fs ∧ t.spad = s.spad ∧ s.Opens t fs fun i f x =>
    (x.dst, x.marks) = s.dstOf f z.words d ∧ x.isLoad = true ∧ x.acquire = (ordOf o).acquires ∧ served t (s.nextId + i) x (at_ f)
  (s.Operands fs [(2, a), (1, b)] [(z.words, d)] s1 ls → (∀ f ∈ fs, free f) → s.Ready s1 g fs false [(instLdret (g / 16 % 4), entriesFor fs z.bytes)] →
    ∃ t, exec (.ld z o a b d) s = .next t ∧ opened t route) ∧
  (∀ f0, fs.head? = some f0 → s.Operands [f0] [(2, a), (1, b)] [(z.words, d)] s1 ls → free f0 → s.Ready s1 g fs false [(instLdret (g / 16 % 4), 1)] →
    ∃ t, exec (.ldc z o a b d) s = .next t ∧ opened t fun _ => route f0) ∧
  (s.Operands fs [(2, a), (1, b)] [(z.words, d)] s1 ls → (∀ f ∈ fs, route f = .trap (Cond.offset clsMisaligned .read)) →
    exec (.ld z o a b d) s = .next (s.raise g fs (fs.map fun f => (f, Cond.offset clsMisaligned .read))))

/-- Stores and atomics (R171, R176, R181, R183, R184): each opens an operation in every lane, the lanes go on, and no byte of memory changes at issue. In one lane without a release, a store at team scope makes its bytes dirty in the L1, one at a wider scope sends them to the line's home, and so does an atomic of a wider scope and every `red`; an atomic at team scope gives the old value of the L1's bytes and leaves the new one there, or fills the line first. -/
def Obligations.MemoryStores : Prop := ∀ (s : State) (g : Nat) (fs : List Nat), s.Canon → s.Issues g fs → ∀ a b s1 ls,
  let addr (o : Int) (f : Nat) : Nat := addrOf ((laneFor ls f).n 0) ((laneFor ls f).n 1) o
  (∀ z o v, s.Operands fs [(2, a), (1, b), (z.words, v)] [] s1 ls →
    (∀ f ∈ fs, (s.route f (addr (offsOf o) f) z.bytes .write).reaches = true) → (s.core (g / 64)).wcb.length + fs.length ≤ wcCapacity →
    s.Ready s1 g fs true [(instStore (g / 16 % 4), entriesFor fs z.bytes)] →
    ∃ t, exec (.st z o a b v) s = .next t ∧ s.Quiet t fs ∧
      (s.Opens t fs fun _ _ x => x.dst = .none ∧ x.isStore = true ∧ x.rel.isSome = (ordOf o).releases) ∧ s.MovesOn t g fs ∧
      ((∀ f ∈ fs, ∀ v off, s.route f (addr (offsOf o) f) z.bytes .write ≠ .win v off) → t.spad = s.spad) ∧
      ∀ f line home off e, fs = [f] → (ordOf o).releases = false → s.route f (addr (offsOf o) f) z.bytes .write = .home line home off e →
        s.txWindow (s.partOf (s.ctxOf f)) (addr (offsOf o) f) = none → off % z.bytes = 0 →
        let byte (i : Nat) : Byte := (Byte.split z.bytes ((laneFor ls f).n 2)).getD i 0
        if (scopeOf o).wide then t.Requests s.nextId line home fun k => ∃ m, k = .write m ∧ ∀ i < z.bytes, NMap.find m (off + i) = some (byte i)
        else ∀ i < z.bytes, ∃ k x, (t.core (g / 64)).byte? line (off + i) = some (k, x) ∧ x.val = byte i ∧ x.dirty = true) ∧
  ∀ wide o v, (∀ f ∈ fs, (s.route f (addr o.offs.toInt f) (atomBytes wide) .atomic).reaches = true) →
    let n := entriesFor fs (atomBytes wide)
    let item (off f : Nat) : AtomicItem := atomicItem s.nextId off wide o ((laneFor ls f).n 2)
    let still (t : State) : Prop := (∀ f ∈ fs, ∀ v off, s.route f (addr o.offs.toInt f) (atomBytes wide) .atomic ≠ .win v off) → t.spad = s.spad
    let sent (t : State) (f : Nat) : Prop := ∀ line home off e, s.route f (addr o.offs.toInt f) (atomBytes wide) .atomic = .home line home off e →
      t.Requests s.nextId line home (· = .atomic [item off f])
    (s.Operands fs [(2, a), (1, b), (atomWords wide o, v)] [] s1 ls → s.Ready s1 g fs true [(instStore (g / 16 % 4), n)] →
      ∃ t, exec (.red wide o a b v) s = .next t ∧ s.Passes t g fs ∧ still t ∧
        (s.Opens t fs fun _ _ x => x.dst = .none ∧ x.rel.isSome = o.ord.releases) ∧ ∀ f, fs = [f] → o.ord.releases = false → sent t f) ∧
    ∀ d : Dst, s.Operands fs [(2, a), (1, b), (atomWords wide o, d.asSrc)] [(atomWords wide o, d)] s1 ls →
      s.Ready s1 g fs true [(instStore (g / 16 % 4), n), (instLdret (g / 16 % 4), n)] →
      ∃ t, exec (.atom wide o a b d) s = .next t ∧ s.Passes t g fs ∧ still t ∧
        (s.Opens t fs fun _ f x => (x.dst, x.marks) = s.dstOf f (wideWords wide) d ∧ x.rel.isSome = o.ord.releases) ∧
        ∀ f, fs = [f] → o.ord.releases = false → if o.scope.wide then sent t f
          else ∀ line home off e, s.route f (addr o.offs.toInt f) (atomBytes wide) .atomic = .home line home off e → off % atomBytes wide = 0 →
            let old := mapNum ((s.core (g / 64)).l1Map line off (atomBytes wide)) off (atomBytes wide)
            if s.atomicHits (g / 64) line (item off f) = false then t.Requests s.nextId line home (·.reads = true)
            else (s.core (g / 64)).badIn line off (atomBytes wide) = false →
              mapNum ((t.core (g / 64)).l1Map line off (atomBytes wide)) off (atomBytes wide) =
                (if (item off f).idle old then old else (item off f).apply old % 2 ^ (8 * atomBytes wide)) ∧
              ∃ x, NMap.find t.ops s.nextId = some x ∧ x.value = some (valueWords wide old)

/-- `fence` starts its work in every lane (R185, R186). Where every earlier memory instruction of the lanes has completed and, at a scope wider than team, no dirty byte and no write is on its way and the time it waits for has come, it completes at once: the lanes go on, and a wide one starts CT and OT over. Otherwise it holds its group; when the instructions it waits for have completed, the write-backs are acknowledged and its time has come, `fenceDone` ends it, and the group goes on with its last lane. `cflush` and `cflush.all` start the write-back of every dirty byte of the block at each lane's address, or of every block, and wait for it; `pref` and `pref.blk` fill the unit, or the eight units, that the L1 does not hold under a lease; all go on, and none faults on an address that does not translate (R187, R188). -/
def Obligations.FencesFlushesAndPrefetches : Prop :=
  ((∀ (s : State) (g : Nat) (fs : List Nat) (x : Scope), s.Canon → s.Issues g fs → (∀ f ∈ fs, (s.fibre f).wait = none) →
    let wide := decide (x ≠ .team)
    ((∀ f ∈ fs, s.memOps f = []) →
      (wide = true → ∀ f ∈ fs, s.fenceTime (coreOf f) f ≤ s.horizon ∧ (∀ b ∈ (s.core (coreOf f)).l1, b.isDirty = false) ∧
        ∀ e ∈ s.reqs, e.2.core = coreOf f → e.2.isWrite = false) →
      ∃ t, exec (.fence x) s = .next t ∧ s.Passes t g fs ∧ t.spad = s.spad ∧ ∀ f ∈ fs, (t.fibre f).wait = none ∧ (t.fibre f).fence = none ∧
        (wide = true → (t.fibre f).ct = 0 ∧ (t.fibre f).ot = 0)) ∧
    ((∃ f ∈ fs, s.memOps f ≠ []) → ∃ t, exec (.fence x) s = .next t ∧ s.Quiet t fs ∧ t.regs = s.regs ∧ (t.group g).stall = some .fence ∧
      ∀ f ∈ fs, (t.fibre f).wait = some .fence ∧ (t.fibre f).pc = (s.fibre f).pc ∧ (t.fibre f).pos = (s.fibre f).pos ∧
        (s.memOps f ≠ [] → (t.fibre f).fence = some { waits := s.memOps f, wide := wide, flush := none }))) ∧
  ∀ (s : State) (g f : Nat) (x : Fibre) (r : Rel), s.Canon → NMap.find s.fibres f = some x → x.fence = some r → x.wait = some .fence → s.groupOf f = some g →
    (∀ o ∈ r.waits, NMap.find s.ops o = none) →
    (r.wide = true → s.fenceTime (coreOf f) f ≤ s.horizon ∧ s.writesOpen (coreOf f) f = false ∧ ∃ q, r.flush = some q ∧ ∀ k ∈ q, NMap.find s.reqs k = none) →
    (∀ h ∈ (s.group g).members, h ≠ f → (s.fibre h).wait = some .fence ∧ (s.fibre h).fence = none) → 
    ∃ t, exec (.fenceDone f) s = .next t ∧ t.mem = s.mem ∧ t.hmem = s.hmem ∧ t.spad = s.spad ∧
      (∀ h ∈ (s.group g).members, (t.fibre h).wait = none ∧ (t.fibre h).fence = none) ∧ (r.wide = true → (t.fibre f).ct = 0 ∧ (t.fibre f).ot = 0)) ∧
  (∀ (s : State) (g : Nat) (fs : List Nat), s.Canon → s.Issues g fs → (∀ f ∈ fs, coreOf f = g / 64) → s.CarriersKnown → ∀ o,
  let rs := [(instStore (g / 16 % 4), 1)]
  let whole (b : L1Block) : Prop := (s.core (g / 64)).block? b.first = some b
  (s.Ready s g fs true rs → ∃ t, exec (.cflushAll o) s = .next t ∧ s.Passes t g fs ∧ (s.Opens t fs fun _ _ x => x.dst = .none ∧ x.isMem = true) ∧
    ∀ e ∈ indexed fs, ∀ b ∈ (s.core (g / 64)).l1, whole b → t.Flushed (g / 64) (s.nextId + e.1) b) ∧
  ∀ a b s1 ls, s.Operands fs [(2, a), (1, b)] [] s1 ls →
    let addr (f : Nat) : Nat := addrOf ((laneFor ls f).n 0) ((laneFor ls f).n 1) (offsOf o)
    ((∀ f ∈ fs, addr f % 4 = 0) → s.Ready s1 g fs true rs → ∃ t, exec (.cflush o a b) s = .next t ∧ s.Passes t g fs ∧
      (s.Opens t fs fun _ _ x => x.dst = .none ∧ x.isMem = true) ∧
      ∀ e ∈ indexed fs, ∀ k, s.blockAtAddr e.2 (addr e.2) = some k → whole k → t.Flushed (g / 64) (s.nextId + e.1) k) ∧
    (s.Ready s1 g fs false rs → 
      let fills (blk : Bool) (t : State) : Prop := s.Passes t g fs ∧ (s.Opens t fs fun _ _ x => x.dst = .none ∧ x.prefetch = true) ∧
        ∀ e ∈ indexed fs, ∀ l p, s.prefHit e.2 (addr e.2) blk = some (l, p) →
          let u := unitOf (lineKey l) (l.pa % 64)
          ∀ v ∈ if blk then unitsFrom (runFirst u 3) 8 else [u],
            (∃ k, (s.core (g / 64)).block? v = some k ∧ s.horizon < NMap.get k.lease v 0) ∨
              t.Requests (s.nextId + e.1) (lineOfUnit v) p.home (·.reads = true)
      ∃ t u, exec (.pref o a b) s = .next t ∧ fills false t ∧ exec (.prefBlk o a b) s = .next u ∧ fills true u))

/-- `tlbi` in handler mode (R232) drops the context's cached translations that it names from every core and lane. Where no access of the context is outstanding it completes at once and the lanes go on; otherwise it may hold its group, and when every access and request it waits for has been performed the group goes on. -/
def Obligations.TranslationsDropped : Prop := (∀ (s : State) (g : Nat) (fs : List Nat) (f0 : Nat), s.Canon → s.Issues g fs → fs.head? = some f0 → (∀ f ∈ fs, (s.fibre f).mode = .handler ∧ (s.fibre f).wait = none) →
    let c := s.ctxOf f0
    let idle : Prop := (∀ e ∈ s.ops, s.ctxOf e.2.fibre = c → e.2.isMem = true → e.2.left = 0) ∧ (∀ e ∈ s.reqs, e.2.ctx = c → e.2.unperformed = false) ∧
      ∀ x, s.ctx? c = some x → x.dropOp = []
    let dropped (p : PageEntry → Prop) (t : State) : Prop := s.Quiet t fs ∧ (∀ e ∈ t.lprs, ¬ (e.2.ctx = c ∧ p e.2)) ∧
      (∀ k ∈ t.cores, ∀ e ∈ k.2.tlb, ¬ (e.ctx = c ∧ p e)) ∧ (idle → s.MovesOn t g fs ∧ ∀ f ∈ fs, (t.fibre f).wait = none) ∧
      (s.MovesOn t g fs ∨ (t.regs = s.regs ∧ (t.group g).stall = some (.tlbi c) ∧ ∀ f ∈ fs, (t.fibre f).wait = some (.tlbi c)))
    (∃ t, exec .tlbiCtx s = .next t ∧ dropped (fun _ => True) t) ∧
    ∀ a s1 ls, s.Operands fs [(2, a)] [] s1 ls → ∃ t, exec (.tlbiVa a) s = .next t ∧
      dropped (fun e => ∃ f ∈ fs, e.va ≤ (laneFor ls f).n 0 ∧ (laneFor ls f).n 0 < e.va + e.size) t) ∧
  ∀ (s : State) (c : Nat) (x : Ctx), s.Canon → s.ctx? c = some x →
    (∀ o ∈ x.dropOp, (∀ y, NMap.find s.ops o = some y → y.left = 0) ∧ ∀ y, NMap.find s.reqs o = some y → y.unperformed = false) →
    ∃ t, exec (.translationDropDone c) s = .next t ∧ (∀ e ∈ t.groups, e.2.stall ≠ some (.tlbi c)) ∧ t.ctx? c = some { x with dropping := false, dropOp := [] } ∧
      t.mem = s.mem ∧ t.lprs = s.lprs

/-- `bar` and `bar.arr` (R331 to R337): a lane owes the fence work of its level first, then its arrival is recorded; `bar.arr` is over when every lane has arrived, `bar` when the phase has flipped too. A die or package barrier outside a RESIDENT stage raises ILLEGAL_OPERAND. Messages (R103, R333, R334): one that has reached its cluster counts its team there, a cluster's teams at the point of their die, or a die at the package point; a release that has come to a die goes on to its clusters, and frees the teams of the cluster it reaches. An instance that everything has reached flips its phase, counts from zero again and sends its release downward. -/
def Obligations.Barriers : Prop :=
  (∀ (s : State) (g : Nat) (fs : List Nat), s.Canon → s.Issues g fs → ∀ (l : BarLevel) (i : Nat),
  ((∀ f ∈ fs, (s.fibre f).wait = none ∧ (s.fibre f).barEntry l i = none ∧ (s.barNow f l i).2 = false) →
    (l = .team ∨ ∃ f, fs.head? = some f ∧ s.teamResident (s.fibre f).team = true) →
    ∀ k ∈ [Instr.bar l i, .barArr l i], ∃ t, exec k s = .next t ∧ s.Quiet t fs ∧ t.regs = s.regs ∧ (t.group g).stall = some .barrier ∧
      ∀ f ∈ fs, (t.fibre f).wait = some .barrier ∧ (t.fibre f).fence = some { waits := s.memOps f, wide := decide (l ≠ .team), flush := none }) ∧
  (∀ f u o ph arr, fs = [f] → (s.fibre f).wait = some .barrier → (s.fibre f).fence = none → (s.fibre f).barEntry .team i = none → f ∉ arr →
    (s.fibre f).team / 16 = coreOf f → NMap.find (s.team (s.fibre f).team).units i = some u → NMap.find (s.core (coreOf f)).units u = some (o, ph, arr) →
    ∃ t, exec (.bar .team i) s = .next t ∧ NMap.find (t.core (coreOf f)).units u = some (o, ph, arr ++ [f]) ∧ (t.group g).stall = some .barrier ∧
      t.regs = s.regs ∧ t.mem = s.mem) ∧
  ((l = .team ∨ ∃ f, fs.head? = some f ∧ s.teamResident (s.fibre f).team = true) → 
    let passed (t : State) : Prop := (s.withLanes fs fun _ x => x.barForget l i).Gives t fs (s.goes (s.onward g fs s.loopsOf)) none
    ((∀ f ∈ fs, s.barOver l i true f = true) → ∃ t, exec (.bar l i) s = .next t ∧ passed t) ∧
    ((∀ f ∈ fs, s.barOver l i false f = true) → ∃ t, exec (.barArr l i) s = .next t ∧ passed t)) ∧
  (l ≠ .team → (∀ f, fs.head? = some f → s.teamResident (s.fibre f).team = false) →
    ∀ k ∈ [Instr.bar l i, .barArr l i], exec k s = .next (s.raise g fs (fs.map fun f => (f, badOp 0x78))))) ∧
  (∀ (s : State), s.Canon →
  (∀ k m, NMap.wf s.bmsgs = true → k < s.nextId → NMap.find s.bmsgs k = some m → m.there = true →
    let named (b : StageBar) : Prop := b.level = m.level ∧ b.id = m.id ∧ b.stage = m.stage ∧ (b.level = .pkg ∨ b.die = m.die)
    let reached (on : StageBar → StageBar → Prop) (t : State) : Prop := NMap.find t.bmsgs k = none ∧ t.mem = s.mem ∧ t.spad = s.spad ∧
      ∀ b ∈ s.sbars, named b → ∃ c ∈ t.sbars, named c ∧ c.phase = b.phase ∧ on b c
    ∃ t, exec (.barrierArrivalMessage k) s = .next t ∧
      (m.step = .team → reached (fun b c => c.inCluster = b.inCluster ++ m.teams) t ∧ t.regs = s.regs) ∧
      (m.step = .cluster → reached (fun b c => c.counted = b.counted ++ m.teams) t ∧ t.regs = s.regs) ∧
      (m.step = .die → reached (fun b c => c.dies = b.dies ++ [m.die]) t ∧ t.regs = s.regs) ∧
      (m.step = .toCluster → reached (fun b c => c.late = b.late.filter (· ≠ (m.at_, m.die))) t) ∧
      (m.step = .toDie → ∀ b, s.bar? m.level m.id m.stage m.die = some b → ∀ x ∈ s.barTeams b m.die, x / 16 < 256 →
        clusterOf (x / 16) = b.points.getD m.die 0 ∨
          ∃ e ∈ t.bmsgs, (e.2.level, e.2.id, e.2.stage, e.2.die, e.2.step, e.2.at_) = (b.level, b.id, b.stage, m.die, BarStep.toCluster, clusterOf (x / 16)))) ∧
  (∀ c u t ph arr, c < 4096 → u < 16 → NMap.find (s.core c).units u = some (t, ph, arr) → s.liveIn t ≠ [] → (∀ f ∈ s.liveIn t, f ∈ arr) →
    ∃ v, exec (.barrierRelease (16 * c + u)) s = .next v ∧ NMap.find (v.core c).units u = some (t, !ph, []) ∧ v.mem = s.mem ∧ v.spad = s.spad) ∧
  ∀ n b, s.sbars[n]? = some b → b.sent ≠ [] → b.late = [] → s.barOpen b = true → ∃ t, exec (.barrierRelease (2 ^ 16 + n)) s = .next t ∧ t.mem = s.mem ∧ t.spad = s.spad ∧
    (∃ c ∈ t.sbars, (c.level, c.id, c.stage, c.die, c.phase) = (b.level, b.id, b.stage, b.die, !b.phase) ∧
      (c.arrived, c.sent, c.inCluster, c.reported, c.counted, c.diesSent, c.dies) = ([], [], [], [], [], [], [])) ∧
    (b.level = .pkg → ∀ d < 4, s.barTeams b d ≠ [] → ∃ e ∈ t.bmsgs, (e.2.level, e.2.id, e.2.stage, e.2.die, e.2.step) = (b.level, b.id, b.stage, d, BarStep.toDie)))

/-- A variable-latency instruction completes in a lane (R34, R36, R122): its words go to its registers at once, in order, its registers are pending no more, its flag counts one less, and nothing else is written; while its fibre is in a handler the marks of the fibre's own instructions are cleared where they are hidden (R224). Words for a queue are pushed when it has room (R242). A poisoned load ends its context (R179). -/
def Obligations.OperationCompletes : Prop := ∀ (s : State) (o : Nat) (x : Op), s.Canon → NMap.find s.ops o = some x → x.left = 0 → 
  let ended (t : State) : Prop := NMap.find t.ops o = none ∧
    (∀ i, i ≠ o → (NMap.find t.ops i).map (fun y => { y with holds := [] }) = (NMap.find s.ops i).map fun y => { y with holds := [] }) ∧
    (∀ y, NMap.find s.fibres x.fibre = some y → let hides := y.mode = .handler ∧ x.hand = false
      (t.fibre x.fibre).pend = (if hides then y.pend else y.pend.diff x.marks) ∧ (t.fibre x.fibre).hidden = (if hides then y.hidden.diff x.marks else y.hidden) ∧
      (t.fibre x.fibre).flags = match x.flag with | some i => y.flags.modify i (· - 1) | none => y.flags) ∧
    t.mem = s.mem ∧ t.hmem = s.hmem ∧ t.spad = s.spad ∧ t.uregs = s.uregs ∧ t.hwins = s.hwins ∧ ∀ f, (t.fibre f).own = (s.fibre f).own
  (x.poisoned = none → (∀ q, x.dst ≠ .queue q) → ∃ t, exec (.operationComplete o) s = .next t ∧ ended t ∧
    let given : List (Nat × Word) := match x.dst, x.value with | .regs rs, some ws => rs.zip ws | _, _ => []
    ∀ h r, t.reg h r = (lastAt (if h = hlOf x.fibre then given else []) r).getD (s.reg h r)) ∧
  (∀ q ws, x.poisoned = none → x.dst = .queue q → x.value = some ws → x.peers = [] →
    (∃ u, s.poolAsk (waiterOp o) (coreOf x.fibre) [(instQreg q, freshEntries ((s.core (coreOf x.fibre)).queue q) ws.length)] = .ok u) →
    ∃ t, exec (.operationComplete o) s = .next t ∧ ended t ∧ t.regs = s.regs ∧
      (t.core (coreOf x.fibre)).queueWords q = (s.core (coreOf x.fibre)).queueWords q ++ ws) ∧
  ∀ line, x.poisoned = some line → ∃ t, exec (.operationComplete o) s = .next t ∧ t.mem = s.mem ∧
    (∀ e ∈ t.fibres, coreOf e.1 ∉ s.ctxCores (s.ctxOf x.fibre)) ∧ ∀ e ∈ t.plans, e.1 / 16 ≠ s.ctxOf x.fibre

/-- Requests at their home (R16, R170, R172, R174): the oldest request of its core to its line, while its partition's bandwidth is not held, is performed and answered, over the riser of its own die or as a flit; a read takes the line's bytes under a lease, a write writes its bytes and no others and completes 2 ns after the leases, an atomic answers the old value. Back at the core an acknowledgment raises CT and leaves the dirty bytes it carried clean (R173), and a fill gives its loads their bytes. A window request is performed in its order at the scratchpad its number maps to (R160, R407). -/
def Obligations.RequestsAtHome : Prop := ∀ (s : State) (r : Nat) (x : Req), s.Canon → NMap.find s.reqs r = some x →
  let loc := lineLoc x.line
  let answered (y : Req) : Prop := y.stage = if x.die = dieOf x.core then .done else .reply
  (x.stage = .home → s.atHome r x = true →
    (∀ first size lead, x.kind = .read first size lead → ∃ t y, exec (.cisternRead r) s = .next t ∧ NMap.find t.reqs r = some y ∧ answered y ∧
      (∀ i < 64, NMap.find y.data i = some (s.byteAt (loc.plus i))) ∧ y.bad = s.lineBad x.line ∧ y.comp = s.horizon + s.leaseLen x.core ∧
      y.comp ≤ (t.lineRec x.line).lease ∧ t.mem = s.mem ∧ t.hmem = s.hmem ∧ t.regs = s.regs) ∧
    (∀ m, x.kind = .write m → NMap.wf m = true → ∃ t y, exec (.cisternWrite r) s = .next t ∧ NMap.find t.reqs r = some y ∧ answered y ∧
      y.comp = max s.horizon (s.lineRec x.line).lease + 2 ∧
      (∀ i b, NMap.find m i = some b → t.byteAt (loc.plus i) = b) ∧ t.regs = s.regs ∧ t.spad = s.spad ∧
      ∀ l : Loc, (∀ i, (NMap.find m i).isSome → l ≠ loc.plus i) → t.byteAt l = s.byteAt l) ∧
    ∀ k, x.kind = .atomic [k] → s.poisonedIn x.line k.off k.width = false → 
      let old := Byte.join (s.bytesAt (loc.plus k.off) k.width)
      ∃ t y, exec (.cisternAtomic r) s = .next t ∧ NMap.find t.reqs r = some y ∧ answered y ∧ y.results = [(k.op, old)] ∧ t.regs = s.regs ∧
        (if k.idle old then t.mem = s.mem ∧ t.hmem = s.hmem else t.bytesAt (loc.plus k.off) k.width = Byte.split k.width (k.apply old)) ∧
        ∀ l : Loc, (∀ i < k.width, l ≠ (loc.plus k.off).plus i) → t.byteAt l = s.byteAt l) ∧
  (x.stage = .done →
    (∀ m f, x.kind = .write m → x.fibres = [f] → (NMap.find s.fibres f).isSome → ∃ t, exec (.writeAck r) s = .next t ∧ NMap.find t.reqs r = none ∧
      (t.fibre f).ct = max (s.fibre f).ct x.comp ∧ (∀ o ∈ x.ops.dedup, ∀ y, x.ops.count o = 1 → NMap.find s.ops o = some y → NMap.find t.ops o = some { y with left := y.left - 1 }) ∧
      ((s.core x.core).ctx = some x.ctx → ∀ b ∈ (t.core x.core).l1, ∀ e ∈ b.bytes, e.2.going ≠ some r) ∧ t.mem = s.mem ∧ t.regs = s.regs) ∧
    ∀ o y a first size lead, x.kind = .read first size lead → x.eng = none → x.bad = [] → x.ops = [o] → NMap.find s.ops o = some y → y.poisoned = none →
      y.todo = none → y.acc = some a → ∃ t z, exec (.l1Fill r) s = .next t ∧ NMap.find t.reqs r = none ∧ NMap.find t.ops o = some z ∧ z.left = y.left - 1 ∧
        z.value = some (readWords (mapOver x.data x.mine) a.off a.bytes) ∧ t.mem = s.mem ∧ t.regs = s.regs) ∧
  (x.stage = .home → s.winFirst r x = true → ∀ phys, s.remap? x.ctx x.home = some phys →
    let base := winOff x.line
    (∀ off n, x.kind = .winRead off n → x.fixed = false → phys ≠ x.core → ∃ t y, exec (.windowRequest r) s = .next t ∧ NMap.find t.reqs r = some y ∧ y.stage = .reply ∧
      (∀ i < 64, NMap.find y.data i = some (s.spadAt phys (base + i))) ∧ t.spad = s.spad ∧ t.mem = s.mem ∧ t.regs = s.regs) ∧
    (∀ m, x.kind = .winWrite m → NMap.wf m = true → ∃ t, exec (.windowRequest r) s = .next t ∧ t.mem = s.mem ∧ t.regs = s.regs ∧
      ∀ c i, t.spadAt c i = (if c * spadBytes + i < phys * spadBytes + base then none
        else NMap.find m (c * spadBytes + i - (phys * spadBytes + base))).getD (s.spadAt c i)) ∧
    ∀ k, x.kind = .winAtomic [k] → s.spadBad phys (base + k.off) k.width = false → phys ≠ x.core →
      let old := s.spadNum phys (base + k.off) k.width
      ∃ t y, exec (.windowRequest r) s = .next t ∧ NMap.find t.reqs r = some y ∧ y.stage = .reply ∧ y.results = [(k.op, old)] ∧ t.mem = s.mem ∧ t.regs = s.regs ∧
        t.spad = if k.idle old then s.spad else (s.spadWrite phys (base + k.off) (Byte.split k.width (k.apply old))).spad)

/-- Operand checks (R36, R38, R41, R128, R242), for `iadd`: a field outside the window in every lane raises ILLEGAL_OPERAND, and an operand pending in every lane raises SCHEDULE, with no other effect; a pop of more words than its queue holds, and a push without room, hold the group and write nothing; a wait that is over lets it issue again. -/
def Obligations.OperandChecks : Prop := (∀ (s : State) (g : Nat) (fs : List Nat), s.Canon → s.Issues g fs → ∀ a b d,
    let shape : Shape := { info := 0x01, srcs := [(1, a), (1, b)], dsts := [(1, d)] }
    let i : Instr := .iadd .wrap a b d
    let inside (f : Nat) : Prop := a.inWin 1 (s.fibre f).win = true ∧ b.inWin 1 (s.fibre f).win = true ∧ d.inWin 1 (s.fibre f).win = true
    let waits (f : Nat) : Prop := ∃ r, (r ∈ a.phys 1 (s.fibre f).base ∨ r ∈ b.phys 1 (s.fibre f).base ∨ r ∈ d.phys 1 (s.fibre f).base) ∧ r ∈ (s.fibre f).pend
    ((∀ f ∈ fs, ¬ inside f) → exec i s = .next (s.raise g fs (fs.map fun f => (f, Cond.withInfo clsIllegalOperand 0x01)))) ∧
    ((∀ f ∈ fs, inside f ∧ waits f) → exec i s = .next (s.raise g fs (fs.map fun f => (f, Cond.plain clsSchedule)))) ∧
    ((∀ f ∈ fs, inside f ∧ ¬ waits f) →
      (∀ k f0, a = .q k → fs.head? = some f0 → ((s.core (coreOf f0)).queueWords (popIdx (qcOf f0 % 4) k)).length < fs.length →
        exec i s = .next (s.hold g (.pop (popIdx (qcOf f0 % 4) k) 1))) ∧
      ∀ k f0 s1 ls, s.Operands fs shape.srcs shape.dsts s1 ls → d = .q k → fs.head? = some f0 → ¬ s1.Room g fs (some d) 1 →
        ∃ t, exec i s = .next t ∧ (t.group g).stall = some (.push (pushIdx (qcOf f0 % 4) k) 1) ∧ t.regs = s.regs ∧ t.cores = s.cores ∧ t.fibres = s.fibres)) ∧
  (∀ (s : State) f g w, s.Sorted → s.groupOf f = some g → (s.group g).stall = some w → s.queueOver (g / 64) (s.group g).members.length w = true →
    ∃ t, exec (.queueWaitDone f) s = .next t ∧ (t.group g).stall = none ∧ t.fibres = s.fibres ∧ t.regs = s.regs ∧ t.cores = s.cores) ∧
  ∀ (s : State) r rs, s.Sorted → s.poolq = r :: rs → (NMap.find s.groups r.who).isSome → (s.core r.core).admits r.inst r.n = true →
    ∃ t, exec (.poolGrant r.core) s = .next t ∧ (t.group r.who).stall = none ∧ t.fibres = s.fibres ∧ t.regs = s.regs ∧ t.cores = s.cores

/-- A clause starts (R26, R29, R34, R37): of a group alone on its QC whose words can be fetched, a flag named in WAIT that stands above zero holds the group; an illegal clause raises ILLEGAL_CLAUSE; otherwise every member stands at its first word. Group slots (R95, R97, R99, R100): a group held for 256 cycles for a reason R97 names, while a READY fibre finds no slot, becomes BLOCKED in the fibre table, but for a fibre whose own flags let it go on; one that has issued nothing for 4096 cycles takes priority 3; one that has started 4096 clauses meanwhile is evicted at its boundary with its stamps unchanged; after 64 cycles of partial readiness the ready quads go on and the others wait apart. -/
def Obligations.ClausesAndGroupSlots : Prop :=
  (∀ (s : State) (g f0 h : Nat) (code : List Loc) (u : State), s.Canon → s.mayIssue g = true → s.atBoundary g = true →
  (s.group g).starts < 4096 → (∀ e ∈ s.fibres, qcOf e.1 = g / 16 → e.1 ∈ (s.group g).members) → (∀ e ∈ s.groups, e.1 / 16 = g / 16 → e.1 = g) →
  (byLane (s.group g).members).head? = some f0 → s.fetchClause f0 = (u, .ok h code) →
  (∀ f ∈ (s.group g).members, (NMap.find s.fibres f).isSome ∧ s.waitedTags f h = []) →
  let fs := (s.group g).members
  let v := u.modFibres fs fun x => { x with hdr := h }
  let clear : Prop := ∀ f ∈ fs, (s.fibre f).waitClear h = true
  (¬ clear → exec (.clauseStart g) s = .next (v.hold g .flags)) ∧
  (clear → clauseLegal h ((code.drop 1).map s.wordAtLoc) = false →
    exec (.clauseStart g) s = .next (State.raise (v.modGroup g fun x => { x with starts := 0 }) g (byLane fs) ((byLane fs).map fun f => (f, Cond.plain clsIllegalClause)))) ∧
  (clear → clauseLegal h ((code.drop 1).map s.wordAtLoc) = true → ∃ t, exec (.clauseStart g) s = .next t ∧ t.regs = s.regs ∧ t.mem = s.mem ∧ (t.group g).members = fs ∧
    ∀ f ∈ fs, (t.fibre f).pos = 1 ∧ (t.fibre f).npos = 1 ∧ (t.fibre f).hdr = h ∧ (t.fibre f).code = code ∧ (t.fibre f).pc = (s.fibre f).pc ∧
      (t.fibre f).own = (s.fibre f).own)) ∧
  (∀ (s : State) (g : Nat), s.Canon → (∀ f ∈ (s.group g).members, (NMap.find s.fibres f).isSome) →
  let fs := (s.group g).members
  (∀ w, (s.group g).stall = some w → w.releases = true → (∀ f ∈ fs, ∀ k, k ≠ g → f ∉ (s.group k).members) → 256 ≤ (s.group g).waited → s.crowded (g / 16) = true → ∃ t, exec (.groupSlotRelease g) s = .next t ∧
    t.regs = s.regs ∧ t.mem = s.mem ∧ ∀ f ∈ fs, (t.fibre f).pc = (s.fibre f).pc ∧ (t.fibre f).pos = (s.fibre f).pos ∧
      let k := (s.fibre f).wait.getD w
      let over_ : Prop := (k = .flags ∧ (s.fibre f).waitClear (s.fibre f).hdr = true) ∨ ∃ i, k = .flagFull i ∧ (s.fibre f).flags.getD i 0 < 63
      (over_ → (t.fibre f).status ≠ .blocked) ∧ (¬ over_ → (t.fibre f).status = .blocked ∧ (t.fibre f).wait = some k)) ∧
  (4096 ≤ (s.group g).ready → exec (.groupPriorityBoost g) s = .next (s.modGroup g fun x => { x with boosted := true })) ∧
  (4096 ≤ (s.group g).starts → s.crowded (g / 16) = true → s.atBoundary g = true → fs ≠ [] → ∃ t, exec (.groupEviction g) s = .next t ∧ (t.group g).starts = 0 ∧ t.regs = s.regs ∧ t.mem = s.mem ∧
    ∀ f ∈ fs, (t.fibre f).stamp = (s.fibre f).stamp ∧ (t.fibre f).pc = (s.fibre f).pc ∧ (t.fibre f).pos = 0 ∧ (t.fibre f).status ≠ .blocked) ∧
  ∀ f0 h code u, let ready (f : Nat) : Prop := ∀ k ∈ fs, laneOf k / 4 = laneOf f / 4 → (s.fibre k).waitClear (s.fibre k).hdr = true
    (s.group g).stall = some .flags → 64 ≤ (s.group g).waited → s.atBoundary g = true → s.mayIssue g = true → (fs.map hlOf).Nodup → (∀ f ∈ fs, qcOf f = g / 16) →
    (∀ e ∈ s.fibres, qcOf e.1 = g / 16 → e.1 ∈ fs) → (∀ e ∈ s.groups, e.1 / 16 = g / 16 → e.1 = g) →
    byLane fs = fs → (∃ f ∈ fs, ¬ ready f) → (∃ l r, fs = l ++ f0 :: r ∧ ready f0 ∧ ∀ f ∈ l, ¬ ready f) → s.fetchClause f0 = (u, .ok h code) →
    clauseLegal h ((code.drop 1).map s.wordAtLoc) = true → (∀ f ∈ fs, (s.fibre f).hdr = h ∧ s.waitedTags f h = []) →
    ∃ t, exec (.quadSplit g) s = .next t ∧ t.regs = s.regs ∧ t.mem = s.mem ∧
      ∀ f ∈ fs, (ready f → f ∈ (t.group g).members ∧ (t.fibre f).pos = 1) ∧
        (¬ ready f → f ∉ (t.group g).members ∧ (t.fibre f).pos = 0 ∧ ∃ k, f ∈ (t.group k).members ∧ (t.group k).stall = some .flags))

/-- Copy instructions (R246, R247, R253, R254): each active lane's descriptor is read at issue and its command joins the core's copy queue in lane order; `cp.stat` is answered with the halt, park, depth and count of the queue, and its RESUME discards the halting command; other control bits raise ILLEGAL_OPERAND. -/
def Obligations.CopyInstructions : Prop := ∀ (s : State) (g : Nat) (fs : List Nat), s.Canon → s.Issues g fs → (∀ f ∈ fs, coreOf f = g / 64) → ∀ a s1 ls,
  (s.Operands fs [(1, a)] [] s1 ls → (∀ f ∈ fs, (laneFor ls f).n 0 + 64 ≤ s.spSize (s.fibre f).team ∧ (laneFor ls f).n 0 % 64 = 0 ∧
      s.spadBad (g / 64) (s.spBase (s.fibre f).team + (laneFor ls f).n 0) 64 = false) → s.spadFree (g / 64) fs = true →
    s.Ready s1 g fs false [(instCopy, fs.length)] →
    ∀ e ∈ [(0, Instr.cpTile a), (1, .cpStore a), (2, .cpLin a), (3, .cpGather a), (4, .cpScatter a), (5, .cpFill a), (6, .cpSig a)],
      ∃ t, exec e.2 s = .next t ∧ s.Passes t g fs ∧ t.spad = s.spad ∧ (s.Opens t fs fun _ _ x => x.dst = .none ∧ x.left = 1) ∧
        (t.core (g / 64)).copy.queue = (s.core (g / 64)).copy.queue ++ (indexed fs).map fun p =>
          { fn := e.1, desc := s.spadWords (g / 64) (s.spBase (s.fibre p.2).team + (laneFor ls p.2).n 0) 16, team := (s.fibre p.2).team,
            op := s.nextId + p.1, guard := s.guardOf p.2, header := (s.fibre p.2).pc, started := false, step := 0, held := none, put := 0,
            fault := none, comp := 0, ot := 0, rel := some { waits := s.memOps p.2, wide := false, flush := none }, halt := none, quit := false }) ∧
  ∀ d, s.Operands fs [(1, a)] [(1, d)] s1 ls → s.flagStop fs = none →
    let c := (s.core (g / 64)).copy
    let status : Nat := (if c.halt.isSome then 2 ^ 31 else 0) + (if c.parked.isSome then 2 ^ 30 else 0) + c.halt.getD 0 % 64 * 2 ^ 24 +
      c.queue.length % 4096 * 4096 + c.done % 4096
    ((∀ f ∈ fs, s.guardOf f = none) →
      ((∀ f ∈ fs, (laneFor ls f).n 0 = 0) → ∃ t, exec (.cpStat a d) s = .next t ∧ s.Passes t g fs ∧
        s.Opens t fs fun _ f x => (x.dst, x.marks) = s.dstOf f 1 d ∧ x.left = 0 ∧ x.value = some [Word.ofNat status]) ∧
      ∀ f q qs r, fs = [f] → (laneFor ls f).n 0 < 2 → c.halt = some r → c.queue = q :: qs → q.op < s.nextId → ∃ t, exec (.cpStatResume a d) s = .next t ∧ s.Passes t g fs ∧
        ((∀ y ∈ qs, y.halt = none) → (t.core (g / 64)).copy.halt = none) ∧ (t.core (g / 64)).copy.queue = qs ∧ NMap.find t.ops q.op = none ∧
        ∃ x, NMap.find t.ops s.nextId = some x ∧ x.value = some [Word.ofNat status]) ∧
    ((∀ f ∈ fs, 2 ≤ (laneFor ls f).n 0) → exec (.cpStat a d) s = .next (s.raise g fs (fs.map fun f => (f, badX 0x07))))

/-- The copy engine (R249, R250, R253, R414): the head is checked before any byte moves and an ill-formed one halts the queue with its reason; a step of a linear copy inside the scratchpad moves its block, one of a fill writes the pattern; completion frees the head, counts it, and writes the completion word. -/
def Obligations.CopyEngine : Prop := ∀ (s : State) (c : Nat) (x : CopyCmd) (r : List CopyCmd), s.Canon → s.copyNow c = some x → (s.core c).copy.queue = x :: r →
  let moved (t : State) : Prop := t.mem = s.mem ∧ t.regs = s.regs
  (x.started = false → s.relPerformed x.rel = true → ∃ t, exec (.copyCommandHead c) s = .next t ∧ t.mem = s.mem ∧ t.regs = s.regs ∧
    if s.copyReason c x.team x.d = 0 then (t.core c).copy.queue = { x with started := true } :: r ∧ t.spad = s.spad
    else (t.core c).copy.queue = { x with halt := some (s.copyReason c x.team x.d) } :: r ∧ (t.core c).copy.halt = some (s.copyReason c x.team x.d)) ∧
  (x.started = true → x.quit = false → x.step < x.d.steps → s.heldAct (s.partOf (s.teamCtx x.team)) 5 = false → x.held = none → x.put = 0 → x.d.dk = 1 → 
    let b := x.d.block x.step
    let done (bs : List Byte) : Prop := ∃ t, exec (.copyStep c) s = .next t ∧ moved t ∧
      t.spad = (s.spadWrite c (s.spBase x.team + (x.d.dst + b.1) % 2 ^ 64) bs).spad ∧ (t.core c).copy.queue = { x with step := x.step + 1 } :: r
    (x.fn = 2 → x.d.sk = 1 → s.spadBad c (s.spBase x.team + (x.d.src + b.1)) b.2 = false → done (s.spadRead c (s.spBase x.team + (x.d.src + b.1)) b.2)) ∧
    (x.fn = 5 → done ((List.range b.2).map fun k => Byte.ofNat (x.d.aux / 2 ^ (8 * ((b.1 + k) % 4)))))) ∧
  (x.started = true → x.d.steps ≤ x.step → s.engBusy c x.op = false → (x.d.releases = false ∨ x.d.scope = 0 ∨ max x.comp x.ot ≤ s.horizon) → ∃ t, exec (.copyComplete c) s = .next t ∧ moved t ∧
    (t.core c).copy.queue = r ∧ (t.core c).copy.done = ((s.core c).copy.done + 1) % 4096 ∧
    (∀ y, NMap.find s.ops x.op = some y → NMap.find t.ops x.op = some { y with value := some [], left := 0 }) ∧
    t.spad = if x.d.cw then (s.spadWrite c (s.spBase x.team + x.d.cwoff) (Byte.split 4 (wordAt x.desc 2))).spad else s.spad)

/-- Matrix commands (R43, R261, R278, R281, R284, R291): the elected lane's command, with its block read at issue or its tile, joins the tail of the team's matrix queue, the handlers' queue in handler mode, and the lanes go on; no entry of a tile changes at issue. -/
def Obligations.MatrixCommands : Prop := ∀ (s : State) (g : Nat) (fs : List Nat) (f0 : Nat), s.Canon → s.Issues g fs → fs.head? = some f0 →
  (s.handling f0 = true → s.handlerMx f0 = true) → coreOf f0 = g / 64 → (∀ n, s.tileInvalid f0 n = none) →
  let q := s.mxQueueOf f0
  let ids := (List.range fs.length).map (s.nextId + ·)
  let post (i : Instr) (fn : Nat) (block : List Word) (ctl arg : Nat) : Prop := ∃ t, exec i s = .next t ∧ s.Passes t g fs ∧ t.spad = s.spad ∧
    (t.arr (g / 64)).entries = (s.arr (g / 64)).entries ∧ (s.Opens t fs fun _ _ x => x.left = 1) ∧
    (t.mxGet q).cmds = (s.mxGet q).cmds ++ [
      { fn := fn, block := block, ctl := ctl, arg := arg, ops := ids, fibre := f0, guard := s.guardOf f0, header := (s.fibre f0).pc,
        waiting := false, asked := none, rel := some { waits := s.memOps f0, wide := false, flush := none } }]
  (∀ a s1 ls, (laneFor ls f0).n 0 + 32 ≤ s.spSize (s.fibre f0).team → (laneFor ls f0).n 0 % 32 = 0 → s.Ready s1 g fs false [(instMxpost, 1)] →
    s.spadFree (g / 64) [f0] = true → s.spadBad (g / 64) (s.spBase (s.fibre f0).team + (laneFor ls f0).n 0) 32 = false →
    let block := s.spadWords (g / 64) (s.spBase (s.fibre f0).team + (laneFor ls f0).n 0) 8
    (s.Operands [f0] [(1, a)] [] s1 ls → post (.mxCfg a) 0x10 block 0 0 ∧ post (.mxLut a) 0x14 block 0 0 ∧ post (.mxDrain a) 0x16 block 0 0 ∧
      post (.acLd a) 0x18 block 0 0 ∧ post (.acSt a) 0x19 block 0 0) ∧
    ∀ d, s.Operands [f0] [(1, a)] [(1, d)] s1 ls → post (.mxPass a d) 0x11 block 0 0 ∧ post (.mxPair a d) 0x12 block 0 0) ∧
  ∀ s1 ls, (laneFor ls f0).n 0 < 64 → s.flagStop fs = none → (∃ u, s1.poolAsk g (g / 64) [(instMxpost, 1)] = .ok u) →
    (∀ a, s.Operands [f0] [(1, a)] [] s1 ls → post (.mxClr a) 0x17 [] ((laneFor ls f0).n 0) 0 ∧ post (.mxFold a) 0x15 [] ((laneFor ls f0).n 0) 0) ∧
    ∀ a b, s.Operands [f0] [(1, a), (1, b)] [] s1 ls → post (.mxDep a b) 0x1B [] ((laneFor ls f0).n 0) ((laneFor ls f0).n 1)

/-- `mx.bq` offers every active lane's registers for its quarter of B and keeps them pending (R263, R264, R282, R287); `mx.stat` answers the state of the queue and its RESUME discards the halting command (R277, R293); a handler's `mx.fold` with SUMP runs the paused cycle on zeroed cells and forgets the SUMP_FULL (R273, R289). -/
def Obligations.MatrixOffersAndStatus : Prop := ∀ (s : State) (g : Nat) (fs : List Nat) (f0 : Nat), s.Canon → s.Issues g fs → fs.head? = some f0 →
  (∀ f ∈ fs, qcOf f = g / 16 ∧ (s.handling f = true → s.handlerMx f = true) ∧ s.mxQueueOf f = s.mxQueueOf f0) → coreOf f0 = g / 64 → NMap.wf s.mxq = true → s.flagStop fs = none →
  let q := s.mxQueueOf f0
  let m := s.mxGet q
  (∀ k a s1 s2 ls es, k % 4 = 0 → k + m.regs ≤ 120 → (∀ f ∈ fs, a.inWin 1 (s.fibre f).win = true ∧ (laneOf f < 16 → ∀ r ∈ a.phys 1 (s.fibre f).base, r ∉ (s.fibre f).pend)) →
    s.Operands fs [(m.regs, .v k)] [] s1 ls → s1.readSrc (fs.filter (laneOf · < 16)) 1 a = .ok (s2, es) → (∀ c ∈ m.claims, c.1.isSome) →
    ∃ t o, exec (.mxBq (.v k) a) s = .next t ∧ s.Passes t g fs ∧ t.spad = s.spad ∧ (t.mxGet q).offers = m.offers ++ [o] ∧ o.count = m.regs ∧
      o.qc = (if s.handling f0 then m.turn else g / 16 % 4) ∧ (∀ f ∈ fs, o.lanes.getD (laneOf f) [] = (laneFor ls f).vals.getD 0 []) ∧
      (∀ e ∈ (fs.filter (laneOf · < 16)).zip es, o.exps.getD (laneOf e.1) 0 = Word.join e.2 % 2 ^ 16) ∧
      s.Opens t fs fun _ f x => x.dst = .none ∧ x.marks = (List.range m.regs).map ((s.fibre f).base + k + ·)) ∧
  (∀ a d s1 ls, s.Operands [f0] [(1, a)] [(1, d)] s1 ls → s.guardOf f0 = none →
    let v := (laneFor ls f0).n 0
    let base : Nat := (match m.halts with | h :: _ => 2 ^ 31 + h.1 % 64 * 2 ^ 25 | [] => 0) + min m.depth 255 * 4096 + m.done % 4096
    (v = 0 → ∃ t, exec (.mxStat a d) s = .next t ∧ s.Passes t g fs ∧
      s.Opens t fs fun _ f x => (x.dst, x.marks) = s.dstOf f 1 d ∧ x.left = 0 ∧ x.value = some [Word.ofNat base]) ∧
    (∀ n p, v = 2 + 256 * n → n < 64 → s.tileAt q n = some p → ∃ t, exec (.mxStat a d) s = .next t ∧ s.Opens t fs fun _ _ x => x.left = 0 ∧
      x.value = some [Word.ofNat (base + s.tileState (g / 64) p * 2 ^ 23 + (if (s.tile (g / 64) p).kind = some true then 2 ^ 22 else 0) +
        (if (s.arr (g / 64)).poison.any (fun k => k / 4096 == p) then 2 ^ 21 else 0) + if (s.tile (g / 64) p).sigma.isSome then 2 ^ 20 else 0)]) ∧
    ∀ c cs hs r, v < 2 → m.halts = (r, none) :: hs → m.cmds = c :: cs → ∃ t, exec (.mxStatResume a d) s = .next t ∧
      (t.mxGet q).halts = hs ∧ (t.mxGet q).cmds = cs ∧ s.MovesOn t g fs ∧ t.mem = s.mem ∧ t.spad = s.spad) ∧
  ∀ a s1 ls c w, s.Operands [f0] [(1, a)] [] s1 ls → (laneFor ls f0).n 0 < 64 → s.holdsSump f0 = true → s.pausedFor f0 = some c → s.sumpFold c [] = some w →
    (∃ u, s1.poolAsk g (g / 64) [(instMxpost, 1)] = .ok u) →
    ∃ t, exec (.mxFoldSump a) s = .next t ∧ s.Passes t g fs ∧ (t.fibre f0).sump = (s.fibre f0).sump.drop 1 ∧ (t.arr c).cells = (w.arr c).cells ∧
      (t.arr c).resident = (w.arr c).resident ∧ t.spad = s.spad

/-- The heads of the matrix queues (R261, R262, R275 to R277, R292): an ill-formed command halts its queue; a post takes an entry of the reservation table and claims its offers; `mx.cfg` sets MCTL, `mx.clr` clears its tile; one row of `mx.drain` goes to its drain queue, and `ac.st` stores its rows. -/
def Obligations.MatrixQueueHeads : Prop := ∀ (s : State) (q : Nat) (c : MxCmd) (r : List MxCmd), s.Canon → (s.mxGet q).cmds = c :: r → NMap.wf s.mxq = true → NMap.wf (s.arr (mxCore q)).tiles = true →
  let core := mxCore q
  let quiet (t : State) : Prop := t.mem = s.mem ∧ t.regs = s.regs
  let finished (t : State) : Prop := quiet t ∧ (t.mxGet q).cmds = r ∧ (t.mxGet q).done = ((s.mxGet q).done + 1) % 4096 ∧
    ∀ o ∈ c.ops, ∀ y, NMap.find s.ops o = some y → NMap.find t.ops o = some { y with value := some [], left := 0 }
  (s.mxHead q = some c → c.waiting = false → 
    (s.mxReason q c ≠ 0 → (c.hasTile = true → c.isPost = true ∨ s.tilePosted q c.tileNo = false) → ∃ t, exec (.matrixCommandHead q) s = .next t ∧ quiet t ∧ t.spad = s.spad ∧
      (t.mxGet q).halts = (s.mxGet q).halts ++ [(s.mxReason q c, none)] ∧ (t.mxGet q).cmds = c :: r ∧
      ∀ p, c.hasTile = true → s.tileAt q c.tileNo = some p → (t.tile core p).inv = true) ∧
    (s.mxReason q c = 0 → 
      (c.isPost = true → ∀ k, s.freeKey core = some k → s.tableAdmits core = true → s.postBehind q c = false → ∃ t, exec (.postEnterTable q) s = .next t ∧ quiet t ∧ t.spad = s.spad ∧
        NMap.find t.tables k = some (s.newPost q c) ∧ (t.mxGet q).cmds = r ∧
        (c.fn ≠ 0x14 → (t.mxGet q).claims = (s.mxGet q).claims ++ [(some k, List.replicate 4 (cfgKs (s.mxGet q).mctl.toNat))])) ∧
      (c.fn = 0x10 → ∃ t, exec (.matrixCommandHead q) s = .next t ∧ finished t ∧ (t.mxGet q).mctl = Word.ofNat (wordAt c.block 0) ∧ t.spad = s.spad) ∧
      (∀ p, c.fn = 0x17 → s.tileAt q c.tileNo = some p → s.tilePosted q c.tileNo = false → ∃ t, exec (.matrixCommandHead q) s = .next t ∧ finished t ∧ t.spad = s.spad ∧
        (∀ k < 4096, NMap.get (t.arr core).entries (4096 * p + k) 0 = 0 ∧ 4096 * p + k ∉ (t.arr core).poison) ∧
        (t.tile core p).kind = none ∧ (t.tile core p).inv = false ∧ (t.tile core p).ovf = false ∧ (t.tile core p).sigma = none))) ∧
  (∀ p, s.mxAtWork q [0x16] = some (c, p) → s.rowsDone q = 0 → (s.tile core p).dep = none →
    let w := wordAt c.block 0
    let ws := (s.arr core).drainRow p (bits w 25 20) (bits w 8 6) (bits w 5 3)
    let k := 8 + dealQc (bits w 12 9) 0
    bits w 19 13 = 1 → (∃ u, s.poolAsk (waiterDrain q) core [(instQreg k, freshEntries ((s.core core).queue k) ws.length)] = .ok u) → ∃ t, exec (.drainComplete q) s = .next t ∧ finished t ∧ t.spad = s.spad ∧
      (t.core core).queueWords k = (s.core core).queueWords k ++ ws) ∧
  ∀ p, s.mxAtWork q [0x18, 0x19] = some (c, p) → c.fn = 0x19 → ∃ t, exec (.acTransferComplete q) s = .next t ∧ finished t ∧
    t.spad = ((List.range (bits (wordAt c.block 0) 19 13)).foldl (fun (u : State) i =>
      u.spadWrite core (s.spBase (s.mxTeam q c) + wordAt c.block 1 + i * wordAt c.block 2) ((s.arr core).storeRow p (bits (wordAt c.block 0) 25 20 + i))) s).spad

/-- The arrays at work (R81 to R83, R265, R269 to R271, R286): a granted unit joins its array and closes its grant slot; one array cycle adds to every cell and its sump exactly the sum of the unit's products; a fold moves cells and sump to the shadow and adds them, saturating, to the tile's integer entries; the last unit of a post answers its STALL folds and units; candidacy raises priority every 1024 cycles. -/
def Obligations.ArraysAtWork : Prop := ∀ (s : State), s.Canon →
  (∀ c k p, s.choice c = some (k, p) → NMap.find s.tables k = some p → s.slotOpen c = true → p.cmd.fn = 0x11 → cfgMode p.mctl.toNat ≠ 5 → s.postSpoiled p = false →
    s.draftReason (s.draft k p (p.core, s.mxTeam p.queue p.cmd, p.cmd.block)) = 0 → ∃ t us u y, exec (.passGrant c) s = .next t ∧
      (t.arr p.core).units = us ++ [u] ∧ us.length = (s.arr p.core).units.length ∧ u.entry = k ∧ u.index = p.granted ∧ u.mode = cfgMode p.mctl.toNat ∧
      u.cyc = 0 ∧ u.last = unitCycles (cfgSpn p.mctl.toNat) ∧ (t.arr p.core).opensAt = s.cycle + u.last ∧ NMap.find t.tables k = some y ∧ y.granted = p.granted + 1 ∧
      (t.tile p.core p.tile).kind = some (!floatMode u.mode) ∧ t.mem = s.mem ∧ t.regs = s.regs ∧ t.spad = s.spad) ∧
  (∀ k p b, NMap.find s.tables k = some p → p.since = some b → p.prio < 3 → b + 1024 * (p.prio - (s.team (s.mxTeam p.queue p.cmd)).prio + 1) ≤ s.cycle →
    exec (.postPriorityRise k) s = .next { s with tables := NMap.put s.tables k { p with prio := p.prio + 1 } }) ∧
  (∀ c u x, (s.arr c).running = some u → s.unitArrays c = [(c, u)] → u.leader = c → u.mate = none → u.grantAt + 9 + u.cyc ≤ s.cycle → s.unitTraps u = false → u.void = false →
    s.cellsFree c = true → (s.arr c).mustSwitch u = false → ((s.pauseOn c false).arr c).apply 1024 u = some x → ∃ t, exec (.arrayCycle c) s = .next t ∧ (t.arr c) = x ∧
      t.mem = s.mem ∧ t.regs = s.regs ∧ t.spad = s.spad ∧ x.resident = some (u.tile, u.scale, u.owner) ∧ (u.cols.length = 64 → ∀ i < 64, ∀ j < 64,
        NMap.get x.cells (64 * i + j) 0 + 2 ^ 32 * NMap.get x.sump (64 * i + j) 0 =
          NMap.get (s.arr c).cells (64 * i + j) 0 + 2 ^ 32 * NMap.get (s.arr c).sump (64 * i + j) 0 +
            u.cellSum u.cyc (u.rows.getD i []) (u.cols.getD j []) (u.kept.getD i []))) ∧
  (∀ c u p g w, (s.arr c).shadow = none → s.unitToFold c = some u → u.void = false → (s.arr c).resident = some (p, g, w) → ∃ t x, exec (.foldMove c) s = .next t ∧
    (t.arr c).cells = [] ∧ (t.arr c).sump = [] ∧ (t.arr c).resident = none ∧ (t.arr c).shadow = some x ∧ x.tile = p ∧ x.ready = s.cycle + 16 ∧
    x.sums = (List.range 4096).map (fun k => (k, NMap.get (s.arr c).cells k 0 + 2 ^ 32 * NMap.get (s.arr c).sump k 0, (s.arr c).bad.contains k)) ∧
    t.mem = s.mem ∧ t.regs = s.regs ∧ t.spad = s.spad) ∧
  (∀ c x (v : Nat → Int) (b : Nat → Bool), (s.arr c).shadow = some x → x.ready ≤ s.cycle → x.float = false → x.sums = (List.range 4096).map (fun k => (k, v k, b k)) →
    (∀ z, (s.tile c x.tile).sigma = some z → z = x.scale) → ∃ t, exec (.foldWriteDone c) s = .next t ∧ (t.arr c).shadow = none ∧
      (t.tile c x.tile).sigma = some x.scale ∧ t.mem = s.mem ∧ t.regs = s.regs ∧ t.spad = s.spad ∧ ∀ k < 4096,
        NMap.get (t.arr c).entries (4096 * x.tile + k) 0 =
          BitVec.ofInt 64 (clamp (-2 ^ 63) (2 ^ 63 - 1) ((NMap.get (s.arr c).entries (4096 * x.tile + k) 0).toInt + v k))) ∧
  ∀ c u us p, (s.arr c).units = u :: us → s.mayRetire u = true → u.isLut = false → NMap.find s.tables u.entry = some p → p.discarded = false → p.retired + 1 = p.units →
    p.cmd.ops.Nodup → ∃ t, exec (.unitRetire c) s = .next t ∧ (t.arr c).units = us ∧ NMap.find t.tables u.entry = none ∧ t.mem = s.mem ∧ t.regs = s.regs ∧
      ∀ o ∈ p.cmd.ops, ∀ y, NMap.find s.ops o = some y → NMap.find t.ops o = some { y with value := some [Word.ofNat (p.folds * 65536 + p.units)], left := 0 }

/-- The elected lane's pipe instructions (R302 to R304, R323 to R325): a reservation or an acquisition that can be served answers every lane with its slot's offset, a TRY that cannot answers 0xFFFFFFFF, another waits; publications and releases send their update to the home and mark their slot; `p.occ` reads FREE and OCC; control values outside the rules raise ILLEGAL_OPERAND in the elected lane. -/
def Obligations.PipeInstructions : Prop := ∀ (s : State) (g : Nat) (fs : List Nat) (f0 : Nat), s.Canon → s.Issues g fs → fs.head? = some f0 →
  let team := (s.fibre f0).team
  let key (i : Nat) : Nat := pipeKey (s.planOf f0) i
  let ids := (List.range fs.length).map (s.nextId + ·)
  let other (t : State) (i : Nat) : Prop := t.spad = s.spad ∧ ∀ k, k ≠ key i → NMap.find t.pipes k = NMap.find s.pipes k
  let bad (i : Instr) (fn : Nat) : Prop := exec i s = .next (s.raise g [f0] [(f0, badX fn)])
  (∀ a d s1 ls, s.Operands [f0] [(1, a)] [(1, d)] s1 ls →
    let v := (laneFor ls f0).n 0
    let i := v % 4096
    let answers (inbox : Bool) (x : Instr) (off : Nat) (p : Pipe) : Prop := ∃ t, exec x s = .next t ∧ s.Passes t g fs ∧ other t i ∧
      (NMap.find t.pipes (key i)).map (fun (q : Pipe) => { q with waiting := [] }) = some { p with waiting := [] } ∧
      s.Opens t fs fun _ f y => (y.dst, y.marks) = s.dstOf f 1 d ∧ y.left = 0 ∧ y.value = some [Word.ofNat off] ∧ y.acquire = inbox
    ∀ e ∈ [(false, Instr.pRsv a d, 0x30), (true, Instr.pAcq a d, 0x32)],
      ((v / 2 ^ 12 % 2 ^ 19 ≠ 0 ∨ s.ringOf f0 i e.1 = none) → bad e.2.1 e.2.2) ∧
      ∀ p, v / 2 ^ 12 % 2 ^ 19 = 0 → s.pipeAt f0 i = some p → (s.ringOf f0 i e.1).isSome = true →
        (∀ w ∈ p.waiting, w.acquire = e.1 → s.waitOpen p w = false) →
        match if e.1 then p.acquire team else p.reserve team with
        | some (off, p') => s.Sends s1 g fs instPipe 1 .pipe → answers e.1 e.2.1 off p'
        | none =>
          if v < 2 ^ 31 then ∃ t, exec e.2.1 s = .next t ∧ s.Quiet t fs ∧ other t i ∧ t.ops = s.ops ∧
            (t.group g).stall = some (if e.1 then .acquire (key i) else .reserve (key i))
          else s.Sends s1 g fs instPipe 1 .pipe → answers e.1 e.2.1 (2 ^ 32 - 1) p) ∧
  (∀ a b s1 ls, s.Operands [f0] [(1, a), (1, b)] [] s1 ls →
    let i := (laneFor ls f0).n 0
    ∀ e ∈ [(false, Instr.pPub a b, 0x31), (true, Instr.pRel a b, 0x33)],
      ((4096 ≤ i ∨ s.slotFor f0 i ((laneFor ls f0).n 1) e.1 = none) → bad e.2.1 e.2.2) ∧
      ∀ p r n, i < 4096 → s.ringOf f0 i e.1 = some (p, r) → s.slotFor f0 i ((laneFor ls f0).n 1) e.1 = some n → s.Sends s1 g fs instPipe 1 .pipe →
        ∃ t q u, exec e.2.1 s = .next t ∧ s.Passes t g fs ∧ other t i ∧ (s.Opens t fs fun _ _ y => y.dst = .none ∧ y.left = 1) ∧
          NMap.find t.pipes (key i) = some q ∧ q.updates = p.updates ++ [u] ∧
          (u.publish, u.team, u.slot, u.num, u.ops, u.fibre, u.there) = (!e.1, team, n, (r.slots.getD n (0, 0)).2, ids, f0, false) ∧ u.rel.isSome = true ∧
          (q.rsv, q.pub, q.rel, q.tiles) = (p.rsv, p.pub, p.rel, p.tiles) ∧
          q.ring? e.1 team = some { r with slots := r.slots.set n (3, (r.slots.getD n (0, 0)).2) }) ∧
  ∀ a d s1 ls, s.Operands [f0] [(1, a)] [(1, d)] s1 ls → let i := (laneFor ls f0).n 0
    (s.pipeAt f0 i = none → bad (.pOcc a d) 0x34) ∧
    ∀ p, s.pipeAt f0 i = some p → s.Sends s1 g fs instPipe 1 .pipe → ∃ t, exec (.pOcc a d) s = .next t ∧ s.Passes t g fs ∧ other t i ∧ t.pipes = s.pipes ∧
      s.Opens t fs fun _ f y => (y.dst, y.marks) = s.dstOf f 1 d ∧ y.left = 0 ∧ y.value = some [Word.ofNat (p.free % 2 ^ 13 * 2 ^ 16 + p.occ % 2 ^ 13)]

/-- Binding (R303, R322): `p.bind` binds a ring of FREE slots to the team, an inbox's sequence word zeroed, and with UNB ends the binding; a block outside the rules raises ILLEGAL_OPERAND. Ranges (R315, R316, R326): `rs.init` sets the elected lane's slot; `rs.next` answers each lane, in lane order, with the next chunk of its slot's range, with zeros from a slot never set, and waits at an exhausted one. -/
def Obligations.BindingsAndRanges : Prop :=
  (∀ (s : State) (g : Nat) (fs : List Nat) (f0 : Nat), s.Canon → s.Issues g fs → fs.head? = some f0 →
  ∀ a s1 ls, s.Operands [f0] [(1, a)] [] s1 ls → (laneFor ls f0).n 0 % 16 = 0 → (laneFor ls f0).n 0 + 16 ≤ s.spSize (s.fibre f0).team →
  let team := (s.fibre f0).team
  let ws := (s.spadWords (coreOf f0) (s.spBase team + (laneFor ls f0).n 0) 4).map BitVec.toNat
  let block (unb : Bool) : BindBlock := { BindBlock.of ws with ctl := if unb then ws.getD 0 0 ||| 2 ^ 30 else ws.getD 0 0 }
  ∀ unb : Bool, let b := block unb
    let x := if unb then Instr.pUnbind a else .pBind a
    (s.bindBad f0 b = true → exec x s = .next (s.raise g [f0] [(f0, badX 0x35)])) ∧
    ∀ p, s.bindBad f0 b = false → s.bindPlace f0 b = none → s.pipeAt f0 b.pipe = some p → s.allReady [f0] false = true → s.spadFree (g / 64) [f0] = true →
      s.spadBad (g / 64) (s.spBase team + (laneFor ls f0).n 0) 16 = false →
      s.Sends s1 g fs instPipe 1 .pipe → ∃ t q, exec x s = .next t ∧ s.Passes t g fs ∧ NMap.find t.pipes (pipeKey (s.planOf f0) b.pipe) = some q ∧
        (∀ k, k ≠ pipeKey (s.planOf f0) b.pipe → NMap.find t.pipes k = NMap.find s.pipes k) ∧
        (s.Opens t fs fun _ _ y => y.dst = .none ∧ y.left = 0 ∧ y.value = some []) ∧
        { q with rings := [], turn := 0, tiles := [] } = { p with rings := [], turn := 0, tiles := [] } ∧
        ((∀ r ∈ p.rings, r.inbox = b.inbox → r.team = team → ∀ x ∈ r.slots, x.1 = 0) → q.tiles = p.tiles) ∧
        if b.ctl / 2 ^ 30 % 2 = 1 then q.rings = (p.rings.filter fun r => !(r.inbox == b.inbox && r.team == team)) ∧ t.spad = s.spad
        else q.rings = p.rings ++ [{ inbox := b.inbox, team := team, base := b.ring, seqAt := b.seq, seq := 0, slots := List.replicate b.nsl (0, 0) }] ∧
          t.spad = if b.inbox then (s.spadWrite (team / 16) (s.spBase team + b.seq) [0, 0, 0, 0]).spad else s.spad) ∧
  (∀ (s : State) (g : Nat) (fs : List Nat) (f0 : Nat), s.Canon → s.Issues g fs → fs.head? = some f0 →
  (s.core (g / 64)).rangeq = [] →
  (∀ a s1 ls, s.Operands [f0] [(4, a)] [] s1 ls → let v := (laneFor ls f0).n 0
    ((4 ≤ v / 2 ^ 96 % 2 ^ 32 ∨ v / 2 ^ 64 % 2 ^ 32 = 0) → exec (.rsInit a) s = .next (s.raise g [f0] [(f0, badX 0x40)])) ∧
    (v / 2 ^ 96 % 2 ^ 32 < 4 → v / 2 ^ 64 % 2 ^ 32 ≠ 0 → s.Sends s1 g fs instPipe 1 .pipe → ∃ t, exec (.rsInit a) s = .next t ∧ s.Passes t g fs ∧
      t.spad = s.spad ∧ (s.Opens t fs fun _ _ y => y.dst = .none ∧ y.left = 0) ∧ ∀ k, (t.core (g / 64)).range k =
        if k = v / 2 ^ 96 % 2 ^ 32 then { cur := v % 2 ^ 32, hi := v / 2 ^ 32 % 2 ^ 32, chunk := v / 2 ^ 64 % 2 ^ 32, stage := stageKey (s.planOf f0) (s.stageOf f0) }
        else (s.core (g / 64)).range k)) ∧
  ∀ a d s1 ls, s.Operands fs [(1, a)] [(2, d)] s1 ls → (∀ f ∈ fs, (laneFor ls f).n 0 < 4) → s.Sends s1 g fs instPipe fs.length .pipe →
    let slot (f : Nat) : Nat := (laneFor ls f).n 0
    let r (f : Nat) : RangeSlot := (s.core (g / 64)).range (slot f)
    let start (i f : Nat) : Nat := (r f).cur + ((fs.take i).filter fun h => slot h == slot f).length * (r f).chunk
    ∃ t, exec (.rsNext a d) s = .next t ∧ s.Passes t g fs ∧ t.spad = s.spad ∧ (∀ k, ((t.core (g / 64)).range k).hi = ((s.core (g / 64)).range k).hi) ∧
      s.Opens t fs fun i f y => (y.dst, y.marks) = s.dstOf f 2 d ∧
        if (r f).chunk = 0 then y.left = 0 ∧ y.value = some [0, 0]
        else if start i f < (r f).hi then y.left = 0 ∧ y.value = some [Word.ofNat (start i f), Word.ofNat (min (r f).chunk ((r f).hi - start i f))]
        else y.left = 1 ∧ (slot f, s.nextId + i, f) ∈ (t.core (g / 64)).rangeq)

/-- Tasks and counters (R317 to R319, R321, R327 to R329): `t.spawn` sends its lanes' tasks as one command when the queue has room, a TRY without room answers 0, another waits; `t.dec` and `t.cnt.wr` send their updates in lane order; `t.cnt.rd` reads a counter; `t.pop` takes the tasks READY longest. -/
def Obligations.TaskInstructions : Prop := ∀ (s : State) (g : Nat) (fs : List Nat) (f0 : Nat), s.Canon → s.Issues g fs → fs.head? = some f0 →
  ∀ st, s.stage? (s.planOf f0) (s.stageOf f0) = some st → (∀ f ∈ fs, s.planOf f = s.planOf f0 ∧ s.stageOf f = s.stageOf f0) →
  let home (t : State) (k : Stage → Prop) : Prop := s.Quiet t fs ∧ t.spad = s.spad ∧ ∃ u, t.stage? (s.planOf f0) (s.stageOf f0) = some u ∧ k u
  (∀ a b d s1 ls, s.Operands fs [(4, a), (1, b)] [(1, d)] s1 ls →
    let task (f : Nat) : QTask := { entry := (laneFor ls f).n 0 % 2 ^ 64, arg := (laneFor ls f).n 0 / 2 ^ 64, readyAt := none,
                                    dep := if (laneFor ls f).n 1 % 4096 = 0xFFF then none else some ((laneFor ls f).n 1 % 4096) }
    (∀ f ∈ fs, (laneFor ls f).n 0 % 4 = 0 ∧ (laneFor ls f).n 1 / 2 ^ 12 % 2 ^ 19 = 0 ∧ ∀ i, (task f).dep = some i → i < st.depn) →
    let try_ := (laneFor ls f0).n 1 / 2 ^ 31 % 2 = 1
    (st.room fs.length = true → s.Sends s1 g fs instPipe fs.length .pipe → ∃ t, exec (.tSpawn a b d) s = .next t ∧ s.MovesOn t g fs ∧
      (s.Opens t fs fun _ f y => (y.dst, y.marks) = s.dstOf f 1 d ∧ y.left = 1) ∧ home t fun u => ∃ rels, u.updates = st.updates ++ [
        { ops := (List.range fs.length).map (s.nextId + ·), kind := .spawn, idx := 0, value := 0, tasks := fs.map task, rels := rels, fibre := f0,
          core := coreOf f0, team := (s.fibre f0).team, header := (s.fibre f0).pc, tile := none }]) ∧
    (st.room fs.length = false → try_ → s.Sends s1 g fs instPipe fs.length .pipe → ∃ t, exec (.tSpawn a b d) s = .next t ∧ s.MovesOn t g fs ∧
      (s.Opens t fs fun _ _ y => y.left = 0 ∧ y.value = some [0]) ∧ home t (· = st)) ∧
    (st.room fs.length = false → ¬ try_ → ∃ t, exec (.tSpawn a b d) s = .next t ∧ t.ops = s.ops ∧ (t.group g).stall = some .spawn ∧ home t (· = st))) ∧
  (let sends (i : Instr) (kind : TaskKind) (idx value : Nat → Nat) : Prop := ∃ t, exec i s = .next t ∧ s.MovesOn t g fs ∧
      (s.Opens t fs fun _ _ y => y.dst = .none ∧ y.left = 1) ∧
      home t fun u => (u.updates.map fun x => { x with rels := [] }) = (st.updates.map fun x => { x with rels := [] }) ++ (indexed fs).map fun e =>
        { ops := [s.nextId + e.1], kind := kind, idx := idx e.2, value := value e.2, tasks := [], rels := [], fibre := e.2, core := coreOf e.2,
          team := (s.fibre e.2).team, header := (s.fibre e.2).pc, tile := none }
   (∀ a s1 ls, s.Operands fs [(1, a)] [] s1 ls → (∀ f ∈ fs, (laneFor ls f).n 0 < st.depn) → s.Sends s1 g fs instPipe fs.length .pipe →
     sends (.tDec a) .dec (laneFor ls · |>.n 0) fun _ => 0) ∧
   ∀ a b s1 ls, s.Operands fs [(1, a), (1, b)] [] s1 ls → (∀ f ∈ fs, (laneFor ls f).n 1 < st.depn) → s.Sends s1 g fs instPipe fs.length .pipe →
     sends (.tCntWr a b) .write (laneFor ls · |>.n 1) (laneFor ls · |>.n 0)) ∧
  (∀ b d s1 ls, s.Operands fs [(1, b)] [(1, d)] s1 ls → s.Sends s1 g fs instPipe fs.length .pipe →
    (∀ f ∈ fs, (laneFor ls f).n 0 < st.depn) → ∃ t, exec (.tCntRd b d) s = .next t ∧ s.MovesOn t g fs ∧ home t (· = st) ∧
      s.Opens t fs fun _ f y => (y.dst, y.marks) = s.dstOf f 1 d ∧ y.acquire = true ∧ y.left = 0 ∧
        y.value = some [Word.ofNat (st.counters.getD ((laneFor ls f).n 0) 0)]) ∧
  ∀ d s1 ls, s.Operands fs [] [(4, d)] s1 ls → s.Sends s1 g fs instPipe fs.length .pipe → st.held = [] →
    let pops := fs.foldl (fun (p : List QTask × List (List Word)) _ =>
      match { st with tasks := p.1 }.oldestReady with
      | some i => (p.1.eraseIdx i, p.2 ++ [(p.1[i]?).elim [] fun x => Word.split 2 x.entry ++ Word.split 2 x.arg])
      | none => (p.1, p.2 ++ [[0, 0, 0, 0]])) (st.tasks, [])
    ∃ t, exec (.tPop d) s = .next t ∧ s.MovesOn t g fs ∧ (home t fun u => u.tasks = pops.1 ∧ u.updates = st.updates) ∧
      s.Opens t fs fun i f y => (y.dst, y.marks) = s.dstOf f 4 d ∧ y.acquire = true ∧ y.left = 0 ∧ y.value = some (pops.2.getD i [])

/-- Fabric instructions (R358 to R362): `fx.add` and `fx.sig` close the window's open line and queue a packet to every destination behind what the core sent before; `fx.fence` closes the lines of its fibre and is answered 0 when nothing is owed, otherwise it waits, and after 1 ms at a window in ERROR it is answered FAIL with the lowest such entry; `fx.stat` reads the window's state. -/
def Obligations.FabricInstructions : Prop := (∀ (s : State) (f : Nat) (x : FxFence),
    (s.fxf.find? fun x => x.fibre == f && !x.failed.isEmpty && decide (x.since + oneMs ≤ s.horizon)) = some x →
    ∃ t, exec (.fxFenceFail f) s = .next t ∧ t.fxf = (s.fxf.filter (· != x)) ∧ { t with fxf := s.fxf, ops := s.ops } = s ∧
      (s.Sorted → s.Answers t x.op [Word.ofNat (2 ^ 31 + x.failed.foldl min 255)])) ∧
  ∀ (s : State) (g : Nat) (fs : List Nat) (f0 : Nat), s.Canon → s.Issues g fs → fs.head? = some f0 →
  (∀ a s1 ls, s.Operands fs [(4, a)] [] s1 ls → s.allReady fs false = true → s.spadFree (g / 64) fs = true → s.Sends s1 g fs instFabric fs.length .fab →
    let v (f : Nat) : Nat := (laneFor ls f).n 0
    let addr (f : Nat) : Nat := v f % 2 ^ 64
    let window (f : Nat) : Option Nat := s.txWindow (s.partOf (s.ctxOf f)) (addr f)
    (∀ f ∈ fs, addr f % 4 = 0 ∧ (s.route f (addr f) 4 .write).reaches = true) →
    let sends (i : Instr) (body : Nat → Nat → PacketBody) : Prop := ∃ t, exec i s = .next t ∧ s.Passes t g fs ∧ t.spad = s.spad ∧
      (s.Opens t fs fun _ _ y => y.dst = .none ∧ y.left = 1) ∧
      (∀ c, (t.core c).wcb = if c = g / 64 then ((s.core c).wcb.map fun l => if fs.any (fun f => window f == some l.entry) then { l with closed := true } else l)
        else (s.core c).wcb) ∧
      ∀ e, (t.win e).packets = (s.win e).packets ++ (indexed fs).flatMap fun p =>
        if window p.2 = some e then (List.range (s.win e).dests.length).map fun d =>
          { dest := d, seq := 0, body := body (addr p.2 - (s.win e).lbase) (v p.2), fibres := [p.2], cmds := [], ctx := s.ctxOf p.2, op := some (s.nextId + p.1), core := g / 64,
            entries := 0, sent := false, acked := false, stamp := s.nextId + fs.length + p.1, at_ := s.horizon }
        else []
    ((∀ f ∈ fs, ∃ e, window f = some e ∧ (s.win e).dests.length = 1 ∧ s.fxReplyBad f (v f / 2 ^ 96) = false) →
      sends (.fxAdd a) fun off x => .add off (x / 2 ^ 64 % 2 ^ 32) (x / 2 ^ 120) (x / 2 ^ 96 % 2 ^ 24)) ∧
    ((∀ f ∈ fs, (window f).isSome = true ∧ v f / 2 ^ 64 % 2 ^ 32 ≠ 0 ∧ v f / 2 ^ 96 = 0) →
      sends (.fxSig a) fun off x => .sig off (x / 2 ^ 64 % 2 ^ 32))) ∧
  (∀ d s1 ls, s.Operands fs [] [(1, d)] s1 ls → s.allReady fs false = true → s.spadFree (g / 64) fs = true → s.Sends s1 g fs instFabric fs.length .fab → (∀ x ∈ s.fxf, x.op < s.nextId) → (∀ c ∈ s.cores, ∀ x ∈ c.2.copy.queue, x.op < s.nextId) →
    ∃ t, exec (.fxFence d) s = .next t ∧ s.Passes t g fs ∧ t.spad = s.spad ∧ t.wins = s.wins ∧
      (∀ c ∈ s.cores, (t.core c.1).wcb = c.2.wcb.map fun l => if fs.any l.fibres.contains then { l with closed := true } else l) ∧
      s.Opens t fs fun _ f y => (y.dst, y.marks) = s.dstOf f 1 d ∧
        if s.fxOwed f = [] then y.left = 0 ∧ y.value = some [0] else y.left = 1 ∧ ∃ x ∈ t.fxf, x.fibre = f ∧ x.covered = s.fxOwed f ∧
          x.failed = (s.fxOwed f).filter fun e => decide ((s.win e).state = .error)) ∧
  ∀ a d s1 ls, s.Operands [f0] [(1, a)] [(1, d)] s1 ls → let e := (laneFor ls f0).n 0
    let w := s.win e
    (256 ≤ e → exec (.fxStat a d) s = .next (s.raise g [f0] [(f0, badX 0x53)])) ∧
    (e < 256 → s.flagStop fs = none → s.guardOf f0 = none → ∃ t, exec (.fxStat a d) s = .next t ∧ s.Passes t g fs ∧ t.spad = s.spad ∧
      s.Opens t fs fun _ f y => (y.dst, y.marks) = s.dstOf f 1 d ∧ y.left = 0 ∧ y.value = some [Word.ofNat (
        if w.state = .free ∨ w.part ≠ s.partOf (s.ctxOf f0) then 0
        else w.kind * 2 ^ 30 + (match w.state with | .free => 0 | .live => 1 | .error => 2) * 2 ^ 28 + w.reason % 4 * 2 ^ 26 + w.plane % 8 * 2 ^ 23 +
          min (w.packets.filter fun p => !p.acked).length 2047 * 2 ^ 12 +
          (if w.kind = 1 then w.nextSeq.getD 0 0 else (w.lastFrom.map fun k => (w.stream k.1 k.2).1).getD 0) % 2 ^ 12)])

/-- A transmit window (R352 to R355, R357): an open line closes with its age; a closed line or a command's packet leaves for every destination with the next sequence number; acknowledgments free packets and answer their command when the last is there; a refusal, 1 ms without acknowledgment and a plane failure put the window in ERROR with reasons 2, 3 and 1; a rebound window is live on a plane that works and carries fewest, and sends all again. -/
def Obligations.TransmitWindows : Prop :=
  let resent (s : State) (e : Nat) (w : WinEntry) (named : SentPacket → Bool) (ms : List FabMsg) : Prop :=
    let age (q : SentPacket) : Nat := (q.seq + 2 ^ 32 - (s.win e).nextSeq.getD q.dest 0 % 2 ^ 32) % 2 ^ 32
    ∃ l : List SentPacket, l.Perm ((s.win e).packets.filter fun q => q.sent && !q.acked && named q) ∧ l.Pairwise (age · ≤ age ·) ∧
      ms = s.fabOut ++ l.map (w.message e)
  (∀ (s : State) (e c n : Nat), s.Canon →
    (∃ t, exec (.wcLineAge c n) s = .next t ∧ { t with cores := s.cores } = s ∧ ∀ k, (t.core k).wcb = if k = c
      then ((s.core c).wcb.map fun l => if l.stamp = n ∧ l.opened + (s.core c).fxctl.toNat % 65536 ≤ s.horizon then { l with closed := true } else l)
      else (s.core k).wcb) ∧
    ((s.win e).kind = 1 → (s.win e).state = .live → s.heldAct (s.win e).part 4 = false → s.egressHeads e ≠ [] →
      ∃ h ∈ s.egressHeads e, ∃ t, exec (.packetEgress e) s = .next t ∧ t.mem = s.mem ∧ t.regs = s.regs ∧ t.spad = s.spad ∧
        let w := s.win e
        let line := (s.core h.1).wcb.find? fun l => l.entry == e && l.closed && l.stamp == h.2
        let fresh (l : WcLine) : List SentPacket := (List.range w.dests.length).map fun d =>
          { dest := d, seq := 0, body := .store (l.bytes.map fun b => (l.off + b.1, b.2)), fibres := l.fibres, cmds := l.cmds, ctx := l.ctx, op := none, core := h.1, entries := 1,
            sent := false, acked := false, stamp := h.2, at_ := s.horizon }
        if ∃ l, line = some l ∧ (s.core h.1).admits instFabric w.dests.length = false then t.fabOut = s.fabOut
        else
          let ps := w.packets ++ (line.map fresh).getD []
          let leaves (p : SentPacket) : Bool := !p.sent && p.core == h.1 && p.stamp == h.2
          t.fabOut = s.fabOut ++ ((ps.filter leaves).map fun p =>
            FabMsg.packet w.plane (w.dests.getD p.dest (0, 0)).1 (w.dests.getD p.dest (0, 0)).2 e (w.nextSeq.getD p.dest 0) p.body) ∧
          (t.win e).packets = (ps.map fun p => if leaves p then { p with sent := true, seq := w.nextSeq.getD p.dest 0, at_ := s.horizon } else p) ∧
          (∀ d < w.dests.length, (t.win e).nextSeq.getD d 0 = (w.nextSeq.getD d 0 + 1) % 2 ^ 32) ∧
          (t.core h.1).wcb = (s.core h.1).wcb.filter fun l => line != some l)) ∧
  (∀ (s : State) (e dest seq : Nat) (p : SentPacket), s.Canon → (s.win e).packets.find? (·.named dest seq) = some p → p.body.isAdd = false →
    ∃ t, exec (.packetAckReceive e dest seq) s = .next t ∧ t.regs = s.regs ∧ t.spad = s.spad ∧ ((s.win e).lb ≠ 2 → t.mem = s.mem ∧ t.hmem = s.hmem) ∧
      (t.win e).packets = (((s.win e).packets.filter (· != p)).map fun q => if q.dest = dest ∧ q.sent = true ∧ q.acked = false then { q with at_ := s.horizon } else q) ∧
      ∀ o, p.op = some o → (∀ x ∈ s.fxf, x.op ≠ o) → (∀ q ∈ (s.win e).packets, q ≠ p → q.core = p.core → q.stamp ≠ p.stamp) → s.Answers t o []) ∧
  (∀ (s : State) (e dest seq plane : Nat), s.Canon →
    let failed (u t : State) (x reason : Nat) : Prop := (t.win x).state = .error ∧ (t.win x).reason = reason ∧ (t.win x).packets = (u.win x).packets ∧
      ∀ y ∈ t.fxf, x ∈ y.covered → x ∈ y.failed
    ((s.win e).kind = 1 → (s.win e).state = .live →
      ((∃ p ∈ (s.win e).packets, p.named dest seq = true) → ∃ t, exec (.packetRefusal e dest seq) s = .next t ∧ failed s t e 2) ∧
      ((∃ p ∈ (s.win e).packets, p.dest < (s.win e).dests.length ∧ p.sent = true ∧ p.acked = false ∧ p.at_ + oneMs ≤ s.horizon) →
        ∃ t, exec (.windowAckTimeout e) s = .next t ∧ failed s t e 3) ∧
      ∃ t, exec (.resendRequest e dest seq) s = .next t ∧ { t with fabOut := s.fabOut } = s ∧
        resent s e (s.win e) (fun q => q.dest == dest && seqFrom q.seq seq) t.fabOut) ∧
    ∃ t, exec (.planeFailure plane) s = .next t ∧ plane ∈ t.planesDown ∧ ∀ x, NMap.find s.wins x ≠ none →
      if (s.win x).kind = 1 ∧ (s.win x).state = .live ∧ (s.win x).plane = plane then failed s t x 1 else t.win x = s.win x) ∧
  ∀ (s : State) (e : Nat), s.Canon → NMap.find s.wins e ≠ none → (∃ p < 8, p ∉ s.planesDown) →
    ((s.win e).kind = 2 → ∃ t, exec (.windowRebind e) s = .next t ∧ (t.win e).plane < 8 ∧ (t.win e).plane ∉ s.planesDown) ∧
    ((s.win e).kind = 1 → (s.win e).state = .error → (s.win e).reason = 3 → ∃ t, exec (.windowRebind e) s = .next t ∧ (t.win e).state = .live ∧
      (t.win e).reason = 0 ∧ (t.win e).plane < 8 ∧ (t.win e).plane ∉ s.planesDown ∧ (∀ q < 8, q ∉ s.planesDown → s.planeLoad (t.win e).plane ≤ s.planeLoad q) ∧
      resent s e { s.win e with plane := (t.win e).plane } (fun _ => true) t.fabOut)

/-- Packets from the fabric (R347, R349, R355, R356, R359, R360): no receive entry, or bytes it does not admit, is refused; a number ahead is asked for again, one behind is acknowledged again; a packet in sequence is taken, performed in order, and acknowledged: a store writes its bytes, an add or a signal its 32-bit sum or difference, a signal once horizon time has passed the stores before it; a publication hands the tile that stands in the window to its pipe; what no longer translates is refused and taken again; a read is answered with an error completion. -/
def Obligations.PacketArrivals : Prop := ∀ (s : State) (p : Packet), s.Canon → let w := s.win p.entry
  let x := w.stream p.device p.sender
  let ack := FabMsg.ack p.device p.sender p.seq
  let refuse := FabMsg.refuse p.device p.sender p.seq
  let sent (i : Instr) (m : FabMsg) : Prop := exec i s = .next { s with fabOut := s.fabOut ++ [m] }
  (∀ addr, sent (.ualinkRead addr) (.readError addr)) ∧
  (∀ k, p.body = .grant k → exec (.quacyPacketReceive p) s = .next { s with grantsIn := s.grantsIn ++ [k] }) ∧
  (s.peerSays p = none → (w.kind ≠ 2 ∨ w.state = .free) → sent (.quacyPacketReceive p) refuse) ∧
  (s.peerSays p = none → w.kind = 2 → w.state ≠ .free →
    ((p.body.isReply = true ∨ p.seq = x.1) → s.rxAdmits w p = false → sent (.quacyPacketReceive p) refuse) ∧
    (p.body.isReply = false → p.seq = x.1 → s.rxAdmits w p = true → ∃ t, exec (.quacyPacketReceive p) s = .next t ∧
      { t with wins := s.wins } = { s with inbox := s.inbox ++ [p] } ∧ ((t.win p.entry).stream p.device p.sender).1 = (x.1 + 1) % 2 ^ 32) ∧
    (p.body.isReply = false → p.seq ≠ x.1 → (p.seq + 2 ^ 32 - x.1 % 2 ^ 32) % 2 ^ 32 < 2 ^ 31 → sent (.quacyPacketReceive p) (.resend p.device p.sender x.1)) ∧
    (p.body.isReply = false → p.seq ≠ x.1 → 2 ^ 31 ≤ (p.seq + 2 ^ 32 - x.1 % 2 ^ 32) % 2 ^ 32 →
      (∀ q ∈ s.inbox, (q.entry, q.device, q.sender, q.seq) ≠ (p.entry, p.device, p.sender, p.seq)) → sent (.quacyPacketReceive p) ack)) ∧
  (s.inbox.find? (fun q => q.device == p.device && q.sender == p.sender && q.entry == p.entry) = some p →
    let applied (i : Instr) (u : State) (out : List FabMsg) : Prop := ∃ t, exec i s = .next t ∧ t.inbox = s.inbox.erase p ∧ t.fabOut = s.fabOut ++ out ∧
      t.mem = u.mem ∧ t.hmem = u.hmem ∧ t.regs = s.regs ∧ t.spad = s.spad
    (∀ bs r, p.body = .store bs → s.rxStore w bs = some r → applied (.quacyPacketApply p) r.2 [ack]) ∧
    (∀ bs, p.body = .store bs → s.rxStore w bs = none → NMap.find s.wins p.entry ≠ none → ∃ t, exec (.quacyPacketApply p) s = .next t ∧
      t.fabOut = s.fabOut ++ [refuse] ∧ t.mem = s.mem ∧ t.hmem = s.hmem ∧ p ∉ t.inbox ∧ ((t.win p.entry).stream p.device p.sender).1 = p.seq) ∧
    (∀ off b l, p.body = .store [(off, b)] → s.rxPlace w .write off = some l → applied (.quacyPacketApply p) (s.setByte l b) [ack]) ∧
    (∀ off v r, p.body = .reply off v → s.rxStore w ((indexed (Byte.split 8 (v % 2 ^ 32 + 2 ^ 32))).map fun b => (8 * off + b.1, b.2)) = some r →
      applied (.quacyPacketApply p) r.2 [ack] ∧ ∀ e q o, s.addFor p off = some (e, q) → q.op = some o → (∀ f ∈ s.fxf, f.op ≠ o) →
        ∃ t, exec (.quacyPacketApply p) s = .next t ∧ s.Answers t o []) ∧
    (∀ k n i ks y bs, p.body = .publish k n → x.2 ≤ s.horizon → s.pipesFrom w p.entry p.device k = i :: ks → s.pipe? i = some y →
      s.rxLoad w (n % y.depth * y.slotB) y.slotB = some bs → ∃ t, exec (.quacyPacketApply p) s = .next t ∧ t.tilesIn = s.tilesIn ++ [(i, n, bs)] ∧
        t.fabOut = s.fabOut ++ [ack] ∧ t.mem = s.mem ∧ t.hmem = s.hmem) ∧
    (∀ off v re ro l, p.body = .add off v re ro → s.rxPlace w .atomic off = some l → let old := Byte.join (s.bytesAt l 4)
      applied (.fxAddApply p) (s.setBytes l (Byte.split 4 ((old + v) % 2 ^ 32))) [.reply w.plane p.device re ro old, ack]) ∧
    ∀ off v l, p.body = .sig off v → s.rxPlace w .atomic off = some l → let old := Byte.join (s.bytesAt l 4)
      if x.2 ≤ s.horizon then applied (.fxSigApply p) (s.setBytes l (Byte.split 4 (stored 32 ((old : Int) - v)))) [ack]
      else exec (.fxSigApply p) s = .next s)

/-- The mesh (R338 to R340, R344, R345): in a cycle of a router every flit there leaves by a link in service or is taken by the local port of its destination, unless the flits outnumber the links; the first in rank takes its first productive link in service; a core refused for 256 cycles starves; a remap entry changes only while its context is quiesced; a die link retrains, and is out of service until it is back; the third failure in a row raises LINK_DOWN. -/
def Obligations.MeshEvents : Prop := ∀ (s : State), s.Canon → NMap.wf s.mesh.links = true → NMap.wf s.mesh.remap = true →
  (∀ layer router, s.FlitsApart → let here := s.flitsAt layer router
    let leaves (t : State) (f : Flit) (p : Nat) : Prop := ∃ nx, s.portUp layer router p = true ∧ beyond router p = some nx ∧ { f with at_ := nx, moved := true } ∈ t.mesh.flits
    ∃ t, exec (.routerCycle layer router) s = .next t ∧ t.regs = s.regs ∧
      ((∀ e ∈ s.mesh.msgs, ∀ k n, e.2.body ≠ .pull k n ∧ e.2.body ≠ .push k n) → t.mem = s.mem ∧ t.hmem = s.hmem ∧ t.spad = s.spad) ∧
      (∀ f ∈ s.mesh.flits, (f.layer ≠ layer ∨ f.at_ ≠ router ∨ f.moved = true) → f ∈ t.mesh.flits) ∧
      (∀ x ∈ here, (x.2.router = router ∧ ∀ f ∈ t.mesh.flits, (f.msg, f.num) ≠ (x.1.msg, x.1.num)) ∨ (∃ p, leaves t x.1 p) ∨
        (x.1 ∈ t.mesh.flits ∧ ([0, 1, 2, 3].filter fun p => s.portUp layer router p).length < here.length)) ∧
      ∀ x r p, here = x :: r → if x.2.router = router then s.localTakes router x = true → ∀ f ∈ t.mesh.flits, (f.msg, f.num) ≠ (x.1.msg, x.1.num)
        else (s.productive layer router x.2.router).head? = some p → leaves t x.1 p) ∧
  (∀ c, ∃ t, exec (.starve c) s = .next t ∧ { t with cores := s.cores } = s ∧ ∀ l, NMap.find s.cores c ≠ none →
    (l ∈ (t.core c).starved ↔ l ∈ (s.core c).starved ∨ (l < 4 ∧ 256 ≤ NMap.get s.mesh.starve (4 * c + l) 0))) ∧
  (∀ ctx v phys, v < 256 → if s.quiesced ctx = true then ∃ t, exec (.remapWrite ctx v phys) s = .next t ∧ t.mem = s.mem ∧ t.regs = s.regs ∧
      ∀ k, NMap.find t.mesh.remap k = if k = 256 * ctx + v then phys.map (· % 256) else NMap.find s.mesh.remap k
    else exec (.remapWrite ctx v phys) s = .next { s with mesh := { s.mesh with busy := true } }) ∧
  ∀ router port, let l := port / 4
    let p := port % 4
    let x := s.linkState l router p
    (crossesDies router p = true → x % 2 = 0 → x / 2 < 3 → ∃ t, exec (.linkRetrain router port) s = .next t ∧ { t with mesh := s.mesh } = s ∧
      t.portUp l router p = false ∧ t.linkState l router p = x + 1) ∧
    (x % 2 = 1 → (∃ t, exec (.linkRetrainDone router port true) s = .next t ∧ { t with mesh := s.mesh } = s ∧ t.linkState l router p = 0) ∧
      ∃ t, exec (.linkRetrainDone router port false) s = .next t ∧ t.portUp l router p = false ∧ t.linkState l router p = x + 2 ∧
        ((x + 2) / 2 < 3 → { t with mesh := s.mesh } = s) ∧
        (3 ≤ (x + 2) / 2 → s.host.events.length < 256 → ∃ e ∈ t.host.events, e.head? = some (0x01060000 : Word)))

/-- Loading and starting plans (R298 to R300, R330): `launch` answers the plan's number, or 0x80000000 with no plan entered; a plan first in its context starts when every stage is given disjoint free clusters on its dies, no fewer than MINCL, and otherwise waits; a team is launched into room on a core of its stage, its fibres standing at the entry with their arguments. -/
def Obligations.PlansAndTeams : Prop := (∀ (s : State) (g : Nat) (fs : List Nat) (f0 : Nat), s.Canon → s.Issues g fs → fs.head? = some f0 →
    ∀ a d s1 ls, s.Operands [f0] [(2, a)] [(1, d)] s1 ls → let x := (laneFor ls f0).n 0
    let got := s.loadPlan (some (g / 64)) (s.ctxOf f0) x 0
    (x % 64 ≠ 0 → exec (.launch a d) s = .next (s.raise g [f0] [(f0, Cond.offset clsMisaligned .read)])) ∧
    (x % 64 = 0 → s.Sends s1 g fs instPipe 1 .pipe → (∀ o ∈ s.memOps f0, o < s.nextId ∧ ∀ y, NMap.find s.ops o = some y → y.left = 0) →
      s.recordSpoiled (s.ctxOf f0) x = none → ∃ t, exec (.launch a d) s = .next t ∧ t.spad = s.spad ∧ t.uregs = s.uregs ∧ s.KeepsRegs t fs ∧ s.MovesOn t g fs ∧
      match got.1 with
      | .plan n => (∃ p r, s.readPlan (some (g / 64)) (s.ctxOf f0) x 0 = .ok r ∧ NMap.find s.plans (16 * s.ctxOf f0 + n) = none ∧
          NMap.find t.plans (16 * s.ctxOf f0 + n) = some p ∧ (p.state, p.ctx, p.number, p.hdr) = (.loaded, s.ctxOf f0, n, r.hdr)) ∧
          s.Opens t fs fun _ f y => (y.dst, y.marks) = s.dstOf f 1 d ∧ y.left = 0 ∧ y.value = some [Word.ofNat n]
      | _ => t.plans = s.plans ∧ t.pipes = s.pipes ∧
          s.Opens t fs fun _ f y => (y.dst, y.marks) = s.dstOf f 1 d ∧ y.left = 0 ∧ y.value = some [0x80000000])) ∧
  (∀ (s : State) (p : Nat) (x : Plan), s.Canon → s.plan? p = some x →
    ((x.state ≠ .loaded ∨ s.frontPlan x.ctx ≠ some p ∨ shares (x.stages.map Stage.rec_) (s.freeClustersOf x.ctx) = none) → exec (.planStart p) s = .next s) ∧
    ∀ hs, x.state = .loaded → s.frontPlan x.ctx = some p → shares (x.stages.map Stage.rec_) (s.freeClustersOf x.ctx) = some hs →
      hs.length = x.stages.length ∧ hs.flatten.Nodup ∧
      (∀ e ∈ x.stages.zip hs, recMin e.1.rec_ ≤ e.2.length ∧ e.2.length ≤ max (recMin e.1.rec_) (recMax e.1.rec_) ∧
        ∀ c ∈ e.2, c ∈ s.freeClustersOf x.ctx ∧ onDies e.1.rec_ c = true) ∧
      ∃ t y, exec (.planStart p) s = .next t ∧ t.mem = s.mem ∧ t.hmem = s.hmem ∧ t.fibres = s.fibres ∧ t.plan? p = some y ∧ y.state = .running ∧
        y.nextInterval = s.horizon + x.balint ∧ y.stages.map Stage.clusters = (x.stages.zip hs).map (fun e => e.1.clusters ++ e.2) ∧
        ∀ e ∈ indexed hs, ∀ c ∈ clusterCores e.2, (t.core c).plan = some (p, e.1) ∧ (t.core c).phase = .running) ∧
  ∀ (s : State) (p i : Nat) (x : Plan) (g : Stage), s.Canon → s.plan? p = some x → s.stage? p i = some g → x.state = .running → g.saved = [] →
    g.pagesReady = true → let w := g.rec_
    (recResident w = true → ∃ t, exec (.teamLaunch p i) s = .next t ∧ (t = s ∨ ∀ y, t.stage? p i = some y → g.teams ≤ y.next)) ∧
    (recResident w = false → s.launchNext p i = none → exec (.teamLaunch p i) s = .next s) ∧
    (recResident w = false → s.launchNext p i ≠ none → recFibres w ≤ 1024 → wordAt w 10 ≤ recSpan w → ∃ t c r tm, exec (.teamLaunch p i) s = .next t ∧
      t.mem = s.mem ∧ c ∈ clusterCores g.clusters ∧ s.coreRuns c = true ∧ s.room c (p / 16) (needOf w) = some r ∧
      NMap.find s.teams (16 * c + r.slot) = none ∧ NMap.find t.teams (16 * c + r.slot) = some tm ∧ (tm.plan, tm.stage, tm.index, tm.prio) = (p, i, g.next, recPrio w) ∧
      (∃ y, t.stage? p i = some y ∧ y.next = g.next + 1 ∧ y.live = g.live ++ [16 * c + r.slot]) ∧
      ∀ k < recFibres w, let q := r.place c (recSpan w) k
        let y := t.fibre q.1
        (y.team, y.fibreId, y.pc, y.pos, y.base, y.win, y.mode) = (16 * c + r.slot, k, dwordAt w 0, 0, q.2, recWin w, .user) ∧
        ∀ j < wordAt w 10, t.reg (hlOf q.1) (q.2 + j) = w.getD (16 + j) 0)

/-- Pipes at their homes (R302 to R306, R324): a publication whose release work is done takes the next number, a release frees its inbox slot and pipe slot; the pump pulls the oldest published tile, which frees its outbox slot, and delivers the oldest pulled tile with the next sequence word, or over a live window; a credit frees the tiles it counts; a drained pipe moves nothing. -/
def Obligations.PipeEvents : Prop := ∀ (s : State) (k : Nat) (p : Pipe), s.Canon → s.pipe? k = some p → p.waiting = [] →
  let after (i : Instr) (c : State → Pipe → Prop) : Prop := ∃ t q, exec i s = .next t ∧ t.regs = s.regs ∧ t.pipe? k = some q ∧ c t q
  (∀ e, s.tilesIn.find? (fun x => x.1 == k) = some e → p.xdev = true → p.xend = true → p.drained = false → after (.pipeCounterUpdate k) fun t q =>
    t.tilesIn = s.tilesIn.erase e ∧ if e.2.1 = p.pub then q.pub = p.pub + 1 ∧ q.rsv = p.rsv + 1 ∧ q.tiles = p.tiles ++
      [{ num := e.2.1, data := some e.2.2, src := none, spill := false, delivered := false, counted := false, moving := false, lines := 0 }] else q = p) ∧
  (∀ u us, (∀ e ∈ s.tilesIn, e.1 ≠ k) → p.updates = u :: us →
    (u.rel = none ∧ u.there = true ∨ p.far u.team = false ∧ ∃ r, u.rel = some r ∧ s.relWaited r = true ∧
      (r.wide = true → r.flush = some [] ∧ s.writesOpen (coreOf u.fibre) u.fibre = false ∧ s.fenceTime (coreOf u.fibre) u.fibre ≤ s.horizon)) →
    after (.pipeCounterUpdate k) fun t q => t.mem = s.mem ∧ q.updates.map PipeUpd.id = us.map PipeUpd.id ∧
      if u.publish then q.pub = p.pub + 1 ∧ q.rings = p.rings ∧ q.tiles = p.tiles ++
        [{ num := p.pub, data := none, src := some (u.team, u.slot, u.ops), spill := false, delivered := false, counted := false, moving := false, lines := 0 }]
      else q.rel = p.rel + 1 ∧ q.tiles = p.tiles.filter (·.num != u.num) ∧ (∀ o ∈ u.ops, s.Answers t o []) ∧
        q.rings = p.rings.map (fun y => if y.inbox = true ∧ y.team = u.team then { y with slots := y.slots.set u.slot (0, 0) } else y)) ∧
  (s.pumpRuns k p = false → exec (.pumpPull k) s = .next s ∧
    if p.xdev = true ∧ p.xend = true ∧ p.told ≠ p.rel ∧ s.pipeError p = false then after (.pumpDeliver k) fun t q =>
      t.fabOut = s.fabOut ++ [.release p.peer.1 p.peer.2 (p.rel % 2 ^ 32)] ∧ q = { p with told := p.rel } ∧ t.mem = s.mem
    else exec (.pumpDeliver k) s = .next s) ∧
  (s.pumpRuns k p = true →
    (∀ t i r x ops, p.nextPull = some x → (p.tiles.map PipeTile.num).Nodup → p.slotsHeld < p.depth → x.src = some (t, i, ops) → p.ring? false t = some r →
      s.outboxBad p x = false → after (.pumpPull k) fun u q => u.mem = s.mem ∧ u.spad = s.spad ∧
        if p.far t then (∃ m ∈ u.mesh.msgs, m.2.body = .pull k x.num) ∧ q.tiles = p.tiles.map fun y => if y.num = x.num then { y with moving := true } else y
        else (∀ o ∈ ops, s.Answers u o []) ∧ q.ring? false t = some { r with slots := r.slots.set i (0, 0) } ∧
          q.tiles = p.tiles.map fun y => if y.num = x.num then { y with
            data := some (s.spadRead (t / 16) (s.spBase t + r.base + i * p.slotB) p.slotB), src := none, spill := false, moving := false } else y) ∧
    (∀ x n r i bs, p.nextDeliver = some x → x.spill = false → x.data = some bs → p.consumes = true → p.inboxFor = some (n, r, i) →
      after (.pumpDeliver k) fun u q => u.mem = s.mem ∧ q.turn = (n + 1) % p.rings.length ∧ if p.far r.team then u.spad = s.spad ∧
        (∃ m ∈ u.mesh.msgs, m.2.body = .push k x.num) ∧ q.tiles = p.tiles.map fun y => if y.num = x.num then { y with delivered := true } else y
      else
        (q.rings = p.rings.map fun y => if y.inbox = true ∧ y.team = r.team then
          { y with slots := y.slots.set i (1, x.num), seq := (r.seq + 1) % 2 ^ 32 } else y) ∧
        (q.tiles = p.tiles.map fun y => if y.num = x.num then { y with delivered := true, counted := true } else y) ∧
        u.spad = ((s.spadWrite (r.team / 16) (s.spBase r.team + r.base + i * p.slotB) bs).spadWrite (r.team / 16) (s.spBase r.team + r.seqAt)
          (Byte.split 4 ((r.seq + 1) % 2 ^ 32))).spad) ∧
    ∀ x bs, p.nextDeliver = some x → x.spill = false → x.data = some bs → p.xdev = true → p.xend = false → (s.win p.win).kind = 1 → (s.win p.win).state = .live →
      x.num < p.credit + p.depth →
      let line := s.combine p.lineCore (k / 65536) p.win (x.num % p.depth * p.slotB + 64 * x.lines) (indexed ((bs.drop (64 * x.lines)).take 64)) [] []
      let last := p.slotB / 64 ≤ x.lines + 1
      if line.wcFits p.lineCore = false then exec (.pumpDeliver k) s = .next (s.closeOldest p.lineCore)
      else after (.pumpDeliver k) fun u q => u.mem = s.mem ∧ (∀ c, (u.core c).wcb = (line.core c).wcb) ∧
        (q.tiles = p.tiles.map fun y => if y.num = x.num then { y with lines := x.lines + 1, delivered := decide last } else y) ∧
        if last then ∃ n, (u.win p.win).packets = (s.win p.win).packets ++ s.packets p.lineCore (k / 65536) p.win n (.publish p.peer.2 x.num) [] [] none 0
        else u.wins = s.wins) ∧
  ∀ rel : Nat, p.xdev = true → p.xend = false → let n := stored 32 ((rel : Int) - p.credit)
    after (.crossDeviceCredit k rel) fun t q => { t with pipes := s.pipes } = s ∧ if p.rsv < p.credit + n then q = p else
      q.credit = p.credit + n ∧ q.tiles = p.tiles.filter fun x => decide (p.credit + n ≤ x.num)

/-- Ranges and tasks at their homes (R316 to R319): a steal takes the upper half of the victim's chunks, or answers zeros; the first update that owes no release is applied: tasks enter the queue READY where nothing holds them, a decrement lowers its counter and at zero readies the tasks that wait, one at zero is recorded and changes nothing. -/
def Obligations.RangesAndTasks : Prop := (∀ (s : State) (f k o : Nat), s.Canon → s.emptyRequest f = some (k, o, f) →
    ((s.core (coreOf f)).rangeq.map fun e => e.2.1).Nodup → let c := coreOf f
    let r := (s.core c).range k
    r.chunk ≠ 0 → match s.victim k r.stage (stealOrder c) with
      | none => ∃ t, exec (.rangeSteal f) s = .next t ∧ s.Answers t o [0, 0] ∧ t.mem = s.mem ∧ t.regs = s.regs
      | some (v, m) => let x := (s.core v).range k
        v ≠ c ∧ m = x.cur + x.chunk * ceilDiv (ceilDiv (x.hi - x.cur) x.chunk) 2 ∧ m < x.hi ∧
        ∃ t, exec (.rangeSteal f) s = .next t ∧ s.Answers t o [Word.ofNat m, Word.ofNat (min r.chunk (x.hi - m))] ∧ t.mem = s.mem ∧ t.regs = s.regs ∧
          (t.core v).range k = { x with hi := m } ∧ ((t.core c).range k).hi = x.hi) ∧
  ∀ (s : State) (plan i : Nat) (g : Stage) (u : TaskUpd) (us : List TaskUpd), s.Canon → i < 16 → s.stage? plan i = some g → g.updates = u :: us → u.rels = [] →
    ∃ t y, exec (.taskUpdate (16 * plan + i)) s = .next t ∧ t.mem = s.mem ∧ t.regs = s.regs ∧ t.stage? plan i = some y ∧ y.updates = us ∧
      let readied (n : Nat) : List QTask := g.tasks.map fun x => if x.readyAt = none ∧ x.dep = some n then { x with readyAt := some (s.nextId + 1) } else x
      match u.kind with
      | .spawn => (∀ o ∈ u.ops, s.Answers t o [1]) ∧ y.counters = g.counters ∧ y.tasks = g.tasks ++ u.tasks.map fun x =>
          { x with readyAt := match x.dep with | none => some (s.nextId + 1) | some n => if g.counters.getD n 0 = 0 then some (s.nextId + 1) else none }
      | .dec => (∀ o ∈ u.ops, s.Answers t o []) ∧ if g.counters.getD u.idx 0 = 0 then y.counters = g.counters ∧ y.tasks = g.tasks
          else y.counters = g.counters.set u.idx (g.counters.getD u.idx 0 - 1) ∧ y.tasks = if g.counters.getD u.idx 0 = 1 then readied u.idx else g.tasks
      | .write => (∀ o ∈ u.ops, s.Answers t o []) ∧ y.counters = g.counters.set u.idx u.value ∧ y.tasks = if u.value = 0 then readied u.idx else g.tasks
      | .fire => u.idx < g.depn → g.counters.getD u.idx 0 ≠ 0 → y.counters = g.counters.set u.idx (g.counters.getD u.idx 0 - 1)

/-- Deadlocks (R308 to R312): a scan that finds no cycle of stages blocked for the detection time changes no plan; the first cycle found is granted one slot more at its lowest eligible pipe, or its plan is drained when it has none, under DRAIN, or after a grant; a probe is dropped, forwarded with one crossing more, or declares at its origin; a complete drain image is in memory and its plan is gone. -/
def Obligations.Deadlocks : Prop := (∀ (s : State) (p : Nat) (x : Plan), s.Canon → s.grantsIn = [] → let u := s.markBlocked
    u.plan? p = some x → x.state = .running → (∀ q y, u.plan? q = some y → y.state = .running → q = p) →
    (∀ c ∈ u.cycles p x, c.2 ≠ [] ∧ ∀ i ∈ c.2, u.ripe x i = true) ∧
    match u.cycles p x with
    | [] => ∃ t, exec .deadlockScan s = .next t ∧ { t with fabOut := u.fabOut } = u
    | c :: _ => ∃ t y, exec .deadlockScan s = .next t ∧ t.plan? p = some y ∧
        let drained : Prop := y.state = .draining ∧ ∀ e ∈ t.pipes, e.1 / 4096 = p → e.2.drained = true
        let spent : Bool := match c.1.bind u.pipe? with | some q => q.extended | none => true
        if x.drains || spent || x.again c.2 then drained ∧ y.cycle = maskOf c.2 ∧ y.drainAt = s.horizon
        else drained ∨ (y.state = .running ∧ s.horizon ∈ y.grants ∧ ∃ k q, c.1 = some k ∧ t.pipe? k = some q ∧ q.extended = true)) ∧
  (∀ (s : State) (p : Nat) (x : Plan), s.Canon → s.plan? p = some x → x.state = .draining → s.heldAct (s.partOf x.ctx) 1 = false →
    ∃ t, exec (.drainImageComplete p) s = .next t ∧ t.plan? p = none ∧ (∀ e ∈ t.pipes, e.1 / 4096 ≠ p) ∧
      (t.mem, t.hmem) = ((s.virtWrite x.ctx x.spilla (s.drainImage p x)).mem, (s.virtWrite x.ctx x.spilla (s.drainImage p x)).hmem) ∧
      (s.host.events.length < 256 → ∃ e ∈ t.host.events, e.take 5 = [0x01040000, 0, 0, 0, Word.ofNat (x.ctx + 16 * x.number)])) ∧
  ∀ (s : State) (k od op ld lp n : Nat) (x : Plan) (p : Pipe), s.Canon → let u := s.markBlocked
    u.plan? (k / 4096) = some x → u.pipe? k = some p →
    let es := u.remoteEdges (k / 4096) x 17 [] (if p.xend then p.cons else p.prod) (ld, lp)
    let out : List FabMsg := es.filterMap fun e => (u.pipe? e.1.pipe).map fun q => .probe q.peer.1 q.peer.2 od op e.2.1 e.2.2 (n + 1)
    ((x.state ≠ .running ∨ 1024 ≤ n) → exec (.deadlockProbe k od op ld lp n) s = .next u) ∧
    (x.state = .running → n < 1024 →
      ((od ≠ ownDevice ∨ ∀ e ∈ es, e.1.pipe ≠ op) → exec (.deadlockProbe k od op ld lp n) s = .next { u with fabOut := u.fabOut ++ out }) ∧
      ∀ e, od = ownDevice → op / 4096 = k / 4096 → es.find? (fun e => e.1.pipe == op) = some e →
        ((x.drains = true ∨ e.2 = noLow) → ∃ t y, exec (.deadlockProbe k od op ld lp n) s = .next t ∧ t.plan? (k / 4096) = some y ∧ y.state = .draining) ∧
        (x.drains = false → e.2 ≠ noLow → e.2.1 ≠ ownDevice → ∃ t, exec (.deadlockProbe k od op ld lp n) s = .next t ∧
          t.fabOut = u.fabOut ++ [.grant e.2.1 e.2.2] ∧ t.plans = u.plans ∧ t.pipes = u.pipes) ∧
        ∀ z q, x.drains = false → e.2.1 = ownDevice → u.plan? (e.2.2 / 4096) = some z → z.state = .running → u.pipe? e.2.2 = some q → q.extended = false →
          ∃ t w, exec (.deadlockProbe k od op ld lp n) s = .next t ∧ t.pipe? e.2.2 = some w ∧ w.extended = true)

/-- Budgets and pre-emption (R367 to R373): a period starts every meter from its debt, at most one budget, under the pending record; a request takes the clusters of highest number above MINCL and halts their cores; a halted core with nothing under way is saved, its teams go to an image and its core is VACATED; teams resume on a core of their stage with room, a whole context where its images are placed; a context reset ends all it holds and leaves memory. -/
def Obligations.BudgetsAndPreemption : Prop := (∀ s : State, s.Canon → ∃ t, exec .budgetPeriod s = .next t ∧ { t with parts := s.parts, reqs := s.reqs } = s ∧
    (∀ k x, NMap.find s.reqs k = some x → NMap.find t.reqs k = some (if t.heldAct x.part 1 then x else { x with begun := true })) ∧
    ∀ k p, NMap.find s.parts k = some p → let n := s.horizon / 10000
      let r := p.pendingRec.getD p.rec_
      let debt (a : Nat) : Nat := match budgetOf p.rec_ a with | none => 0 | some b => min (p.meters.getD a 0 - b) b
      if p.period < n then ∃ q, NMap.find t.parts k = some q ∧ (q.rec_, q.pendingRec, q.period) = (r, none, n) ∧
        ∀ a < 6, q.meters.getD a 0 = debt a ∧ (q.held.getD a false = true ↔ ∃ b, budgetOf r a = some b ∧ b ≤ debt a)
      else NMap.find t.parts k = some p) ∧
  (∀ (s : State) (p i n : Nat) (g : Stage), s.Canon → s.stage? p i = some g → 0 < n → i < 16 → s.relhop (s.partOf (p / 16)) = false →
    recMin g.rec_ < g.clusters.length → (∀ r ∈ s.preempts, r.part ≠ s.partOf (p / 16)) →
    let cls := (sortBy s.clusterNumber g.clusters).reverse.take (min n (g.clusters.length - recMin g.rec_))
    let r : Preempt := { part := s.partOf (p / 16), ctx := p / 16, plan := p, stage := i, count := n, clusters := [], whole := false, started := false, receiver := none }
    let x : Preempt := { r with clusters := cls, started := true }
    ∃ t, exec (.preemptRequest p i n) s = .next t ∧ { t with cores := s.cores, preempts := s.preempts } = s ∧
      t.preempts = s.preempts ++ [if s.mayStart x then x else r] ∧
      ∀ c, (t.core c).phase = if s.mayStart x = true ∧ c ∈ clusterCores cls ∧ (s.core c).plan.isSome = true then .halting else (s.core c).phase) ∧
  (∀ (s : State) (c : Nat), s.Canon → (s.core c).phase = .halting →
    if s.memBusy c = true ∨ s.enginesBusy c = true then exec (.coreHalted c) s = .next s
    else if (s.core c).l1.any L1Block.isDirty then exec (.coreHalted c) s = .next (s.startFlush c)
    else if s.horizon < s.owedTime c then exec (.coreHalted c) s = .next s
    else ∃ t, exec (.coreHalted c) s = .next t ∧ { t with cores := s.cores } = s ∧ (t.core c).phase = .saving) ∧
  (∀ (s : State) (c : Nat) (p : Nat × Nat), s.Canon → c < 256 → (s.core c).phase = .saving → (s.core c).plan = some p → (∃ e ∈ s.teams, e.1 / 16 = c) →
    (∀ r ∈ s.preempts, r.receiver = none) → let room := 4096 + s.nextId
    ∃ t, exec (.coreSaved c) s = .next t ∧ t.mem = s.mem ∧ (t.core c).phase = .vacated ∧ (t.core c).plan = none ∧
      (∃ i ∈ t.images, (i.num, i.plan, i.stage, i.from_, i.vcore) = (s.nextId, p.1, p.2, c, s.vcore c)) ∧
      (∀ r < 2 ^ 16, NMap.get t.regs (2 ^ 16 * room + r) 0 = NMap.get s.regs (2 ^ 16 * c + r) 0) ∧
      (∀ o < 2 ^ 19, NMap.get t.spad (2 ^ 19 * room + o) 0 = NMap.get s.spad (2 ^ 19 * c + o) 0) ∧
      ∀ k x, NMap.find s.teams k = some x → k / 16 = c → NMap.find t.teams k = none ∧
        ∃ y, NMap.find t.teams (16 * room + k % 16) = some y ∧ (y.plan, y.stage, y.index, y.prio) = (x.plan, x.stage, x.index, x.prio)) ∧
  (∀ (s : State) (n c : Nat) (i : Image), s.Canon → NMap.wf s.mesh.remap = true → s.images[n]? = some i → c < 256 → (∀ x ∈ s.images, x.num = i.num → x.msgs = []) →
    (i.whole = false → ∀ k g m, s.firstSaved i.plan i.stage = some k → s.stage? i.plan i.stage = some g → k / 16 = i.shadow →
      s.resumeAt i.plan g k = some (c, m) → ∃ t, exec (.resumePlaced n c) s = .next t ∧ t.mem = s.mem ∧ NMap.find t.teams k = none ∧
        m.newTeam / 16 = c ∧ ∃ y, NMap.find t.teams m.newTeam = some y ∧ (y.plan, y.stage, y.index) = ((s.team k).plan, (s.team k).stage, (s.team k).index)) ∧
    (i.whole = true → i.placed = none → s.mayPlace i c = true → ((s.core c).ctx = none → (s.core c).l1 = []) →
      if s.quiesced i.ctx then ∃ t, exec (.resumePlaced n c) s = .next t ∧ t.mem = s.mem ∧ (t.core c).phase = .restoring ∧
        (t.core c).plan = some (i.plan, i.stage) ∧ NMap.find t.mesh.remap (256 * i.ctx + i.vcore) = some c
      else exec (.resumePlaced n c) s = .next { s with mesh := { s.mesh with busy := true } })) ∧
  (∀ (s : State) (c : Nat) (i : Image), s.Canon → c < 256 → (s.images.find? fun i => i.placed == some c) = some i → (s.core c).phase = .restoring →
    (∀ x ∈ s.images, x.num = i.num → x.msgs = []) → (∀ x ∈ s.images, x.ctx = i.ctx → x.whole = true → x.placed.isSome = true) →
    ∃ t, exec (.coreRestored c) s = .next t ∧ t.mem = s.mem ∧ (t.core c).phase = .running ∧
      ((t.core c).poolcfg, (t.core c).netctl, (t.core c).fxctl) = ((s.core c).poolcfg, (s.core c).netctl, (s.core c).fxctl) ∧
      (∀ r < 2 ^ 16, NMap.get t.regs (2 ^ 16 * c + r) 0 = NMap.get s.regs (2 ^ 16 * i.shadow + r) 0) ∧
      ∀ o < 2 ^ 19, NMap.get t.spad (2 ^ 19 * c + o) 0 = NMap.get s.spad (2 ^ 19 * i.shadow + o) 0) ∧
  ∀ (s : State) (x cause : Nat), s.Canon → if (s.ctx? x).isNone then exec (.contextReset x cause) s = .next s
    else ∃ t, exec (.contextReset x cause) s = .next t ∧ t.mem = s.mem ∧ (∀ e ∈ t.fibres, coreOf e.1 ∉ s.ctxCores x) ∧
      (∀ e ∈ t.teams, e.1 / 16 ∉ s.ctxCores x) ∧ (∀ e ∈ t.plans, e.1 / 16 ≠ x) ∧ ∀ e ∈ t.pipes, e.1 / 65536 ≠ x

/-- Gangs and the windlass (R313, R314, R375 to R377): a victim still leaving after GRACE is reset; a gang that has waited longer than PLACE has a rectangle cleared, or GANG_BLOCKED is raised; at an interval the windlass chooses the stage of greatest and the one of least pressure, at least 64 apart, and moves clusters when it chose the same pair before. -/
def Obligations.GangsAndWindlass : Prop := (∀ (s : State) (k : Nat) (g : Gang), s.Canon → s.gangs[k]? = some g →
    (∀ v, g.victim = some v → if s.horizon < g.since + s.graceOf (s.partOf g.ctx) ∨ s.leaving v = false then exec (.gangGraceExpire k) s = .next s
      else ∃ t, exec (.gangGraceExpire k) s = .next t ∧ t.mem = s.mem ∧ (∀ e ∈ t.fibres, coreOf e.1 ∉ s.ctxCores v) ∧ ∀ e ∈ t.plans, e.1 / 16 ≠ v) ∧
    ∀ x, s.plan? g.plan = some x → x.state = .loaded → g.compacting = false → if s.horizon ≤ g.since + s.placeOf (s.partOf g.ctx) then exec (.compaction k) s = .next s
      else ∃ t, exec (.compaction k) s = .next t ∧ t.mem = s.mem ∧ match s.compactBy g.ctx (s.gangRects x) with
        | some _ => ∃ y ∈ t.gangs, y = { g with compacting := true }
        | none => t.gangs = s.gangs ∧ t.plans = s.plans ∧ (s.host.events.length < 256 → ∃ e ∈ t.host.events, e.head? = some (0x010A0000 : Word))) ∧
  ∀ (s : State) (p : Nat) (x : Plan), s.Canon → s.plan? p = some x →
    (∀ d r, s.choosePair p x = some (d, r) → ∃ gd gr pd pr, x.stages[d]? = some gd ∧ x.stages[r]? = some gr ∧ s.pressure p d = some pd ∧ s.pressure p r = some pr ∧
      pd + 64 ≤ pr ∧ gd.rest = 0 ∧ gr.rest = 0 ∧ gr.clusters.length < recMax gr.rec_ ∧ gd.floor (s.hctlOf x.ctx) < gd.clusters.length ∧ d ≠ r) ∧
    if x.state ≠ .running ∨ bit (wordAt x.hdr 0) 28 = false ∨ s.relhop (s.partOf x.ctx) = true ∨ s.horizon < x.nextInterval then exec (.windlassInterval p) s = .next s
    else ∃ t y, exec (.windlassInterval p) s = .next t ∧ t.mem = s.mem ∧ t.regs = s.regs ∧ t.fibres = s.fibres ∧ t.plan? p = some y ∧
      y.nextInterval = x.nextInterval + x.balint ∧ match s.choosePair p x with
      | none => y.pair = none ∧ t.preempts = s.preempts ∧ y.stages = x.stages.map fun g => { g with rest := g.rest - 1 }
      | some e => if x.pair = some e then y.pair = none ∧ (∀ g, (y.stages[e.1]? = some g ∨ y.stages[e.2]? = some g) → g.rest = 2) ∧
            ((∀ r ∈ s.preempts, r.part ≠ s.partOf x.ctx) → ∀ gd gr, x.stages[e.1]? = some gd → x.stages[e.2]? = some gr → (∃ c ∈ gd.clusters, onDies gr.rec_ c = true) →
              ∃ q ∈ t.preempts, (q.plan, q.stage, q.receiver, q.whole) = (p, e.1, some (p, e.2), false) ∧ (q.started = true → q.clusters ≠ [] ∧
                q.clusters.length ≤ bits (wordAt x.hdr 0) 27 26 + 1 ∧ ∀ c ∈ q.clusters, c ∈ gd.clusters ∧ onDies gr.rec_ c = true))
          else y.pair = some e ∧ t.preempts = s.preempts

/-- Messages (R380 to R384): the message at the head of the ring is taken by its kind alone; a number out of sequence is answered DUP or SEQ_GAP and nothing else happens; one that names no placed context of its partition is answered NOCTX, one with reserved bits set BADFIELD; a completion takes the next DSEQ and stands in the next slot, or waits for one. -/
def Obligations.HostMessages : Prop := let kind (k : Nat) (b : Option Bool) (m : List Word) : Prop := msgType m = k ∧ ∀ x, b = some x → bit (wordAt m 2) 0 = x
  let contexts : List (Instr × (List Word → Prop)) := [(.launchMessage, kind 2 none), (.replayRetry, kind 3 (some false)), (.replayKill, kind 3 (some true)),
    (.invalVa, kind 4 (some false)), (.invalContext, kind 4 (some true)), (.resetMessage, kind 7 none), (.gang, kind 8 none), (.unplace, kind 9 none)]
  let devices : List (Instr × (List Word → Prop)) := [(.place, kind 1 none), (.mapwr, kind 5 none), (.partwr, kind 6 none), (.attest, kind 10 none), (.health, kind 11 none)]
  let others : List (Instr × (List Word → Prop)) := [(.badtype, fun m => msgType m = 0 ∨ 11 < msgType m)]
  (∀ s : State, ∀ e ∈ contexts ++ devices ++ others, (s.headMsg = none → exec e.1 s = .next s) ∧ ∀ m, s.headMsg = some m →
    (¬ e.2 m → exec e.1 s = .next s) ∧
    (e.2 m → wordAt m 1 ≠ (s.host.hack + 1) % 2 ^ 32 → exec e.1 s = .next
      ({ s with host := { s.host with sqhead := (s.host.sqhead + 1) % s.host.sqSlots } }.completeMsg
        (if (s.host.hack + 2 ^ 32 - wordAt m 1) % 2 ^ 32 < 2 ^ 31 then .dup else .seqGap) (wordAt m 1) [])) ∧
    (e.2 m → wordAt m 1 = (s.host.hack + 1) % 2 ^ 32 → let refused (st : Status) : Prop := exec e.1 s = .next ((s.taken (wordAt m 1)).completeMsg st (wordAt m 1) [])
      (e ∈ others → refused .badType) ∧ (e ∈ devices → badHead m = true → refused .badField) ∧
      (e ∈ contexts → ((s.ctx? (wordAt m 0 % 16)).all fun x => x.part != wordAt m 0 / 2 ^ 16 % 16) = true → refused .noCtx) ∧
      (e ∈ contexts → badHead m = true → ∀ x, s.ctx? (wordAt m 0 % 16) = some x → x.part = wordAt m 0 / 2 ^ 16 % 16 → refused .badField))) ∧
  ∀ (s : State) (st : Status) (n : Nat) (r : List Nat), s.Canon → r.length ≤ 12 → let h := s.host
    let t := s.completeMsg st n r
    let tail : List Word := Word.ofNat n :: (r ++ List.replicate (12 - r.length) 0).map Word.ofNat
    if s.cqOpen = true ∧ h.replay = [] ∧ h.due = [] then
      t.hostWords (h.cqbase + 64 * (h.cqtail % 2 ^ h.cqlog)) 16 = Word.ofNat (st.code * 2 ^ 16) :: Word.ofNat ((h.dseqw + 1) % 2 ^ 32) :: Word.ofNat h.hack :: tail ∧
      t.host.cqtail = (h.cqtail + 1) % 2 ^ h.cqlog ∧ t.host.dseqw = (h.dseqw + 1) % 2 ^ 32 ∧ { t with host := s.host, hmem := s.hmem } = s
    else t = { s with host := { h with due := h.due ++ [Word.ofNat (st.code * 2 ^ 16) :: 0 :: 0 :: tail] } }

/-- Messages of a context (R221, R232, R330, R368, R375, R381): RESET resets it, UNPLACE frees its slot when it has no plan, LAUNCH and GANG load a plan, REPLAY readies or traps the fibres parked under the entries it names and frees those, INVAL drops translations and completes when that is over. -/
def Obligations.ContextMessages : Prop := ∀ (s : State) (m : List Word) (x : Ctx), s.Canon → s.headMsg = some m → wordAt m 1 = (s.host.hack + 1) % 2 ^ 32 →
  badHead m = false → s.ctx? (wordAt m 0 % 16) = some x → x.part = wordAt m 0 / 2 ^ 16 % 16 → let n := wordAt m 1
  let c := wordAt m 0 % 16
  let u := s.taken n
  let a := dwordAt m 2
  (msgType m = 7 → if zeroFrom m 2 then s.Replies .resetMessage n .ok [] (· = u.resetContext c 0x23) else s.Replies .resetMessage n .badField [] (· = u)) ∧
  (msgType m = 9 → if zeroFrom m 2 = false then s.Replies .unplace n .badField [] (· = u)
    else if ∃ e ∈ s.plans, e.2.ctx = c then s.Replies .unplace n .busy [] (· = u)
    else if s.quiesced c = false then exec .unplace s = .next { s with mesh := { s.mesh with busy := true } }
    else (∀ e ∈ s.reqs, e.2.refused = true → e.2.ctx ≠ c) → s.Replies .unplace n .ok [] fun w => w.ctx? c = none ∧ (∀ k ∈ w.cores, k.2.ctx ≠ some c) ∧ (w.mem, w.fibres, w.plans) = (s.mem, s.fibres, s.plans)) ∧
  (msgType m = 2 → if a % 64 ≠ 0 ∨ u.overrideBad c a (wordAt m 4) = true then s.Replies .launchMessage n .badField [] (· = u)
    else match (u.loadPlan none c a (wordAt m 4)).1 with
      | .plan k => s.Replies .launchMessage n .ok [k] fun w => NMap.find s.plans (16 * c + k) = none ∧
          ∃ p, NMap.find w.plans (16 * c + k) = some p ∧ (p.state, p.ctx, p.number) = (.loaded, c, k)
      | .illFormed => s.Replies .launchMessage n .illFormed [] fun w => w.plans = s.plans ∧ w.mem = s.mem
      | .noRoom => s.Replies .launchMessage n .noRoom [] fun w => w.plans = s.plans ∧ w.mem = s.mem) ∧
  (msgType m = 8 → if a % 64 ≠ 0 then s.Replies .gang n .badField [] (· = u)
    else match (u.loadPlan none c a 0).1 with
      | .plan k => s.Replies .gang n .ok [k] fun w => ∃ g ∈ w.gangs, (g.ctx, g.plan, g.since, g.compacting) = (c, 16 * c + k, s.horizon, false) ∧
          ∀ v, g.victim = some v → v ∈ (u.loadPlan none c a 0).2.victims c
      | .illFormed => s.Replies .gang n .illFormed [] fun w => w.plans = s.plans ∧ w.gangs = s.gangs
      | .noRoom => s.Replies .gang n .noRoom [] fun w => w.plans = s.plans ∧ w.gangs = s.gangs) ∧
  (msgType m = 3 → let named := s.replayed c m
    let page := bit (wordAt m 2) 1
    let freed (w : State) : Prop := ∀ e ∈ named, ((w.core e.1).waitEntry e.2).held = false
    (bit (wordAt m 2) 0 = false → if page = false ∧ named = [] then s.Replies .replayRetry n .stale [] (· = u)
      else s.Replies .replayRetry n .ok [named.length] fun w => freed w ∧ w.mem = s.mem ∧ w.regs = s.regs ∧
        ∀ e ∈ named, ∀ f ∈ s.parkedAt e.1 e.2, NMap.find s.fibres f.1 ≠ none → (w.fibre f.1).wait = none ∧ (w.fibre f.1).pc = (s.fibre f.1).pc ∧ (w.fibre f.1).mode = (s.fibre f.1).mode) ∧
    (bit (wordAt m 2) 0 = true → if page = false ∧ named = [] then s.Replies .replayKill n .stale [] (· = u)
      else s.Replies .replayKill n .ok [named.length] fun w => freed w ∧ w.mem = s.mem)) ∧
  (msgType m = 4 → let page := dwordAt m 3
    let started (i : Instr) (p : PageEntry → Prop) : Prop := ∃ w, exec i s = .next w ∧ w.host.invals = s.host.invals ++ [(c, n)] ∧ w.host.due = s.host.due ∧
      w.host.dseqw = s.host.dseqw ∧ w.mem = s.mem ∧ (w.ctx? c).map Ctx.dropping = some true ∧ (∀ e ∈ w.lprs, ¬ (e.2.ctx = c ∧ p e.2)) ∧ ∀ k ∈ w.cores, ∀ e ∈ k.2.tlb, ¬ (e.ctx = c ∧ p e)
    if bit (wordAt m 2) 0 then started .invalContext fun _ => True else started .invalVa fun e => e.va ≤ page ∧ page < e.va + e.size)

/-- Messages of the device (R348, R363 to R365, R381, R390, R392): PLACE fills an empty slot from its descriptor and numbers the partition's cores; MAPWR makes, frees or refuses a window; PARTWR loads, changes or takes away a partition; ATTEST and HEALTH write their reports into host memory. -/
def Obligations.DeviceMessages : Prop := ∀ (s : State) (m : List Word), s.Canon → s.headMsg = some m → wordAt m 1 = (s.host.hack + 1) % 2 ^ 32 →
  badHead m = false → let n := wordAt m 1
  let u := s.taken n
  (msgType m = 1 → let d := m.drop 2
    let c := wordAt d 0 / 16 % 16
    if (s.ctx? c).isSome then s.Replies .place n .noCtx [] (· = u) else if s.badDescriptor d then s.Replies .place n .badField [] (· = u)
    else if s.quiesced c = false then exec .place s = .next { s with mesh := { s.mesh with busy := true } }
    else (∀ e ∈ s.reqs, e.2.refused = true → e.2.ctx ≠ c) → s.Replies .place n .ok [] fun w => w.ctx? c = some (placedAs d) ∧ { w with ctxs := s.ctxs, mesh := s.mesh } = u ∧
      (∀ k, k ≠ c → w.ctx? k = s.ctx? k) ∧ ∀ e ∈ numbering (w.partClusters c), w.numberOf c e.2 = some e.1) ∧
  (msgType m = 5 → let e := wordAt m 2
    let ws := (m.drop 3).take 8 ++ List.replicate 8 0
    if 256 ≤ e ∨ zeroFrom m 11 = false then s.Replies .mapwr n .badField [] (· = u)
    else if wordAt ws 0 / 2 ^ 30 = 0 then
      if wordAt ws 0 / 16 % 2 ^ 14 ≠ 0 then s.Replies .mapwr n .badField [] (· = u)
      else if (s.win e).state = .live ∧ s.winHolds e = true then s.Replies .mapwr n .busy [] (· = u)
      else s.Replies .mapwr n .ok [] fun w => NMap.find w.wins e = none ∧ ∀ k, k ≠ e → NMap.find w.wins k = NMap.find s.wins k
    else if (s.win e).state = .free then
      if winBad ws = true ∨ s.winClash e ws = true then s.Replies .mapwr n .badField [] (· = u)
      else s.Replies .mapwr n .ok [] (· = { u with wins := NMap.put s.wins e (WinEntry.make ws) })
    else if (s.win e).kind = 1 ∧ (s.win e).state = .error ∧ (s.win e).reason = 2 ∧ (s.win e).words = ws then s.Replies .mapwr n .ok [] (· = u.winLive e (s.win e).plane)
    else s.Replies .mapwr n .busy [] (· = u)) ∧
  (msgType m = 6 → let k := wordAt m 2
    let r0 := s.hostWords (dwordAt m 3) 32
    let r := withClusters r0 ((recClusters r0).filter fun c => !s.withdrawn.contains c)
    let placed : Prop := ∃ e ∈ s.ctxs, e.2.part = k
    if 16 ≤ k then s.Replies .partwr n .badField [] (· = u)
    else if wordAt r0 0 < 2 ^ 31 then (placed → s.Replies .partwr n .busy [] (· = u)) ∧
      (¬ placed → (partBad r0 = true ∨ s.partOverlaps k r0 = true) → s.Replies .partwr n .badField [] (· = u)) ∧
      (¬ placed → partBad r0 = false → s.partOverlaps k r0 = false → s.Replies .partwr n .ok [] fun w => NMap.find w.parts k = none ∧ ∀ e ∈ w.wins, winPart e.2.words ≠ k)
    else if partBad r0 = true ∨ s.partOverlaps k r = true then s.Replies .partwr n .badField [] (· = u)
    else match NMap.find s.parts k with
      | none => s.Replies .partwr n .ok [] fun w => ∃ p, NMap.find w.parts k = some p ∧ p.rec_ = r ∧ p.pendingRec = none ∧ { w with parts := s.parts } = u
      | some p => let q := if p.rec_.take 16 = r.take 16 ∧ p.rec_.drop 24 = r.drop 24 then { p with pendingRec := some r } else { p with rec_ := r, pendingRec := none }
          (placed → partMoves p.rec_ r = true → s.Replies .partwr n .badField [] (· = u)) ∧
          ((¬ placed ∨ partMoves p.rec_ r = false) → s.Replies .partwr n .ok [] (· = { u with parts := NMap.put s.parts k q }))) ∧
  (msgType m = 10 → s.Replies .attest n .ok [1024, certLen] fun w => w.mem = s.mem ∧ w.hostWords (dwordAt m 10) 8 = (m.drop 2).take 8 ∧
    w.hostWords (dwordAt m 10 + 176) 2 = [Word.ofNat s.horizon, Word.ofNat (s.horizon / 2 ^ 32)]) ∧
  (msgType m = 11 → s.Replies .health n .ok [4] fun w => w.mem = s.mem ∧ ∀ d < 4, w.hostWords (dwordAt m 2 + 32 * d) 8 =
    (let x := NMap.get s.health d Health.unknown
     [BitVec.ofInt 32 x.drift, Word.ofNat x.stress, Word.ofNat (min x.life 0xFFFFFFFF), Word.ofNat x.junction, 0, 0, 0, 0]))

/-- Registers of the host link and the boot, power and thermal states (R21, R378, R379, R384 to R388, R391 to R393): doorbells, ring heads and sizes, a restart, the image, entries written when they can be; a device reset keeps memory, a thermal one loses it; a trip resets every context. -/
def Obligations.HostRegistersAndPower : Prop := ∀ s : State, s.Canon → let h := s.host
  let host (i : Instr) (k : HostLink) : Prop := exec i s = .next { s with host := k }
  (∀ v, (if h.en = true ∧ h.restart = false ∧ h.passed v = true then exec (.sqtail v) s = .next s else host (.sqtail v) { h with sqtail := v % 2 ^ 32 }) ∧
    host (.cqhead v) { h with cqhead := v % 2 ^ 32 } ∧
    (h.restart = false → v / 2 ^ 30 % 2 = 0 → host (.lcctlEnable v) { h with en := decide (4 ≤ v / 2 ^ 8 % 16 ∧ v / 2 ^ 8 % 16 ≤ 12 ∧ 4 ≤ v % 16 ∧ v % 16 ≤ 12), sqlog := v / 2 ^ 8 % 16, cqlog := v % 16 }) ∧
    (if s.boot = .recovery then exec (.provcmd v) s = .next { s with boot := .verify, host := { h with provcmd := v % 2 ^ 32, image := NMap.slice h.staging 0 (v % 2 ^ 32), imageLen := v % 2 ^ 32 } }
     else exec (.provcmd v) s = .next s) ∧
    ∀ c x, s.ctx? c = some x → (∃ t, exec (.erhead c v) s = .next t ∧ { t with ctxs := s.ctxs } = { s with host := { h with heads := NMap.put h.heads (16 + c) (v % 2 ^ 32) } } ∧ t.ctx? c = some { x with erHead := x.erHead + headStep x.erHead x.erTail x.erSize v }) ∧
      ∃ t, exec (.frhead c v) s = .next t ∧ t.mem = s.mem ∧ t.regs = s.regs ∧ t.host = { h with heads := NMap.put h.heads c (v % 2 ^ 32) } ∧ t.ctx? c = some { x with frHead := x.frHead + headStep x.frHead x.frTail x.frSize v }) ∧
  (h.restart = false → h.sqlog < 16 → h.cqlog < 16 → ∃ k, host .restart k ∧ (k.restart, k.written, k.sqhead, k.cqtail, k.replay, k.sqtail, k.cqhead) = (true, [], 0, 0, [], h.sqtail, h.cqhead) ∧
    (k.hack, k.dseqw, k.retained, k.events, k.sqlog, k.cqlog) = (h.hack, h.dseqw, h.retained, h.events, h.sqlog, h.cqlog)) ∧
  (∀ v, h.restart = true → (∀ o ∈ [0x08, 0x10, 0x3C], o ∈ h.written) → 4 ≤ v / 2 ^ 8 % 16 → v / 2 ^ 8 % 16 ≤ 12 → 4 ≤ v % 16 → v % 16 ≤ 12 → ∃ k, host (.lcctlEnable v) k ∧
    k.en = true ∧ k.restart = decide (v / 2 ^ 30 % 2 = 1) ∧ (k.restart = false → k.replay = h.retained.filter fun e =>
      decide (0 < (wordAt e 1 + 2 ^ 32 - h.cqreplay) % 2 ^ 32 ∧ (wordAt e 1 + 2 ^ 32 - h.cqreplay) % 2 ^ 32 < 2 ^ 31))) ∧
  (∀ off v, off ∈ [0x00, 0x28, 0x2C, 0x30, 0x34, 0x38, 0x44] → exec (.registerWrite (.bar0 off v)) s = .next s) ∧
  (∀ v, host (.registerWrite (.bar0 0x08 v)) { (h.note 0x08) with sqbase := v % 2 ^ 64 / 4096 * 4096 } ∧ host (.registerWrite (.bar0 0x10 v)) { (h.note 0x10) with cqbase := v % 2 ^ 64 / 4096 * 4096 } ∧
    host (.registerWrite (.bar0 0x3C v)) { (h.note 0x3C) with cqreplay := v % 2 ^ 32 } ∧ exec (.registerWrite (.bar0 0x20 v)) s = exec (.sqtail v) s ∧
    exec (.registerWrite (.bar0 0x24 v)) s = exec (.cqhead v) s ∧ exec (.registerWrite (.bar0 0x40 v)) s = exec (.provcmd v) s) ∧
  (∀ off b, if s.boot = .recovery ∧ off < 2 ^ 26 then host (.registerWrite (.bar2 off b)) { h with staging := NMap.store h.staging off b 0 }
    else exec (.registerWrite (.bar2 off b)) s = .next s) ∧
  (s.cqOpen = false → exec .eventWrite s = .next s) ∧
  (s.cqOpen = true → let slot := h.cqbase + 64 * (h.cqtail % 2 ^ h.cqlog)
    let stamped (e : List Word) : List Word := (e.set 1 (Word.ofNat ((h.dseqw + 1) % 2 ^ 32))).set 2 (Word.ofNat h.hack)
    (∀ e es, h.replay = e :: es → e.length = 16 → ∃ t, exec .eventWrite s = .next t ∧ t.host.replay = es ∧ t.host.dseqw = h.dseqw ∧ t.hostWords slot 16 = e) ∧
    (∀ e es, h.replay = [] → h.due = e :: es → e.length = 16 → ∃ t, exec .eventWrite s = .next t ∧ t.host.due = es ∧ t.hostWords slot 16 = stamped e) ∧
    ∀ e es, h.replay = [] → h.due = [] → h.events = e :: es → e.length = 16 → ∃ t, exec .eventWrite s = .next t ∧ t.host.events = es ∧ t.hostWords slot 16 = stamped e ∧
      t.host.dseqw = (h.dseqw + 1) % 2 ^ 32 ∧ t.host.cqtail = (h.cqtail + 1) % 2 ^ h.cqlog) ∧
  (let lost (t : State) : Prop := (t.fibres, t.plans, t.ctxs, t.parts) = ([], [], [], []) ∧ t.hmem = s.hmem ∧ t.host.image = h.image ∧ t.health = s.health ∧ t.throttle = 0
   (∃ t, exec .deviceReset s = .next t ∧ lost t ∧ t.boot = .verify ∧ t.mem = s.mem) ∧
   (if s.throttle = 3 then ∃ t, exec .thermalRecover s = .next t ∧ lost t ∧ t.boot = .reset ∧ t.mem = State.reset.mem else exec .thermalRecover s = .next s) ∧
   (s.throttle ≠ 3 → (∀ v, exec (.powerThrottle v) s = .next { s with throttle := min v 2 }) ∧ exec .thermalThrottle s = .next { s with throttle := min (s.throttle + 1) 2 } ∧
     ∃ t, exec .thermalTrip s = .next t ∧ t.throttle = 3 ∧ t.mem = s.mem ∧ ∀ e ∈ t.plans, NMap.find s.ctxs (e.1 / 16) = none) ∧
   (s.throttle = 3 → (∀ v, exec (.powerThrottle v) s = .next s) ∧ exec .thermalThrottle s = .next s ∧ exec .thermalTrip s = .next s)) ∧
  ((s.boot = .reset ∨ s.boot = .verify) → exec .imageVerify s = .next { s with boot := if Config.imageVerifies h.image h.imageLen then .ready else .recovery }) ∧
  ((s.boot = .ready ∨ s.boot = .recovery) → exec .imageVerify s = .next s) ∧
  ∀ die drift stress life junction, ∃ t, exec (.healthSample die drift stress life junction) s = .next t ∧ t.mem = s.mem ∧
    NMap.find t.health (die % 4) = some { drift := drift, stress := stress, life := life, junction := junction } ∧
    if life < 8760 ∧ s.warned = false then t.warned = true ∧ (h.events.length < 256 → ∃ e ∈ t.host.events, e.head? = some (0x010B0000 : Word))
    else t.warned = s.warned ∧ t.host = h

/-- Encodings (R26 to R52): the decoder reads every well-formed instruction back from its words, with every operand, whatever follows them, and it answers well-formed instructions alone. -/
def Obligations.DecodeEncode : Prop := (∀ (i : Instr) (rest : List Word), i.encoded = true → i.wf = true → decode (encode i ++ rest) = .ok i) ∧
  ∀ ws i, decode ws = .ok i → i.wf = true

/-- Words of the manual's examples and of its encodings decode to the instructions they stand for, and every reserved opcode and function code is refused (R49, R50). -/
def Obligations.DecodedWords : Prop := (∀ e ∈ ([([0x0000011E], .movi 0 (.v 2)), ([0x00604147, 0x18], .loopi false (.v 1) (.v 3) (.v 2) 24), ([0x0FA08201, 1], .iadd .wrap (.v 2) (.lit [1]) (.v 4)),
      ([0x0040C290], .shl false (.v 3) (.v 2) (.v 5)), ([0xAFA0A09A, 3], .icmp .ge true false (.v 2) (.lit [3]) 1), ([0x2081421B], .isel 1 (.v 5) (.v 4) (.v 4)),
      ([0x00010305], .imul .lo (.v 4) (.v 0) (.v 6)), ([0xC1450A28], .fadd .bf16x2 false (.v 20) (.v 10) (.v 20)), ([0x20000677], .perfClr 0 (.v 12)),
      ([0x2F818462], .lds .b32 none (.v 6) .vz (.v 8)), ([0x4F860861], .st .b128 none (.v 24) .vz (.v 16)), ([0x60000068], .fence .device),
      ([0x00200070], .trap 0 1), ([0x82000073], .csrwr 0x410 (.v 0)), ([0x20000071], .eretSkip), ([0xF8B3F80F], .cpTile (.v 44)),
      ([0x120FFB3F], .pRel (.v 3) (.v 9)), ([0xF9F7FC6F, 1], .tCntWr (.lit [1]) .vz), ([0xF9F0D52F], .fxFence (.v 26))] : List (List Word × Instr)),
    decode e.1 = .ok e.2) ∧
  (∀ (w : Word) (ext : List Word), w.toNat % 16 ≠ 15 → (w.toNat % 128 = 0x3E ∨ (0x58 ≤ w.toNat % 128 ∧ w.toNat % 128 ≤ 0x5E) ∨
    (0x6C ≤ w.toNat % 128 ∧ w.toNat % 128 ≤ 0x6E) ∨ (0x7A ≤ w.toNat % 128 ∧ w.toNat % 128 ≤ 0x7E)) → decode (w :: ext) = .error .reserved) ∧
  ∀ (w : Word) (ext : List Word), w.toNat % 16 = 15 → let f := w.toNat / 16 % 128
    ((0x08 ≤ f ∧ f ≤ 0x0F) ∨ (0x1C ≤ f ∧ f ≤ 0x2F) ∨ (0x36 ≤ f ∧ f ≤ 0x3F) ∨ (0x47 ≤ f ∧ f ≤ 0x4F) ∨ 0x54 ≤ f) → decode (w :: ext) = .error .reserved

/-- Issue (R29, R38, R39): a group that may issue, standing inside its clause, runs the instruction that its next words decode to; a reserved word is an illegal instruction, a broken operand rule traps in every lane. The agenda says whether a step is such an issue, an event, time, or a cycle in which every QC issues (log 6). -/
def Obligations.StepRunsTheDecodedInstruction : Prop := (∀ (s : State) (g f : Nat) (r : List Nat) (w : Word) (ws : List Word), s.mayIssue g = true → (s.group g).members = f :: r →
    (s.fibre f).pos ≠ 0 → (s.fibre f).pos ≠ arriving → ((s.fibre f).code.drop (s.fibre f).pos).map s.wordAtLoc = w :: ws →
    let u : State := { s.modFibres (f :: r) (fun x => { x with npos := (s.fibre f).pos + 1 + extCount w.toNat }) with cur := some g }
    (∀ i, decode (w :: ws) = .ok i → s.issueTurn g = exec i u) ∧
    (decode (w :: ws) = .error .reserved → s.issueTurn g = exec (.illegalInstruction w) u) ∧
    ∀ e, decode (w :: ws) = .error e → e ≠ .reserved → s.issueTurn g = .next (u.badOperand g w.toNat)) ∧
  ∀ (s : State) (ts : List Turn), (∀ g, s.agenda = .issue g :: ts → step s = State.issueTurn { s with agenda := ts } g) ∧
    (∀ e, s.agenda = .happen e :: ts → step s = exec e { s with agenda := ts, cur := none }) ∧
    (∀ n, s.agenda = .elapse n :: ts → step s = .next (State.pass ((s.groups.map Prod.fst).foldl (State.readyTick n) { s with agenda := ts }) n)) ∧
    (s.agenda = [] → step s = s.cycleTurn)

/-- Every step keeps memory, scratchpads, registers, uniform registers and queues in canonical form and the tables sorted. -/
def Obligations.EveryStepKeepsCanonicalForms : Prop := ∀ s t : State, s.Canon → step s = .next t → t.Canon

/-- After reset the forms are canonical, the device stands in RESET, no context, plan, team or fibre exists, and the launch channel's registers read zero (R379, R388). -/
def Obligations.ResetState : Prop := State.reset.Canon ∧ State.reset.boot = .reset ∧ State.reset.ctxs = [] ∧ State.reset.plans = [] ∧ State.reset.teams = [] ∧
  State.reset.fibres = [] ∧ State.reset.parts = [] ∧ ∀ off, State.reset.bar0Read off = 0

/-- No instruction and no event is refused, and one stops only at an address that no stack of memory holds: the page there reaches past the device's memory. -/
def Obligations.NothingIsRefused : Prop := let good (o : Out) : Prop := (∃ t, o = .next t) ∨ ∃ pa, o = .fault (.physicalAddressAbsent pa) ∧ deviceBytes < pa + 4096
  (∀ (i : Instr) (s : State), good (exec i s)) ∧ ∀ s : State, good (step s)

/-- `isel` and `lea` (R140, R141): their words, and what they write. -/
def Obligations.SelectAndScaledAdd : Prop := (∀ (k : Fin 8) (u : Bool) (a b d : Nat), a < 120 → d < 120 → (if u then b < 64 else b < 120) →
    let w (op : Nat) : Word := Word.ofNat (op + 2 ^ 7 * d + 2 ^ 14 * a + 2 ^ 21 * b + (if u then 2 ^ 28 else 0) + 2 ^ 29 * k.val)
    let y : Src := if u then .s b else .v b
    decode [w 0x1B] = .ok (.isel (k.castLE (by decide)) (.v a) y (.v d)) ∧
    (a % 2 = 0 → d % 2 = 0 → decode [w 0x1C] = .ok (.lea k (.v a) y (.v d)))) ∧
  ∀ (s : State) (g : Nat) (fs : List Nat), s.Canon → s.Issues g fs → ∀ a b d,
    (∀ p : Pred, s.Does g fs (.isel p a b d) [(1, a), (1, b)] (some (1, d)) fun ls f =>
      LaneOut.num 1 (if p = 0 ∨ (s.fibre f).preds.getLsbD p.val = true then (laneFor ls f).n 0 else (laneFor ls f).n 1)) ∧
    ∀ k : Fin 8, s.Does g fs (.lea k a b d) [(2, a), (1, b)] (some (2, d)) fun ls f =>
      LaneOut.num 2 (stored 64 ((laneFor ls f).n 0 + signed 32 ((laneFor ls f).n 1) * 2 ^ k.val))

/-- Results on their way (R122): what a fixed-latency instruction gives a register the fibre reads at once and no other fibre does; as time passes, of the results due for one register the one whose latency ends last stays, one not yet due goes on, and a register for which none is due keeps its value. -/
def Obligations.ResultsLand : Prop := ∀ s : State, s.Canon →
  (∀ (f n lat : Nat) (x : Word), n < 512 → let t := s.flyReg f n lat x
    t.view f n = x ∧ t.regs = s.regs ∧ (∀ h m, m < 512 → (h ≠ f ∨ m ≠ n) → t.view h m = s.view h m) ∧
    ∃ e ∈ t.flying, e.key = regKey (hlOf f) n ∧ e.value = x ∧ s.cycle + lat ≤ e.due ∧ ((∀ y ∈ s.flying, y.fibre = f → y.key ≠ e.key) → e.due = s.cycle + lat)) ∧
  ∀ n, let t := s.elapse n
    (∀ e ∈ s.flying, e.due ≤ s.cycle + n → (∀ y ∈ s.flying, y.key = e.key → y.due ≤ s.cycle + n → y = e ∨ y.due < e.due) → NMap.get t.regs e.key 0 = e.value) ∧
    (∀ k, (∀ e ∈ s.flying, e.key = k → s.cycle + n < e.due) → NMap.get t.regs k 0 = NMap.get s.regs k 0) ∧
    t.flying = s.flying.filter fun e => decide (s.cycle + n < e.due)
end

