-- ==== Sys2Proof/Laws/Maps.lean ====
section
/-! SUPPORT. Laws of the finite maps: what is read after a write, and that the sorted form is kept. -/

namespace Sys2Proof.Machine

@[simp] theorem NMap.find_nil {α : Type} (i : Nat) : NMap.find ([] : NMap α) i = none := rfl

/-- A key reads what was put there; every other key reads as before. -/
theorem NMap.find_put {α : Type} (m : NMap α) (i j : Nat) (x : α) :
    NMap.find (NMap.put m i x) j = if j = i then some x else NMap.find m j := by
  induction m with
  | nil => simp only [NMap.put, NMap.find]; split <;> simp_all
  | cons e m ih =>
    obtain ⟨k, v⟩ := e
    simp only [NMap.put]
    rcases Nat.lt_trichotomy i k with h | h | h
    · rw [if_neg (by omega), if_pos h]; simp only [NMap.find]; split_ifs <;> first | rfl | omega
    · subst h; rw [if_pos rfl]; simp only [NMap.find]; split_ifs <;> rfl
    · rw [if_neg (by omega), if_neg (by omega)]; simp only [NMap.find, ih]; split_ifs <;> first | rfl | omega

@[simp] theorem NMap.find_put_self {α : Type} (m : NMap α) (i : Nat) (x : α) : NMap.find (NMap.put m i x) i = some x := by
  simp [NMap.find_put]

theorem NMap.find_put_ne {α : Type} (m : NMap α) {i j : Nat} (x : α) (h : j ≠ i) : NMap.find (NMap.put m i x) j = NMap.find m j := by
  simp [NMap.find_put, h]

theorem NMap.get_put {α : Type} (m : NMap α) (i j : Nat) (x d : α) :
    NMap.get (NMap.put m i x) j d = if j = i then x else NMap.get m j d := by
  simp only [NMap.get, NMap.find_put]; split <;> rfl

/-- An edit changes the entry at its key, if there is one, and no other. -/
theorem NMap.find_edit {α : Type} (m : NMap α) (i j : Nat) (f : α → α) :
    NMap.find (NMap.edit m i f) j = if j = i then (NMap.find m i).map f else NMap.find m j := by
  unfold NMap.edit
  split
  · next x h => rw [NMap.find_put, h]; rfl
  · next h => split_ifs with e <;> simp_all

/-! The sorted form. -/

/-- Every key lies above a bound. -/
def NMap.above {α : Type} (b : Nat) (m : NMap α) : Prop := ∀ e ∈ m, b < e.1

theorem NMap.wf_cons {α : Type} (e : Nat × α) (m : NMap α) : NMap.wf (e :: m) = true ↔ NMap.above e.1 m ∧ NMap.wf m = true := by
  induction m generalizing e with
  | nil => simp [NMap.wf, NMap.above]
  | cons c m ih =>
    have h := ih c
    simp only [NMap.wf, Bool.and_eq_true, decide_eq_true_eq]
    constructor
    · rintro ⟨a, b⟩
      exact ⟨List.forall_mem_cons.mpr ⟨a, fun x hx => Nat.lt_trans a ((h.mp b).1 x hx)⟩, b⟩
    · rintro ⟨a, b⟩
      exact ⟨a c (List.mem_cons_self ..), b⟩

@[simp] theorem NMap.wf_nil {α : Type} : NMap.wf ([] : NMap α) = true := rfl

/-- What a put holds: the entry put there, and entries that were there before. -/
theorem NMap.mem_put {α : Type} {m : NMap α} {i : Nat} {x : α} {e : Nat × α} (h : e ∈ NMap.put m i x) : e = (i, x) ∨ e ∈ m := by
  induction m <;> simp_all only [NMap.put, List.mem_singleton, true_or]
  next c m ih => split_ifs at h <;> simp only [List.mem_cons] at h ⊢  <;> first | tauto | (subst_vars; tauto)

theorem NMap.above_put {α : Type} {b i : Nat} {m : NMap α} (x : α) (h : NMap.above b m) (hb : b < i) : NMap.above b (NMap.put m i x) :=
  fun e he => (NMap.mem_put he).elim (fun q => q ▸ hb) (h e)

theorem NMap.wf_put {α : Type} {m : NMap α} (i : Nat) (x : α) (h : NMap.wf m = true) : NMap.wf (NMap.put m i x) = true := by
  induction m with
  | nil => rfl
  | cons c m ih =>
    obtain ⟨k, v⟩ := c
    obtain ⟨ha, hm⟩ := (NMap.wf_cons _ _).mp h
    simp only [NMap.put]
    split_ifs with h1 h2
    · subst h1; exact (NMap.wf_cons _ _).mpr ⟨ha, hm⟩
    · exact (NMap.wf_cons _ _).mpr ⟨List.forall_mem_cons.mpr ⟨h2, fun e he => Nat.lt_trans h2 (ha e he)⟩, h⟩
    · exact (NMap.wf_cons _ _).mpr ⟨NMap.above_put x ha (by simp only; omega), ih hm⟩

theorem NMap.mem_del {α : Type} {m : NMap α} {i : Nat} {e : Nat × α} (h : e ∈ NMap.del m i) : e ∈ m := by
  induction m <;> simp_all only [NMap.del]
  next c m ih => split_ifs at h <;> simp only [List.mem_cons] at h ⊢ <;> tauto

theorem NMap.wf_del {α : Type} {m : NMap α} (i : Nat) (h : NMap.wf m = true) : NMap.wf (NMap.del m i) = true := by
  induction m with
  | nil => rfl
  | cons c m ih =>
    obtain ⟨k, v⟩ := c
    obtain ⟨ha, hm⟩ := (NMap.wf_cons _ _).mp h
    simp only [NMap.del]
    split_ifs
    · exact hm
    · exact h
    · exact (NMap.wf_cons _ _).mpr ⟨fun e he => ha e (NMap.mem_del he), ih hm⟩

theorem NMap.wf_edit {α : Type} {m : NMap α} (i : Nat) (f : α → α) (h : NMap.wf m = true) : NMap.wf (NMap.edit m i f) = true := by
  unfold NMap.edit; split
  · exact NMap.wf_put _ _ h
  · exact h

theorem NMap.wf_store {α : Type} [DecidableEq α] {m : NMap α} (i : Nat) (x d : α) (h : NMap.wf m = true) :
    NMap.wf (NMap.store m i x d) = true := by
  unfold NMap.store; split
  · exact NMap.wf_del _ h
  · exact NMap.wf_put _ _ h

theorem NMap.wf_filter {α : Type} {m : NMap α} (p : Nat × α → Bool) (h : NMap.wf m = true) : NMap.wf (m.filter p) = true := by
  induction m with
  | nil => rfl
  | cons c m ih =>
    obtain ⟨ha, hm⟩ := (NMap.wf_cons _ _).mp h
    simp only [List.filter_cons]
    split
    · exact (NMap.wf_cons _ _).mpr ⟨fun e he => ha e (List.mem_of_mem_filter he), ih hm⟩
    · exact ih hm

theorem NMap.find_above {α : Type} {b : Nat} {m : NMap α} (h : NMap.above b m) {j : Nat} (hj : j ≤ b) : NMap.find m j = none := by
  induction m with
  | nil => rfl
  | cons c m ih =>
    obtain ⟨k, v⟩ := c
    have hk : b < k := h (k, v) (List.mem_cons_self ..)
    simp only [NMap.find]
    split_ifs
    · omega
    · rfl
    · omega

theorem NMap.find_del {α : Type} {m : NMap α} (i j : Nat) (h : NMap.wf m = true) :
    NMap.find (NMap.del m i) j = if j = i then none else NMap.find m j := by
  induction m with
  | nil => simp [NMap.del]
  | cons c m ih =>
    obtain ⟨k, v⟩ := c
    obtain ⟨ha, hm⟩ := (NMap.wf_cons _ _).mp h
    have := ih hm
    simp only [NMap.del]
    split_ifs with h1 h2 h3 h4 h5
    · subst h1; subst h2; exact NMap.find_above ha (Nat.le_refl _)
    · subst h1
      simp only [NMap.find]
      split_ifs with h7
      · exact NMap.find_above ha (by simp only; omega)
      · rfl
    · subst h4; simp only [NMap.find]; split_ifs; rfl
    · rfl
    · subst h5; simp only [NMap.find]; split_ifs; first | rfl | simp_all
    · simp only [NMap.find]; split_ifs <;> first | rfl | simp_all

/-- What a key reads after a store: the value stored there, elsewhere what it read before. -/
theorem NMap.get_store {α : Type} [DecidableEq α] {m : NMap α} (i j : Nat) (x d : α) (h : NMap.wf m = true) :
    NMap.get (NMap.store m i x d) j d = if j = i then x else NMap.get m j d := by
  unfold NMap.store NMap.get
  split
  · next e => subst e; rw [NMap.find_del _ _ h]; split_ifs <;> rfl
  · rw [NMap.find_put]; split_ifs <;> rfl

end Sys2Proof.Machine
end

