-- ==== Sys2Proof/Laws/State.lean ====
section
/-! SUPPORT. What each named update of the state leaves alone: one lemma per field, true by definition. -/

namespace Sys2Proof.Machine

/-! modFibre changes fibres alone. -/

@[simp] theorem State.modFibre_cycle (s : State) (f : Nat) (k : Fibre → Fibre) : (s.modFibre f k).cycle = s.cycle := rfl
@[simp] theorem State.modFibre_agenda (s : State) (f : Nat) (k : Fibre → Fibre) : (s.modFibre f k).agenda = s.agenda := rfl
@[simp] theorem State.modFibre_cur (s : State) (f : Nat) (k : Fibre → Fibre) : (s.modFibre f k).cur = s.cur := rfl
@[simp] theorem State.modFibre_fresh (s : State) (f : Nat) (k : Fibre → Fibre) : (s.modFibre f k).fresh = s.fresh := rfl
@[simp] theorem State.modFibre_nextId (s : State) (f : Nat) (k : Fibre → Fibre) : (s.modFibre f k).nextId = s.nextId := rfl
@[simp] theorem State.modFibre_mem (s : State) (f : Nat) (k : Fibre → Fibre) : (s.modFibre f k).mem = s.mem := rfl
@[simp] theorem State.modFibre_hmem (s : State) (f : Nat) (k : Fibre → Fibre) : (s.modFibre f k).hmem = s.hmem := rfl
@[simp] theorem State.modFibre_poison (s : State) (f : Nat) (k : Fibre → Fibre) : (s.modFibre f k).poison = s.poison := rfl
@[simp] theorem State.modFibre_lines (s : State) (f : Nat) (k : Fibre → Fibre) : (s.modFibre f k).lines = s.lines := rfl
@[simp] theorem State.modFibre_spad (s : State) (f : Nat) (k : Fibre → Fibre) : (s.modFibre f k).spad = s.spad := rfl
@[simp] theorem State.modFibre_regs (s : State) (f : Nat) (k : Fibre → Fibre) : (s.modFibre f k).regs = s.regs := rfl
@[simp] theorem State.modFibre_flying (s : State) (f : Nat) (k : Fibre → Fibre) : (s.modFibre f k).flying = s.flying := rfl
@[simp] theorem State.modFibre_uregs (s : State) (f : Nat) (k : Fibre → Fibre) : (s.modFibre f k).uregs = s.uregs := rfl
@[simp] theorem State.modFibre_groups (s : State) (f : Nat) (k : Fibre → Fibre) : (s.modFibre f k).groups = s.groups := rfl
@[simp] theorem State.modFibre_teams (s : State) (f : Nat) (k : Fibre → Fibre) : (s.modFibre f k).teams = s.teams := rfl
@[simp] theorem State.modFibre_hwins (s : State) (f : Nat) (k : Fibre → Fibre) : (s.modFibre f k).hwins = s.hwins := rfl
@[simp] theorem State.modFibre_lprs (s : State) (f : Nat) (k : Fibre → Fibre) : (s.modFibre f k).lprs = s.lprs := rfl
@[simp] theorem State.modFibre_cores (s : State) (f : Nat) (k : Fibre → Fibre) : (s.modFibre f k).cores = s.cores := rfl
@[simp] theorem State.modFibre_tables (s : State) (f : Nat) (k : Fibre → Fibre) : (s.modFibre f k).tables = s.tables := rfl
@[simp] theorem State.modFibre_mxq (s : State) (f : Nat) (k : Fibre → Fibre) : (s.modFibre f k).mxq = s.mxq := rfl
@[simp] theorem State.modFibre_ops (s : State) (f : Nat) (k : Fibre → Fibre) : (s.modFibre f k).ops = s.ops := rfl
@[simp] theorem State.modFibre_reqs (s : State) (f : Nat) (k : Fibre → Fibre) : (s.modFibre f k).reqs = s.reqs := rfl
@[simp] theorem State.modFibre_poolq (s : State) (f : Nat) (k : Fibre → Fibre) : (s.modFibre f k).poolq = s.poolq := rfl
@[simp] theorem State.modFibre_mesh (s : State) (f : Nat) (k : Fibre → Fibre) : (s.modFibre f k).mesh = s.mesh := rfl
@[simp] theorem State.modFibre_sbars (s : State) (f : Nat) (k : Fibre → Fibre) : (s.modFibre f k).sbars = s.sbars := rfl
@[simp] theorem State.modFibre_bmsgs (s : State) (f : Nat) (k : Fibre → Fibre) : (s.modFibre f k).bmsgs = s.bmsgs := rfl
@[simp] theorem State.modFibre_plans (s : State) (f : Nat) (k : Fibre → Fibre) : (s.modFibre f k).plans = s.plans := rfl
@[simp] theorem State.modFibre_pipes (s : State) (f : Nat) (k : Fibre → Fibre) : (s.modFibre f k).pipes = s.pipes := rfl
@[simp] theorem State.modFibre_ctxs (s : State) (f : Nat) (k : Fibre → Fibre) : (s.modFibre f k).ctxs = s.ctxs := rfl
@[simp] theorem State.modFibre_parts (s : State) (f : Nat) (k : Fibre → Fibre) : (s.modFibre f k).parts = s.parts := rfl
@[simp] theorem State.modFibre_images (s : State) (f : Nat) (k : Fibre → Fibre) : (s.modFibre f k).images = s.images := rfl
@[simp] theorem State.modFibre_preempts (s : State) (f : Nat) (k : Fibre → Fibre) : (s.modFibre f k).preempts = s.preempts := rfl
@[simp] theorem State.modFibre_gangs (s : State) (f : Nat) (k : Fibre → Fibre) : (s.modFibre f k).gangs = s.gangs := rfl
@[simp] theorem State.modFibre_wins (s : State) (f : Nat) (k : Fibre → Fibre) : (s.modFibre f k).wins = s.wins := rfl
@[simp] theorem State.modFibre_planesDown (s : State) (f : Nat) (k : Fibre → Fibre) : (s.modFibre f k).planesDown = s.planesDown := rfl
@[simp] theorem State.modFibre_inbox (s : State) (f : Nat) (k : Fibre → Fibre) : (s.modFibre f k).inbox = s.inbox := rfl
@[simp] theorem State.modFibre_fxf (s : State) (f : Nat) (k : Fibre → Fibre) : (s.modFibre f k).fxf = s.fxf := rfl
@[simp] theorem State.modFibre_fabOut (s : State) (f : Nat) (k : Fibre → Fibre) : (s.modFibre f k).fabOut = s.fabOut := rfl
@[simp] theorem State.modFibre_tilesIn (s : State) (f : Nat) (k : Fibre → Fibre) : (s.modFibre f k).tilesIn = s.tilesIn := rfl
@[simp] theorem State.modFibre_grantsIn (s : State) (f : Nat) (k : Fibre → Fibre) : (s.modFibre f k).grantsIn = s.grantsIn := rfl
@[simp] theorem State.modFibre_peerEnds (s : State) (f : Nat) (k : Fibre → Fibre) : (s.modFibre f k).peerEnds = s.peerEnds := rfl
@[simp] theorem State.modFibre_host (s : State) (f : Nat) (k : Fibre → Fibre) : (s.modFibre f k).host = s.host := rfl
@[simp] theorem State.modFibre_boot (s : State) (f : Nat) (k : Fibre → Fibre) : (s.modFibre f k).boot = s.boot := rfl
@[simp] theorem State.modFibre_health (s : State) (f : Nat) (k : Fibre → Fibre) : (s.modFibre f k).health = s.health := rfl
@[simp] theorem State.modFibre_throttle (s : State) (f : Nat) (k : Fibre → Fibre) : (s.modFibre f k).throttle = s.throttle := rfl
@[simp] theorem State.modFibre_warned (s : State) (f : Nat) (k : Fibre → Fibre) : (s.modFibre f k).warned = s.warned := rfl
@[simp] theorem State.modFibre_withdrawn (s : State) (f : Nat) (k : Fibre → Fibre) : (s.modFibre f k).withdrawn = s.withdrawn := rfl

/-! modGroup changes groups alone. -/

@[simp] theorem State.modGroup_cycle (s : State) (g : Nat) (k : Group → Group) : (s.modGroup g k).cycle = s.cycle := rfl
@[simp] theorem State.modGroup_agenda (s : State) (g : Nat) (k : Group → Group) : (s.modGroup g k).agenda = s.agenda := rfl
@[simp] theorem State.modGroup_cur (s : State) (g : Nat) (k : Group → Group) : (s.modGroup g k).cur = s.cur := rfl
@[simp] theorem State.modGroup_fresh (s : State) (g : Nat) (k : Group → Group) : (s.modGroup g k).fresh = s.fresh := rfl
@[simp] theorem State.modGroup_nextId (s : State) (g : Nat) (k : Group → Group) : (s.modGroup g k).nextId = s.nextId := rfl
@[simp] theorem State.modGroup_mem (s : State) (g : Nat) (k : Group → Group) : (s.modGroup g k).mem = s.mem := rfl
@[simp] theorem State.modGroup_hmem (s : State) (g : Nat) (k : Group → Group) : (s.modGroup g k).hmem = s.hmem := rfl
@[simp] theorem State.modGroup_poison (s : State) (g : Nat) (k : Group → Group) : (s.modGroup g k).poison = s.poison := rfl
@[simp] theorem State.modGroup_lines (s : State) (g : Nat) (k : Group → Group) : (s.modGroup g k).lines = s.lines := rfl
@[simp] theorem State.modGroup_spad (s : State) (g : Nat) (k : Group → Group) : (s.modGroup g k).spad = s.spad := rfl
@[simp] theorem State.modGroup_regs (s : State) (g : Nat) (k : Group → Group) : (s.modGroup g k).regs = s.regs := rfl
@[simp] theorem State.modGroup_flying (s : State) (g : Nat) (k : Group → Group) : (s.modGroup g k).flying = s.flying := rfl
@[simp] theorem State.modGroup_uregs (s : State) (g : Nat) (k : Group → Group) : (s.modGroup g k).uregs = s.uregs := rfl
@[simp] theorem State.modGroup_fibres (s : State) (g : Nat) (k : Group → Group) : (s.modGroup g k).fibres = s.fibres := rfl
@[simp] theorem State.modGroup_teams (s : State) (g : Nat) (k : Group → Group) : (s.modGroup g k).teams = s.teams := rfl
@[simp] theorem State.modGroup_hwins (s : State) (g : Nat) (k : Group → Group) : (s.modGroup g k).hwins = s.hwins := rfl
@[simp] theorem State.modGroup_lprs (s : State) (g : Nat) (k : Group → Group) : (s.modGroup g k).lprs = s.lprs := rfl
@[simp] theorem State.modGroup_cores (s : State) (g : Nat) (k : Group → Group) : (s.modGroup g k).cores = s.cores := rfl
@[simp] theorem State.modGroup_tables (s : State) (g : Nat) (k : Group → Group) : (s.modGroup g k).tables = s.tables := rfl
@[simp] theorem State.modGroup_mxq (s : State) (g : Nat) (k : Group → Group) : (s.modGroup g k).mxq = s.mxq := rfl
@[simp] theorem State.modGroup_ops (s : State) (g : Nat) (k : Group → Group) : (s.modGroup g k).ops = s.ops := rfl
@[simp] theorem State.modGroup_reqs (s : State) (g : Nat) (k : Group → Group) : (s.modGroup g k).reqs = s.reqs := rfl
@[simp] theorem State.modGroup_poolq (s : State) (g : Nat) (k : Group → Group) : (s.modGroup g k).poolq = s.poolq := rfl
@[simp] theorem State.modGroup_mesh (s : State) (g : Nat) (k : Group → Group) : (s.modGroup g k).mesh = s.mesh := rfl
@[simp] theorem State.modGroup_sbars (s : State) (g : Nat) (k : Group → Group) : (s.modGroup g k).sbars = s.sbars := rfl
@[simp] theorem State.modGroup_bmsgs (s : State) (g : Nat) (k : Group → Group) : (s.modGroup g k).bmsgs = s.bmsgs := rfl
@[simp] theorem State.modGroup_plans (s : State) (g : Nat) (k : Group → Group) : (s.modGroup g k).plans = s.plans := rfl
@[simp] theorem State.modGroup_pipes (s : State) (g : Nat) (k : Group → Group) : (s.modGroup g k).pipes = s.pipes := rfl
@[simp] theorem State.modGroup_ctxs (s : State) (g : Nat) (k : Group → Group) : (s.modGroup g k).ctxs = s.ctxs := rfl
@[simp] theorem State.modGroup_parts (s : State) (g : Nat) (k : Group → Group) : (s.modGroup g k).parts = s.parts := rfl
@[simp] theorem State.modGroup_images (s : State) (g : Nat) (k : Group → Group) : (s.modGroup g k).images = s.images := rfl
@[simp] theorem State.modGroup_preempts (s : State) (g : Nat) (k : Group → Group) : (s.modGroup g k).preempts = s.preempts := rfl
@[simp] theorem State.modGroup_gangs (s : State) (g : Nat) (k : Group → Group) : (s.modGroup g k).gangs = s.gangs := rfl
@[simp] theorem State.modGroup_wins (s : State) (g : Nat) (k : Group → Group) : (s.modGroup g k).wins = s.wins := rfl
@[simp] theorem State.modGroup_planesDown (s : State) (g : Nat) (k : Group → Group) : (s.modGroup g k).planesDown = s.planesDown := rfl
@[simp] theorem State.modGroup_inbox (s : State) (g : Nat) (k : Group → Group) : (s.modGroup g k).inbox = s.inbox := rfl
@[simp] theorem State.modGroup_fxf (s : State) (g : Nat) (k : Group → Group) : (s.modGroup g k).fxf = s.fxf := rfl
@[simp] theorem State.modGroup_fabOut (s : State) (g : Nat) (k : Group → Group) : (s.modGroup g k).fabOut = s.fabOut := rfl
@[simp] theorem State.modGroup_tilesIn (s : State) (g : Nat) (k : Group → Group) : (s.modGroup g k).tilesIn = s.tilesIn := rfl
@[simp] theorem State.modGroup_grantsIn (s : State) (g : Nat) (k : Group → Group) : (s.modGroup g k).grantsIn = s.grantsIn := rfl
@[simp] theorem State.modGroup_peerEnds (s : State) (g : Nat) (k : Group → Group) : (s.modGroup g k).peerEnds = s.peerEnds := rfl
@[simp] theorem State.modGroup_host (s : State) (g : Nat) (k : Group → Group) : (s.modGroup g k).host = s.host := rfl
@[simp] theorem State.modGroup_boot (s : State) (g : Nat) (k : Group → Group) : (s.modGroup g k).boot = s.boot := rfl
@[simp] theorem State.modGroup_health (s : State) (g : Nat) (k : Group → Group) : (s.modGroup g k).health = s.health := rfl
@[simp] theorem State.modGroup_throttle (s : State) (g : Nat) (k : Group → Group) : (s.modGroup g k).throttle = s.throttle := rfl
@[simp] theorem State.modGroup_warned (s : State) (g : Nat) (k : Group → Group) : (s.modGroup g k).warned = s.warned := rfl
@[simp] theorem State.modGroup_withdrawn (s : State) (g : Nat) (k : Group → Group) : (s.modGroup g k).withdrawn = s.withdrawn := rfl

/-! hold changes groups alone. -/

@[simp] theorem State.hold_cycle (s : State) (g : Nat) (w : Wait) : (s.hold g w).cycle = s.cycle := rfl
@[simp] theorem State.hold_agenda (s : State) (g : Nat) (w : Wait) : (s.hold g w).agenda = s.agenda := rfl
@[simp] theorem State.hold_cur (s : State) (g : Nat) (w : Wait) : (s.hold g w).cur = s.cur := rfl
@[simp] theorem State.hold_fresh (s : State) (g : Nat) (w : Wait) : (s.hold g w).fresh = s.fresh := rfl
@[simp] theorem State.hold_nextId (s : State) (g : Nat) (w : Wait) : (s.hold g w).nextId = s.nextId := rfl
@[simp] theorem State.hold_mem (s : State) (g : Nat) (w : Wait) : (s.hold g w).mem = s.mem := rfl
@[simp] theorem State.hold_hmem (s : State) (g : Nat) (w : Wait) : (s.hold g w).hmem = s.hmem := rfl
@[simp] theorem State.hold_poison (s : State) (g : Nat) (w : Wait) : (s.hold g w).poison = s.poison := rfl
@[simp] theorem State.hold_lines (s : State) (g : Nat) (w : Wait) : (s.hold g w).lines = s.lines := rfl
@[simp] theorem State.hold_spad (s : State) (g : Nat) (w : Wait) : (s.hold g w).spad = s.spad := rfl
@[simp] theorem State.hold_regs (s : State) (g : Nat) (w : Wait) : (s.hold g w).regs = s.regs := rfl
@[simp] theorem State.hold_flying (s : State) (g : Nat) (w : Wait) : (s.hold g w).flying = s.flying := rfl
@[simp] theorem State.hold_uregs (s : State) (g : Nat) (w : Wait) : (s.hold g w).uregs = s.uregs := rfl
@[simp] theorem State.hold_fibres (s : State) (g : Nat) (w : Wait) : (s.hold g w).fibres = s.fibres := rfl
@[simp] theorem State.hold_teams (s : State) (g : Nat) (w : Wait) : (s.hold g w).teams = s.teams := rfl
@[simp] theorem State.hold_hwins (s : State) (g : Nat) (w : Wait) : (s.hold g w).hwins = s.hwins := rfl
@[simp] theorem State.hold_lprs (s : State) (g : Nat) (w : Wait) : (s.hold g w).lprs = s.lprs := rfl
@[simp] theorem State.hold_cores (s : State) (g : Nat) (w : Wait) : (s.hold g w).cores = s.cores := rfl
@[simp] theorem State.hold_tables (s : State) (g : Nat) (w : Wait) : (s.hold g w).tables = s.tables := rfl
@[simp] theorem State.hold_mxq (s : State) (g : Nat) (w : Wait) : (s.hold g w).mxq = s.mxq := rfl
@[simp] theorem State.hold_ops (s : State) (g : Nat) (w : Wait) : (s.hold g w).ops = s.ops := rfl
@[simp] theorem State.hold_reqs (s : State) (g : Nat) (w : Wait) : (s.hold g w).reqs = s.reqs := rfl
@[simp] theorem State.hold_poolq (s : State) (g : Nat) (w : Wait) : (s.hold g w).poolq = s.poolq := rfl
@[simp] theorem State.hold_mesh (s : State) (g : Nat) (w : Wait) : (s.hold g w).mesh = s.mesh := rfl
@[simp] theorem State.hold_sbars (s : State) (g : Nat) (w : Wait) : (s.hold g w).sbars = s.sbars := rfl
@[simp] theorem State.hold_bmsgs (s : State) (g : Nat) (w : Wait) : (s.hold g w).bmsgs = s.bmsgs := rfl
@[simp] theorem State.hold_plans (s : State) (g : Nat) (w : Wait) : (s.hold g w).plans = s.plans := rfl
@[simp] theorem State.hold_pipes (s : State) (g : Nat) (w : Wait) : (s.hold g w).pipes = s.pipes := rfl
@[simp] theorem State.hold_ctxs (s : State) (g : Nat) (w : Wait) : (s.hold g w).ctxs = s.ctxs := rfl
@[simp] theorem State.hold_parts (s : State) (g : Nat) (w : Wait) : (s.hold g w).parts = s.parts := rfl
@[simp] theorem State.hold_images (s : State) (g : Nat) (w : Wait) : (s.hold g w).images = s.images := rfl
@[simp] theorem State.hold_preempts (s : State) (g : Nat) (w : Wait) : (s.hold g w).preempts = s.preempts := rfl
@[simp] theorem State.hold_gangs (s : State) (g : Nat) (w : Wait) : (s.hold g w).gangs = s.gangs := rfl
@[simp] theorem State.hold_wins (s : State) (g : Nat) (w : Wait) : (s.hold g w).wins = s.wins := rfl
@[simp] theorem State.hold_planesDown (s : State) (g : Nat) (w : Wait) : (s.hold g w).planesDown = s.planesDown := rfl
@[simp] theorem State.hold_inbox (s : State) (g : Nat) (w : Wait) : (s.hold g w).inbox = s.inbox := rfl
@[simp] theorem State.hold_fxf (s : State) (g : Nat) (w : Wait) : (s.hold g w).fxf = s.fxf := rfl
@[simp] theorem State.hold_fabOut (s : State) (g : Nat) (w : Wait) : (s.hold g w).fabOut = s.fabOut := rfl
@[simp] theorem State.hold_tilesIn (s : State) (g : Nat) (w : Wait) : (s.hold g w).tilesIn = s.tilesIn := rfl
@[simp] theorem State.hold_grantsIn (s : State) (g : Nat) (w : Wait) : (s.hold g w).grantsIn = s.grantsIn := rfl
@[simp] theorem State.hold_peerEnds (s : State) (g : Nat) (w : Wait) : (s.hold g w).peerEnds = s.peerEnds := rfl
@[simp] theorem State.hold_host (s : State) (g : Nat) (w : Wait) : (s.hold g w).host = s.host := rfl
@[simp] theorem State.hold_boot (s : State) (g : Nat) (w : Wait) : (s.hold g w).boot = s.boot := rfl
@[simp] theorem State.hold_health (s : State) (g : Nat) (w : Wait) : (s.hold g w).health = s.health := rfl
@[simp] theorem State.hold_throttle (s : State) (g : Nat) (w : Wait) : (s.hold g w).throttle = s.throttle := rfl
@[simp] theorem State.hold_warned (s : State) (g : Nat) (w : Wait) : (s.hold g w).warned = s.warned := rfl
@[simp] theorem State.hold_withdrawn (s : State) (g : Nat) (w : Wait) : (s.hold g w).withdrawn = s.withdrawn := rfl

/-! unhold changes groups alone. -/

@[simp] theorem State.unhold_cycle (s : State) (g : Nat) : (s.unhold g).cycle = s.cycle := rfl
@[simp] theorem State.unhold_agenda (s : State) (g : Nat) : (s.unhold g).agenda = s.agenda := rfl
@[simp] theorem State.unhold_cur (s : State) (g : Nat) : (s.unhold g).cur = s.cur := rfl
@[simp] theorem State.unhold_fresh (s : State) (g : Nat) : (s.unhold g).fresh = s.fresh := rfl
@[simp] theorem State.unhold_nextId (s : State) (g : Nat) : (s.unhold g).nextId = s.nextId := rfl
@[simp] theorem State.unhold_mem (s : State) (g : Nat) : (s.unhold g).mem = s.mem := rfl
@[simp] theorem State.unhold_hmem (s : State) (g : Nat) : (s.unhold g).hmem = s.hmem := rfl
@[simp] theorem State.unhold_poison (s : State) (g : Nat) : (s.unhold g).poison = s.poison := rfl
@[simp] theorem State.unhold_lines (s : State) (g : Nat) : (s.unhold g).lines = s.lines := rfl
@[simp] theorem State.unhold_spad (s : State) (g : Nat) : (s.unhold g).spad = s.spad := rfl
@[simp] theorem State.unhold_regs (s : State) (g : Nat) : (s.unhold g).regs = s.regs := rfl
@[simp] theorem State.unhold_flying (s : State) (g : Nat) : (s.unhold g).flying = s.flying := rfl
@[simp] theorem State.unhold_uregs (s : State) (g : Nat) : (s.unhold g).uregs = s.uregs := rfl
@[simp] theorem State.unhold_fibres (s : State) (g : Nat) : (s.unhold g).fibres = s.fibres := rfl
@[simp] theorem State.unhold_teams (s : State) (g : Nat) : (s.unhold g).teams = s.teams := rfl
@[simp] theorem State.unhold_hwins (s : State) (g : Nat) : (s.unhold g).hwins = s.hwins := rfl
@[simp] theorem State.unhold_lprs (s : State) (g : Nat) : (s.unhold g).lprs = s.lprs := rfl
@[simp] theorem State.unhold_cores (s : State) (g : Nat) : (s.unhold g).cores = s.cores := rfl
@[simp] theorem State.unhold_tables (s : State) (g : Nat) : (s.unhold g).tables = s.tables := rfl
@[simp] theorem State.unhold_mxq (s : State) (g : Nat) : (s.unhold g).mxq = s.mxq := rfl
@[simp] theorem State.unhold_ops (s : State) (g : Nat) : (s.unhold g).ops = s.ops := rfl
@[simp] theorem State.unhold_reqs (s : State) (g : Nat) : (s.unhold g).reqs = s.reqs := rfl
@[simp] theorem State.unhold_poolq (s : State) (g : Nat) : (s.unhold g).poolq = s.poolq := rfl
@[simp] theorem State.unhold_mesh (s : State) (g : Nat) : (s.unhold g).mesh = s.mesh := rfl
@[simp] theorem State.unhold_sbars (s : State) (g : Nat) : (s.unhold g).sbars = s.sbars := rfl
@[simp] theorem State.unhold_bmsgs (s : State) (g : Nat) : (s.unhold g).bmsgs = s.bmsgs := rfl
@[simp] theorem State.unhold_plans (s : State) (g : Nat) : (s.unhold g).plans = s.plans := rfl
@[simp] theorem State.unhold_pipes (s : State) (g : Nat) : (s.unhold g).pipes = s.pipes := rfl
@[simp] theorem State.unhold_ctxs (s : State) (g : Nat) : (s.unhold g).ctxs = s.ctxs := rfl
@[simp] theorem State.unhold_parts (s : State) (g : Nat) : (s.unhold g).parts = s.parts := rfl
@[simp] theorem State.unhold_images (s : State) (g : Nat) : (s.unhold g).images = s.images := rfl
@[simp] theorem State.unhold_preempts (s : State) (g : Nat) : (s.unhold g).preempts = s.preempts := rfl
@[simp] theorem State.unhold_gangs (s : State) (g : Nat) : (s.unhold g).gangs = s.gangs := rfl
@[simp] theorem State.unhold_wins (s : State) (g : Nat) : (s.unhold g).wins = s.wins := rfl
@[simp] theorem State.unhold_planesDown (s : State) (g : Nat) : (s.unhold g).planesDown = s.planesDown := rfl
@[simp] theorem State.unhold_inbox (s : State) (g : Nat) : (s.unhold g).inbox = s.inbox := rfl
@[simp] theorem State.unhold_fxf (s : State) (g : Nat) : (s.unhold g).fxf = s.fxf := rfl
@[simp] theorem State.unhold_fabOut (s : State) (g : Nat) : (s.unhold g).fabOut = s.fabOut := rfl
@[simp] theorem State.unhold_tilesIn (s : State) (g : Nat) : (s.unhold g).tilesIn = s.tilesIn := rfl
@[simp] theorem State.unhold_grantsIn (s : State) (g : Nat) : (s.unhold g).grantsIn = s.grantsIn := rfl
@[simp] theorem State.unhold_peerEnds (s : State) (g : Nat) : (s.unhold g).peerEnds = s.peerEnds := rfl
@[simp] theorem State.unhold_host (s : State) (g : Nat) : (s.unhold g).host = s.host := rfl
@[simp] theorem State.unhold_boot (s : State) (g : Nat) : (s.unhold g).boot = s.boot := rfl
@[simp] theorem State.unhold_health (s : State) (g : Nat) : (s.unhold g).health = s.health := rfl
@[simp] theorem State.unhold_throttle (s : State) (g : Nat) : (s.unhold g).throttle = s.throttle := rfl
@[simp] theorem State.unhold_warned (s : State) (g : Nat) : (s.unhold g).warned = s.warned := rfl
@[simp] theorem State.unhold_withdrawn (s : State) (g : Nat) : (s.unhold g).withdrawn = s.withdrawn := rfl

/-! modTeam changes teams alone. -/

@[simp] theorem State.modTeam_cycle (s : State) (t : Nat) (k : Team → Team) : (s.modTeam t k).cycle = s.cycle := rfl
@[simp] theorem State.modTeam_agenda (s : State) (t : Nat) (k : Team → Team) : (s.modTeam t k).agenda = s.agenda := rfl
@[simp] theorem State.modTeam_cur (s : State) (t : Nat) (k : Team → Team) : (s.modTeam t k).cur = s.cur := rfl
@[simp] theorem State.modTeam_fresh (s : State) (t : Nat) (k : Team → Team) : (s.modTeam t k).fresh = s.fresh := rfl
@[simp] theorem State.modTeam_nextId (s : State) (t : Nat) (k : Team → Team) : (s.modTeam t k).nextId = s.nextId := rfl
@[simp] theorem State.modTeam_mem (s : State) (t : Nat) (k : Team → Team) : (s.modTeam t k).mem = s.mem := rfl
@[simp] theorem State.modTeam_hmem (s : State) (t : Nat) (k : Team → Team) : (s.modTeam t k).hmem = s.hmem := rfl
@[simp] theorem State.modTeam_poison (s : State) (t : Nat) (k : Team → Team) : (s.modTeam t k).poison = s.poison := rfl
@[simp] theorem State.modTeam_lines (s : State) (t : Nat) (k : Team → Team) : (s.modTeam t k).lines = s.lines := rfl
@[simp] theorem State.modTeam_spad (s : State) (t : Nat) (k : Team → Team) : (s.modTeam t k).spad = s.spad := rfl
@[simp] theorem State.modTeam_regs (s : State) (t : Nat) (k : Team → Team) : (s.modTeam t k).regs = s.regs := rfl
@[simp] theorem State.modTeam_flying (s : State) (t : Nat) (k : Team → Team) : (s.modTeam t k).flying = s.flying := rfl
@[simp] theorem State.modTeam_uregs (s : State) (t : Nat) (k : Team → Team) : (s.modTeam t k).uregs = s.uregs := rfl
@[simp] theorem State.modTeam_fibres (s : State) (t : Nat) (k : Team → Team) : (s.modTeam t k).fibres = s.fibres := rfl
@[simp] theorem State.modTeam_groups (s : State) (t : Nat) (k : Team → Team) : (s.modTeam t k).groups = s.groups := rfl
@[simp] theorem State.modTeam_hwins (s : State) (t : Nat) (k : Team → Team) : (s.modTeam t k).hwins = s.hwins := rfl
@[simp] theorem State.modTeam_lprs (s : State) (t : Nat) (k : Team → Team) : (s.modTeam t k).lprs = s.lprs := rfl
@[simp] theorem State.modTeam_cores (s : State) (t : Nat) (k : Team → Team) : (s.modTeam t k).cores = s.cores := rfl
@[simp] theorem State.modTeam_tables (s : State) (t : Nat) (k : Team → Team) : (s.modTeam t k).tables = s.tables := rfl
@[simp] theorem State.modTeam_mxq (s : State) (t : Nat) (k : Team → Team) : (s.modTeam t k).mxq = s.mxq := rfl
@[simp] theorem State.modTeam_ops (s : State) (t : Nat) (k : Team → Team) : (s.modTeam t k).ops = s.ops := rfl
@[simp] theorem State.modTeam_reqs (s : State) (t : Nat) (k : Team → Team) : (s.modTeam t k).reqs = s.reqs := rfl
@[simp] theorem State.modTeam_poolq (s : State) (t : Nat) (k : Team → Team) : (s.modTeam t k).poolq = s.poolq := rfl
@[simp] theorem State.modTeam_mesh (s : State) (t : Nat) (k : Team → Team) : (s.modTeam t k).mesh = s.mesh := rfl
@[simp] theorem State.modTeam_sbars (s : State) (t : Nat) (k : Team → Team) : (s.modTeam t k).sbars = s.sbars := rfl
@[simp] theorem State.modTeam_bmsgs (s : State) (t : Nat) (k : Team → Team) : (s.modTeam t k).bmsgs = s.bmsgs := rfl
@[simp] theorem State.modTeam_plans (s : State) (t : Nat) (k : Team → Team) : (s.modTeam t k).plans = s.plans := rfl
@[simp] theorem State.modTeam_pipes (s : State) (t : Nat) (k : Team → Team) : (s.modTeam t k).pipes = s.pipes := rfl
@[simp] theorem State.modTeam_ctxs (s : State) (t : Nat) (k : Team → Team) : (s.modTeam t k).ctxs = s.ctxs := rfl
@[simp] theorem State.modTeam_parts (s : State) (t : Nat) (k : Team → Team) : (s.modTeam t k).parts = s.parts := rfl
@[simp] theorem State.modTeam_images (s : State) (t : Nat) (k : Team → Team) : (s.modTeam t k).images = s.images := rfl
@[simp] theorem State.modTeam_preempts (s : State) (t : Nat) (k : Team → Team) : (s.modTeam t k).preempts = s.preempts := rfl
@[simp] theorem State.modTeam_gangs (s : State) (t : Nat) (k : Team → Team) : (s.modTeam t k).gangs = s.gangs := rfl
@[simp] theorem State.modTeam_wins (s : State) (t : Nat) (k : Team → Team) : (s.modTeam t k).wins = s.wins := rfl
@[simp] theorem State.modTeam_planesDown (s : State) (t : Nat) (k : Team → Team) : (s.modTeam t k).planesDown = s.planesDown := rfl
@[simp] theorem State.modTeam_inbox (s : State) (t : Nat) (k : Team → Team) : (s.modTeam t k).inbox = s.inbox := rfl
@[simp] theorem State.modTeam_fxf (s : State) (t : Nat) (k : Team → Team) : (s.modTeam t k).fxf = s.fxf := rfl
@[simp] theorem State.modTeam_fabOut (s : State) (t : Nat) (k : Team → Team) : (s.modTeam t k).fabOut = s.fabOut := rfl
@[simp] theorem State.modTeam_tilesIn (s : State) (t : Nat) (k : Team → Team) : (s.modTeam t k).tilesIn = s.tilesIn := rfl
@[simp] theorem State.modTeam_grantsIn (s : State) (t : Nat) (k : Team → Team) : (s.modTeam t k).grantsIn = s.grantsIn := rfl
@[simp] theorem State.modTeam_peerEnds (s : State) (t : Nat) (k : Team → Team) : (s.modTeam t k).peerEnds = s.peerEnds := rfl
@[simp] theorem State.modTeam_host (s : State) (t : Nat) (k : Team → Team) : (s.modTeam t k).host = s.host := rfl
@[simp] theorem State.modTeam_boot (s : State) (t : Nat) (k : Team → Team) : (s.modTeam t k).boot = s.boot := rfl
@[simp] theorem State.modTeam_health (s : State) (t : Nat) (k : Team → Team) : (s.modTeam t k).health = s.health := rfl
@[simp] theorem State.modTeam_throttle (s : State) (t : Nat) (k : Team → Team) : (s.modTeam t k).throttle = s.throttle := rfl
@[simp] theorem State.modTeam_warned (s : State) (t : Nat) (k : Team → Team) : (s.modTeam t k).warned = s.warned := rfl
@[simp] theorem State.modTeam_withdrawn (s : State) (t : Nat) (k : Team → Team) : (s.modTeam t k).withdrawn = s.withdrawn := rfl

/-! setCore changes cores alone. -/

@[simp] theorem State.setCore_cycle (s : State) (c : Nat) (x : Core) : (s.setCore c x).cycle = s.cycle := rfl
@[simp] theorem State.setCore_agenda (s : State) (c : Nat) (x : Core) : (s.setCore c x).agenda = s.agenda := rfl
@[simp] theorem State.setCore_cur (s : State) (c : Nat) (x : Core) : (s.setCore c x).cur = s.cur := rfl
@[simp] theorem State.setCore_fresh (s : State) (c : Nat) (x : Core) : (s.setCore c x).fresh = s.fresh := rfl
@[simp] theorem State.setCore_nextId (s : State) (c : Nat) (x : Core) : (s.setCore c x).nextId = s.nextId := rfl
@[simp] theorem State.setCore_mem (s : State) (c : Nat) (x : Core) : (s.setCore c x).mem = s.mem := rfl
@[simp] theorem State.setCore_hmem (s : State) (c : Nat) (x : Core) : (s.setCore c x).hmem = s.hmem := rfl
@[simp] theorem State.setCore_poison (s : State) (c : Nat) (x : Core) : (s.setCore c x).poison = s.poison := rfl
@[simp] theorem State.setCore_lines (s : State) (c : Nat) (x : Core) : (s.setCore c x).lines = s.lines := rfl
@[simp] theorem State.setCore_spad (s : State) (c : Nat) (x : Core) : (s.setCore c x).spad = s.spad := rfl
@[simp] theorem State.setCore_regs (s : State) (c : Nat) (x : Core) : (s.setCore c x).regs = s.regs := rfl
@[simp] theorem State.setCore_flying (s : State) (c : Nat) (x : Core) : (s.setCore c x).flying = s.flying := rfl
@[simp] theorem State.setCore_uregs (s : State) (c : Nat) (x : Core) : (s.setCore c x).uregs = s.uregs := rfl
@[simp] theorem State.setCore_fibres (s : State) (c : Nat) (x : Core) : (s.setCore c x).fibres = s.fibres := rfl
@[simp] theorem State.setCore_groups (s : State) (c : Nat) (x : Core) : (s.setCore c x).groups = s.groups := rfl
@[simp] theorem State.setCore_teams (s : State) (c : Nat) (x : Core) : (s.setCore c x).teams = s.teams := rfl
@[simp] theorem State.setCore_hwins (s : State) (c : Nat) (x : Core) : (s.setCore c x).hwins = s.hwins := rfl
@[simp] theorem State.setCore_lprs (s : State) (c : Nat) (x : Core) : (s.setCore c x).lprs = s.lprs := rfl
@[simp] theorem State.setCore_tables (s : State) (c : Nat) (x : Core) : (s.setCore c x).tables = s.tables := rfl
@[simp] theorem State.setCore_mxq (s : State) (c : Nat) (x : Core) : (s.setCore c x).mxq = s.mxq := rfl
@[simp] theorem State.setCore_ops (s : State) (c : Nat) (x : Core) : (s.setCore c x).ops = s.ops := rfl
@[simp] theorem State.setCore_reqs (s : State) (c : Nat) (x : Core) : (s.setCore c x).reqs = s.reqs := rfl
@[simp] theorem State.setCore_poolq (s : State) (c : Nat) (x : Core) : (s.setCore c x).poolq = s.poolq := rfl
@[simp] theorem State.setCore_mesh (s : State) (c : Nat) (x : Core) : (s.setCore c x).mesh = s.mesh := rfl
@[simp] theorem State.setCore_sbars (s : State) (c : Nat) (x : Core) : (s.setCore c x).sbars = s.sbars := rfl
@[simp] theorem State.setCore_bmsgs (s : State) (c : Nat) (x : Core) : (s.setCore c x).bmsgs = s.bmsgs := rfl
@[simp] theorem State.setCore_plans (s : State) (c : Nat) (x : Core) : (s.setCore c x).plans = s.plans := rfl
@[simp] theorem State.setCore_pipes (s : State) (c : Nat) (x : Core) : (s.setCore c x).pipes = s.pipes := rfl
@[simp] theorem State.setCore_ctxs (s : State) (c : Nat) (x : Core) : (s.setCore c x).ctxs = s.ctxs := rfl
@[simp] theorem State.setCore_parts (s : State) (c : Nat) (x : Core) : (s.setCore c x).parts = s.parts := rfl
@[simp] theorem State.setCore_images (s : State) (c : Nat) (x : Core) : (s.setCore c x).images = s.images := rfl
@[simp] theorem State.setCore_preempts (s : State) (c : Nat) (x : Core) : (s.setCore c x).preempts = s.preempts := rfl
@[simp] theorem State.setCore_gangs (s : State) (c : Nat) (x : Core) : (s.setCore c x).gangs = s.gangs := rfl
@[simp] theorem State.setCore_wins (s : State) (c : Nat) (x : Core) : (s.setCore c x).wins = s.wins := rfl
@[simp] theorem State.setCore_planesDown (s : State) (c : Nat) (x : Core) : (s.setCore c x).planesDown = s.planesDown := rfl
@[simp] theorem State.setCore_inbox (s : State) (c : Nat) (x : Core) : (s.setCore c x).inbox = s.inbox := rfl
@[simp] theorem State.setCore_fxf (s : State) (c : Nat) (x : Core) : (s.setCore c x).fxf = s.fxf := rfl
@[simp] theorem State.setCore_fabOut (s : State) (c : Nat) (x : Core) : (s.setCore c x).fabOut = s.fabOut := rfl
@[simp] theorem State.setCore_tilesIn (s : State) (c : Nat) (x : Core) : (s.setCore c x).tilesIn = s.tilesIn := rfl
@[simp] theorem State.setCore_grantsIn (s : State) (c : Nat) (x : Core) : (s.setCore c x).grantsIn = s.grantsIn := rfl
@[simp] theorem State.setCore_peerEnds (s : State) (c : Nat) (x : Core) : (s.setCore c x).peerEnds = s.peerEnds := rfl
@[simp] theorem State.setCore_host (s : State) (c : Nat) (x : Core) : (s.setCore c x).host = s.host := rfl
@[simp] theorem State.setCore_boot (s : State) (c : Nat) (x : Core) : (s.setCore c x).boot = s.boot := rfl
@[simp] theorem State.setCore_health (s : State) (c : Nat) (x : Core) : (s.setCore c x).health = s.health := rfl
@[simp] theorem State.setCore_throttle (s : State) (c : Nat) (x : Core) : (s.setCore c x).throttle = s.throttle := rfl
@[simp] theorem State.setCore_warned (s : State) (c : Nat) (x : Core) : (s.setCore c x).warned = s.warned := rfl
@[simp] theorem State.setCore_withdrawn (s : State) (c : Nat) (x : Core) : (s.setCore c x).withdrawn = s.withdrawn := rfl

/-! modCore changes cores alone. -/

@[simp] theorem State.modCore_cycle (s : State) (c : Nat) (k : Core → Core) : (s.modCore c k).cycle = s.cycle := rfl
@[simp] theorem State.modCore_agenda (s : State) (c : Nat) (k : Core → Core) : (s.modCore c k).agenda = s.agenda := rfl
@[simp] theorem State.modCore_cur (s : State) (c : Nat) (k : Core → Core) : (s.modCore c k).cur = s.cur := rfl
@[simp] theorem State.modCore_fresh (s : State) (c : Nat) (k : Core → Core) : (s.modCore c k).fresh = s.fresh := rfl
@[simp] theorem State.modCore_nextId (s : State) (c : Nat) (k : Core → Core) : (s.modCore c k).nextId = s.nextId := rfl
@[simp] theorem State.modCore_mem (s : State) (c : Nat) (k : Core → Core) : (s.modCore c k).mem = s.mem := rfl
@[simp] theorem State.modCore_hmem (s : State) (c : Nat) (k : Core → Core) : (s.modCore c k).hmem = s.hmem := rfl
@[simp] theorem State.modCore_poison (s : State) (c : Nat) (k : Core → Core) : (s.modCore c k).poison = s.poison := rfl
@[simp] theorem State.modCore_lines (s : State) (c : Nat) (k : Core → Core) : (s.modCore c k).lines = s.lines := rfl
@[simp] theorem State.modCore_spad (s : State) (c : Nat) (k : Core → Core) : (s.modCore c k).spad = s.spad := rfl
@[simp] theorem State.modCore_regs (s : State) (c : Nat) (k : Core → Core) : (s.modCore c k).regs = s.regs := rfl
@[simp] theorem State.modCore_flying (s : State) (c : Nat) (k : Core → Core) : (s.modCore c k).flying = s.flying := rfl
@[simp] theorem State.modCore_uregs (s : State) (c : Nat) (k : Core → Core) : (s.modCore c k).uregs = s.uregs := rfl
@[simp] theorem State.modCore_fibres (s : State) (c : Nat) (k : Core → Core) : (s.modCore c k).fibres = s.fibres := rfl
@[simp] theorem State.modCore_groups (s : State) (c : Nat) (k : Core → Core) : (s.modCore c k).groups = s.groups := rfl
@[simp] theorem State.modCore_teams (s : State) (c : Nat) (k : Core → Core) : (s.modCore c k).teams = s.teams := rfl
@[simp] theorem State.modCore_hwins (s : State) (c : Nat) (k : Core → Core) : (s.modCore c k).hwins = s.hwins := rfl
@[simp] theorem State.modCore_lprs (s : State) (c : Nat) (k : Core → Core) : (s.modCore c k).lprs = s.lprs := rfl
@[simp] theorem State.modCore_tables (s : State) (c : Nat) (k : Core → Core) : (s.modCore c k).tables = s.tables := rfl
@[simp] theorem State.modCore_mxq (s : State) (c : Nat) (k : Core → Core) : (s.modCore c k).mxq = s.mxq := rfl
@[simp] theorem State.modCore_ops (s : State) (c : Nat) (k : Core → Core) : (s.modCore c k).ops = s.ops := rfl
@[simp] theorem State.modCore_reqs (s : State) (c : Nat) (k : Core → Core) : (s.modCore c k).reqs = s.reqs := rfl
@[simp] theorem State.modCore_poolq (s : State) (c : Nat) (k : Core → Core) : (s.modCore c k).poolq = s.poolq := rfl
@[simp] theorem State.modCore_mesh (s : State) (c : Nat) (k : Core → Core) : (s.modCore c k).mesh = s.mesh := rfl
@[simp] theorem State.modCore_sbars (s : State) (c : Nat) (k : Core → Core) : (s.modCore c k).sbars = s.sbars := rfl
@[simp] theorem State.modCore_bmsgs (s : State) (c : Nat) (k : Core → Core) : (s.modCore c k).bmsgs = s.bmsgs := rfl
@[simp] theorem State.modCore_plans (s : State) (c : Nat) (k : Core → Core) : (s.modCore c k).plans = s.plans := rfl
@[simp] theorem State.modCore_pipes (s : State) (c : Nat) (k : Core → Core) : (s.modCore c k).pipes = s.pipes := rfl
@[simp] theorem State.modCore_ctxs (s : State) (c : Nat) (k : Core → Core) : (s.modCore c k).ctxs = s.ctxs := rfl
@[simp] theorem State.modCore_parts (s : State) (c : Nat) (k : Core → Core) : (s.modCore c k).parts = s.parts := rfl
@[simp] theorem State.modCore_images (s : State) (c : Nat) (k : Core → Core) : (s.modCore c k).images = s.images := rfl
@[simp] theorem State.modCore_preempts (s : State) (c : Nat) (k : Core → Core) : (s.modCore c k).preempts = s.preempts := rfl
@[simp] theorem State.modCore_gangs (s : State) (c : Nat) (k : Core → Core) : (s.modCore c k).gangs = s.gangs := rfl
@[simp] theorem State.modCore_wins (s : State) (c : Nat) (k : Core → Core) : (s.modCore c k).wins = s.wins := rfl
@[simp] theorem State.modCore_planesDown (s : State) (c : Nat) (k : Core → Core) : (s.modCore c k).planesDown = s.planesDown := rfl
@[simp] theorem State.modCore_inbox (s : State) (c : Nat) (k : Core → Core) : (s.modCore c k).inbox = s.inbox := rfl
@[simp] theorem State.modCore_fxf (s : State) (c : Nat) (k : Core → Core) : (s.modCore c k).fxf = s.fxf := rfl
@[simp] theorem State.modCore_fabOut (s : State) (c : Nat) (k : Core → Core) : (s.modCore c k).fabOut = s.fabOut := rfl
@[simp] theorem State.modCore_tilesIn (s : State) (c : Nat) (k : Core → Core) : (s.modCore c k).tilesIn = s.tilesIn := rfl
@[simp] theorem State.modCore_grantsIn (s : State) (c : Nat) (k : Core → Core) : (s.modCore c k).grantsIn = s.grantsIn := rfl
@[simp] theorem State.modCore_peerEnds (s : State) (c : Nat) (k : Core → Core) : (s.modCore c k).peerEnds = s.peerEnds := rfl
@[simp] theorem State.modCore_host (s : State) (c : Nat) (k : Core → Core) : (s.modCore c k).host = s.host := rfl
@[simp] theorem State.modCore_boot (s : State) (c : Nat) (k : Core → Core) : (s.modCore c k).boot = s.boot := rfl
@[simp] theorem State.modCore_health (s : State) (c : Nat) (k : Core → Core) : (s.modCore c k).health = s.health := rfl
@[simp] theorem State.modCore_throttle (s : State) (c : Nat) (k : Core → Core) : (s.modCore c k).throttle = s.throttle := rfl
@[simp] theorem State.modCore_warned (s : State) (c : Nat) (k : Core → Core) : (s.modCore c k).warned = s.warned := rfl
@[simp] theorem State.modCore_withdrawn (s : State) (c : Nat) (k : Core → Core) : (s.modCore c k).withdrawn = s.withdrawn := rfl

/-! modArr changes cores alone. -/

@[simp] theorem State.modArr_cycle (s : State) (c : Nat) (k : ArrayUnit → ArrayUnit) : (s.modArr c k).cycle = s.cycle := rfl
@[simp] theorem State.modArr_agenda (s : State) (c : Nat) (k : ArrayUnit → ArrayUnit) : (s.modArr c k).agenda = s.agenda := rfl
@[simp] theorem State.modArr_cur (s : State) (c : Nat) (k : ArrayUnit → ArrayUnit) : (s.modArr c k).cur = s.cur := rfl
@[simp] theorem State.modArr_fresh (s : State) (c : Nat) (k : ArrayUnit → ArrayUnit) : (s.modArr c k).fresh = s.fresh := rfl
@[simp] theorem State.modArr_nextId (s : State) (c : Nat) (k : ArrayUnit → ArrayUnit) : (s.modArr c k).nextId = s.nextId := rfl
@[simp] theorem State.modArr_mem (s : State) (c : Nat) (k : ArrayUnit → ArrayUnit) : (s.modArr c k).mem = s.mem := rfl
@[simp] theorem State.modArr_hmem (s : State) (c : Nat) (k : ArrayUnit → ArrayUnit) : (s.modArr c k).hmem = s.hmem := rfl
@[simp] theorem State.modArr_poison (s : State) (c : Nat) (k : ArrayUnit → ArrayUnit) : (s.modArr c k).poison = s.poison := rfl
@[simp] theorem State.modArr_lines (s : State) (c : Nat) (k : ArrayUnit → ArrayUnit) : (s.modArr c k).lines = s.lines := rfl
@[simp] theorem State.modArr_spad (s : State) (c : Nat) (k : ArrayUnit → ArrayUnit) : (s.modArr c k).spad = s.spad := rfl
@[simp] theorem State.modArr_regs (s : State) (c : Nat) (k : ArrayUnit → ArrayUnit) : (s.modArr c k).regs = s.regs := rfl
@[simp] theorem State.modArr_flying (s : State) (c : Nat) (k : ArrayUnit → ArrayUnit) : (s.modArr c k).flying = s.flying := rfl
@[simp] theorem State.modArr_uregs (s : State) (c : Nat) (k : ArrayUnit → ArrayUnit) : (s.modArr c k).uregs = s.uregs := rfl
@[simp] theorem State.modArr_fibres (s : State) (c : Nat) (k : ArrayUnit → ArrayUnit) : (s.modArr c k).fibres = s.fibres := rfl
@[simp] theorem State.modArr_groups (s : State) (c : Nat) (k : ArrayUnit → ArrayUnit) : (s.modArr c k).groups = s.groups := rfl
@[simp] theorem State.modArr_teams (s : State) (c : Nat) (k : ArrayUnit → ArrayUnit) : (s.modArr c k).teams = s.teams := rfl
@[simp] theorem State.modArr_hwins (s : State) (c : Nat) (k : ArrayUnit → ArrayUnit) : (s.modArr c k).hwins = s.hwins := rfl
@[simp] theorem State.modArr_lprs (s : State) (c : Nat) (k : ArrayUnit → ArrayUnit) : (s.modArr c k).lprs = s.lprs := rfl
@[simp] theorem State.modArr_tables (s : State) (c : Nat) (k : ArrayUnit → ArrayUnit) : (s.modArr c k).tables = s.tables := rfl
@[simp] theorem State.modArr_mxq (s : State) (c : Nat) (k : ArrayUnit → ArrayUnit) : (s.modArr c k).mxq = s.mxq := rfl
@[simp] theorem State.modArr_ops (s : State) (c : Nat) (k : ArrayUnit → ArrayUnit) : (s.modArr c k).ops = s.ops := rfl
@[simp] theorem State.modArr_reqs (s : State) (c : Nat) (k : ArrayUnit → ArrayUnit) : (s.modArr c k).reqs = s.reqs := rfl
@[simp] theorem State.modArr_poolq (s : State) (c : Nat) (k : ArrayUnit → ArrayUnit) : (s.modArr c k).poolq = s.poolq := rfl
@[simp] theorem State.modArr_mesh (s : State) (c : Nat) (k : ArrayUnit → ArrayUnit) : (s.modArr c k).mesh = s.mesh := rfl
@[simp] theorem State.modArr_sbars (s : State) (c : Nat) (k : ArrayUnit → ArrayUnit) : (s.modArr c k).sbars = s.sbars := rfl
@[simp] theorem State.modArr_bmsgs (s : State) (c : Nat) (k : ArrayUnit → ArrayUnit) : (s.modArr c k).bmsgs = s.bmsgs := rfl
@[simp] theorem State.modArr_plans (s : State) (c : Nat) (k : ArrayUnit → ArrayUnit) : (s.modArr c k).plans = s.plans := rfl
@[simp] theorem State.modArr_pipes (s : State) (c : Nat) (k : ArrayUnit → ArrayUnit) : (s.modArr c k).pipes = s.pipes := rfl
@[simp] theorem State.modArr_ctxs (s : State) (c : Nat) (k : ArrayUnit → ArrayUnit) : (s.modArr c k).ctxs = s.ctxs := rfl
@[simp] theorem State.modArr_parts (s : State) (c : Nat) (k : ArrayUnit → ArrayUnit) : (s.modArr c k).parts = s.parts := rfl
@[simp] theorem State.modArr_images (s : State) (c : Nat) (k : ArrayUnit → ArrayUnit) : (s.modArr c k).images = s.images := rfl
@[simp] theorem State.modArr_preempts (s : State) (c : Nat) (k : ArrayUnit → ArrayUnit) : (s.modArr c k).preempts = s.preempts := rfl
@[simp] theorem State.modArr_gangs (s : State) (c : Nat) (k : ArrayUnit → ArrayUnit) : (s.modArr c k).gangs = s.gangs := rfl
@[simp] theorem State.modArr_wins (s : State) (c : Nat) (k : ArrayUnit → ArrayUnit) : (s.modArr c k).wins = s.wins := rfl
@[simp] theorem State.modArr_planesDown (s : State) (c : Nat) (k : ArrayUnit → ArrayUnit) : (s.modArr c k).planesDown = s.planesDown := rfl
@[simp] theorem State.modArr_inbox (s : State) (c : Nat) (k : ArrayUnit → ArrayUnit) : (s.modArr c k).inbox = s.inbox := rfl
@[simp] theorem State.modArr_fxf (s : State) (c : Nat) (k : ArrayUnit → ArrayUnit) : (s.modArr c k).fxf = s.fxf := rfl
@[simp] theorem State.modArr_fabOut (s : State) (c : Nat) (k : ArrayUnit → ArrayUnit) : (s.modArr c k).fabOut = s.fabOut := rfl
@[simp] theorem State.modArr_tilesIn (s : State) (c : Nat) (k : ArrayUnit → ArrayUnit) : (s.modArr c k).tilesIn = s.tilesIn := rfl
@[simp] theorem State.modArr_grantsIn (s : State) (c : Nat) (k : ArrayUnit → ArrayUnit) : (s.modArr c k).grantsIn = s.grantsIn := rfl
@[simp] theorem State.modArr_peerEnds (s : State) (c : Nat) (k : ArrayUnit → ArrayUnit) : (s.modArr c k).peerEnds = s.peerEnds := rfl
@[simp] theorem State.modArr_host (s : State) (c : Nat) (k : ArrayUnit → ArrayUnit) : (s.modArr c k).host = s.host := rfl
@[simp] theorem State.modArr_boot (s : State) (c : Nat) (k : ArrayUnit → ArrayUnit) : (s.modArr c k).boot = s.boot := rfl
@[simp] theorem State.modArr_health (s : State) (c : Nat) (k : ArrayUnit → ArrayUnit) : (s.modArr c k).health = s.health := rfl
@[simp] theorem State.modArr_throttle (s : State) (c : Nat) (k : ArrayUnit → ArrayUnit) : (s.modArr c k).throttle = s.throttle := rfl
@[simp] theorem State.modArr_warned (s : State) (c : Nat) (k : ArrayUnit → ArrayUnit) : (s.modArr c k).warned = s.warned := rfl
@[simp] theorem State.modArr_withdrawn (s : State) (c : Nat) (k : ArrayUnit → ArrayUnit) : (s.modArr c k).withdrawn = s.withdrawn := rfl

/-! poolTake changes cores alone. -/

@[simp] theorem State.poolTake_cycle (s : State) (c i n : Nat) : (s.poolTake c i n).cycle = s.cycle := rfl
@[simp] theorem State.poolTake_agenda (s : State) (c i n : Nat) : (s.poolTake c i n).agenda = s.agenda := rfl
@[simp] theorem State.poolTake_cur (s : State) (c i n : Nat) : (s.poolTake c i n).cur = s.cur := rfl
@[simp] theorem State.poolTake_fresh (s : State) (c i n : Nat) : (s.poolTake c i n).fresh = s.fresh := rfl
@[simp] theorem State.poolTake_nextId (s : State) (c i n : Nat) : (s.poolTake c i n).nextId = s.nextId := rfl
@[simp] theorem State.poolTake_mem (s : State) (c i n : Nat) : (s.poolTake c i n).mem = s.mem := rfl
@[simp] theorem State.poolTake_hmem (s : State) (c i n : Nat) : (s.poolTake c i n).hmem = s.hmem := rfl
@[simp] theorem State.poolTake_poison (s : State) (c i n : Nat) : (s.poolTake c i n).poison = s.poison := rfl
@[simp] theorem State.poolTake_lines (s : State) (c i n : Nat) : (s.poolTake c i n).lines = s.lines := rfl
@[simp] theorem State.poolTake_spad (s : State) (c i n : Nat) : (s.poolTake c i n).spad = s.spad := rfl
@[simp] theorem State.poolTake_regs (s : State) (c i n : Nat) : (s.poolTake c i n).regs = s.regs := rfl
@[simp] theorem State.poolTake_flying (s : State) (c i n : Nat) : (s.poolTake c i n).flying = s.flying := rfl
@[simp] theorem State.poolTake_uregs (s : State) (c i n : Nat) : (s.poolTake c i n).uregs = s.uregs := rfl
@[simp] theorem State.poolTake_fibres (s : State) (c i n : Nat) : (s.poolTake c i n).fibres = s.fibres := rfl
@[simp] theorem State.poolTake_groups (s : State) (c i n : Nat) : (s.poolTake c i n).groups = s.groups := rfl
@[simp] theorem State.poolTake_teams (s : State) (c i n : Nat) : (s.poolTake c i n).teams = s.teams := rfl
@[simp] theorem State.poolTake_hwins (s : State) (c i n : Nat) : (s.poolTake c i n).hwins = s.hwins := rfl
@[simp] theorem State.poolTake_lprs (s : State) (c i n : Nat) : (s.poolTake c i n).lprs = s.lprs := rfl
@[simp] theorem State.poolTake_tables (s : State) (c i n : Nat) : (s.poolTake c i n).tables = s.tables := rfl
@[simp] theorem State.poolTake_mxq (s : State) (c i n : Nat) : (s.poolTake c i n).mxq = s.mxq := rfl
@[simp] theorem State.poolTake_ops (s : State) (c i n : Nat) : (s.poolTake c i n).ops = s.ops := rfl
@[simp] theorem State.poolTake_reqs (s : State) (c i n : Nat) : (s.poolTake c i n).reqs = s.reqs := rfl
@[simp] theorem State.poolTake_poolq (s : State) (c i n : Nat) : (s.poolTake c i n).poolq = s.poolq := rfl
@[simp] theorem State.poolTake_mesh (s : State) (c i n : Nat) : (s.poolTake c i n).mesh = s.mesh := rfl
@[simp] theorem State.poolTake_sbars (s : State) (c i n : Nat) : (s.poolTake c i n).sbars = s.sbars := rfl
@[simp] theorem State.poolTake_bmsgs (s : State) (c i n : Nat) : (s.poolTake c i n).bmsgs = s.bmsgs := rfl
@[simp] theorem State.poolTake_plans (s : State) (c i n : Nat) : (s.poolTake c i n).plans = s.plans := rfl
@[simp] theorem State.poolTake_pipes (s : State) (c i n : Nat) : (s.poolTake c i n).pipes = s.pipes := rfl
@[simp] theorem State.poolTake_ctxs (s : State) (c i n : Nat) : (s.poolTake c i n).ctxs = s.ctxs := rfl
@[simp] theorem State.poolTake_parts (s : State) (c i n : Nat) : (s.poolTake c i n).parts = s.parts := rfl
@[simp] theorem State.poolTake_images (s : State) (c i n : Nat) : (s.poolTake c i n).images = s.images := rfl
@[simp] theorem State.poolTake_preempts (s : State) (c i n : Nat) : (s.poolTake c i n).preempts = s.preempts := rfl
@[simp] theorem State.poolTake_gangs (s : State) (c i n : Nat) : (s.poolTake c i n).gangs = s.gangs := rfl
@[simp] theorem State.poolTake_wins (s : State) (c i n : Nat) : (s.poolTake c i n).wins = s.wins := rfl
@[simp] theorem State.poolTake_planesDown (s : State) (c i n : Nat) : (s.poolTake c i n).planesDown = s.planesDown := rfl
@[simp] theorem State.poolTake_inbox (s : State) (c i n : Nat) : (s.poolTake c i n).inbox = s.inbox := rfl
@[simp] theorem State.poolTake_fxf (s : State) (c i n : Nat) : (s.poolTake c i n).fxf = s.fxf := rfl
@[simp] theorem State.poolTake_fabOut (s : State) (c i n : Nat) : (s.poolTake c i n).fabOut = s.fabOut := rfl
@[simp] theorem State.poolTake_tilesIn (s : State) (c i n : Nat) : (s.poolTake c i n).tilesIn = s.tilesIn := rfl
@[simp] theorem State.poolTake_grantsIn (s : State) (c i n : Nat) : (s.poolTake c i n).grantsIn = s.grantsIn := rfl
@[simp] theorem State.poolTake_peerEnds (s : State) (c i n : Nat) : (s.poolTake c i n).peerEnds = s.peerEnds := rfl
@[simp] theorem State.poolTake_host (s : State) (c i n : Nat) : (s.poolTake c i n).host = s.host := rfl
@[simp] theorem State.poolTake_boot (s : State) (c i n : Nat) : (s.poolTake c i n).boot = s.boot := rfl
@[simp] theorem State.poolTake_health (s : State) (c i n : Nat) : (s.poolTake c i n).health = s.health := rfl
@[simp] theorem State.poolTake_throttle (s : State) (c i n : Nat) : (s.poolTake c i n).throttle = s.throttle := rfl
@[simp] theorem State.poolTake_warned (s : State) (c i n : Nat) : (s.poolTake c i n).warned = s.warned := rfl
@[simp] theorem State.poolTake_withdrawn (s : State) (c i n : Nat) : (s.poolTake c i n).withdrawn = s.withdrawn := rfl

/-! poolGive changes cores alone. -/

@[simp] theorem State.poolGive_cycle (s : State) (c i n : Nat) : (s.poolGive c i n).cycle = s.cycle := rfl
@[simp] theorem State.poolGive_agenda (s : State) (c i n : Nat) : (s.poolGive c i n).agenda = s.agenda := rfl
@[simp] theorem State.poolGive_cur (s : State) (c i n : Nat) : (s.poolGive c i n).cur = s.cur := rfl
@[simp] theorem State.poolGive_fresh (s : State) (c i n : Nat) : (s.poolGive c i n).fresh = s.fresh := rfl
@[simp] theorem State.poolGive_nextId (s : State) (c i n : Nat) : (s.poolGive c i n).nextId = s.nextId := rfl
@[simp] theorem State.poolGive_mem (s : State) (c i n : Nat) : (s.poolGive c i n).mem = s.mem := rfl
@[simp] theorem State.poolGive_hmem (s : State) (c i n : Nat) : (s.poolGive c i n).hmem = s.hmem := rfl
@[simp] theorem State.poolGive_poison (s : State) (c i n : Nat) : (s.poolGive c i n).poison = s.poison := rfl
@[simp] theorem State.poolGive_lines (s : State) (c i n : Nat) : (s.poolGive c i n).lines = s.lines := rfl
@[simp] theorem State.poolGive_spad (s : State) (c i n : Nat) : (s.poolGive c i n).spad = s.spad := rfl
@[simp] theorem State.poolGive_regs (s : State) (c i n : Nat) : (s.poolGive c i n).regs = s.regs := rfl
@[simp] theorem State.poolGive_flying (s : State) (c i n : Nat) : (s.poolGive c i n).flying = s.flying := rfl
@[simp] theorem State.poolGive_uregs (s : State) (c i n : Nat) : (s.poolGive c i n).uregs = s.uregs := rfl
@[simp] theorem State.poolGive_fibres (s : State) (c i n : Nat) : (s.poolGive c i n).fibres = s.fibres := rfl
@[simp] theorem State.poolGive_groups (s : State) (c i n : Nat) : (s.poolGive c i n).groups = s.groups := rfl
@[simp] theorem State.poolGive_teams (s : State) (c i n : Nat) : (s.poolGive c i n).teams = s.teams := rfl
@[simp] theorem State.poolGive_hwins (s : State) (c i n : Nat) : (s.poolGive c i n).hwins = s.hwins := rfl
@[simp] theorem State.poolGive_lprs (s : State) (c i n : Nat) : (s.poolGive c i n).lprs = s.lprs := rfl
@[simp] theorem State.poolGive_tables (s : State) (c i n : Nat) : (s.poolGive c i n).tables = s.tables := rfl
@[simp] theorem State.poolGive_mxq (s : State) (c i n : Nat) : (s.poolGive c i n).mxq = s.mxq := rfl
@[simp] theorem State.poolGive_ops (s : State) (c i n : Nat) : (s.poolGive c i n).ops = s.ops := rfl
@[simp] theorem State.poolGive_reqs (s : State) (c i n : Nat) : (s.poolGive c i n).reqs = s.reqs := rfl
@[simp] theorem State.poolGive_poolq (s : State) (c i n : Nat) : (s.poolGive c i n).poolq = s.poolq := rfl
@[simp] theorem State.poolGive_mesh (s : State) (c i n : Nat) : (s.poolGive c i n).mesh = s.mesh := rfl
@[simp] theorem State.poolGive_sbars (s : State) (c i n : Nat) : (s.poolGive c i n).sbars = s.sbars := rfl
@[simp] theorem State.poolGive_bmsgs (s : State) (c i n : Nat) : (s.poolGive c i n).bmsgs = s.bmsgs := rfl
@[simp] theorem State.poolGive_plans (s : State) (c i n : Nat) : (s.poolGive c i n).plans = s.plans := rfl
@[simp] theorem State.poolGive_pipes (s : State) (c i n : Nat) : (s.poolGive c i n).pipes = s.pipes := rfl
@[simp] theorem State.poolGive_ctxs (s : State) (c i n : Nat) : (s.poolGive c i n).ctxs = s.ctxs := rfl
@[simp] theorem State.poolGive_parts (s : State) (c i n : Nat) : (s.poolGive c i n).parts = s.parts := rfl
@[simp] theorem State.poolGive_images (s : State) (c i n : Nat) : (s.poolGive c i n).images = s.images := rfl
@[simp] theorem State.poolGive_preempts (s : State) (c i n : Nat) : (s.poolGive c i n).preempts = s.preempts := rfl
@[simp] theorem State.poolGive_gangs (s : State) (c i n : Nat) : (s.poolGive c i n).gangs = s.gangs := rfl
@[simp] theorem State.poolGive_wins (s : State) (c i n : Nat) : (s.poolGive c i n).wins = s.wins := rfl
@[simp] theorem State.poolGive_planesDown (s : State) (c i n : Nat) : (s.poolGive c i n).planesDown = s.planesDown := rfl
@[simp] theorem State.poolGive_inbox (s : State) (c i n : Nat) : (s.poolGive c i n).inbox = s.inbox := rfl
@[simp] theorem State.poolGive_fxf (s : State) (c i n : Nat) : (s.poolGive c i n).fxf = s.fxf := rfl
@[simp] theorem State.poolGive_fabOut (s : State) (c i n : Nat) : (s.poolGive c i n).fabOut = s.fabOut := rfl
@[simp] theorem State.poolGive_tilesIn (s : State) (c i n : Nat) : (s.poolGive c i n).tilesIn = s.tilesIn := rfl
@[simp] theorem State.poolGive_grantsIn (s : State) (c i n : Nat) : (s.poolGive c i n).grantsIn = s.grantsIn := rfl
@[simp] theorem State.poolGive_peerEnds (s : State) (c i n : Nat) : (s.poolGive c i n).peerEnds = s.peerEnds := rfl
@[simp] theorem State.poolGive_host (s : State) (c i n : Nat) : (s.poolGive c i n).host = s.host := rfl
@[simp] theorem State.poolGive_boot (s : State) (c i n : Nat) : (s.poolGive c i n).boot = s.boot := rfl
@[simp] theorem State.poolGive_health (s : State) (c i n : Nat) : (s.poolGive c i n).health = s.health := rfl
@[simp] theorem State.poolGive_throttle (s : State) (c i n : Nat) : (s.poolGive c i n).throttle = s.throttle := rfl
@[simp] theorem State.poolGive_warned (s : State) (c i n : Nat) : (s.poolGive c i n).warned = s.warned := rfl
@[simp] theorem State.poolGive_withdrawn (s : State) (c i n : Nat) : (s.poolGive c i n).withdrawn = s.withdrawn := rfl

/-! modPlan changes plans alone. -/

@[simp] theorem State.modPlan_cycle (s : State) (p : Nat) (k : Plan → Plan) : (s.modPlan p k).cycle = s.cycle := rfl
@[simp] theorem State.modPlan_agenda (s : State) (p : Nat) (k : Plan → Plan) : (s.modPlan p k).agenda = s.agenda := rfl
@[simp] theorem State.modPlan_cur (s : State) (p : Nat) (k : Plan → Plan) : (s.modPlan p k).cur = s.cur := rfl
@[simp] theorem State.modPlan_fresh (s : State) (p : Nat) (k : Plan → Plan) : (s.modPlan p k).fresh = s.fresh := rfl
@[simp] theorem State.modPlan_nextId (s : State) (p : Nat) (k : Plan → Plan) : (s.modPlan p k).nextId = s.nextId := rfl
@[simp] theorem State.modPlan_mem (s : State) (p : Nat) (k : Plan → Plan) : (s.modPlan p k).mem = s.mem := rfl
@[simp] theorem State.modPlan_hmem (s : State) (p : Nat) (k : Plan → Plan) : (s.modPlan p k).hmem = s.hmem := rfl
@[simp] theorem State.modPlan_poison (s : State) (p : Nat) (k : Plan → Plan) : (s.modPlan p k).poison = s.poison := rfl
@[simp] theorem State.modPlan_lines (s : State) (p : Nat) (k : Plan → Plan) : (s.modPlan p k).lines = s.lines := rfl
@[simp] theorem State.modPlan_spad (s : State) (p : Nat) (k : Plan → Plan) : (s.modPlan p k).spad = s.spad := rfl
@[simp] theorem State.modPlan_regs (s : State) (p : Nat) (k : Plan → Plan) : (s.modPlan p k).regs = s.regs := rfl
@[simp] theorem State.modPlan_flying (s : State) (p : Nat) (k : Plan → Plan) : (s.modPlan p k).flying = s.flying := rfl
@[simp] theorem State.modPlan_uregs (s : State) (p : Nat) (k : Plan → Plan) : (s.modPlan p k).uregs = s.uregs := rfl
@[simp] theorem State.modPlan_fibres (s : State) (p : Nat) (k : Plan → Plan) : (s.modPlan p k).fibres = s.fibres := rfl
@[simp] theorem State.modPlan_groups (s : State) (p : Nat) (k : Plan → Plan) : (s.modPlan p k).groups = s.groups := rfl
@[simp] theorem State.modPlan_teams (s : State) (p : Nat) (k : Plan → Plan) : (s.modPlan p k).teams = s.teams := rfl
@[simp] theorem State.modPlan_hwins (s : State) (p : Nat) (k : Plan → Plan) : (s.modPlan p k).hwins = s.hwins := rfl
@[simp] theorem State.modPlan_lprs (s : State) (p : Nat) (k : Plan → Plan) : (s.modPlan p k).lprs = s.lprs := rfl
@[simp] theorem State.modPlan_cores (s : State) (p : Nat) (k : Plan → Plan) : (s.modPlan p k).cores = s.cores := rfl
@[simp] theorem State.modPlan_tables (s : State) (p : Nat) (k : Plan → Plan) : (s.modPlan p k).tables = s.tables := rfl
@[simp] theorem State.modPlan_mxq (s : State) (p : Nat) (k : Plan → Plan) : (s.modPlan p k).mxq = s.mxq := rfl
@[simp] theorem State.modPlan_ops (s : State) (p : Nat) (k : Plan → Plan) : (s.modPlan p k).ops = s.ops := rfl
@[simp] theorem State.modPlan_reqs (s : State) (p : Nat) (k : Plan → Plan) : (s.modPlan p k).reqs = s.reqs := rfl
@[simp] theorem State.modPlan_poolq (s : State) (p : Nat) (k : Plan → Plan) : (s.modPlan p k).poolq = s.poolq := rfl
@[simp] theorem State.modPlan_mesh (s : State) (p : Nat) (k : Plan → Plan) : (s.modPlan p k).mesh = s.mesh := rfl
@[simp] theorem State.modPlan_sbars (s : State) (p : Nat) (k : Plan → Plan) : (s.modPlan p k).sbars = s.sbars := rfl
@[simp] theorem State.modPlan_bmsgs (s : State) (p : Nat) (k : Plan → Plan) : (s.modPlan p k).bmsgs = s.bmsgs := rfl
@[simp] theorem State.modPlan_pipes (s : State) (p : Nat) (k : Plan → Plan) : (s.modPlan p k).pipes = s.pipes := rfl
@[simp] theorem State.modPlan_ctxs (s : State) (p : Nat) (k : Plan → Plan) : (s.modPlan p k).ctxs = s.ctxs := rfl
@[simp] theorem State.modPlan_parts (s : State) (p : Nat) (k : Plan → Plan) : (s.modPlan p k).parts = s.parts := rfl
@[simp] theorem State.modPlan_images (s : State) (p : Nat) (k : Plan → Plan) : (s.modPlan p k).images = s.images := rfl
@[simp] theorem State.modPlan_preempts (s : State) (p : Nat) (k : Plan → Plan) : (s.modPlan p k).preempts = s.preempts := rfl
@[simp] theorem State.modPlan_gangs (s : State) (p : Nat) (k : Plan → Plan) : (s.modPlan p k).gangs = s.gangs := rfl
@[simp] theorem State.modPlan_wins (s : State) (p : Nat) (k : Plan → Plan) : (s.modPlan p k).wins = s.wins := rfl
@[simp] theorem State.modPlan_planesDown (s : State) (p : Nat) (k : Plan → Plan) : (s.modPlan p k).planesDown = s.planesDown := rfl
@[simp] theorem State.modPlan_inbox (s : State) (p : Nat) (k : Plan → Plan) : (s.modPlan p k).inbox = s.inbox := rfl
@[simp] theorem State.modPlan_fxf (s : State) (p : Nat) (k : Plan → Plan) : (s.modPlan p k).fxf = s.fxf := rfl
@[simp] theorem State.modPlan_fabOut (s : State) (p : Nat) (k : Plan → Plan) : (s.modPlan p k).fabOut = s.fabOut := rfl
@[simp] theorem State.modPlan_tilesIn (s : State) (p : Nat) (k : Plan → Plan) : (s.modPlan p k).tilesIn = s.tilesIn := rfl
@[simp] theorem State.modPlan_grantsIn (s : State) (p : Nat) (k : Plan → Plan) : (s.modPlan p k).grantsIn = s.grantsIn := rfl
@[simp] theorem State.modPlan_peerEnds (s : State) (p : Nat) (k : Plan → Plan) : (s.modPlan p k).peerEnds = s.peerEnds := rfl
@[simp] theorem State.modPlan_host (s : State) (p : Nat) (k : Plan → Plan) : (s.modPlan p k).host = s.host := rfl
@[simp] theorem State.modPlan_boot (s : State) (p : Nat) (k : Plan → Plan) : (s.modPlan p k).boot = s.boot := rfl
@[simp] theorem State.modPlan_health (s : State) (p : Nat) (k : Plan → Plan) : (s.modPlan p k).health = s.health := rfl
@[simp] theorem State.modPlan_throttle (s : State) (p : Nat) (k : Plan → Plan) : (s.modPlan p k).throttle = s.throttle := rfl
@[simp] theorem State.modPlan_warned (s : State) (p : Nat) (k : Plan → Plan) : (s.modPlan p k).warned = s.warned := rfl
@[simp] theorem State.modPlan_withdrawn (s : State) (p : Nat) (k : Plan → Plan) : (s.modPlan p k).withdrawn = s.withdrawn := rfl

/-! modStage changes plans alone. -/

@[simp] theorem State.modStage_cycle (s : State) (p i : Nat) (k : Stage → Stage) : (s.modStage p i k).cycle = s.cycle := rfl
@[simp] theorem State.modStage_agenda (s : State) (p i : Nat) (k : Stage → Stage) : (s.modStage p i k).agenda = s.agenda := rfl
@[simp] theorem State.modStage_cur (s : State) (p i : Nat) (k : Stage → Stage) : (s.modStage p i k).cur = s.cur := rfl
@[simp] theorem State.modStage_fresh (s : State) (p i : Nat) (k : Stage → Stage) : (s.modStage p i k).fresh = s.fresh := rfl
@[simp] theorem State.modStage_nextId (s : State) (p i : Nat) (k : Stage → Stage) : (s.modStage p i k).nextId = s.nextId := rfl
@[simp] theorem State.modStage_mem (s : State) (p i : Nat) (k : Stage → Stage) : (s.modStage p i k).mem = s.mem := rfl
@[simp] theorem State.modStage_hmem (s : State) (p i : Nat) (k : Stage → Stage) : (s.modStage p i k).hmem = s.hmem := rfl
@[simp] theorem State.modStage_poison (s : State) (p i : Nat) (k : Stage → Stage) : (s.modStage p i k).poison = s.poison := rfl
@[simp] theorem State.modStage_lines (s : State) (p i : Nat) (k : Stage → Stage) : (s.modStage p i k).lines = s.lines := rfl
@[simp] theorem State.modStage_spad (s : State) (p i : Nat) (k : Stage → Stage) : (s.modStage p i k).spad = s.spad := rfl
@[simp] theorem State.modStage_regs (s : State) (p i : Nat) (k : Stage → Stage) : (s.modStage p i k).regs = s.regs := rfl
@[simp] theorem State.modStage_flying (s : State) (p i : Nat) (k : Stage → Stage) : (s.modStage p i k).flying = s.flying := rfl
@[simp] theorem State.modStage_uregs (s : State) (p i : Nat) (k : Stage → Stage) : (s.modStage p i k).uregs = s.uregs := rfl
@[simp] theorem State.modStage_fibres (s : State) (p i : Nat) (k : Stage → Stage) : (s.modStage p i k).fibres = s.fibres := rfl
@[simp] theorem State.modStage_groups (s : State) (p i : Nat) (k : Stage → Stage) : (s.modStage p i k).groups = s.groups := rfl
@[simp] theorem State.modStage_teams (s : State) (p i : Nat) (k : Stage → Stage) : (s.modStage p i k).teams = s.teams := rfl
@[simp] theorem State.modStage_hwins (s : State) (p i : Nat) (k : Stage → Stage) : (s.modStage p i k).hwins = s.hwins := rfl
@[simp] theorem State.modStage_lprs (s : State) (p i : Nat) (k : Stage → Stage) : (s.modStage p i k).lprs = s.lprs := rfl
@[simp] theorem State.modStage_cores (s : State) (p i : Nat) (k : Stage → Stage) : (s.modStage p i k).cores = s.cores := rfl
@[simp] theorem State.modStage_tables (s : State) (p i : Nat) (k : Stage → Stage) : (s.modStage p i k).tables = s.tables := rfl
@[simp] theorem State.modStage_mxq (s : State) (p i : Nat) (k : Stage → Stage) : (s.modStage p i k).mxq = s.mxq := rfl
@[simp] theorem State.modStage_ops (s : State) (p i : Nat) (k : Stage → Stage) : (s.modStage p i k).ops = s.ops := rfl
@[simp] theorem State.modStage_reqs (s : State) (p i : Nat) (k : Stage → Stage) : (s.modStage p i k).reqs = s.reqs := rfl
@[simp] theorem State.modStage_poolq (s : State) (p i : Nat) (k : Stage → Stage) : (s.modStage p i k).poolq = s.poolq := rfl
@[simp] theorem State.modStage_mesh (s : State) (p i : Nat) (k : Stage → Stage) : (s.modStage p i k).mesh = s.mesh := rfl
@[simp] theorem State.modStage_sbars (s : State) (p i : Nat) (k : Stage → Stage) : (s.modStage p i k).sbars = s.sbars := rfl
@[simp] theorem State.modStage_bmsgs (s : State) (p i : Nat) (k : Stage → Stage) : (s.modStage p i k).bmsgs = s.bmsgs := rfl
@[simp] theorem State.modStage_pipes (s : State) (p i : Nat) (k : Stage → Stage) : (s.modStage p i k).pipes = s.pipes := rfl
@[simp] theorem State.modStage_ctxs (s : State) (p i : Nat) (k : Stage → Stage) : (s.modStage p i k).ctxs = s.ctxs := rfl
@[simp] theorem State.modStage_parts (s : State) (p i : Nat) (k : Stage → Stage) : (s.modStage p i k).parts = s.parts := rfl
@[simp] theorem State.modStage_images (s : State) (p i : Nat) (k : Stage → Stage) : (s.modStage p i k).images = s.images := rfl
@[simp] theorem State.modStage_preempts (s : State) (p i : Nat) (k : Stage → Stage) : (s.modStage p i k).preempts = s.preempts := rfl
@[simp] theorem State.modStage_gangs (s : State) (p i : Nat) (k : Stage → Stage) : (s.modStage p i k).gangs = s.gangs := rfl
@[simp] theorem State.modStage_wins (s : State) (p i : Nat) (k : Stage → Stage) : (s.modStage p i k).wins = s.wins := rfl
@[simp] theorem State.modStage_planesDown (s : State) (p i : Nat) (k : Stage → Stage) : (s.modStage p i k).planesDown = s.planesDown := rfl
@[simp] theorem State.modStage_inbox (s : State) (p i : Nat) (k : Stage → Stage) : (s.modStage p i k).inbox = s.inbox := rfl
@[simp] theorem State.modStage_fxf (s : State) (p i : Nat) (k : Stage → Stage) : (s.modStage p i k).fxf = s.fxf := rfl
@[simp] theorem State.modStage_fabOut (s : State) (p i : Nat) (k : Stage → Stage) : (s.modStage p i k).fabOut = s.fabOut := rfl
@[simp] theorem State.modStage_tilesIn (s : State) (p i : Nat) (k : Stage → Stage) : (s.modStage p i k).tilesIn = s.tilesIn := rfl
@[simp] theorem State.modStage_grantsIn (s : State) (p i : Nat) (k : Stage → Stage) : (s.modStage p i k).grantsIn = s.grantsIn := rfl
@[simp] theorem State.modStage_peerEnds (s : State) (p i : Nat) (k : Stage → Stage) : (s.modStage p i k).peerEnds = s.peerEnds := rfl
@[simp] theorem State.modStage_host (s : State) (p i : Nat) (k : Stage → Stage) : (s.modStage p i k).host = s.host := rfl
@[simp] theorem State.modStage_boot (s : State) (p i : Nat) (k : Stage → Stage) : (s.modStage p i k).boot = s.boot := rfl
@[simp] theorem State.modStage_health (s : State) (p i : Nat) (k : Stage → Stage) : (s.modStage p i k).health = s.health := rfl
@[simp] theorem State.modStage_throttle (s : State) (p i : Nat) (k : Stage → Stage) : (s.modStage p i k).throttle = s.throttle := rfl
@[simp] theorem State.modStage_warned (s : State) (p i : Nat) (k : Stage → Stage) : (s.modStage p i k).warned = s.warned := rfl
@[simp] theorem State.modStage_withdrawn (s : State) (p i : Nat) (k : Stage → Stage) : (s.modStage p i k).withdrawn = s.withdrawn := rfl

/-! modPipe changes pipes alone. -/

@[simp] theorem State.modPipe_cycle (s : State) (p : Nat) (k : Pipe → Pipe) : (s.modPipe p k).cycle = s.cycle := rfl
@[simp] theorem State.modPipe_agenda (s : State) (p : Nat) (k : Pipe → Pipe) : (s.modPipe p k).agenda = s.agenda := rfl
@[simp] theorem State.modPipe_cur (s : State) (p : Nat) (k : Pipe → Pipe) : (s.modPipe p k).cur = s.cur := rfl
@[simp] theorem State.modPipe_fresh (s : State) (p : Nat) (k : Pipe → Pipe) : (s.modPipe p k).fresh = s.fresh := rfl
@[simp] theorem State.modPipe_nextId (s : State) (p : Nat) (k : Pipe → Pipe) : (s.modPipe p k).nextId = s.nextId := rfl
@[simp] theorem State.modPipe_mem (s : State) (p : Nat) (k : Pipe → Pipe) : (s.modPipe p k).mem = s.mem := rfl
@[simp] theorem State.modPipe_hmem (s : State) (p : Nat) (k : Pipe → Pipe) : (s.modPipe p k).hmem = s.hmem := rfl
@[simp] theorem State.modPipe_poison (s : State) (p : Nat) (k : Pipe → Pipe) : (s.modPipe p k).poison = s.poison := rfl
@[simp] theorem State.modPipe_lines (s : State) (p : Nat) (k : Pipe → Pipe) : (s.modPipe p k).lines = s.lines := rfl
@[simp] theorem State.modPipe_spad (s : State) (p : Nat) (k : Pipe → Pipe) : (s.modPipe p k).spad = s.spad := rfl
@[simp] theorem State.modPipe_regs (s : State) (p : Nat) (k : Pipe → Pipe) : (s.modPipe p k).regs = s.regs := rfl
@[simp] theorem State.modPipe_flying (s : State) (p : Nat) (k : Pipe → Pipe) : (s.modPipe p k).flying = s.flying := rfl
@[simp] theorem State.modPipe_uregs (s : State) (p : Nat) (k : Pipe → Pipe) : (s.modPipe p k).uregs = s.uregs := rfl
@[simp] theorem State.modPipe_fibres (s : State) (p : Nat) (k : Pipe → Pipe) : (s.modPipe p k).fibres = s.fibres := rfl
@[simp] theorem State.modPipe_groups (s : State) (p : Nat) (k : Pipe → Pipe) : (s.modPipe p k).groups = s.groups := rfl
@[simp] theorem State.modPipe_teams (s : State) (p : Nat) (k : Pipe → Pipe) : (s.modPipe p k).teams = s.teams := rfl
@[simp] theorem State.modPipe_hwins (s : State) (p : Nat) (k : Pipe → Pipe) : (s.modPipe p k).hwins = s.hwins := rfl
@[simp] theorem State.modPipe_lprs (s : State) (p : Nat) (k : Pipe → Pipe) : (s.modPipe p k).lprs = s.lprs := rfl
@[simp] theorem State.modPipe_cores (s : State) (p : Nat) (k : Pipe → Pipe) : (s.modPipe p k).cores = s.cores := rfl
@[simp] theorem State.modPipe_tables (s : State) (p : Nat) (k : Pipe → Pipe) : (s.modPipe p k).tables = s.tables := rfl
@[simp] theorem State.modPipe_mxq (s : State) (p : Nat) (k : Pipe → Pipe) : (s.modPipe p k).mxq = s.mxq := rfl
@[simp] theorem State.modPipe_ops (s : State) (p : Nat) (k : Pipe → Pipe) : (s.modPipe p k).ops = s.ops := rfl
@[simp] theorem State.modPipe_reqs (s : State) (p : Nat) (k : Pipe → Pipe) : (s.modPipe p k).reqs = s.reqs := rfl
@[simp] theorem State.modPipe_poolq (s : State) (p : Nat) (k : Pipe → Pipe) : (s.modPipe p k).poolq = s.poolq := rfl
@[simp] theorem State.modPipe_mesh (s : State) (p : Nat) (k : Pipe → Pipe) : (s.modPipe p k).mesh = s.mesh := rfl
@[simp] theorem State.modPipe_sbars (s : State) (p : Nat) (k : Pipe → Pipe) : (s.modPipe p k).sbars = s.sbars := rfl
@[simp] theorem State.modPipe_bmsgs (s : State) (p : Nat) (k : Pipe → Pipe) : (s.modPipe p k).bmsgs = s.bmsgs := rfl
@[simp] theorem State.modPipe_plans (s : State) (p : Nat) (k : Pipe → Pipe) : (s.modPipe p k).plans = s.plans := rfl
@[simp] theorem State.modPipe_ctxs (s : State) (p : Nat) (k : Pipe → Pipe) : (s.modPipe p k).ctxs = s.ctxs := rfl
@[simp] theorem State.modPipe_parts (s : State) (p : Nat) (k : Pipe → Pipe) : (s.modPipe p k).parts = s.parts := rfl
@[simp] theorem State.modPipe_images (s : State) (p : Nat) (k : Pipe → Pipe) : (s.modPipe p k).images = s.images := rfl
@[simp] theorem State.modPipe_preempts (s : State) (p : Nat) (k : Pipe → Pipe) : (s.modPipe p k).preempts = s.preempts := rfl
@[simp] theorem State.modPipe_gangs (s : State) (p : Nat) (k : Pipe → Pipe) : (s.modPipe p k).gangs = s.gangs := rfl
@[simp] theorem State.modPipe_wins (s : State) (p : Nat) (k : Pipe → Pipe) : (s.modPipe p k).wins = s.wins := rfl
@[simp] theorem State.modPipe_planesDown (s : State) (p : Nat) (k : Pipe → Pipe) : (s.modPipe p k).planesDown = s.planesDown := rfl
@[simp] theorem State.modPipe_inbox (s : State) (p : Nat) (k : Pipe → Pipe) : (s.modPipe p k).inbox = s.inbox := rfl
@[simp] theorem State.modPipe_fxf (s : State) (p : Nat) (k : Pipe → Pipe) : (s.modPipe p k).fxf = s.fxf := rfl
@[simp] theorem State.modPipe_fabOut (s : State) (p : Nat) (k : Pipe → Pipe) : (s.modPipe p k).fabOut = s.fabOut := rfl
@[simp] theorem State.modPipe_tilesIn (s : State) (p : Nat) (k : Pipe → Pipe) : (s.modPipe p k).tilesIn = s.tilesIn := rfl
@[simp] theorem State.modPipe_grantsIn (s : State) (p : Nat) (k : Pipe → Pipe) : (s.modPipe p k).grantsIn = s.grantsIn := rfl
@[simp] theorem State.modPipe_peerEnds (s : State) (p : Nat) (k : Pipe → Pipe) : (s.modPipe p k).peerEnds = s.peerEnds := rfl
@[simp] theorem State.modPipe_host (s : State) (p : Nat) (k : Pipe → Pipe) : (s.modPipe p k).host = s.host := rfl
@[simp] theorem State.modPipe_boot (s : State) (p : Nat) (k : Pipe → Pipe) : (s.modPipe p k).boot = s.boot := rfl
@[simp] theorem State.modPipe_health (s : State) (p : Nat) (k : Pipe → Pipe) : (s.modPipe p k).health = s.health := rfl
@[simp] theorem State.modPipe_throttle (s : State) (p : Nat) (k : Pipe → Pipe) : (s.modPipe p k).throttle = s.throttle := rfl
@[simp] theorem State.modPipe_warned (s : State) (p : Nat) (k : Pipe → Pipe) : (s.modPipe p k).warned = s.warned := rfl
@[simp] theorem State.modPipe_withdrawn (s : State) (p : Nat) (k : Pipe → Pipe) : (s.modPipe p k).withdrawn = s.withdrawn := rfl

/-! modOp changes ops alone. -/

@[simp] theorem State.modOp_cycle (s : State) (o : Nat) (k : Op → Op) : (s.modOp o k).cycle = s.cycle := rfl
@[simp] theorem State.modOp_agenda (s : State) (o : Nat) (k : Op → Op) : (s.modOp o k).agenda = s.agenda := rfl
@[simp] theorem State.modOp_cur (s : State) (o : Nat) (k : Op → Op) : (s.modOp o k).cur = s.cur := rfl
@[simp] theorem State.modOp_fresh (s : State) (o : Nat) (k : Op → Op) : (s.modOp o k).fresh = s.fresh := rfl
@[simp] theorem State.modOp_nextId (s : State) (o : Nat) (k : Op → Op) : (s.modOp o k).nextId = s.nextId := rfl
@[simp] theorem State.modOp_mem (s : State) (o : Nat) (k : Op → Op) : (s.modOp o k).mem = s.mem := rfl
@[simp] theorem State.modOp_hmem (s : State) (o : Nat) (k : Op → Op) : (s.modOp o k).hmem = s.hmem := rfl
@[simp] theorem State.modOp_poison (s : State) (o : Nat) (k : Op → Op) : (s.modOp o k).poison = s.poison := rfl
@[simp] theorem State.modOp_lines (s : State) (o : Nat) (k : Op → Op) : (s.modOp o k).lines = s.lines := rfl
@[simp] theorem State.modOp_spad (s : State) (o : Nat) (k : Op → Op) : (s.modOp o k).spad = s.spad := rfl
@[simp] theorem State.modOp_regs (s : State) (o : Nat) (k : Op → Op) : (s.modOp o k).regs = s.regs := rfl
@[simp] theorem State.modOp_flying (s : State) (o : Nat) (k : Op → Op) : (s.modOp o k).flying = s.flying := rfl
@[simp] theorem State.modOp_uregs (s : State) (o : Nat) (k : Op → Op) : (s.modOp o k).uregs = s.uregs := rfl
@[simp] theorem State.modOp_fibres (s : State) (o : Nat) (k : Op → Op) : (s.modOp o k).fibres = s.fibres := rfl
@[simp] theorem State.modOp_groups (s : State) (o : Nat) (k : Op → Op) : (s.modOp o k).groups = s.groups := rfl
@[simp] theorem State.modOp_teams (s : State) (o : Nat) (k : Op → Op) : (s.modOp o k).teams = s.teams := rfl
@[simp] theorem State.modOp_hwins (s : State) (o : Nat) (k : Op → Op) : (s.modOp o k).hwins = s.hwins := rfl
@[simp] theorem State.modOp_lprs (s : State) (o : Nat) (k : Op → Op) : (s.modOp o k).lprs = s.lprs := rfl
@[simp] theorem State.modOp_cores (s : State) (o : Nat) (k : Op → Op) : (s.modOp o k).cores = s.cores := rfl
@[simp] theorem State.modOp_tables (s : State) (o : Nat) (k : Op → Op) : (s.modOp o k).tables = s.tables := rfl
@[simp] theorem State.modOp_mxq (s : State) (o : Nat) (k : Op → Op) : (s.modOp o k).mxq = s.mxq := rfl
@[simp] theorem State.modOp_reqs (s : State) (o : Nat) (k : Op → Op) : (s.modOp o k).reqs = s.reqs := rfl
@[simp] theorem State.modOp_poolq (s : State) (o : Nat) (k : Op → Op) : (s.modOp o k).poolq = s.poolq := rfl
@[simp] theorem State.modOp_mesh (s : State) (o : Nat) (k : Op → Op) : (s.modOp o k).mesh = s.mesh := rfl
@[simp] theorem State.modOp_sbars (s : State) (o : Nat) (k : Op → Op) : (s.modOp o k).sbars = s.sbars := rfl
@[simp] theorem State.modOp_bmsgs (s : State) (o : Nat) (k : Op → Op) : (s.modOp o k).bmsgs = s.bmsgs := rfl
@[simp] theorem State.modOp_plans (s : State) (o : Nat) (k : Op → Op) : (s.modOp o k).plans = s.plans := rfl
@[simp] theorem State.modOp_pipes (s : State) (o : Nat) (k : Op → Op) : (s.modOp o k).pipes = s.pipes := rfl
@[simp] theorem State.modOp_ctxs (s : State) (o : Nat) (k : Op → Op) : (s.modOp o k).ctxs = s.ctxs := rfl
@[simp] theorem State.modOp_parts (s : State) (o : Nat) (k : Op → Op) : (s.modOp o k).parts = s.parts := rfl
@[simp] theorem State.modOp_images (s : State) (o : Nat) (k : Op → Op) : (s.modOp o k).images = s.images := rfl
@[simp] theorem State.modOp_preempts (s : State) (o : Nat) (k : Op → Op) : (s.modOp o k).preempts = s.preempts := rfl
@[simp] theorem State.modOp_gangs (s : State) (o : Nat) (k : Op → Op) : (s.modOp o k).gangs = s.gangs := rfl
@[simp] theorem State.modOp_wins (s : State) (o : Nat) (k : Op → Op) : (s.modOp o k).wins = s.wins := rfl
@[simp] theorem State.modOp_planesDown (s : State) (o : Nat) (k : Op → Op) : (s.modOp o k).planesDown = s.planesDown := rfl
@[simp] theorem State.modOp_inbox (s : State) (o : Nat) (k : Op → Op) : (s.modOp o k).inbox = s.inbox := rfl
@[simp] theorem State.modOp_fxf (s : State) (o : Nat) (k : Op → Op) : (s.modOp o k).fxf = s.fxf := rfl
@[simp] theorem State.modOp_fabOut (s : State) (o : Nat) (k : Op → Op) : (s.modOp o k).fabOut = s.fabOut := rfl
@[simp] theorem State.modOp_tilesIn (s : State) (o : Nat) (k : Op → Op) : (s.modOp o k).tilesIn = s.tilesIn := rfl
@[simp] theorem State.modOp_grantsIn (s : State) (o : Nat) (k : Op → Op) : (s.modOp o k).grantsIn = s.grantsIn := rfl
@[simp] theorem State.modOp_peerEnds (s : State) (o : Nat) (k : Op → Op) : (s.modOp o k).peerEnds = s.peerEnds := rfl
@[simp] theorem State.modOp_host (s : State) (o : Nat) (k : Op → Op) : (s.modOp o k).host = s.host := rfl
@[simp] theorem State.modOp_boot (s : State) (o : Nat) (k : Op → Op) : (s.modOp o k).boot = s.boot := rfl
@[simp] theorem State.modOp_health (s : State) (o : Nat) (k : Op → Op) : (s.modOp o k).health = s.health := rfl
@[simp] theorem State.modOp_throttle (s : State) (o : Nat) (k : Op → Op) : (s.modOp o k).throttle = s.throttle := rfl
@[simp] theorem State.modOp_warned (s : State) (o : Nat) (k : Op → Op) : (s.modOp o k).warned = s.warned := rfl
@[simp] theorem State.modOp_withdrawn (s : State) (o : Nat) (k : Op → Op) : (s.modOp o k).withdrawn = s.withdrawn := rfl

/-! modReq changes reqs alone. -/

@[simp] theorem State.modReq_cycle (s : State) (r : Nat) (k : Req → Req) : (s.modReq r k).cycle = s.cycle := rfl
@[simp] theorem State.modReq_agenda (s : State) (r : Nat) (k : Req → Req) : (s.modReq r k).agenda = s.agenda := rfl
@[simp] theorem State.modReq_cur (s : State) (r : Nat) (k : Req → Req) : (s.modReq r k).cur = s.cur := rfl
@[simp] theorem State.modReq_fresh (s : State) (r : Nat) (k : Req → Req) : (s.modReq r k).fresh = s.fresh := rfl
@[simp] theorem State.modReq_nextId (s : State) (r : Nat) (k : Req → Req) : (s.modReq r k).nextId = s.nextId := rfl
@[simp] theorem State.modReq_mem (s : State) (r : Nat) (k : Req → Req) : (s.modReq r k).mem = s.mem := rfl
@[simp] theorem State.modReq_hmem (s : State) (r : Nat) (k : Req → Req) : (s.modReq r k).hmem = s.hmem := rfl
@[simp] theorem State.modReq_poison (s : State) (r : Nat) (k : Req → Req) : (s.modReq r k).poison = s.poison := rfl
@[simp] theorem State.modReq_lines (s : State) (r : Nat) (k : Req → Req) : (s.modReq r k).lines = s.lines := rfl
@[simp] theorem State.modReq_spad (s : State) (r : Nat) (k : Req → Req) : (s.modReq r k).spad = s.spad := rfl
@[simp] theorem State.modReq_regs (s : State) (r : Nat) (k : Req → Req) : (s.modReq r k).regs = s.regs := rfl
@[simp] theorem State.modReq_flying (s : State) (r : Nat) (k : Req → Req) : (s.modReq r k).flying = s.flying := rfl
@[simp] theorem State.modReq_uregs (s : State) (r : Nat) (k : Req → Req) : (s.modReq r k).uregs = s.uregs := rfl
@[simp] theorem State.modReq_fibres (s : State) (r : Nat) (k : Req → Req) : (s.modReq r k).fibres = s.fibres := rfl
@[simp] theorem State.modReq_groups (s : State) (r : Nat) (k : Req → Req) : (s.modReq r k).groups = s.groups := rfl
@[simp] theorem State.modReq_teams (s : State) (r : Nat) (k : Req → Req) : (s.modReq r k).teams = s.teams := rfl
@[simp] theorem State.modReq_hwins (s : State) (r : Nat) (k : Req → Req) : (s.modReq r k).hwins = s.hwins := rfl
@[simp] theorem State.modReq_lprs (s : State) (r : Nat) (k : Req → Req) : (s.modReq r k).lprs = s.lprs := rfl
@[simp] theorem State.modReq_cores (s : State) (r : Nat) (k : Req → Req) : (s.modReq r k).cores = s.cores := rfl
@[simp] theorem State.modReq_tables (s : State) (r : Nat) (k : Req → Req) : (s.modReq r k).tables = s.tables := rfl
@[simp] theorem State.modReq_mxq (s : State) (r : Nat) (k : Req → Req) : (s.modReq r k).mxq = s.mxq := rfl
@[simp] theorem State.modReq_ops (s : State) (r : Nat) (k : Req → Req) : (s.modReq r k).ops = s.ops := rfl
@[simp] theorem State.modReq_poolq (s : State) (r : Nat) (k : Req → Req) : (s.modReq r k).poolq = s.poolq := rfl
@[simp] theorem State.modReq_mesh (s : State) (r : Nat) (k : Req → Req) : (s.modReq r k).mesh = s.mesh := rfl
@[simp] theorem State.modReq_sbars (s : State) (r : Nat) (k : Req → Req) : (s.modReq r k).sbars = s.sbars := rfl
@[simp] theorem State.modReq_bmsgs (s : State) (r : Nat) (k : Req → Req) : (s.modReq r k).bmsgs = s.bmsgs := rfl
@[simp] theorem State.modReq_plans (s : State) (r : Nat) (k : Req → Req) : (s.modReq r k).plans = s.plans := rfl
@[simp] theorem State.modReq_pipes (s : State) (r : Nat) (k : Req → Req) : (s.modReq r k).pipes = s.pipes := rfl
@[simp] theorem State.modReq_ctxs (s : State) (r : Nat) (k : Req → Req) : (s.modReq r k).ctxs = s.ctxs := rfl
@[simp] theorem State.modReq_parts (s : State) (r : Nat) (k : Req → Req) : (s.modReq r k).parts = s.parts := rfl
@[simp] theorem State.modReq_images (s : State) (r : Nat) (k : Req → Req) : (s.modReq r k).images = s.images := rfl
@[simp] theorem State.modReq_preempts (s : State) (r : Nat) (k : Req → Req) : (s.modReq r k).preempts = s.preempts := rfl
@[simp] theorem State.modReq_gangs (s : State) (r : Nat) (k : Req → Req) : (s.modReq r k).gangs = s.gangs := rfl
@[simp] theorem State.modReq_wins (s : State) (r : Nat) (k : Req → Req) : (s.modReq r k).wins = s.wins := rfl
@[simp] theorem State.modReq_planesDown (s : State) (r : Nat) (k : Req → Req) : (s.modReq r k).planesDown = s.planesDown := rfl
@[simp] theorem State.modReq_inbox (s : State) (r : Nat) (k : Req → Req) : (s.modReq r k).inbox = s.inbox := rfl
@[simp] theorem State.modReq_fxf (s : State) (r : Nat) (k : Req → Req) : (s.modReq r k).fxf = s.fxf := rfl
@[simp] theorem State.modReq_fabOut (s : State) (r : Nat) (k : Req → Req) : (s.modReq r k).fabOut = s.fabOut := rfl
@[simp] theorem State.modReq_tilesIn (s : State) (r : Nat) (k : Req → Req) : (s.modReq r k).tilesIn = s.tilesIn := rfl
@[simp] theorem State.modReq_grantsIn (s : State) (r : Nat) (k : Req → Req) : (s.modReq r k).grantsIn = s.grantsIn := rfl
@[simp] theorem State.modReq_peerEnds (s : State) (r : Nat) (k : Req → Req) : (s.modReq r k).peerEnds = s.peerEnds := rfl
@[simp] theorem State.modReq_host (s : State) (r : Nat) (k : Req → Req) : (s.modReq r k).host = s.host := rfl
@[simp] theorem State.modReq_boot (s : State) (r : Nat) (k : Req → Req) : (s.modReq r k).boot = s.boot := rfl
@[simp] theorem State.modReq_health (s : State) (r : Nat) (k : Req → Req) : (s.modReq r k).health = s.health := rfl
@[simp] theorem State.modReq_throttle (s : State) (r : Nat) (k : Req → Req) : (s.modReq r k).throttle = s.throttle := rfl
@[simp] theorem State.modReq_warned (s : State) (r : Nat) (k : Req → Req) : (s.modReq r k).warned = s.warned := rfl
@[simp] theorem State.modReq_withdrawn (s : State) (r : Nat) (k : Req → Req) : (s.modReq r k).withdrawn = s.withdrawn := rfl

/-! modCtx changes ctxs alone. -/

@[simp] theorem State.modCtx_cycle (s : State) (c : Nat) (k : Ctx → Ctx) : (s.modCtx c k).cycle = s.cycle := rfl
@[simp] theorem State.modCtx_agenda (s : State) (c : Nat) (k : Ctx → Ctx) : (s.modCtx c k).agenda = s.agenda := rfl
@[simp] theorem State.modCtx_cur (s : State) (c : Nat) (k : Ctx → Ctx) : (s.modCtx c k).cur = s.cur := rfl
@[simp] theorem State.modCtx_fresh (s : State) (c : Nat) (k : Ctx → Ctx) : (s.modCtx c k).fresh = s.fresh := rfl
@[simp] theorem State.modCtx_nextId (s : State) (c : Nat) (k : Ctx → Ctx) : (s.modCtx c k).nextId = s.nextId := rfl
@[simp] theorem State.modCtx_mem (s : State) (c : Nat) (k : Ctx → Ctx) : (s.modCtx c k).mem = s.mem := rfl
@[simp] theorem State.modCtx_hmem (s : State) (c : Nat) (k : Ctx → Ctx) : (s.modCtx c k).hmem = s.hmem := rfl
@[simp] theorem State.modCtx_poison (s : State) (c : Nat) (k : Ctx → Ctx) : (s.modCtx c k).poison = s.poison := rfl
@[simp] theorem State.modCtx_lines (s : State) (c : Nat) (k : Ctx → Ctx) : (s.modCtx c k).lines = s.lines := rfl
@[simp] theorem State.modCtx_spad (s : State) (c : Nat) (k : Ctx → Ctx) : (s.modCtx c k).spad = s.spad := rfl
@[simp] theorem State.modCtx_regs (s : State) (c : Nat) (k : Ctx → Ctx) : (s.modCtx c k).regs = s.regs := rfl
@[simp] theorem State.modCtx_flying (s : State) (c : Nat) (k : Ctx → Ctx) : (s.modCtx c k).flying = s.flying := rfl
@[simp] theorem State.modCtx_uregs (s : State) (c : Nat) (k : Ctx → Ctx) : (s.modCtx c k).uregs = s.uregs := rfl
@[simp] theorem State.modCtx_fibres (s : State) (c : Nat) (k : Ctx → Ctx) : (s.modCtx c k).fibres = s.fibres := rfl
@[simp] theorem State.modCtx_groups (s : State) (c : Nat) (k : Ctx → Ctx) : (s.modCtx c k).groups = s.groups := rfl
@[simp] theorem State.modCtx_teams (s : State) (c : Nat) (k : Ctx → Ctx) : (s.modCtx c k).teams = s.teams := rfl
@[simp] theorem State.modCtx_hwins (s : State) (c : Nat) (k : Ctx → Ctx) : (s.modCtx c k).hwins = s.hwins := rfl
@[simp] theorem State.modCtx_lprs (s : State) (c : Nat) (k : Ctx → Ctx) : (s.modCtx c k).lprs = s.lprs := rfl
@[simp] theorem State.modCtx_cores (s : State) (c : Nat) (k : Ctx → Ctx) : (s.modCtx c k).cores = s.cores := rfl
@[simp] theorem State.modCtx_tables (s : State) (c : Nat) (k : Ctx → Ctx) : (s.modCtx c k).tables = s.tables := rfl
@[simp] theorem State.modCtx_mxq (s : State) (c : Nat) (k : Ctx → Ctx) : (s.modCtx c k).mxq = s.mxq := rfl
@[simp] theorem State.modCtx_ops (s : State) (c : Nat) (k : Ctx → Ctx) : (s.modCtx c k).ops = s.ops := rfl
@[simp] theorem State.modCtx_reqs (s : State) (c : Nat) (k : Ctx → Ctx) : (s.modCtx c k).reqs = s.reqs := rfl
@[simp] theorem State.modCtx_poolq (s : State) (c : Nat) (k : Ctx → Ctx) : (s.modCtx c k).poolq = s.poolq := rfl
@[simp] theorem State.modCtx_mesh (s : State) (c : Nat) (k : Ctx → Ctx) : (s.modCtx c k).mesh = s.mesh := rfl
@[simp] theorem State.modCtx_sbars (s : State) (c : Nat) (k : Ctx → Ctx) : (s.modCtx c k).sbars = s.sbars := rfl
@[simp] theorem State.modCtx_bmsgs (s : State) (c : Nat) (k : Ctx → Ctx) : (s.modCtx c k).bmsgs = s.bmsgs := rfl
@[simp] theorem State.modCtx_plans (s : State) (c : Nat) (k : Ctx → Ctx) : (s.modCtx c k).plans = s.plans := rfl
@[simp] theorem State.modCtx_pipes (s : State) (c : Nat) (k : Ctx → Ctx) : (s.modCtx c k).pipes = s.pipes := rfl
@[simp] theorem State.modCtx_parts (s : State) (c : Nat) (k : Ctx → Ctx) : (s.modCtx c k).parts = s.parts := rfl
@[simp] theorem State.modCtx_images (s : State) (c : Nat) (k : Ctx → Ctx) : (s.modCtx c k).images = s.images := rfl
@[simp] theorem State.modCtx_preempts (s : State) (c : Nat) (k : Ctx → Ctx) : (s.modCtx c k).preempts = s.preempts := rfl
@[simp] theorem State.modCtx_gangs (s : State) (c : Nat) (k : Ctx → Ctx) : (s.modCtx c k).gangs = s.gangs := rfl
@[simp] theorem State.modCtx_wins (s : State) (c : Nat) (k : Ctx → Ctx) : (s.modCtx c k).wins = s.wins := rfl
@[simp] theorem State.modCtx_planesDown (s : State) (c : Nat) (k : Ctx → Ctx) : (s.modCtx c k).planesDown = s.planesDown := rfl
@[simp] theorem State.modCtx_inbox (s : State) (c : Nat) (k : Ctx → Ctx) : (s.modCtx c k).inbox = s.inbox := rfl
@[simp] theorem State.modCtx_fxf (s : State) (c : Nat) (k : Ctx → Ctx) : (s.modCtx c k).fxf = s.fxf := rfl
@[simp] theorem State.modCtx_fabOut (s : State) (c : Nat) (k : Ctx → Ctx) : (s.modCtx c k).fabOut = s.fabOut := rfl
@[simp] theorem State.modCtx_tilesIn (s : State) (c : Nat) (k : Ctx → Ctx) : (s.modCtx c k).tilesIn = s.tilesIn := rfl
@[simp] theorem State.modCtx_grantsIn (s : State) (c : Nat) (k : Ctx → Ctx) : (s.modCtx c k).grantsIn = s.grantsIn := rfl
@[simp] theorem State.modCtx_peerEnds (s : State) (c : Nat) (k : Ctx → Ctx) : (s.modCtx c k).peerEnds = s.peerEnds := rfl
@[simp] theorem State.modCtx_host (s : State) (c : Nat) (k : Ctx → Ctx) : (s.modCtx c k).host = s.host := rfl
@[simp] theorem State.modCtx_boot (s : State) (c : Nat) (k : Ctx → Ctx) : (s.modCtx c k).boot = s.boot := rfl
@[simp] theorem State.modCtx_health (s : State) (c : Nat) (k : Ctx → Ctx) : (s.modCtx c k).health = s.health := rfl
@[simp] theorem State.modCtx_throttle (s : State) (c : Nat) (k : Ctx → Ctx) : (s.modCtx c k).throttle = s.throttle := rfl
@[simp] theorem State.modCtx_warned (s : State) (c : Nat) (k : Ctx → Ctx) : (s.modCtx c k).warned = s.warned := rfl
@[simp] theorem State.modCtx_withdrawn (s : State) (c : Nat) (k : Ctx → Ctx) : (s.modCtx c k).withdrawn = s.withdrawn := rfl

/-! modWin changes wins alone. -/

@[simp] theorem State.modWin_cycle (s : State) (e : Nat) (k : WinEntry → WinEntry) : (s.modWin e k).cycle = s.cycle := rfl
@[simp] theorem State.modWin_agenda (s : State) (e : Nat) (k : WinEntry → WinEntry) : (s.modWin e k).agenda = s.agenda := rfl
@[simp] theorem State.modWin_cur (s : State) (e : Nat) (k : WinEntry → WinEntry) : (s.modWin e k).cur = s.cur := rfl
@[simp] theorem State.modWin_fresh (s : State) (e : Nat) (k : WinEntry → WinEntry) : (s.modWin e k).fresh = s.fresh := rfl
@[simp] theorem State.modWin_nextId (s : State) (e : Nat) (k : WinEntry → WinEntry) : (s.modWin e k).nextId = s.nextId := rfl
@[simp] theorem State.modWin_mem (s : State) (e : Nat) (k : WinEntry → WinEntry) : (s.modWin e k).mem = s.mem := rfl
@[simp] theorem State.modWin_hmem (s : State) (e : Nat) (k : WinEntry → WinEntry) : (s.modWin e k).hmem = s.hmem := rfl
@[simp] theorem State.modWin_poison (s : State) (e : Nat) (k : WinEntry → WinEntry) : (s.modWin e k).poison = s.poison := rfl
@[simp] theorem State.modWin_lines (s : State) (e : Nat) (k : WinEntry → WinEntry) : (s.modWin e k).lines = s.lines := rfl
@[simp] theorem State.modWin_spad (s : State) (e : Nat) (k : WinEntry → WinEntry) : (s.modWin e k).spad = s.spad := rfl
@[simp] theorem State.modWin_regs (s : State) (e : Nat) (k : WinEntry → WinEntry) : (s.modWin e k).regs = s.regs := rfl
@[simp] theorem State.modWin_flying (s : State) (e : Nat) (k : WinEntry → WinEntry) : (s.modWin e k).flying = s.flying := rfl
@[simp] theorem State.modWin_uregs (s : State) (e : Nat) (k : WinEntry → WinEntry) : (s.modWin e k).uregs = s.uregs := rfl
@[simp] theorem State.modWin_fibres (s : State) (e : Nat) (k : WinEntry → WinEntry) : (s.modWin e k).fibres = s.fibres := rfl
@[simp] theorem State.modWin_groups (s : State) (e : Nat) (k : WinEntry → WinEntry) : (s.modWin e k).groups = s.groups := rfl
@[simp] theorem State.modWin_teams (s : State) (e : Nat) (k : WinEntry → WinEntry) : (s.modWin e k).teams = s.teams := rfl
@[simp] theorem State.modWin_hwins (s : State) (e : Nat) (k : WinEntry → WinEntry) : (s.modWin e k).hwins = s.hwins := rfl
@[simp] theorem State.modWin_lprs (s : State) (e : Nat) (k : WinEntry → WinEntry) : (s.modWin e k).lprs = s.lprs := rfl
@[simp] theorem State.modWin_cores (s : State) (e : Nat) (k : WinEntry → WinEntry) : (s.modWin e k).cores = s.cores := rfl
@[simp] theorem State.modWin_tables (s : State) (e : Nat) (k : WinEntry → WinEntry) : (s.modWin e k).tables = s.tables := rfl
@[simp] theorem State.modWin_mxq (s : State) (e : Nat) (k : WinEntry → WinEntry) : (s.modWin e k).mxq = s.mxq := rfl
@[simp] theorem State.modWin_ops (s : State) (e : Nat) (k : WinEntry → WinEntry) : (s.modWin e k).ops = s.ops := rfl
@[simp] theorem State.modWin_reqs (s : State) (e : Nat) (k : WinEntry → WinEntry) : (s.modWin e k).reqs = s.reqs := rfl
@[simp] theorem State.modWin_poolq (s : State) (e : Nat) (k : WinEntry → WinEntry) : (s.modWin e k).poolq = s.poolq := rfl
@[simp] theorem State.modWin_mesh (s : State) (e : Nat) (k : WinEntry → WinEntry) : (s.modWin e k).mesh = s.mesh := rfl
@[simp] theorem State.modWin_sbars (s : State) (e : Nat) (k : WinEntry → WinEntry) : (s.modWin e k).sbars = s.sbars := rfl
@[simp] theorem State.modWin_bmsgs (s : State) (e : Nat) (k : WinEntry → WinEntry) : (s.modWin e k).bmsgs = s.bmsgs := rfl
@[simp] theorem State.modWin_plans (s : State) (e : Nat) (k : WinEntry → WinEntry) : (s.modWin e k).plans = s.plans := rfl
@[simp] theorem State.modWin_pipes (s : State) (e : Nat) (k : WinEntry → WinEntry) : (s.modWin e k).pipes = s.pipes := rfl
@[simp] theorem State.modWin_ctxs (s : State) (e : Nat) (k : WinEntry → WinEntry) : (s.modWin e k).ctxs = s.ctxs := rfl
@[simp] theorem State.modWin_parts (s : State) (e : Nat) (k : WinEntry → WinEntry) : (s.modWin e k).parts = s.parts := rfl
@[simp] theorem State.modWin_images (s : State) (e : Nat) (k : WinEntry → WinEntry) : (s.modWin e k).images = s.images := rfl
@[simp] theorem State.modWin_preempts (s : State) (e : Nat) (k : WinEntry → WinEntry) : (s.modWin e k).preempts = s.preempts := rfl
@[simp] theorem State.modWin_gangs (s : State) (e : Nat) (k : WinEntry → WinEntry) : (s.modWin e k).gangs = s.gangs := rfl
@[simp] theorem State.modWin_planesDown (s : State) (e : Nat) (k : WinEntry → WinEntry) : (s.modWin e k).planesDown = s.planesDown := rfl
@[simp] theorem State.modWin_inbox (s : State) (e : Nat) (k : WinEntry → WinEntry) : (s.modWin e k).inbox = s.inbox := rfl
@[simp] theorem State.modWin_fxf (s : State) (e : Nat) (k : WinEntry → WinEntry) : (s.modWin e k).fxf = s.fxf := rfl
@[simp] theorem State.modWin_fabOut (s : State) (e : Nat) (k : WinEntry → WinEntry) : (s.modWin e k).fabOut = s.fabOut := rfl
@[simp] theorem State.modWin_tilesIn (s : State) (e : Nat) (k : WinEntry → WinEntry) : (s.modWin e k).tilesIn = s.tilesIn := rfl
@[simp] theorem State.modWin_grantsIn (s : State) (e : Nat) (k : WinEntry → WinEntry) : (s.modWin e k).grantsIn = s.grantsIn := rfl
@[simp] theorem State.modWin_peerEnds (s : State) (e : Nat) (k : WinEntry → WinEntry) : (s.modWin e k).peerEnds = s.peerEnds := rfl
@[simp] theorem State.modWin_host (s : State) (e : Nat) (k : WinEntry → WinEntry) : (s.modWin e k).host = s.host := rfl
@[simp] theorem State.modWin_boot (s : State) (e : Nat) (k : WinEntry → WinEntry) : (s.modWin e k).boot = s.boot := rfl
@[simp] theorem State.modWin_health (s : State) (e : Nat) (k : WinEntry → WinEntry) : (s.modWin e k).health = s.health := rfl
@[simp] theorem State.modWin_throttle (s : State) (e : Nat) (k : WinEntry → WinEntry) : (s.modWin e k).throttle = s.throttle := rfl
@[simp] theorem State.modWin_warned (s : State) (e : Nat) (k : WinEntry → WinEntry) : (s.modWin e k).warned = s.warned := rfl
@[simp] theorem State.modWin_withdrawn (s : State) (e : Nat) (k : WinEntry → WinEntry) : (s.modWin e k).withdrawn = s.withdrawn := rfl

/-! setReg changes regs alone. -/

@[simp] theorem State.setReg_cycle (s : State) (hl n : Nat) (x : Word) : (s.setReg hl n x).cycle = s.cycle := rfl
@[simp] theorem State.setReg_agenda (s : State) (hl n : Nat) (x : Word) : (s.setReg hl n x).agenda = s.agenda := rfl
@[simp] theorem State.setReg_cur (s : State) (hl n : Nat) (x : Word) : (s.setReg hl n x).cur = s.cur := rfl
@[simp] theorem State.setReg_fresh (s : State) (hl n : Nat) (x : Word) : (s.setReg hl n x).fresh = s.fresh := rfl
@[simp] theorem State.setReg_nextId (s : State) (hl n : Nat) (x : Word) : (s.setReg hl n x).nextId = s.nextId := rfl
@[simp] theorem State.setReg_mem (s : State) (hl n : Nat) (x : Word) : (s.setReg hl n x).mem = s.mem := rfl
@[simp] theorem State.setReg_hmem (s : State) (hl n : Nat) (x : Word) : (s.setReg hl n x).hmem = s.hmem := rfl
@[simp] theorem State.setReg_poison (s : State) (hl n : Nat) (x : Word) : (s.setReg hl n x).poison = s.poison := rfl
@[simp] theorem State.setReg_lines (s : State) (hl n : Nat) (x : Word) : (s.setReg hl n x).lines = s.lines := rfl
@[simp] theorem State.setReg_spad (s : State) (hl n : Nat) (x : Word) : (s.setReg hl n x).spad = s.spad := rfl
@[simp] theorem State.setReg_flying (s : State) (hl n : Nat) (x : Word) : (s.setReg hl n x).flying = s.flying := rfl
@[simp] theorem State.setReg_uregs (s : State) (hl n : Nat) (x : Word) : (s.setReg hl n x).uregs = s.uregs := rfl
@[simp] theorem State.setReg_fibres (s : State) (hl n : Nat) (x : Word) : (s.setReg hl n x).fibres = s.fibres := rfl
@[simp] theorem State.setReg_groups (s : State) (hl n : Nat) (x : Word) : (s.setReg hl n x).groups = s.groups := rfl
@[simp] theorem State.setReg_teams (s : State) (hl n : Nat) (x : Word) : (s.setReg hl n x).teams = s.teams := rfl
@[simp] theorem State.setReg_hwins (s : State) (hl n : Nat) (x : Word) : (s.setReg hl n x).hwins = s.hwins := rfl
@[simp] theorem State.setReg_lprs (s : State) (hl n : Nat) (x : Word) : (s.setReg hl n x).lprs = s.lprs := rfl
@[simp] theorem State.setReg_cores (s : State) (hl n : Nat) (x : Word) : (s.setReg hl n x).cores = s.cores := rfl
@[simp] theorem State.setReg_tables (s : State) (hl n : Nat) (x : Word) : (s.setReg hl n x).tables = s.tables := rfl
@[simp] theorem State.setReg_mxq (s : State) (hl n : Nat) (x : Word) : (s.setReg hl n x).mxq = s.mxq := rfl
@[simp] theorem State.setReg_ops (s : State) (hl n : Nat) (x : Word) : (s.setReg hl n x).ops = s.ops := rfl
@[simp] theorem State.setReg_reqs (s : State) (hl n : Nat) (x : Word) : (s.setReg hl n x).reqs = s.reqs := rfl
@[simp] theorem State.setReg_poolq (s : State) (hl n : Nat) (x : Word) : (s.setReg hl n x).poolq = s.poolq := rfl
@[simp] theorem State.setReg_mesh (s : State) (hl n : Nat) (x : Word) : (s.setReg hl n x).mesh = s.mesh := rfl
@[simp] theorem State.setReg_sbars (s : State) (hl n : Nat) (x : Word) : (s.setReg hl n x).sbars = s.sbars := rfl
@[simp] theorem State.setReg_bmsgs (s : State) (hl n : Nat) (x : Word) : (s.setReg hl n x).bmsgs = s.bmsgs := rfl
@[simp] theorem State.setReg_plans (s : State) (hl n : Nat) (x : Word) : (s.setReg hl n x).plans = s.plans := rfl
@[simp] theorem State.setReg_pipes (s : State) (hl n : Nat) (x : Word) : (s.setReg hl n x).pipes = s.pipes := rfl
@[simp] theorem State.setReg_ctxs (s : State) (hl n : Nat) (x : Word) : (s.setReg hl n x).ctxs = s.ctxs := rfl
@[simp] theorem State.setReg_parts (s : State) (hl n : Nat) (x : Word) : (s.setReg hl n x).parts = s.parts := rfl
@[simp] theorem State.setReg_images (s : State) (hl n : Nat) (x : Word) : (s.setReg hl n x).images = s.images := rfl
@[simp] theorem State.setReg_preempts (s : State) (hl n : Nat) (x : Word) : (s.setReg hl n x).preempts = s.preempts := rfl
@[simp] theorem State.setReg_gangs (s : State) (hl n : Nat) (x : Word) : (s.setReg hl n x).gangs = s.gangs := rfl
@[simp] theorem State.setReg_wins (s : State) (hl n : Nat) (x : Word) : (s.setReg hl n x).wins = s.wins := rfl
@[simp] theorem State.setReg_planesDown (s : State) (hl n : Nat) (x : Word) : (s.setReg hl n x).planesDown = s.planesDown := rfl
@[simp] theorem State.setReg_inbox (s : State) (hl n : Nat) (x : Word) : (s.setReg hl n x).inbox = s.inbox := rfl
@[simp] theorem State.setReg_fxf (s : State) (hl n : Nat) (x : Word) : (s.setReg hl n x).fxf = s.fxf := rfl
@[simp] theorem State.setReg_fabOut (s : State) (hl n : Nat) (x : Word) : (s.setReg hl n x).fabOut = s.fabOut := rfl
@[simp] theorem State.setReg_tilesIn (s : State) (hl n : Nat) (x : Word) : (s.setReg hl n x).tilesIn = s.tilesIn := rfl
@[simp] theorem State.setReg_grantsIn (s : State) (hl n : Nat) (x : Word) : (s.setReg hl n x).grantsIn = s.grantsIn := rfl
@[simp] theorem State.setReg_peerEnds (s : State) (hl n : Nat) (x : Word) : (s.setReg hl n x).peerEnds = s.peerEnds := rfl
@[simp] theorem State.setReg_host (s : State) (hl n : Nat) (x : Word) : (s.setReg hl n x).host = s.host := rfl
@[simp] theorem State.setReg_boot (s : State) (hl n : Nat) (x : Word) : (s.setReg hl n x).boot = s.boot := rfl
@[simp] theorem State.setReg_health (s : State) (hl n : Nat) (x : Word) : (s.setReg hl n x).health = s.health := rfl
@[simp] theorem State.setReg_throttle (s : State) (hl n : Nat) (x : Word) : (s.setReg hl n x).throttle = s.throttle := rfl
@[simp] theorem State.setReg_warned (s : State) (hl n : Nat) (x : Word) : (s.setReg hl n x).warned = s.warned := rfl
@[simp] theorem State.setReg_withdrawn (s : State) (hl n : Nat) (x : Word) : (s.setReg hl n x).withdrawn = s.withdrawn := rfl

/-! setUreg changes uregs alone. -/

@[simp] theorem State.setUreg_cycle (s : State) (t n : Nat) (x : Word) : (s.setUreg t n x).cycle = s.cycle := rfl
@[simp] theorem State.setUreg_agenda (s : State) (t n : Nat) (x : Word) : (s.setUreg t n x).agenda = s.agenda := rfl
@[simp] theorem State.setUreg_cur (s : State) (t n : Nat) (x : Word) : (s.setUreg t n x).cur = s.cur := rfl
@[simp] theorem State.setUreg_fresh (s : State) (t n : Nat) (x : Word) : (s.setUreg t n x).fresh = s.fresh := rfl
@[simp] theorem State.setUreg_nextId (s : State) (t n : Nat) (x : Word) : (s.setUreg t n x).nextId = s.nextId := rfl
@[simp] theorem State.setUreg_mem (s : State) (t n : Nat) (x : Word) : (s.setUreg t n x).mem = s.mem := rfl
@[simp] theorem State.setUreg_hmem (s : State) (t n : Nat) (x : Word) : (s.setUreg t n x).hmem = s.hmem := rfl
@[simp] theorem State.setUreg_poison (s : State) (t n : Nat) (x : Word) : (s.setUreg t n x).poison = s.poison := rfl
@[simp] theorem State.setUreg_lines (s : State) (t n : Nat) (x : Word) : (s.setUreg t n x).lines = s.lines := rfl
@[simp] theorem State.setUreg_spad (s : State) (t n : Nat) (x : Word) : (s.setUreg t n x).spad = s.spad := rfl
@[simp] theorem State.setUreg_regs (s : State) (t n : Nat) (x : Word) : (s.setUreg t n x).regs = s.regs := rfl
@[simp] theorem State.setUreg_flying (s : State) (t n : Nat) (x : Word) : (s.setUreg t n x).flying = s.flying := rfl
@[simp] theorem State.setUreg_fibres (s : State) (t n : Nat) (x : Word) : (s.setUreg t n x).fibres = s.fibres := rfl
@[simp] theorem State.setUreg_groups (s : State) (t n : Nat) (x : Word) : (s.setUreg t n x).groups = s.groups := rfl
@[simp] theorem State.setUreg_teams (s : State) (t n : Nat) (x : Word) : (s.setUreg t n x).teams = s.teams := rfl
@[simp] theorem State.setUreg_hwins (s : State) (t n : Nat) (x : Word) : (s.setUreg t n x).hwins = s.hwins := rfl
@[simp] theorem State.setUreg_lprs (s : State) (t n : Nat) (x : Word) : (s.setUreg t n x).lprs = s.lprs := rfl
@[simp] theorem State.setUreg_cores (s : State) (t n : Nat) (x : Word) : (s.setUreg t n x).cores = s.cores := rfl
@[simp] theorem State.setUreg_tables (s : State) (t n : Nat) (x : Word) : (s.setUreg t n x).tables = s.tables := rfl
@[simp] theorem State.setUreg_mxq (s : State) (t n : Nat) (x : Word) : (s.setUreg t n x).mxq = s.mxq := rfl
@[simp] theorem State.setUreg_ops (s : State) (t n : Nat) (x : Word) : (s.setUreg t n x).ops = s.ops := rfl
@[simp] theorem State.setUreg_reqs (s : State) (t n : Nat) (x : Word) : (s.setUreg t n x).reqs = s.reqs := rfl
@[simp] theorem State.setUreg_poolq (s : State) (t n : Nat) (x : Word) : (s.setUreg t n x).poolq = s.poolq := rfl
@[simp] theorem State.setUreg_mesh (s : State) (t n : Nat) (x : Word) : (s.setUreg t n x).mesh = s.mesh := rfl
@[simp] theorem State.setUreg_sbars (s : State) (t n : Nat) (x : Word) : (s.setUreg t n x).sbars = s.sbars := rfl
@[simp] theorem State.setUreg_bmsgs (s : State) (t n : Nat) (x : Word) : (s.setUreg t n x).bmsgs = s.bmsgs := rfl
@[simp] theorem State.setUreg_plans (s : State) (t n : Nat) (x : Word) : (s.setUreg t n x).plans = s.plans := rfl
@[simp] theorem State.setUreg_pipes (s : State) (t n : Nat) (x : Word) : (s.setUreg t n x).pipes = s.pipes := rfl
@[simp] theorem State.setUreg_ctxs (s : State) (t n : Nat) (x : Word) : (s.setUreg t n x).ctxs = s.ctxs := rfl
@[simp] theorem State.setUreg_parts (s : State) (t n : Nat) (x : Word) : (s.setUreg t n x).parts = s.parts := rfl
@[simp] theorem State.setUreg_images (s : State) (t n : Nat) (x : Word) : (s.setUreg t n x).images = s.images := rfl
@[simp] theorem State.setUreg_preempts (s : State) (t n : Nat) (x : Word) : (s.setUreg t n x).preempts = s.preempts := rfl
@[simp] theorem State.setUreg_gangs (s : State) (t n : Nat) (x : Word) : (s.setUreg t n x).gangs = s.gangs := rfl
@[simp] theorem State.setUreg_wins (s : State) (t n : Nat) (x : Word) : (s.setUreg t n x).wins = s.wins := rfl
@[simp] theorem State.setUreg_planesDown (s : State) (t n : Nat) (x : Word) : (s.setUreg t n x).planesDown = s.planesDown := rfl
@[simp] theorem State.setUreg_inbox (s : State) (t n : Nat) (x : Word) : (s.setUreg t n x).inbox = s.inbox := rfl
@[simp] theorem State.setUreg_fxf (s : State) (t n : Nat) (x : Word) : (s.setUreg t n x).fxf = s.fxf := rfl
@[simp] theorem State.setUreg_fabOut (s : State) (t n : Nat) (x : Word) : (s.setUreg t n x).fabOut = s.fabOut := rfl
@[simp] theorem State.setUreg_tilesIn (s : State) (t n : Nat) (x : Word) : (s.setUreg t n x).tilesIn = s.tilesIn := rfl
@[simp] theorem State.setUreg_grantsIn (s : State) (t n : Nat) (x : Word) : (s.setUreg t n x).grantsIn = s.grantsIn := rfl
@[simp] theorem State.setUreg_peerEnds (s : State) (t n : Nat) (x : Word) : (s.setUreg t n x).peerEnds = s.peerEnds := rfl
@[simp] theorem State.setUreg_host (s : State) (t n : Nat) (x : Word) : (s.setUreg t n x).host = s.host := rfl
@[simp] theorem State.setUreg_boot (s : State) (t n : Nat) (x : Word) : (s.setUreg t n x).boot = s.boot := rfl
@[simp] theorem State.setUreg_health (s : State) (t n : Nat) (x : Word) : (s.setUreg t n x).health = s.health := rfl
@[simp] theorem State.setUreg_throttle (s : State) (t n : Nat) (x : Word) : (s.setUreg t n x).throttle = s.throttle := rfl
@[simp] theorem State.setUreg_warned (s : State) (t n : Nat) (x : Word) : (s.setUreg t n x).warned = s.warned := rfl
@[simp] theorem State.setUreg_withdrawn (s : State) (t n : Nat) (x : Word) : (s.setUreg t n x).withdrawn = s.withdrawn := rfl

/-! putReg changes regs and flying alone. -/

@[simp] theorem State.putReg_cycle (s : State) (f n : Nat) (x : Word) : (s.putReg f n x).cycle = s.cycle := rfl
@[simp] theorem State.putReg_agenda (s : State) (f n : Nat) (x : Word) : (s.putReg f n x).agenda = s.agenda := rfl
@[simp] theorem State.putReg_cur (s : State) (f n : Nat) (x : Word) : (s.putReg f n x).cur = s.cur := rfl
@[simp] theorem State.putReg_fresh (s : State) (f n : Nat) (x : Word) : (s.putReg f n x).fresh = s.fresh := rfl
@[simp] theorem State.putReg_nextId (s : State) (f n : Nat) (x : Word) : (s.putReg f n x).nextId = s.nextId := rfl
@[simp] theorem State.putReg_mem (s : State) (f n : Nat) (x : Word) : (s.putReg f n x).mem = s.mem := rfl
@[simp] theorem State.putReg_hmem (s : State) (f n : Nat) (x : Word) : (s.putReg f n x).hmem = s.hmem := rfl
@[simp] theorem State.putReg_poison (s : State) (f n : Nat) (x : Word) : (s.putReg f n x).poison = s.poison := rfl
@[simp] theorem State.putReg_lines (s : State) (f n : Nat) (x : Word) : (s.putReg f n x).lines = s.lines := rfl
@[simp] theorem State.putReg_spad (s : State) (f n : Nat) (x : Word) : (s.putReg f n x).spad = s.spad := rfl
@[simp] theorem State.putReg_uregs (s : State) (f n : Nat) (x : Word) : (s.putReg f n x).uregs = s.uregs := rfl
@[simp] theorem State.putReg_fibres (s : State) (f n : Nat) (x : Word) : (s.putReg f n x).fibres = s.fibres := rfl
@[simp] theorem State.putReg_groups (s : State) (f n : Nat) (x : Word) : (s.putReg f n x).groups = s.groups := rfl
@[simp] theorem State.putReg_teams (s : State) (f n : Nat) (x : Word) : (s.putReg f n x).teams = s.teams := rfl
@[simp] theorem State.putReg_hwins (s : State) (f n : Nat) (x : Word) : (s.putReg f n x).hwins = s.hwins := rfl
@[simp] theorem State.putReg_lprs (s : State) (f n : Nat) (x : Word) : (s.putReg f n x).lprs = s.lprs := rfl
@[simp] theorem State.putReg_cores (s : State) (f n : Nat) (x : Word) : (s.putReg f n x).cores = s.cores := rfl
@[simp] theorem State.putReg_tables (s : State) (f n : Nat) (x : Word) : (s.putReg f n x).tables = s.tables := rfl
@[simp] theorem State.putReg_mxq (s : State) (f n : Nat) (x : Word) : (s.putReg f n x).mxq = s.mxq := rfl
@[simp] theorem State.putReg_ops (s : State) (f n : Nat) (x : Word) : (s.putReg f n x).ops = s.ops := rfl
@[simp] theorem State.putReg_reqs (s : State) (f n : Nat) (x : Word) : (s.putReg f n x).reqs = s.reqs := rfl
@[simp] theorem State.putReg_poolq (s : State) (f n : Nat) (x : Word) : (s.putReg f n x).poolq = s.poolq := rfl
@[simp] theorem State.putReg_mesh (s : State) (f n : Nat) (x : Word) : (s.putReg f n x).mesh = s.mesh := rfl
@[simp] theorem State.putReg_sbars (s : State) (f n : Nat) (x : Word) : (s.putReg f n x).sbars = s.sbars := rfl
@[simp] theorem State.putReg_bmsgs (s : State) (f n : Nat) (x : Word) : (s.putReg f n x).bmsgs = s.bmsgs := rfl
@[simp] theorem State.putReg_plans (s : State) (f n : Nat) (x : Word) : (s.putReg f n x).plans = s.plans := rfl
@[simp] theorem State.putReg_pipes (s : State) (f n : Nat) (x : Word) : (s.putReg f n x).pipes = s.pipes := rfl
@[simp] theorem State.putReg_ctxs (s : State) (f n : Nat) (x : Word) : (s.putReg f n x).ctxs = s.ctxs := rfl
@[simp] theorem State.putReg_parts (s : State) (f n : Nat) (x : Word) : (s.putReg f n x).parts = s.parts := rfl
@[simp] theorem State.putReg_images (s : State) (f n : Nat) (x : Word) : (s.putReg f n x).images = s.images := rfl
@[simp] theorem State.putReg_preempts (s : State) (f n : Nat) (x : Word) : (s.putReg f n x).preempts = s.preempts := rfl
@[simp] theorem State.putReg_gangs (s : State) (f n : Nat) (x : Word) : (s.putReg f n x).gangs = s.gangs := rfl
@[simp] theorem State.putReg_wins (s : State) (f n : Nat) (x : Word) : (s.putReg f n x).wins = s.wins := rfl
@[simp] theorem State.putReg_planesDown (s : State) (f n : Nat) (x : Word) : (s.putReg f n x).planesDown = s.planesDown := rfl
@[simp] theorem State.putReg_inbox (s : State) (f n : Nat) (x : Word) : (s.putReg f n x).inbox = s.inbox := rfl
@[simp] theorem State.putReg_fxf (s : State) (f n : Nat) (x : Word) : (s.putReg f n x).fxf = s.fxf := rfl
@[simp] theorem State.putReg_fabOut (s : State) (f n : Nat) (x : Word) : (s.putReg f n x).fabOut = s.fabOut := rfl
@[simp] theorem State.putReg_tilesIn (s : State) (f n : Nat) (x : Word) : (s.putReg f n x).tilesIn = s.tilesIn := rfl
@[simp] theorem State.putReg_grantsIn (s : State) (f n : Nat) (x : Word) : (s.putReg f n x).grantsIn = s.grantsIn := rfl
@[simp] theorem State.putReg_peerEnds (s : State) (f n : Nat) (x : Word) : (s.putReg f n x).peerEnds = s.peerEnds := rfl
@[simp] theorem State.putReg_host (s : State) (f n : Nat) (x : Word) : (s.putReg f n x).host = s.host := rfl
@[simp] theorem State.putReg_boot (s : State) (f n : Nat) (x : Word) : (s.putReg f n x).boot = s.boot := rfl
@[simp] theorem State.putReg_health (s : State) (f n : Nat) (x : Word) : (s.putReg f n x).health = s.health := rfl
@[simp] theorem State.putReg_throttle (s : State) (f n : Nat) (x : Word) : (s.putReg f n x).throttle = s.throttle := rfl
@[simp] theorem State.putReg_warned (s : State) (f n : Nat) (x : Word) : (s.putReg f n x).warned = s.warned := rfl
@[simp] theorem State.putReg_withdrawn (s : State) (f n : Nat) (x : Word) : (s.putReg f n x).withdrawn = s.withdrawn := rfl

/-! flyReg changes flying alone. -/

@[simp] theorem State.flyReg_cycle (s : State) (f n lat : Nat) (x : Word) : (s.flyReg f n lat x).cycle = s.cycle := rfl
@[simp] theorem State.flyReg_agenda (s : State) (f n lat : Nat) (x : Word) : (s.flyReg f n lat x).agenda = s.agenda := rfl
@[simp] theorem State.flyReg_cur (s : State) (f n lat : Nat) (x : Word) : (s.flyReg f n lat x).cur = s.cur := rfl
@[simp] theorem State.flyReg_fresh (s : State) (f n lat : Nat) (x : Word) : (s.flyReg f n lat x).fresh = s.fresh := rfl
@[simp] theorem State.flyReg_nextId (s : State) (f n lat : Nat) (x : Word) : (s.flyReg f n lat x).nextId = s.nextId := rfl
@[simp] theorem State.flyReg_mem (s : State) (f n lat : Nat) (x : Word) : (s.flyReg f n lat x).mem = s.mem := rfl
@[simp] theorem State.flyReg_hmem (s : State) (f n lat : Nat) (x : Word) : (s.flyReg f n lat x).hmem = s.hmem := rfl
@[simp] theorem State.flyReg_poison (s : State) (f n lat : Nat) (x : Word) : (s.flyReg f n lat x).poison = s.poison := rfl
@[simp] theorem State.flyReg_lines (s : State) (f n lat : Nat) (x : Word) : (s.flyReg f n lat x).lines = s.lines := rfl
@[simp] theorem State.flyReg_spad (s : State) (f n lat : Nat) (x : Word) : (s.flyReg f n lat x).spad = s.spad := rfl
@[simp] theorem State.flyReg_regs (s : State) (f n lat : Nat) (x : Word) : (s.flyReg f n lat x).regs = s.regs := rfl
@[simp] theorem State.flyReg_uregs (s : State) (f n lat : Nat) (x : Word) : (s.flyReg f n lat x).uregs = s.uregs := rfl
@[simp] theorem State.flyReg_fibres (s : State) (f n lat : Nat) (x : Word) : (s.flyReg f n lat x).fibres = s.fibres := rfl
@[simp] theorem State.flyReg_groups (s : State) (f n lat : Nat) (x : Word) : (s.flyReg f n lat x).groups = s.groups := rfl
@[simp] theorem State.flyReg_teams (s : State) (f n lat : Nat) (x : Word) : (s.flyReg f n lat x).teams = s.teams := rfl
@[simp] theorem State.flyReg_hwins (s : State) (f n lat : Nat) (x : Word) : (s.flyReg f n lat x).hwins = s.hwins := rfl
@[simp] theorem State.flyReg_lprs (s : State) (f n lat : Nat) (x : Word) : (s.flyReg f n lat x).lprs = s.lprs := rfl
@[simp] theorem State.flyReg_cores (s : State) (f n lat : Nat) (x : Word) : (s.flyReg f n lat x).cores = s.cores := rfl
@[simp] theorem State.flyReg_tables (s : State) (f n lat : Nat) (x : Word) : (s.flyReg f n lat x).tables = s.tables := rfl
@[simp] theorem State.flyReg_mxq (s : State) (f n lat : Nat) (x : Word) : (s.flyReg f n lat x).mxq = s.mxq := rfl
@[simp] theorem State.flyReg_ops (s : State) (f n lat : Nat) (x : Word) : (s.flyReg f n lat x).ops = s.ops := rfl
@[simp] theorem State.flyReg_reqs (s : State) (f n lat : Nat) (x : Word) : (s.flyReg f n lat x).reqs = s.reqs := rfl
@[simp] theorem State.flyReg_poolq (s : State) (f n lat : Nat) (x : Word) : (s.flyReg f n lat x).poolq = s.poolq := rfl
@[simp] theorem State.flyReg_mesh (s : State) (f n lat : Nat) (x : Word) : (s.flyReg f n lat x).mesh = s.mesh := rfl
@[simp] theorem State.flyReg_sbars (s : State) (f n lat : Nat) (x : Word) : (s.flyReg f n lat x).sbars = s.sbars := rfl
@[simp] theorem State.flyReg_bmsgs (s : State) (f n lat : Nat) (x : Word) : (s.flyReg f n lat x).bmsgs = s.bmsgs := rfl
@[simp] theorem State.flyReg_plans (s : State) (f n lat : Nat) (x : Word) : (s.flyReg f n lat x).plans = s.plans := rfl
@[simp] theorem State.flyReg_pipes (s : State) (f n lat : Nat) (x : Word) : (s.flyReg f n lat x).pipes = s.pipes := rfl
@[simp] theorem State.flyReg_ctxs (s : State) (f n lat : Nat) (x : Word) : (s.flyReg f n lat x).ctxs = s.ctxs := rfl
@[simp] theorem State.flyReg_parts (s : State) (f n lat : Nat) (x : Word) : (s.flyReg f n lat x).parts = s.parts := rfl
@[simp] theorem State.flyReg_images (s : State) (f n lat : Nat) (x : Word) : (s.flyReg f n lat x).images = s.images := rfl
@[simp] theorem State.flyReg_preempts (s : State) (f n lat : Nat) (x : Word) : (s.flyReg f n lat x).preempts = s.preempts := rfl
@[simp] theorem State.flyReg_gangs (s : State) (f n lat : Nat) (x : Word) : (s.flyReg f n lat x).gangs = s.gangs := rfl
@[simp] theorem State.flyReg_wins (s : State) (f n lat : Nat) (x : Word) : (s.flyReg f n lat x).wins = s.wins := rfl
@[simp] theorem State.flyReg_planesDown (s : State) (f n lat : Nat) (x : Word) : (s.flyReg f n lat x).planesDown = s.planesDown := rfl
@[simp] theorem State.flyReg_inbox (s : State) (f n lat : Nat) (x : Word) : (s.flyReg f n lat x).inbox = s.inbox := rfl
@[simp] theorem State.flyReg_fxf (s : State) (f n lat : Nat) (x : Word) : (s.flyReg f n lat x).fxf = s.fxf := rfl
@[simp] theorem State.flyReg_fabOut (s : State) (f n lat : Nat) (x : Word) : (s.flyReg f n lat x).fabOut = s.fabOut := rfl
@[simp] theorem State.flyReg_tilesIn (s : State) (f n lat : Nat) (x : Word) : (s.flyReg f n lat x).tilesIn = s.tilesIn := rfl
@[simp] theorem State.flyReg_grantsIn (s : State) (f n lat : Nat) (x : Word) : (s.flyReg f n lat x).grantsIn = s.grantsIn := rfl
@[simp] theorem State.flyReg_peerEnds (s : State) (f n lat : Nat) (x : Word) : (s.flyReg f n lat x).peerEnds = s.peerEnds := rfl
@[simp] theorem State.flyReg_host (s : State) (f n lat : Nat) (x : Word) : (s.flyReg f n lat x).host = s.host := rfl
@[simp] theorem State.flyReg_boot (s : State) (f n lat : Nat) (x : Word) : (s.flyReg f n lat x).boot = s.boot := rfl
@[simp] theorem State.flyReg_health (s : State) (f n lat : Nat) (x : Word) : (s.flyReg f n lat x).health = s.health := rfl
@[simp] theorem State.flyReg_throttle (s : State) (f n lat : Nat) (x : Word) : (s.flyReg f n lat x).throttle = s.throttle := rfl
@[simp] theorem State.flyReg_warned (s : State) (f n lat : Nat) (x : Word) : (s.flyReg f n lat x).warned = s.warned := rfl
@[simp] theorem State.flyReg_withdrawn (s : State) (f n lat : Nat) (x : Word) : (s.flyReg f n lat x).withdrawn = s.withdrawn := rfl

/-! setSpad changes spad and poison alone. -/

@[simp] theorem State.setSpad_cycle (s : State) (c o : Nat) (b : Byte) : (s.setSpad c o b).cycle = s.cycle := rfl
@[simp] theorem State.setSpad_agenda (s : State) (c o : Nat) (b : Byte) : (s.setSpad c o b).agenda = s.agenda := rfl
@[simp] theorem State.setSpad_cur (s : State) (c o : Nat) (b : Byte) : (s.setSpad c o b).cur = s.cur := rfl
@[simp] theorem State.setSpad_fresh (s : State) (c o : Nat) (b : Byte) : (s.setSpad c o b).fresh = s.fresh := rfl
@[simp] theorem State.setSpad_nextId (s : State) (c o : Nat) (b : Byte) : (s.setSpad c o b).nextId = s.nextId := rfl
@[simp] theorem State.setSpad_mem (s : State) (c o : Nat) (b : Byte) : (s.setSpad c o b).mem = s.mem := rfl
@[simp] theorem State.setSpad_hmem (s : State) (c o : Nat) (b : Byte) : (s.setSpad c o b).hmem = s.hmem := rfl
@[simp] theorem State.setSpad_lines (s : State) (c o : Nat) (b : Byte) : (s.setSpad c o b).lines = s.lines := rfl
@[simp] theorem State.setSpad_regs (s : State) (c o : Nat) (b : Byte) : (s.setSpad c o b).regs = s.regs := rfl
@[simp] theorem State.setSpad_flying (s : State) (c o : Nat) (b : Byte) : (s.setSpad c o b).flying = s.flying := rfl
@[simp] theorem State.setSpad_uregs (s : State) (c o : Nat) (b : Byte) : (s.setSpad c o b).uregs = s.uregs := rfl
@[simp] theorem State.setSpad_fibres (s : State) (c o : Nat) (b : Byte) : (s.setSpad c o b).fibres = s.fibres := rfl
@[simp] theorem State.setSpad_groups (s : State) (c o : Nat) (b : Byte) : (s.setSpad c o b).groups = s.groups := rfl
@[simp] theorem State.setSpad_teams (s : State) (c o : Nat) (b : Byte) : (s.setSpad c o b).teams = s.teams := rfl
@[simp] theorem State.setSpad_hwins (s : State) (c o : Nat) (b : Byte) : (s.setSpad c o b).hwins = s.hwins := rfl
@[simp] theorem State.setSpad_lprs (s : State) (c o : Nat) (b : Byte) : (s.setSpad c o b).lprs = s.lprs := rfl
@[simp] theorem State.setSpad_cores (s : State) (c o : Nat) (b : Byte) : (s.setSpad c o b).cores = s.cores := rfl
@[simp] theorem State.setSpad_tables (s : State) (c o : Nat) (b : Byte) : (s.setSpad c o b).tables = s.tables := rfl
@[simp] theorem State.setSpad_mxq (s : State) (c o : Nat) (b : Byte) : (s.setSpad c o b).mxq = s.mxq := rfl
@[simp] theorem State.setSpad_ops (s : State) (c o : Nat) (b : Byte) : (s.setSpad c o b).ops = s.ops := rfl
@[simp] theorem State.setSpad_reqs (s : State) (c o : Nat) (b : Byte) : (s.setSpad c o b).reqs = s.reqs := rfl
@[simp] theorem State.setSpad_poolq (s : State) (c o : Nat) (b : Byte) : (s.setSpad c o b).poolq = s.poolq := rfl
@[simp] theorem State.setSpad_mesh (s : State) (c o : Nat) (b : Byte) : (s.setSpad c o b).mesh = s.mesh := rfl
@[simp] theorem State.setSpad_sbars (s : State) (c o : Nat) (b : Byte) : (s.setSpad c o b).sbars = s.sbars := rfl
@[simp] theorem State.setSpad_bmsgs (s : State) (c o : Nat) (b : Byte) : (s.setSpad c o b).bmsgs = s.bmsgs := rfl
@[simp] theorem State.setSpad_plans (s : State) (c o : Nat) (b : Byte) : (s.setSpad c o b).plans = s.plans := rfl
@[simp] theorem State.setSpad_pipes (s : State) (c o : Nat) (b : Byte) : (s.setSpad c o b).pipes = s.pipes := rfl
@[simp] theorem State.setSpad_ctxs (s : State) (c o : Nat) (b : Byte) : (s.setSpad c o b).ctxs = s.ctxs := rfl
@[simp] theorem State.setSpad_parts (s : State) (c o : Nat) (b : Byte) : (s.setSpad c o b).parts = s.parts := rfl
@[simp] theorem State.setSpad_images (s : State) (c o : Nat) (b : Byte) : (s.setSpad c o b).images = s.images := rfl
@[simp] theorem State.setSpad_preempts (s : State) (c o : Nat) (b : Byte) : (s.setSpad c o b).preempts = s.preempts := rfl
@[simp] theorem State.setSpad_gangs (s : State) (c o : Nat) (b : Byte) : (s.setSpad c o b).gangs = s.gangs := rfl
@[simp] theorem State.setSpad_wins (s : State) (c o : Nat) (b : Byte) : (s.setSpad c o b).wins = s.wins := rfl
@[simp] theorem State.setSpad_planesDown (s : State) (c o : Nat) (b : Byte) : (s.setSpad c o b).planesDown = s.planesDown := rfl
@[simp] theorem State.setSpad_inbox (s : State) (c o : Nat) (b : Byte) : (s.setSpad c o b).inbox = s.inbox := rfl
@[simp] theorem State.setSpad_fxf (s : State) (c o : Nat) (b : Byte) : (s.setSpad c o b).fxf = s.fxf := rfl
@[simp] theorem State.setSpad_fabOut (s : State) (c o : Nat) (b : Byte) : (s.setSpad c o b).fabOut = s.fabOut := rfl
@[simp] theorem State.setSpad_tilesIn (s : State) (c o : Nat) (b : Byte) : (s.setSpad c o b).tilesIn = s.tilesIn := rfl
@[simp] theorem State.setSpad_grantsIn (s : State) (c o : Nat) (b : Byte) : (s.setSpad c o b).grantsIn = s.grantsIn := rfl
@[simp] theorem State.setSpad_peerEnds (s : State) (c o : Nat) (b : Byte) : (s.setSpad c o b).peerEnds = s.peerEnds := rfl
@[simp] theorem State.setSpad_host (s : State) (c o : Nat) (b : Byte) : (s.setSpad c o b).host = s.host := rfl
@[simp] theorem State.setSpad_boot (s : State) (c o : Nat) (b : Byte) : (s.setSpad c o b).boot = s.boot := rfl
@[simp] theorem State.setSpad_health (s : State) (c o : Nat) (b : Byte) : (s.setSpad c o b).health = s.health := rfl
@[simp] theorem State.setSpad_throttle (s : State) (c o : Nat) (b : Byte) : (s.setSpad c o b).throttle = s.throttle := rfl
@[simp] theorem State.setSpad_warned (s : State) (c o : Nat) (b : Byte) : (s.setSpad c o b).warned = s.warned := rfl
@[simp] theorem State.setSpad_withdrawn (s : State) (c o : Nat) (b : Byte) : (s.setSpad c o b).withdrawn = s.withdrawn := rfl

end Sys2Proof.Machine
end

