-- ==== Sys2Proof/Laws/Groups.lean ====
section
/-! SUPPORT. Laws of fibres and groups: what seating, splitting and arriving change (R91, R92, R109). -/

namespace Sys2Proof.Machine

/-! Folds. -/

/-- What a fold keeps that each of its steps keeps. -/
theorem foldl_same {α β γ : Type} (p : β → γ) (k : β → α → β) (xs : List α) (h : ∀ b, ∀ a ∈ xs, p (k b a) = p b) (b : β) :
    p (xs.foldl k b) = p b := by
  induction xs generalizing b with
  | nil => rfl
  | cons x xs ih =>
    rw [List.foldl_cons, ih fun b a ha => h b a (List.mem_cons_of_mem _ ha), h b x (List.mem_cons_self ..)]

/-! One fibre. -/

theorem State.fibre_modFibre (s : State) (f h : Nat) (k : Fibre → Fibre) :
    (s.modFibre f k).fibre h = if h = f ∧ (NMap.find s.fibres f).isSome then k (s.fibre f) else s.fibre h := by
  simp only [State.modFibre, State.fibre, NMap.get, NMap.find_edit]
  rcases hx : NMap.find s.fibres f with _ | x
  · by_cases e : h = f
    · subst e; simp [hx]
    · simp [e]
  · by_cases e : h = f
    · subst e; simp
    · simp [e]

theorem State.fibre_modFibre_ne (s : State) {f h : Nat} (k : Fibre → Fibre) (e : h ≠ f) : (s.modFibre f k).fibre h = s.fibre h := by
  rw [State.fibre_modFibre, if_neg fun c => e c.1]

theorem State.fibre_modFibre_self (s : State) {f : Nat} (k : Fibre → Fibre) (e : (NMap.find s.fibres f).isSome) :
    (s.modFibre f k).fibre f = k (s.fibre f) := by
  rw [State.fibre_modFibre, if_pos ⟨rfl, e⟩]

/-- A view of a fibre that a change keeps reads the same. -/
theorem State.view_modFibre {γ : Type} (v : Fibre → γ) (s : State) (f h : Nat) (k : Fibre → Fibre) (e : ∀ x, v (k x) = v x) :
    v ((s.modFibre f k).fibre h) = v (s.fibre h) := by
  rw [State.fibre_modFibre]
  split
  · next c => rw [e, c.1]
  · rfl

@[simp] theorem State.present_modFibre (s : State) (f h : Nat) (k : Fibre → Fibre) :
    (NMap.find (s.modFibre f k).fibres h).isSome = (NMap.find s.fibres h).isSome := by
  simp only [State.modFibre, NMap.find_edit]
  split
  · next e => subst e; cases NMap.find s.fibres h <;> rfl
  · rfl

/-! Members in home-lane order. -/

theorem insertBy_perm (k : Nat → Nat) (x : Nat) (xs : List Nat) : (insertBy k x xs).Perm (x :: xs) := by
  induction xs with
  | nil => exact .refl _
  | cons y ys ih =>
    simp only [insertBy]
    split
    · exact .refl _
    · exact (ih.cons y).trans (.swap x y ys)

theorem sortBy_perm (k : Nat → Nat) (xs : List Nat) : (sortBy k xs).Perm xs := by
  have h : ∀ (xs acc : List Nat), (xs.foldl (fun acc x => insertBy k x acc) acc).Perm (acc ++ xs) := by
    intro xs
    induction xs with
    | nil => intro acc; simp
    | cons y ys ih =>
      intro acc
      rw [List.foldl_cons]
      refine (ih _).trans ?_
      refine ((insertBy_perm k y acc).append_right ys).trans ?_
      exact (List.perm_middle).symm
  simpa [sortBy] using h xs []

/-- Home-lane order keeps the members. -/
theorem byLane_perm (fs : List Nat) : (byLane fs).Perm fs := sortBy_perm _ fs

/-! Seats: what is kept when fibres are seated, wait READY or a group is split. -/

/-- A fibre apart from its scheduling status. -/
def Fibre.seatless (x : Fibre) : Fibre := { x with status := .ready, wait := none, since := 0, cohort := none }

/-- What a view of the state keeps under a change of the groups and of the scheduling status of some fibres. -/
structure SeatBlind {γ : Type} (p : State → γ) (ms : List Nat) : Prop where
  fib : ∀ t f k, f ∈ ms → (∀ x : Fibre, (k x).seatless = x.seatless) → p (State.modFibre t f k) = p t
  grp : ∀ (t : State) m, p { t with groups := m } = p t

theorem SeatBlind.modFibres {γ : Type} {p : State → γ} {ms : List Nat} (b : SeatBlind p ms) (s : State) (fs : List Nat) (k : Fibre → Fibre)
    (h : ∀ f ∈ fs, f ∈ ms) (hk : ∀ x : Fibre, (k x).seatless = x.seatless) : p (s.modFibres fs k) = p s :=
  foldl_same p _ fs (fun t f hf => b.fib t f k (h f hf) hk) s

theorem SeatBlind.seat {γ : Type} {p : State → γ} {ms : List Nat} (b : SeatBlind p ms) (s : State) (g : Nat) (fs : List Nat)
    (h : ∀ f ∈ fs, f ∈ ms) : p (s.seat g fs) = p s := by
  exact (b.grp ..).trans (b.modFibres s fs _ h fun _ => rfl)

theorem SeatBlind.seatOrWait {γ : Type} {p : State → γ} {ms : List Nat} (b : SeatBlind p ms) (s : State) (q : Nat) (fs : List Nat)
    (h : ∀ f ∈ fs, f ∈ ms) : p (s.seatOrWait q fs) = p s := by
  unfold State.seatOrWait
  split
  · rfl
  · split
    · exact b.seat s _ fs h
    · exact b.modFibres s fs _ h fun _ => rfl

theorem mem_getD {α : Type} {l : List (List α)} {i : Nat} {x : α} (h : x ∈ l.getD i []) : ∃ p ∈ l, x ∈ p := by
  by_cases hl : i < l.length
  · exact ⟨_, List.getElem_mem hl, List.getD_eq_getElem _ _ hl ▸ h⟩
  · rw [List.getD_eq_default _ _ (Nat.le_of_not_lt hl)] at h; exact absurd h List.not_mem_nil

/-- A partition holds only what it was made from. -/
theorem mem_partsBy {k : Nat → Nat} {fs : List Nat} : ∀ p ∈ partsBy k fs, ∀ f ∈ p, f ∈ fs := by
  induction fs with
  | nil => simp [partsBy]
  | cons x xs ih =>
    have old : ∀ f, (∃ p ∈ partsBy k xs, f ∈ p) → f ∈ x :: xs := fun f ⟨p, hp, hf⟩ => List.mem_cons_of_mem _ (ih p hp f hf)
    simp only [partsBy]
    split
    · refine List.forall_mem_cons.mpr ⟨List.forall_mem_cons.mpr ⟨List.mem_cons_self .., fun f hf => old f (mem_getD hf)⟩, ?_⟩
      exact fun p hp f hf => old f ⟨p, List.mem_of_mem_eraseIdx hp, hf⟩
    · exact List.forall_mem_cons.mpr ⟨by simp, fun p hp f hf => old f ⟨p, hp, hf⟩⟩

theorem SeatBlind.splitByPc {γ : Type} {p : State → γ} {ms : List Nat} (b : SeatBlind p ms) (s : State) (g : Nat)
    (h : ∀ f ∈ (s.group g).members, f ∈ ms) : p (s.splitByPc g) = p s := by
  unfold State.splitByPc
  simp only
  split
  · rfl
  · rfl
  · refine (foldl_same p _ _ ?_ _).trans (b.grp ..)
    intro t q hq
    exact b.seatOrWait t _ q fun f hf => h f (mem_partsBy q (List.mem_of_mem_filter hq) f hf)

/-! Arrivals (R92, R109). -/

theorem State.arriveOne_fibres (s : State) (f : Nat) :
    (s.arriveOne f).fibres = (s.modFibre f fun y =>
      { y with pc := (loopCheck (s.fibre f).pc (s.fibre f).loops).pc, pos := 0,
               loops := (loopCheck (s.fibre f).pc (s.fibre f).loops).loops }).fibres := by
  have h : ∀ (ws : List (Nat × Nat)) (t : State), (ws.foldl (fun t w => t.putReg f w.1 (Word.ofNat w.2)) t).fibres = t.fibres :=
    fun ws t => foldl_same State.fibres (fun (t : State) (w : Nat × Nat) => t.putReg f w.1 (Word.ofNat w.2)) ws (fun _ _ _ => rfl) t
  simp only [State.arriveOne, State.modFibre, h]

/-- The registers an arrival writes: at most the induction register of the top of the loop stack. -/
theorem State.arriveOne_regs (s : State) (f : Nat) :
    (s.arriveOne f).regs = ((loopCheck (s.fibre f).pc (s.fibre f).loops).write.foldl
      (fun t w => State.setReg t (hlOf f) w.1 (Word.ofNat w.2)) s).regs := by
  have h : ∀ (ws : List (Nat × Nat)) (t u : State), t.regs = u.regs →
      (ws.foldl (fun t w => t.putReg f w.1 (Word.ofNat w.2)) t).regs = (ws.foldl (fun t w => State.setReg t (hlOf f) w.1 (Word.ofNat w.2)) u).regs := by
    intro ws
    induction ws with
    | nil => exact fun _ _ e => e
    | cons w ws ih => exact fun t u e => ih _ _ (by simp only [State.putReg, State.setReg, e])
  exact h _ s s rfl

theorem loopCheck_write (x : Nat) (ls : List LoopEntry) : (loopCheck x ls).write.length ≤ 1 := by
  induction ls with
  | nil => simp [loopCheck]
  | cons e ls ih =>
    cases e with
    | count st en n => simp only [loopCheck]; split_ifs <;> simp [ih]
    | index st en v b k r => simp only [loopCheck]; split_ifs <;> simp [ih]

/-- What an arrival leaves of a fibre. -/
def Fibre.arrived (x : Fibre) : Fibre :=
  { x with pc := (loopCheck x.pc x.loops).pc, pos := 0, loops := (loopCheck x.pc x.loops).loops }

end Sys2Proof.Machine
end

