-- ==== Sys2Proof/Laws/Registers.lean ====
section
/-! SUPPORT. Laws of the registers: what reads give after writes of one lane and of all lanes (R119, R129). -/

namespace Sys2Proof.Machine

theorem regKey_inj {h n h' n' : Nat} : regKey h n = regKey h' n' ↔ h = h' ∧ n % 512 = n' % 512 := by
  unfold regKey; omega

theorem State.wf_setReg {s : State} (h n : Nat) (x : Word) (w : NMap.wf s.regs = true) : NMap.wf (s.setReg h n x).regs = true :=
  NMap.wf_store _ _ _ w

/-- A register reads what was written to it; every other register reads as before. -/
theorem State.reg_setReg {s : State} (w : NMap.wf s.regs = true) (h n h' n' : Nat) (x : Word) :
    (s.setReg h n x).reg h' n' = if h' = h ∧ n' % 512 = n % 512 then x else s.reg h' n' := by
  simp only [State.reg, State.setReg, NMap.get_store _ _ _ _ w, regKey_inj]

/-- Writes of one lane, in order. -/
def State.writes (s : State) (h : Nat) (ws : List (Nat × Word)) : State := ws.foldl (fun t w => t.setReg h w.1 w.2) s

theorem State.wf_writes {s : State} (h : Nat) (ws : List (Nat × Word)) (w : NMap.wf s.regs = true) :
    NMap.wf (s.writes h ws).regs = true := by
  induction ws generalizing s with
  | nil => exact w
  | cons e es ih => exact ih (State.wf_setReg h e.1 e.2 w)

theorem lastAt_nil (r : Nat) : lastAt [] r = none := rfl

theorem lastAt_cons (e : Nat × Word) (es : List (Nat × Word)) (r : Nat) :
    lastAt (e :: es) r = (lastAt es r).or (if e.1 % 512 = r % 512 then some e.2 else none) := by
  simp only [lastAt, List.reverse_cons, List.find?_append, List.find?_cons, List.find?_nil]
  cases h : (es.reverse.find? fun w => w.1 % 512 == r % 512) with
  | some x => simp
  | none =>
    by_cases c : e.1 % 512 = r % 512
    · simp [c]
    · rw [show (e.1 % 512 == r % 512) = false from beq_eq_false_iff_ne.mpr c, if_neg c]; rfl

theorem lastAt_append (xs ys : List (Nat × Word)) (r : Nat) : lastAt (xs ++ ys) r = (lastAt ys r).or (lastAt xs r) := by
  simp only [lastAt, List.reverse_append, List.find?_append]
  cases ys.reverse.find? fun w => w.1 % 512 == r % 512 <;> simp

/-- What a lane's registers read after its writes, and those of other lanes. -/
theorem State.reg_writes {s : State} (w : NMap.wf s.regs = true) (h : Nat) (ws : List (Nat × Word)) (h' r : Nat) :
    (s.writes h ws).reg h' r = if h' = h then (lastAt ws r).getD (s.reg h' r) else s.reg h' r := by
  induction ws generalizing s with
  | nil => simp [State.writes, lastAt_nil]
  | cons e es ih =>
    have := ih (State.wf_setReg h e.1 e.2 w)
    rw [show s.writes h (e :: es) = (s.setReg h e.1 e.2).writes h es from rfl, this, State.reg_setReg w, lastAt_cons]
    by_cases c : h' = h
    · subst c
      cases lastAt es r with
      | some x => simp
      | none => by_cases d : r % 512 = e.1 % 512
                · simp [d]
                · simp [d, Ne.symm d]
    · simp [c]

theorem indexed_cons {α : Type} (x : α) (xs : List α) : indexed (x :: xs) = (0, x) :: (indexed xs).map fun e => (e.1 + 1, e.2) := by
  simp only [indexed, List.length_cons, List.range_succ_eq_map, List.zip_cons_cons, List.zip_map_left]
  rfl

theorem State.setRegs_eq (s : State) (h n : Nat) (ws : List Word) :
    s.setRegs h n ws = s.writes h ((indexed ws).map fun e => (n + e.1, e.2)) := by
  induction ws generalizing s n with
  | nil => rfl
  | cons w ws ih =>
    rw [State.setRegs, ih, indexed_cons]
    simp only [State.writes, List.map_cons, List.map_map, List.foldl_cons, Nat.add_zero]
    congr 1
    refine List.map_congr_left fun e _ => ?_
    simp only [Function.comp]
    rw [show n + 1 + e.1 = n + (e.1 + 1) by omega]

/-- What writes leave alone: everything but registers. -/
theorem State.writes_same {γ : Type} (p : State → γ) (hp : ∀ (t : State) m, p { t with regs := m } = p t) (s : State) (h : Nat)
    (ws : List (Nat × Word)) : p (s.writes h ws) = p s :=
  foldl_same p (fun (t : State) (w : Nat × Word) => t.setReg h w.1 w.2) ws (fun t _ _ => hp t _) s

/-! Results on their way (R122). -/

/-- What the results of a fibre that have not landed give for a register. -/
def State.seen (s : State) (f r : Nat) : Option Word :=
  ((s.flights f).find? fun e => e.key == regKey (hlOf f) r).map Flight.value

/-- A fibre reads its own last result, or what the register holds. -/
theorem State.view_eq (s : State) (f r : Nat) : s.view f r = (s.seen f r).getD (s.reg (hlOf f) r) := by
  have e : ((s.flights f).find? fun e => e.key == regKey (hlOf f) r) = s.flying.find? fun e => e.key == regKey (hlOf f) r && e.fibre == f := by
    simp only [State.flights, List.find?_filter]
    congr 1; funext x
    cases x.fibre == f <;> cases x.key == regKey (hlOf f) r <;> rfl
  simp only [State.view, State.seen, e]
  cases s.flying.find? fun e => e.key == regKey (hlOf f) r && e.fibre == f <;> rfl

theorem State.seen_congr {s t : State} {f : Nat} (h : t.flights f = s.flights f) (r : Nat) : t.seen f r = s.seen f r := by
  simp only [State.seen, h]

theorem State.flights_congr {s t : State} (h : t.flying = s.flying) (f : Nat) : t.flights f = s.flights f := by simp only [State.flights, h]

theorem State.flights_putReg_ne (s : State) {f h : Nat} (n : Nat) (x : Word) (e : h ≠ f) : (s.putReg f n x).flights h = s.flights h := by
  simp only [State.flights, State.putReg, State.setReg, List.filter_filter]
  refine List.filter_congr fun y _ => ?_
  by_cases c : y.fibre = h
  · simp [c, e]
  · simp [c]

theorem State.flights_flyReg_ne (s : State) {f h : Nat} (n lat : Nat) (x : Word) (e : h ≠ f) : (s.flyReg f n lat x).flights h = s.flights h := by
  simp [State.flights, State.flyReg, Ne.symm e]

theorem State.seen_putReg (s : State) (f n r : Nat) (x : Word) :
    (s.putReg f n x).seen f r = if r % 512 = n % 512 then none else s.seen f r := by
  simp only [State.seen, State.flights, State.putReg, State.setReg, List.filter_filter, List.find?_filter]
  split
  · next e =>
    have k : regKey (hlOf f) r = regKey (hlOf f) n := regKey_inj.mpr ⟨rfl, e⟩
    rw [Option.map_eq_none_iff, List.find?_eq_none]
    intro y _
    simp only [k]
    by_cases a : y.fibre = f <;> by_cases b : y.key = regKey (hlOf f) n <;> simp [a, b]
  · next e =>
    have k : regKey (hlOf f) r ≠ regKey (hlOf f) n := fun c => e (regKey_inj.mp c).2
    congr 2; funext y
    by_cases b : y.key = regKey (hlOf f) r
    · simp [b, k]
    · simp [b]

theorem State.seen_flyReg (s : State) (f n lat r : Nat) (x : Word) :
    (s.flyReg f n lat x).seen f r = if r % 512 = n % 512 then some x else s.seen f r := by
  have k : ((regKey (hlOf f) n == regKey (hlOf f) r) = true) ↔ r % 512 = n % 512 := by
    rw [beq_iff_eq, regKey_inj]; exact ⟨fun c => c.2.symm, fun c => ⟨rfl, c.symm⟩⟩
  simp only [State.seen, State.flights, State.flyReg, List.filter_cons, beq_self_eq_true, if_true, List.find?_cons]
  by_cases e : r % 512 = n % 512
  · rw [if_pos e, k.mpr e]; rfl
  · rw [if_neg e, Bool.eq_false_iff.mpr fun c => e (k.mp c)]

/-- Writes of one fibre at once, in order (R109). -/
def State.puts (s : State) (f : Nat) (ws : List (Nat × Word)) : State := ws.foldl (fun t w => t.putReg f w.1 w.2) s

theorem State.flights_puts_ne (s : State) {f h : Nat} (ws : List (Nat × Word)) (e : h ≠ f) : (s.puts f ws).flights h = s.flights h :=
  foldl_same (fun t => State.flights t h) (fun (t : State) (w : Nat × Word) => t.putReg f w.1 w.2) ws (fun t w _ => t.flights_putReg_ne w.1 w.2 e) s

theorem State.seen_puts (s : State) (f : Nat) (ws : List (Nat × Word)) (r : Nat) :
    (s.puts f ws).seen f r = if (lastAt ws r).isSome then none else s.seen f r := by
  induction ws generalizing s with
  | nil => rfl
  | cons e es ih =>
    rw [show s.puts f (e :: es) = (s.putReg f e.1 e.2).puts f es from rfl, ih, lastAt_cons, State.seen_putReg]
    cases lastAt es r with
    | some x => simp
    | none => by_cases d : r % 512 = e.1 % 512
              · simp [d]
              · simp [d, Ne.symm d]

theorem State.flights_flyRegs_ne (s : State) {f h : Nat} (n lat : Nat) (ws : List Word) (e : h ≠ f) :
    (s.flyRegs f n lat ws).flights h = s.flights h := by
  induction ws generalizing s n with
  | nil => rfl
  | cons w ws ih => rw [State.flyRegs, ih, State.flights_flyReg_ne _ _ _ _ e]

theorem State.seen_flyRegs (s : State) (f n lat r : Nat) (ws : List Word) :
    (s.flyRegs f n lat ws).seen f r = (lastAt ((indexed ws).map fun e => (n + e.1, e.2)) r).or (s.seen f r) := by
  induction ws generalizing s n with
  | nil => rfl
  | cons w ws ih =>
    have m : ((indexed ws).map fun e => (e.1 + 1, e.2)).map (fun e => (n + e.1, e.2)) = (indexed ws).map fun e => (n + 1 + e.1, e.2) := by
      rw [List.map_map]
      refine List.map_congr_left fun e _ => ?_
      simp only [Function.comp]; rw [show n + (e.1 + 1) = n + 1 + e.1 by omega]
    rw [State.flyRegs, ih, indexed_cons, List.map_cons, m, lastAt_cons, State.seen_flyReg, Nat.add_zero]
    cases lastAt ((indexed ws).map fun e => (n + 1 + e.1, e.2)) r with
    | some x => simp
    | none => by_cases d : r % 512 = n % 512
              · simp [d]
              · simp [d, Ne.symm d]

/-- Sending results leaves everything else alone. -/
theorem State.flyRegs_same {γ : Type} (p : State → γ) (hp : ∀ (t : State) m, p { t with flying := m } = p t) (s : State) (f n lat : Nat)
    (ws : List Word) : p (s.flyRegs f n lat ws) = p s := by
  induction ws generalizing s n with
  | nil => rfl
  | cons w ws ih => rw [State.flyRegs, ih]; exact hp ..

/-- A fold of changes of one lane each, over lanes of different home lanes: every lane gets its own change and its own registers. -/
theorem State.foldl_lanes {α : Type} (φ : α → Nat) (k : State → α → State) (c : α → Fibre → Fibre)
    (W : α → Fibre → List (Nat × Word)) (xs : List α) (s : State) (nd : (xs.map fun a => hlOf (φ a)).Nodup)
    (hf : ∀ t a, (k t a).fibres = (t.modFibre (φ a) fun _ => c a (t.fibre (φ a))).fibres)
    (hr : ∀ t a, (k t a).regs = (t.writes (hlOf (φ a)) (W a (t.fibre (φ a)))).regs) (wf : NMap.wf s.regs = true) :
    (∀ a ∈ xs, (NMap.find s.fibres (φ a)).isSome = true → (xs.foldl k s).fibre (φ a) = c a (s.fibre (φ a))) ∧
    (∀ f, f ∉ xs.map φ → (xs.foldl k s).fibre f = s.fibre f) ∧
    (∀ a ∈ xs, ∀ r, (xs.foldl k s).reg (hlOf (φ a)) r = (lastAt (W a (s.fibre (φ a))) r).getD (s.reg (hlOf (φ a)) r)) ∧
    (∀ h, (h ∉ xs.map fun a => hlOf (φ a)) → ∀ r, (xs.foldl k s).reg h r = s.reg h r) ∧
    (∀ f, (NMap.find (xs.foldl k s).fibres f).isSome = (NMap.find s.fibres f).isSome) ∧ NMap.wf (xs.foldl k s).regs = true := by
  induction xs generalizing s with
  | nil => simp [wf]
  | cons a xs ih =>
    obtain ⟨na, nd'⟩ := List.nodup_cons.mp nd
    have ef : ∀ f, (k s a).fibre f = (s.modFibre (φ a) fun _ => c a (s.fibre (φ a))).fibre f := fun f => by simp only [State.fibre, hf]
    have er : ∀ h r, (k s a).reg h r = (s.writes (hlOf (φ a)) (W a (s.fibre (φ a)))).reg h r := fun h r => by simp only [State.reg, hr]
    have ep : ∀ f, (NMap.find (k s a).fibres f).isSome = (NMap.find s.fibres f).isSome := fun f => by rw [hf]; simp
    have ew : NMap.wf (k s a).regs = true := by rw [hr]; exact State.wf_writes _ _ wf
    obtain ⟨i1, i2, i3, i4, i5, i6⟩ := ih (k s a) nd' ew
    have ne : ∀ b ∈ xs, φ b ≠ φ a ∧ hlOf (φ b) ≠ hlOf (φ a) := by
      intro b hb
      have : hlOf (φ b) ≠ hlOf (φ a) := fun e => na (List.mem_map.mpr ⟨b, hb, e⟩)
      exact ⟨fun e => this (by rw [e]), this⟩
    have nf : φ a ∉ xs.map φ := fun m => by
      obtain ⟨b, hb, e⟩ := List.mem_map.mp m
      exact (ne b hb).1 e
    simp only [List.foldl_cons]
    refine ⟨?_, ?_, ?_, ?_, fun f => (i5 f).trans (ep f), i6⟩
    · intro b hb hp
      rcases List.mem_cons.mp hb with rfl | hb
      · rw [i2 _ nf, ef, State.fibre_modFibre_self _ _ hp]
      · rw [i1 b hb (by rw [ep]; exact hp), ef, State.fibre_modFibre_ne _ _ (ne b hb).1]
    · intro f hfn
      simp only [List.map_cons, List.mem_cons, not_or] at hfn
      rw [i2 f hfn.2, ef, State.fibre_modFibre_ne _ _ hfn.1]
    · intro b hb r
      rcases List.mem_cons.mp hb with rfl | hb
      · rw [i4 _ na, er, State.reg_writes wf, if_pos rfl]
      · rw [i3 b hb, ef, State.fibre_modFibre_ne _ _ (ne b hb).1, er, State.reg_writes wf, if_neg (ne b hb).2]
    · intro h hn r
      simp only [List.map_cons, List.mem_cons, not_or] at hn
      rw [i4 h hn.2, er, State.reg_writes wf, if_neg hn.1]

/-- The same of results that have not landed: every fibre gets its own, others keep theirs. -/
theorem State.foldl_flights {α : Type} (φ : α → Nat) (k : State → α → State) (c : α → Fibre → Fibre)
    (G : α → Fibre → Nat → Option Word → Option Word) (xs : List α) (s : State) (nd : (xs.map φ).Nodup)
    (hf : ∀ t a, (k t a).fibres = (t.modFibre (φ a) fun _ => c a (t.fibre (φ a))).fibres)
    (hk : ∀ t a r, (k t a).seen (φ a) r = G a (t.fibre (φ a)) r (t.seen (φ a) r))
    (ho : ∀ t a f, f ≠ φ a → (k t a).flights f = t.flights f) :
    (∀ a ∈ xs, ∀ r, (xs.foldl k s).seen (φ a) r = G a (s.fibre (φ a)) r (s.seen (φ a) r)) ∧
    ∀ f, f ∉ xs.map φ → (xs.foldl k s).flights f = s.flights f := by
  induction xs generalizing s with
  | nil => simp
  | cons a xs ih =>
    obtain ⟨na, nd'⟩ := List.nodup_cons.mp nd
    obtain ⟨i1, i2⟩ := ih (k s a) nd'
    refine ⟨?_, ?_⟩
    · intro b hb r
      rcases List.mem_cons.mp hb with rfl | hb
      · exact (State.seen_congr (i2 _ na) r).trans (hk ..)
      · have n : φ b ≠ φ a := fun e => na (e ▸ List.mem_map_of_mem hb)
        have e : (k s a).fibre (φ b) = s.fibre (φ b) := by
          have := State.fibre_modFibre_ne s (fun _ => c a (s.fibre (φ a))) n
          simp only [State.fibre] at this ⊢
          rw [hf]; exact this
        rw [List.foldl_cons, i1 b hb r, e, State.seen_congr (ho s a _ n)]
    · intro f hn
      simp only [List.map_cons, List.mem_cons, not_or] at hn
      exact (i2 f hn.2).trans (ho s a f hn.1)

end Sys2Proof.Machine
end

