-- ==== Sys2Proof/Laws/Finish.lean ====
section
/-! SUPPORT. Laws of the end of an issue: where every lane stands and what `State.done` leaves alone (R29, R92, R109, R234). -/

namespace Sys2Proof.Machine

/-- A fibre apart from its place, its loop stack and its scheduling status. -/
def Fibre.placeless (x : Fibre) : Fibre :=
  { x with status := .ready, wait := none, since := 0, cohort := none, pc := 0, pos := 0, code := [], loops := [] }

/-- The state apart from fibres, groups, registers and results on their way to them. -/
def State.unplaced (s : State) : State := { s with fibres := [], groups := [], regs := [], flying := [] }

/-- Group members end somewhere: the lanes fs stand where L says, back-edges have written their registers, and nothing else has changed. -/
structure State.Lands (s t : State) (fs : List Nat) (L : Nat → Landing) : Prop where
  rest : t.unplaced = s.unplaced
  others : ∀ f, f ∉ fs → t.fibre f = s.fibre f
  lanes : ∀ f ∈ fs, (t.fibre f).placeless = (s.fibre f).placeless ∧ (t.fibre f).pc = (L f).pc ∧ (t.fibre f).pos = (L f).pos ∧
    (t.fibre f).loops = (L f).loops
  regs : ∀ f ∈ fs, ∀ r, t.reg (hlOf f) r = (lastAt (L f).writes r).getD (s.reg (hlOf f) r)
  regsOthers : ∀ h, h ∉ fs.map hlOf → ∀ r, t.reg h r = s.reg h r
  seen : ∀ f ∈ fs, ∀ r, t.seen f r = if (lastAt (L f).writes r).isSome then none else s.seen f r
  flights : ∀ f, f ∉ fs → t.flights f = s.flights f

theorem foldl_unplaced {α : Type} (k : State → α → State) (h : ∀ t a, (k t a).unplaced = t.unplaced) (xs : List α) (s : State) :
    (xs.foldl k s).unplaced = s.unplaced := foldl_same State.unplaced k xs (fun t a _ => h t a) s

theorem seatBlind_unplaced (ms : List Nat) : SeatBlind State.unplaced ms := ⟨fun _ _ _ _ _ => rfl, fun _ _ => rfl⟩

theorem seatBlind_regs (ms : List Nat) (h r : Nat) : SeatBlind (fun s => s.reg h r) ms := ⟨fun _ _ _ _ _ => rfl, fun _ _ => rfl⟩

theorem seatBlind_flying (ms : List Nat) : SeatBlind State.flying ms := ⟨fun _ _ _ _ _ => rfl, fun _ _ => rfl⟩

theorem seatBlind_seatless (ms : List Nat) (f : Nat) : SeatBlind (fun s => (s.fibre f).seatless) ms :=
  ⟨fun t h k _ e => State.view_modFibre Fibre.seatless t h f k e, fun _ _ => rfl⟩

theorem seatBlind_other {ms : List Nat} {f : Nat} (n : f ∉ ms) : SeatBlind (fun s => s.fibre f) ms :=
  ⟨fun t _ k m _ => State.fibre_modFibre_ne t k fun e => n (e ▸ m), fun _ _ => rfl⟩

theorem Fibre.placeless_of_seatless {x y : Fibre} (h : x.seatless = y.seatless) :
    x.placeless = y.placeless ∧ x.pc = y.pc ∧ x.pos = y.pos ∧ x.loops = y.loops := by
  cases x; cases y
  simp only [Fibre.seatless, Fibre.mk.injEq] at h
  simp only [Fibre.placeless, Fibre.mk.injEq]
  tauto

theorem State.group_fibres (s : State) (m : NMap Fibre) (g : Nat) : ({ s with fibres := m } : State).group g = s.group g := rfl

theorem members_foldl_modFibre (k : Nat → Fibre → Fibre) (fs : List Nat) (s : State) :
    (fs.foldl (fun t f => t.modFibre f (k f)) s).groups = s.groups :=
  foldl_same State.groups (fun t f => State.modFibre t f (k f)) fs (fun _ _ _ => rfl) s

theorem State.group_congr {s t : State} (h : t.groups = s.groups) (g : Nat) : t.group g = s.group g := by simp only [State.group, h]

theorem List.any_perm_eq {xs ys : List Nat} (h : xs.Perm ys) (p : Nat → Bool) : xs.any p = ys.any p := by
  rw [Bool.eq_iff_iff]; simp only [List.any_eq_true]
  exact ⟨fun ⟨x, a, b⟩ => ⟨x, h.mem_iff.mp a, b⟩, fun ⟨x, a, b⟩ => ⟨x, h.mem_iff.mpr a, b⟩⟩

/-- The groups of a state with one group changed keep their members. -/
theorem State.members_modGroup (s : State) (g : Nat) (k : Group → Group) (h : ∀ x, (k x).members = x.members) :
    ((s.modGroup g k).group g).members = (s.group g).members := by
  simp only [State.modGroup, State.group, NMap.get, NMap.find_edit]
  cases NMap.find s.groups g with
  | none => rfl
  | some x => simp [h]

theorem State.arriveOne_puts (s : State) (f : Nat) :
    (s.arriveOne f).flying = (s.puts f ((loopCheck (s.fibre f).pc (s.fibre f).loops).write.map fun w => (w.1, Word.ofNat w.2))).flying := by
  simp only [State.puts, List.foldl_map]; rfl

/-- The end of a clause at the boundaries `tgt` (R29, R92, R109). -/
theorem State.endClause_lands (s : State) (g : Nat) (fs : List Nat) (tgt : Nat → Nat)
    (hm : byLane (s.group g).members = fs) (nd : (fs.map hlOf).Nodup) (hp : ∀ f ∈ fs, (NMap.find s.fibres f).isSome = true)
    (wf : NMap.wf s.regs = true) : s.Lands (s.endClause g tgt) fs (s.landing fs s.loopsOf tgt) := by
  have pm : fs.Perm (s.group g).members := hm ▸ byLane_perm _
  have mm : ∀ f, f ∈ (s.group g).members ↔ f ∈ fs := fun f => pm.mem_iff.symm
  have ndm : ((s.group g).members.map hlOf).Nodup := (pm.map hlOf).nodup_iff.mp nd
  have ndf : ((s.group g).members.map fun f => f).Nodup := by rw [List.map_id']; exact ndm.of_map hlOf
  have mo : ∀ h, h ∉ fs.map hlOf → h ∉ (s.group g).members.map hlOf := fun h c m => c ((pm.map hlOf).mem_iff.mpr m)
  -- the first fold: boundaries
  have es : ∀ f, (s.modGroup g fun x => { x with ready := 0 }).fibre f = s.fibre f := fun _ => rfl
  have er : ∀ h r, (s.modGroup g fun x => { x with ready := 0 }).reg h r = s.reg h r := fun _ _ => rfl
  obtain ⟨a1, a2, a3, a4, a5, a6⟩ := State.foldl_lanes (fun f => f)
    (fun (t : State) f => t.modFibre f fun x => { x with pc := tgt f, pos := arriving, code := [] })
    (fun f x => { x with pc := tgt f, pos := arriving, code := [] }) (fun _ _ => []) (s.group g).members
    (s.modGroup g fun x => { x with ready := 0 }) ndm
    (fun t f => by
      simp only [State.modFibre, NMap.edit, State.fibre, NMap.get]
      cases NMap.find t.fibres f <;> rfl)
    (fun t f => rfl) wf
  have g1 : ((s.group g).members.foldl (fun (t : State) f => t.modFibre f fun x => { x with pc := tgt f, pos := arriving, code := [] })
      (s.modGroup g fun x => { x with ready := 0 })).groups = (s.modGroup g fun x => { x with ready := 0 }).groups :=
    members_foldl_modFibre (fun f x => { x with pc := tgt f, pos := arriving, code := [] }) _ _
  have u1 : ((s.group g).members.foldl
      (fun (t : State) f => t.modFibre f fun x => { x with pc := tgt f, pos := arriving, code := [] })
      (s.modGroup g fun x => { x with ready := 0 })).unplaced = s.unplaced :=
    foldl_unplaced (fun (t : State) f => t.modFibre f fun x => { x with pc := tgt f, pos := arriving, code := [] }) (fun _ _ => rfl) _ _
  have y1 : ((s.group g).members.foldl
      (fun (t : State) f => t.modFibre f fun x => { x with pc := tgt f, pos := arriving, code := [] })
      (s.modGroup g fun x => { x with ready := 0 })).flying = s.flying :=
    foldl_same State.flying (fun (t : State) f => t.modFibre f fun x => { x with pc := tgt f, pos := arriving, code := [] }) _ (fun _ _ _ => rfl) _
  unfold State.endClause State.arrive
  simp only
  generalize hs1 : (s.group g).members.foldl
    (fun (t : State) f => t.modFibre f fun x => { x with pc := tgt f, pos := arriving, code := [] })
    (s.modGroup g fun x => { x with ready := 0 }) = s1 at a1 a2 a3 a4 a5 a6 g1 u1 y1 ⊢
  have gm : (s1.group g).members = (s.group g).members :=
    (congrArg Group.members (State.group_congr g1 g)).trans (State.members_modGroup s g (fun x => { x with ready := 0 }) fun _ => rfl)
  rw [gm]
  simp only [List.map_id'] at a2
  have hx : ∀ f ∈ fs, s1.fibre f = { s.fibre f with pc := tgt f, pos := arriving, code := [] } := fun f hf => a1 f ((mm f).mpr hf) (hp f hf)
  have hheld : ((s.group g).members.any fun f => (s1.fibre f).arrivalHeld) = s.boundaryHeld fs s.loopsOf tgt := by
    rw [List.any_perm_eq pm.symm]
    unfold State.boundaryHeld
    rw [Bool.eq_iff_iff]; simp only [List.any_eq_true]
    constructor
    · rintro ⟨f, hf, h⟩
      rw [hx f hf] at h
      refine ⟨f, hf, ?_⟩
      simpa [Fibre.arrivalHeld, State.loopsOf, List.any_eq_true] using h
    · rintro ⟨f, hf, h⟩
      refine ⟨f, hf, ?_⟩
      rw [hx f hf]
      simpa [Fibre.arrivalHeld, State.loopsOf, List.any_eq_true] using h
  split
  · next h =>
    rw [hheld] at h
    refine ⟨u1, fun f n => a2 f fun c => n ((mm f).mp c), ?_, ?_, ?_, ?_, fun f _ => State.flights_congr y1 f⟩
    · intro f hf
      simp only [State.landing, h, if_true]
      have e : (s1.modGroup g fun x => { x with stall := some .memory }).fibre f = { s.fibre f with pc := tgt f, pos := arriving, code := [] } :=
        hx f hf
      rw [e]
      exact ⟨rfl, rfl, rfl, rfl⟩
    · intro f hf r
      simp only [State.landing, h, if_true]
      exact a3 f ((mm f).mpr hf) r
    · intro h' n r
      exact a4 h' (mo h' n) r
    · intro f _ r
      simp only [State.landing, h, if_true]
      exact State.seen_congr (State.flights_congr y1 f) r
  · next h =>
    rw [hheld] at h
    have af : ∀ (t : State) (f : Nat), (t.arriveOne f).fibres = (t.modFibre f fun _ => (t.fibre f).arrived).fibres := fun t f => by
      rw [State.arriveOne_fibres]
      simp only [State.modFibre, NMap.edit, State.fibre, NMap.get]
      cases NMap.find t.fibres f <;> rfl
    obtain ⟨b1, b2, b3, b4, b5, b6⟩ := State.foldl_lanes (fun f => f) State.arriveOne
      (fun _ x => x.arrived) (fun _ x => (loopCheck x.pc x.loops).write.map fun w => (w.1, Word.ofNat w.2)) (s.group g).members s1 ndm
      af
      (fun t f => by
        rw [State.arriveOne_regs]
        simp only [State.writes, List.foldl_map]) a6
    obtain ⟨z1, z2⟩ := State.foldl_flights (fun f => f) State.arriveOne (fun _ x => x.arrived)
      (fun _ x r y => if (lastAt ((loopCheck x.pc x.loops).write.map fun w => (w.1, Word.ofNat w.2)) r).isSome then none else y)
      (s.group g).members s1 ndf af
      (fun t f r => (State.seen_congr (State.flights_congr (State.arriveOne_puts t f) f) r).trans (State.seen_puts ..))
      (fun t a f n => (State.flights_congr (State.arriveOne_puts t a) f).trans (State.flights_puts_ne _ _ n))
    simp only [List.map_id'] at z2
    have puts_same : ∀ {γ : Type} (p : State → γ), (∀ (t : State) (f n : Nat) (x : Word), p (t.putReg f n x) = p t) →
        ∀ (f : Nat) (ws : List (Nat × Nat)) (t : State), p (ws.foldl (fun (t : State) (w : Nat × Nat) => t.putReg f w.1 (Word.ofNat w.2)) t) = p t :=
      fun p hp f ws t => foldl_same p (fun (t : State) (w : Nat × Nat) => t.putReg f w.1 (Word.ofNat w.2)) ws (fun t w _ => hp t f w.1 _) t
    have u2 : ((s.group g).members.foldl State.arriveOne s1).unplaced = s1.unplaced :=
      foldl_unplaced State.arriveOne (fun t f => puts_same State.unplaced (fun _ _ _ _ => rfl) f _ t) _ s1
    have g2 : ((s.group g).members.foldl State.arriveOne s1).groups = s1.groups :=
      foldl_same State.groups State.arriveOne (s.group g).members (fun t f _ => puts_same State.groups (fun _ _ _ _ => rfl) f _ t) s1
    simp only [List.map_id'] at b2
    generalize hs2 : (s.group g).members.foldl State.arriveOne s1 = s2 at b1 b2 b3 b4 b5 b6 z1 z2 u2 g2 ⊢
    have em : ((s2.modGroup g fun x => { x with stall := none, waited := 0, boosted := false }).group g).members = (s.group g).members := by
      rw [State.members_modGroup s2 g (fun x => { x with stall := none, waited := 0, boosted := false }) fun _ => rfl,
        State.group_congr g2, gm]
    generalize hs3 : (s2.modGroup g fun x => { x with stall := none, waited := 0, boosted := false }) = s3 at em ⊢
    have f3 : ∀ f, s3.fibre f = s2.fibre f := fun f => by subst hs3; rfl
    have r3 : ∀ h r, s3.reg h r = s2.reg h r := fun h r => by subst hs3; rfl
    have u3 : s3.unplaced = s2.unplaced := by subst hs3; rfl
    have y3 : s3.flying = s2.flying := by subst hs3; rfl
    have sub : ∀ f ∈ (s3.group g).members, f ∈ fs := fun f hf => (mm f).mp (em ▸ hf)
    have hn : s.boundaryHeld fs s.loopsOf tgt = false := by simpa using h
    have y4 : ∀ f, (s3.splitByPc g).flights f = s2.flights f := fun f =>
      State.flights_congr (((seatBlind_flying fs).splitByPc s3 g sub).trans y3) f
    refine ⟨?_, ?_, ?_, ?_, ?_, ?_, ?_⟩
    · rw [(seatBlind_unplaced fs).splitByPc s3 g sub, u3, u2, u1]
    · intro f n
      have := (seatBlind_other n).splitByPc s3 g sub
      rw [this, f3, b2 f fun c => n ((mm f).mp c), a2 f fun c => n ((mm f).mp c), es]
    · intro f hf
      have e1 := (seatBlind_seatless fs f).splitByPc s3 g sub
      have e2 : s2.fibre f = (s1.fibre f).arrived := b1 f ((mm f).mpr hf) (by rw [a5]; exact hp f hf)
      rw [f3, e2, hx f hf] at e1
      obtain ⟨c1, c2, c3, c4⟩ := Fibre.placeless_of_seatless e1
      simp only [State.landing, hn, Bool.false_eq_true, if_false]
      exact ⟨c1, c2, c3, c4⟩
    · intro f hf r
      have e1 : (s3.splitByPc g).reg (hlOf f) r = s3.reg (hlOf f) r := (seatBlind_regs fs (hlOf f) r).splitByPc s3 g sub
      rw [e1, r3, b3 f ((mm f).mpr hf) r, hx f hf, a3 f ((mm f).mpr hf) r, er]
      simp only [State.landing, hn, Bool.false_eq_true, if_false]
      rfl
    · intro h' n r
      have e1 : (s3.splitByPc g).reg h' r = s3.reg h' r := (seatBlind_regs fs h' r).splitByPc s3 g sub
      rw [e1, r3, b4 h' (mo h' n) r, a4 h' (mo h' n) r, er]
    · intro f hf r
      rw [State.seen_congr (y4 f) r, z1 f ((mm f).mpr hf) r, hx f hf, State.seen_congr (State.flights_congr y1 f) r]
      simp only [State.landing, hn, Bool.false_eq_true, if_false]
      rfl
    · intro f n
      rw [y4, z2 f fun c => n ((mm f).mp c), State.flights_congr y1]

/-- The move past an instruction that transfers no control (R29). -/
theorem State.advance_lands (s : State) (g : Nat) (fs : List Nat)
    (hm : byLane (s.group g).members = fs) (nd : (fs.map hlOf).Nodup) (ne : fs ≠ []) (hp : ∀ f ∈ fs, (NMap.find s.fibres f).isSome = true)
    (wf : NMap.wf s.regs = true) : s.Lands (s.advance g) fs (s.onward g fs s.loopsOf) := by
  have pm : fs.Perm (s.group g).members := hm ▸ byLane_perm _
  have mm : ∀ f, f ∈ (s.group g).members ↔ f ∈ fs := fun f => pm.mem_iff.symm
  have ndm : ((s.group g).members.map hlOf).Nodup := (pm.map hlOf).nodup_iff.mp nd
  have em : ((s.modGroup g fun x => { x with stall := none, waited := 0, ready := 0 }).group g).members = (s.group g).members :=
    State.members_modGroup s g (fun x => { x with stall := none, waited := 0, ready := 0 }) fun _ => rfl
  unfold State.advance State.onward State.lastWord
  simp only [em]
  rcases hg : (s.group g).members with _ | ⟨f0, ms⟩
  · rw [hg] at pm; exact absurd pm.eq_nil ne
  · have e0 : ∀ f, (s.modGroup g fun x => { x with stall := none, waited := 0, ready := 0 }).fibre f = s.fibre f := fun _ => rfl
    simp only [e0]
    by_cases c : (s.fibre f0).npos ≤ (s.fibre f0).hdr % 16
    · have d : decide ((s.fibre f0).hdr % 16 < (s.fibre f0).npos) = false := decide_eq_false (by omega)
      simp only [if_pos c, d, Bool.false_eq_true, if_false]
      rw [← hg] at *
      obtain ⟨a1, a2, a3, a4, -, -⟩ := State.foldl_lanes (fun f => f) (fun (t : State) f => t.modFibre f fun y => { y with pos := y.npos })
        (fun _ x => { x with pos := x.npos }) (fun _ _ => []) (s.group g).members
        (s.modGroup g fun x => { x with stall := none, waited := 0, ready := 0 }) ndm
        (fun t f => by
          simp only [State.modFibre, NMap.edit, State.fibre, NMap.get]
          cases NMap.find t.fibres f <;> rfl)
        (fun _ _ => rfl) wf
      have y : ((s.modGroup g fun x => { x with stall := none, waited := 0, ready := 0 }).modFibres (s.group g).members
          fun y => { y with pos := y.npos }).flying = s.flying :=
        foldl_same State.flying (fun (t : State) f => t.modFibre f fun y => { y with pos := y.npos }) _ (fun _ _ _ => rfl) _
      simp only [List.map_id'] at a2
      refine ⟨?_, fun f n => a2 f fun c => n ((mm f).mp c), ?_, ?_, ?_, fun f _ r => State.seen_congr (State.flights_congr y f) r,
        fun f _ => State.flights_congr y f⟩
      · exact foldl_unplaced (fun (t : State) f => t.modFibre f fun y => { y with pos := y.npos }) (fun _ _ => rfl) _ _
      · intro f hf
        have := a1 f ((mm f).mpr hf) (hp f hf)
        unfold State.modFibres
        rw [this]
        exact ⟨rfl, rfl, rfl, rfl⟩
      · intro f hf r; exact a3 f ((mm f).mpr hf) r
      · intro h n r; exact a4 h (fun c => n ((pm.map hlOf).mem_iff.mpr c)) r
    · have d : decide ((s.fibre f0).hdr % 16 < (s.fibre f0).npos) = true := decide_eq_true (by omega)
      simp only [if_neg c, d, if_true]
      have := State.endClause_lands (s.modGroup g fun x => { x with stall := none, waited := 0, ready := 0 }) g fs
        (fun f => nextClause (s.fibre f).pc (s.fibre f).hdr) (by rw [em]; exact hm) nd hp wf
      exact ⟨this.rest, this.others, this.lanes, this.regs, this.regsOthers, this.seen, this.flights⟩

/-! `done`: the issue is counted and metered, and the group moves on. -/

theorem State.count_blind {γ : Type} (p : State → γ) (h : ∀ (t : State) m, p { t with cores := m } = p t) (s : State) (c ev n : Nat) :
    p (s.count c ev n) = p s := by
  unfold State.count; split
  · exact h ..
  · rfl

theorem State.core_count_still (s : State) (c ev n c' : Nat) :
    ((s.count c ev n).core c').still = (s.core c').still ∧ ((s.count c ev n).core c').queues = (s.core c').queues := by
  unfold State.count; split
  · simp only [State.modCore, State.setCore, State.core, NMap.get_put]
    split
    · next e => subst e; exact ⟨rfl, rfl⟩
    · exact ⟨rfl, rfl⟩
  · exact ⟨rfl, rfl⟩

/-- What counting and metering an issue leaves alone. -/
theorem State.issued_same {γ : Type} (p : State → γ) (h1 : ∀ (t : State) m, p { t with cores := m } = p t)
    (h2 : ∀ (t : State) m, p { t with parts := m } = p t) (s : State) (g : Nat) (fs : List Nat) : p (s.issued g fs) = p s := by
  unfold State.issued State.meter
  exact (h2 ..).trans (State.count_blind p h1 ..)

theorem State.core_issued (s : State) (g : Nat) (fs : List Nat) (c : Nat) :
    ((s.issued g fs).core c).still = (s.core c).still ∧ ((s.issued g fs).core c).queues = (s.core c).queues := by
  unfold State.issued State.meter
  exact State.core_count_still ..

/-- The end of an issue that transfers no control: places and back-edges by `onward`; counters, meters and pool aside, all else stays. -/
structure State.Ends (s t : State) (fs : List Nat) (L : Nat → Landing) : Prop where
  rest : t.rest = s.rest
  others : ∀ f, f ∉ fs → t.fibre f = s.fibre f
  lanes : ∀ f ∈ fs, (t.fibre f).placeless = (s.fibre f).placeless ∧ (t.fibre f).pc = (L f).pc ∧ (t.fibre f).pos = (L f).pos ∧
    (t.fibre f).loops = (L f).loops
  regs : ∀ f ∈ fs, ∀ r, t.reg (hlOf f) r = (lastAt (L f).writes r).getD (s.reg (hlOf f) r)
  regsOthers : ∀ h, h ∉ fs.map hlOf → ∀ r, t.reg h r = s.reg h r
  seen : ∀ f ∈ fs, ∀ r, t.seen f r = if (lastAt (L f).writes r).isSome then none else s.seen f r
  flights : ∀ f, f ∉ fs → t.flights f = s.flights f
  cores : ∀ c, (t.core c).still = (s.core c).still ∧ (t.core c).queues = (s.core c).queues

/-- The state apart from what an issue may change, cores aside. -/
theorem State.rest_of_unplaced {s t : State} (h : t.unplaced = s.unplaced) : t.rest = s.rest ∧ t.cores = s.cores := by
  have e : ∀ u : State, u.rest = { u.unplaced with cores := [], parts := [], poolq := [] } := fun _ => rfl
  have c : ∀ u : State, u.cores = u.unplaced.cores := fun _ => rfl
  exact ⟨by rw [e, e s, h], by rw [c, c s, h]⟩

theorem State.landing_congr {s t : State} (h : ∀ f, t.fibre f = s.fibre f) (fs : List Nat) (l : Nat → List LoopEntry) (tgt : Nat → Nat)
    (f : Nat) : t.landing fs l tgt f = s.landing fs l tgt f := by
  have e : t.boundaryHeld fs l tgt = s.boundaryHeld fs l tgt := by simp only [State.boundaryHeld, h]
  simp only [State.landing, e]

theorem State.onward_congr {s t : State} (h : ∀ f, t.fibre f = s.fibre f) (hg : t.groups = s.groups) (g : Nat) (fs : List Nat)
    (l : Nat → List LoopEntry) (f : Nat) : t.onward g fs l f = s.onward g fs l f := by
  have e : t.lastWord g = s.lastWord g := by simp only [State.lastWord, h, State.group_congr hg]
  simp only [State.onward, State.landing_congr h, e, h]

theorem State.done_ends (s : State) (g : Nat) (fs : List Nat)
    (hm : byLane (s.group g).members = fs) (nd : (fs.map hlOf).Nodup) (ne : fs ≠ []) (hp : ∀ f ∈ fs, (NMap.find s.fibres f).isSome = true)
    (wf : NMap.wf s.regs = true) : s.Ends (s.done g) fs (s.onward g fs s.loopsOf) := by
  have i1 : (s.issued g (s.group g).members).fibres = s.fibres := State.issued_same State.fibres (fun _ _ => rfl) (fun _ _ => rfl) ..
  have i2 : (s.issued g (s.group g).members).groups = s.groups := State.issued_same State.groups (fun _ _ => rfl) (fun _ _ => rfl) ..
  have i3 : (s.issued g (s.group g).members).regs = s.regs := State.issued_same State.regs (fun _ _ => rfl) (fun _ _ => rfl) ..
  have i6 : (s.issued g (s.group g).members).flying = s.flying := State.issued_same State.flying (fun _ _ => rfl) (fun _ _ => rfl) ..
  have i4 : (s.issued g (s.group g).members).rest = s.rest := State.issued_same State.rest (fun _ _ => rfl) (fun _ _ => rfl) ..
  have i5 := State.core_issued s g (s.group g).members
  unfold State.done State.doneBy
  generalize s.issued g (s.group g).members = u at i1 i2 i3 i4 i5 i6 ⊢
  have ef : ∀ f, u.fibre f = s.fibre f := fun f => by simp only [State.fibre, i1]
  have er : ∀ h r, u.reg h r = s.reg h r := fun h r => by simp only [State.reg, i3]
  have L := State.advance_lands u g fs (by rw [State.group_congr i2]; exact hm) nd ne (by rw [i1]; exact hp) (by rw [i3]; exact wf)
  have eo : ∀ f, u.onward g fs u.loopsOf f = s.onward g fs s.loopsOf f := fun f => by
    rw [State.onward_congr ef i2, show u.loopsOf = s.loopsOf from funext fun f => by simp only [State.loopsOf, ef]]
  obtain ⟨r1, r2⟩ := State.rest_of_unplaced L.rest
  refine ⟨r1.trans i4, fun f n => (L.others f n).trans (ef f), ?_, ?_, fun h n r => (L.regsOthers h n r).trans (er h r), ?_,
    fun f n => (L.flights f n).trans (State.flights_congr i6 f), ?_⟩
  · intro f hf
    have := L.lanes f hf
    rw [eo, ef] at this
    exact this
  · intro f hf r
    have := L.regs f hf r
    rw [eo, er] at this
    exact this
  · intro f hf r
    have := L.seen f hf r
    rw [eo, State.seen_congr (State.flights_congr i6 f)] at this
    exact this
  · intro c
    have : (u.advance g).core c = u.core c := by simp only [State.core, r2]
    rw [this]; exact i5 c

end Sys2Proof.Machine
end

