-- ==== Sys2Proof/Laws/Operands.lean ====
section
/-! SUPPORT. Laws of operands: what the checks and the reads of sources leave alone, and when they pass (R36, R38, R41, R128, R242). -/

namespace Sys2Proof.Machine

/-- What one step of a fold keeps, the fold keeps. -/
theorem foldl_keep {α β : Type} (P : β → Prop) (k : β → α → β) (xs : List α) (h : ∀ b, ∀ a ∈ xs, P b → P (k b a)) (b : β) (hb : P b) :
    P (xs.foldl k b) := by
  induction xs generalizing b with
  | nil => exact hb
  | cons x xs ih =>
    exact ih (fun b a ha => h b a (List.mem_cons_of_mem _ ha)) _ (h b x (List.mem_cons_self ..) hb)

/-- A property that waking fibres and filling free slots keep. -/
structure WakeKeeps (P : State → Prop) : Prop where
  fib : ∀ t f k, (∀ x : Fibre, (k x).seatless = x.seatless) → P t → P (State.modFibre t f k)
  put : ∀ (t : State) g fs, NMap.find t.groups g = none → P t → P { t with groups := NMap.put t.groups g (Group.fresh fs) }
  grp : ∀ (t : State) g k, (∀ x : Group, (k x).members = x.members) → P t → P (t.modGroup g k)
  core : ∀ (t : State) c k, (∀ x : Core, NMap.wf x.queues = true → NMap.wf (k x).queues = true) → P t → P (t.modCore c k)
  lapse : ∀ (t : State) q, P t → P (t.lapse q)

theorem freeGroups_free {s : State} {q g : Nat} {gs : List Nat} (h : s.freeGroups q = g :: gs) : NMap.find s.groups g = none := by
  have : g ∈ s.freeGroups q := h ▸ List.mem_cons_self ..
  simp only [State.freeGroups, List.mem_filter, Option.isNone_iff_eq_none] at this
  exact this.2

theorem modFibres_groups (s : State) (fs : List Nat) (k : Fibre → Fibre) : (s.modFibres fs k).groups = s.groups :=
  foldl_same State.groups (fun (t : State) f => t.modFibre f k) fs (fun _ _ _ => rfl) s

theorem WakeKeeps.seat {P : State → Prop} (b : WakeKeeps P) (s : State) (g : Nat) (fs : List Nat) (h : NMap.find s.groups g = none)
    (hs : P s) : P (s.seat g fs) := by
  unfold State.seat
  have e := modFibres_groups s fs fun x => { x with status := .running, wait := none, cohort := none }
  have := b.put (s.modFibres fs fun x => { x with status := .running, wait := none, cohort := none }) g fs (by rw [e]; exact h)
    (foldl_keep P (fun (t : State) f => t.modFibre f fun x => { x with status := .running, wait := none, cohort := none }) fs
      (fun t f _ => b.fib t f _ fun _ => rfl) s hs)
  rw [e] at this
  exact this

theorem WakeKeeps.fillSlots {P : State → Prop} (b : WakeKeeps P) (q n : Nat) (s : State) (hs : P s) : P (s.fillSlots q n) := by
  induction n generalizing s with
  | zero => exact hs
  | succ n ih =>
    unfold State.fillSlots
    split
    · next h _ => exact ih _ (b.seat _ _ _ (freeGroups_free h) hs)
    · exact hs

theorem WakeKeeps.wake {P : State → Prop} (b : WakeKeeps P) (s : State) (f : Nat) (hs : P s) : P (s.wake f) := by
  unfold State.wake
  split
  · exact b.grp _ _ _ (fun _ => rfl) hs
  · split
    · exact b.lapse _ _ (b.fillSlots _ 16 _ (b.fib s f (fun x => { x with status := .ready, wait := none, since := s.cycle }) (fun _ => rfl) hs))
    · exact hs

theorem WakeKeeps.poolReturn {P : State → Prop} (b : WakeKeeps P) (s : State) (c i n : Nat) (hs : P s) : P (s.poolReturn c i n) := by
  unfold State.poolReturn
  split
  · exact hs
  · exact foldl_keep P State.wake _ (fun t f _ => b.wake t f) _ (b.core _ _ _ (fun _ h => h) hs)

theorem WakeKeeps.qPop {P : State → Prop} (b : WakeKeeps P) {s s1 : State} {c i n : Nat} {ws : List Word}
    (h : s.qPop c i n = some (ws, s1)) (hs : P s) : P s1 := by
  unfold State.qPop at h
  simp only at h
  split at h
  · cases h
  · simp only [Option.some.injEq, Prod.mk.injEq] at h
    obtain ⟨-, rfl⟩ := h
    exact b.poolReturn _ _ _ _ (b.core _ _ _ (fun _ h => NMap.wf_store _ _ _ h) hs)

theorem WakeKeeps.readSrc {P : State → Prop} (b : WakeKeeps P) {s s1 : State} {fs : List Nat} {w : Nat} {x : Src}
    {vs : List (List Word)} (h : s.readSrc fs w x = .ok (s1, vs)) (hs : P s) : P s1 := by
  unfold State.readSrc at h
  split at h
  · split at h
    · cases h; exact hs
    · simp only at h
      split at h
      · cases h
      · next e => cases h; exact b.qPop e hs
  · cases h; exact hs

/-- A bind that succeeds has a first part that succeeds. -/
theorem Except.of_bind {ε α β : Type} {x : Except ε α} {k : α → Except ε β} {b : β} (h : x >>= k = .ok b) : ∃ a, x = .ok a ∧ k a = .ok b :=
  match x, h with
  | .ok a, h => ⟨a, rfl, h⟩

/-- Reading sources keeps what waking and core changes keep. -/
theorem WakeKeeps.readSrcs {P : State → Prop} (b : WakeKeeps P) {fs : List Nat} : ∀ {srcs : List (Nat × Src)} {s s1 : State}
    {vss : List (List (List Word))}, s.readSrcs fs srcs = .ok (s1, vss) → P s → P s1
  | [], _, _, _, h, hs => (congrArg (P ·.1) (Except.ok.inj h)).mp hs
  | _ :: _, _, _, _, h, hs => by
    obtain ⟨own, h1, h⟩ := Except.of_bind h
    obtain ⟨rest, h2, h⟩ := Except.of_bind h
    exact (congrArg (P ·.1) (Except.ok.inj h)).mp (b.readSrcs h2 (b.readSrc h1 hs))

/-- What a view of the state keeps under a lapse: it does not see the counts of clauses. -/
theorem State.lapse_same {γ : Type} (p : State → γ) (h : ∀ (t : State) m, p { t with groups := m } = p t) (s : State) (q : Nat) :
    p (s.lapse q) = p s := by
  unfold State.lapse; split
  · rfl
  · exact h ..

/-- A view that neither groups, scheduling status, nor cores change is kept. -/
theorem wakeKeeps_same {γ : Type} (p : State → γ) (c : γ) (hf : ∀ (t : State) f k, (∀ x : Fibre, (k x).seatless = x.seatless) → p (State.modFibre t f k) = p t)
    (hg : ∀ (t : State) m, p { t with groups := m } = p t) (hc : ∀ (t : State) m, p { t with cores := m } = p t) : WakeKeeps fun t => p t = c :=
  ⟨fun t f k e h => (hf t f k e).trans h, fun t _ _ _ h => (hg t _).trans h, fun t _ _ _ h => (hg t _).trans h, fun t _ _ _ h => (hc t _).trans h,
    fun t q h => (State.lapse_same p hg t q).trans h⟩

theorem wakeKeeps_rest (c : State) : WakeKeeps fun t => t.rest = c :=
  wakeKeeps_same State.rest c (fun _ _ _ _ => rfl) (fun _ _ => rfl) fun _ _ => rfl

theorem wakeKeeps_regs (c : NMap Word) : WakeKeeps fun t => t.regs = c :=
  wakeKeeps_same State.regs c (fun _ _ _ _ => rfl) (fun _ _ => rfl) fun _ _ => rfl

theorem wakeKeeps_flying (c : List Flight) : WakeKeeps fun t => t.flying = c :=
  wakeKeeps_same State.flying c (fun _ _ _ _ => rfl) (fun _ _ => rfl) fun _ _ => rfl

theorem wakeKeeps_seatless (f : Nat) (c : Fibre) : WakeKeeps fun t => (t.fibre f).seatless = c :=
  wakeKeeps_same (fun t => (t.fibre f).seatless) c (fun t h k e => State.view_modFibre Fibre.seatless t h f k e) (fun _ _ => rfl) fun _ _ => rfl

theorem wakeKeeps_present (f : Nat) (c : Bool) : WakeKeeps fun t => (NMap.find t.fibres f).isSome = c :=
  wakeKeeps_same (fun t => (NMap.find t.fibres f).isSome) c (fun t h k _ => State.present_modFibre t h f k) (fun _ _ => rfl) fun _ _ => rfl

theorem NMap.find_map_keep {α : Type} (m : NMap α) (k : Nat × α → α) (i : Nat) :
    NMap.find (m.map fun e => (e.1, k e)) i = (NMap.find m i).map fun x => k (i, x) := by
  induction m with
  | nil => rfl
  | cons e m ih =>
    simp only [List.map_cons, NMap.find]
    split
    · next h => subst h; rfl
    · split
      · rfl
      · exact ih

theorem wakeKeeps_members (g : Nat) (c : List Nat) : WakeKeeps fun t => (NMap.find t.groups g).map Group.members = some c :=
  ⟨fun _ _ _ _ h => h, fun t g' fs n h => by
    simp only [NMap.find_put]
    split
    · next e => subst e; rw [n] at h; cases h
    · exact h,
   fun t g' k e h => by
    simp only [State.modGroup, NMap.find_edit]
    split
    · next c => subst c; cases hx : NMap.find t.groups g with
      | none => rw [hx] at h; cases h
      | some x => rw [hx] at h; simpa [e] using h
    · exact h,
   fun _ _ _ _ h => h,
   fun t q h => by
    unfold State.lapse
    split
    · exact h
    · have := NMap.find_map_keep t.groups (fun e => if e.1 / 16 = q then { e.2 with starts := 0 } else e.2) g
      have m : (t.groups.map fun (e : Nat × Group) => if e.1 / 16 = q then (e.1, { e.2 with starts := 0 }) else e) =
          t.groups.map fun (e : Nat × Group) => (e.1, if e.1 / 16 = q then { e.2 with starts := 0 } else e.2) :=
        List.map_congr_left fun e _ => by split <;> rfl
      simp only [m, this]
      rw [← h]
      cases NMap.find t.groups g with
      | none => rfl
      | some x => simp only [Option.map_some]; split <;> rfl⟩

theorem State.core_modCore (s : State) (c c' : Nat) (k : Core → Core) :
    (s.modCore c k).core c' = if c' = c then k (s.core c) else s.core c' := by
  simp only [State.modCore, State.setCore, State.core, NMap.get_put]

theorem wakeKeeps_queues : WakeKeeps fun t => ∀ c, NMap.wf (t.core c).queues = true :=
  ⟨fun _ _ _ _ h => h, fun _ _ _ _ h => h, fun _ _ _ _ h => h, fun t c k hk h c' => by
    rw [State.core_modCore]; split
    · exact hk _ (h c)
    · exact h c',
   fun t q h c => (State.lapse_same (fun t => t.core c) (fun _ _ => rfl) t q).symm ▸ h c⟩

theorem NMap.mem_of_find {α : Type} {m : NMap α} {i : Nat} {x : α} (h : NMap.find m i = some x) : (i, x) ∈ m := by
  induction m with
  | nil => cases h
  | cons e m ih =>
    obtain ⟨k, v⟩ := e
    simp only [NMap.find] at h
    split_ifs at h with c d
    · cases h; subst c; exact List.mem_cons_self ..
    · exact List.mem_cons_of_mem _ (ih h)

theorem State.Canon.queues {s : State} (h : s.Canon) (c : Nat) : NMap.wf (s.core c).queues = true := by
  simp only [State.core, NMap.get]
  cases hx : NMap.find s.cores c with
  | none => rfl
  | some x => exact (h.2.2.2.2 (c, x) (NMap.mem_of_find hx)).1

/-! Checks that pass. -/

theorem trapping_none {fs : List Nat} {k : Nat → Option Cond} (h : ∀ f ∈ fs, k f = none) : trapping fs k = [] := by
  have : (fs.filterMap fun f => (k f).map fun c => (f, c)) = [] := by
    rw [List.filterMap_eq_nil_iff]; intro f hf; rw [h f hf]; rfl
  simp only [trapping, this]

theorem firstTrap_none {fs : List Nat} {ks : List (Nat → Option Cond)} (h : ∀ k ∈ ks, ∀ f ∈ fs, k f = none) : firstTrap fs ks = [] := by
  induction ks with
  | nil => rfl
  | cons k ks ih =>
    simp only [firstTrap, trapping_none (h k (List.mem_cons_self ..))]
    exact ih fun k hk => h k (List.mem_cons_of_mem _ hk)

theorem State.winCheck_none {s : State} {o : Shape} {f : Nat}
    (h : (∀ e ∈ o.srcs, e.2.inWin e.1 (s.fibre f).win = true) ∧ ∀ e ∈ o.dsts, e.2.inWin e.1 (s.fibre f).win = true) :
    s.winCheck o f = none := by
  have e1 : (o.srcs.all fun e => e.2.inWin e.1 (s.fibre f).win) = true := List.all_eq_true.mpr h.1
  have e2 : (o.dsts.all fun e => e.2.inWin e.1 (s.fibre f).win) = true := List.all_eq_true.mpr h.2
  simp only [State.winCheck, e1, e2, Bool.and_self, if_true]

theorem State.pendCheck_none {s : State} {o : Shape} {f : Nat}
    (h : (∀ e ∈ o.srcs, ∀ r ∈ e.2.phys e.1 (s.fibre f).base, r ∉ (s.fibre f).pend) ∧
      ∀ e ∈ o.dsts, ∀ r ∈ e.2.phys e.1 (s.fibre f).base, r ∉ (s.fibre f).pend) : s.pendCheck o f = none := by
  unfold State.pendCheck
  simp only
  rw [if_neg]
  intro c
  obtain ⟨r, hr, hc⟩ := List.any_eq_true.mp c
  have hc := List.contains_iff_mem.mp hc
  rcases List.mem_append.mp hr with m | m <;> obtain ⟨e, he, hr⟩ := List.mem_flatMap.mp m
  · exact h.1 e he r hr hc
  · exact h.2 e he r hr hc

/-- Operands that are readable are read. -/
theorem State.withOperands_ok {s s1 : State} {g info : Nat} {fs : List Nat} {srcs : List (Nat × Src)} {dsts : List (Nat × Dst)}
    {ls : List Lane} (h : s.Operands fs srcs dsts s1 ls) (k : State → List Lane → Out) :
    s.withOperands g fs { info := info, srcs := srcs, dsts := dsts } k = k s1 ls := by
  obtain ⟨h1, h2, vss, h3, rfl⟩ := h
  have : firstTrap fs [s.winCheck { info := info, srcs := srcs, dsts := dsts }, s.pendCheck { info := info, srcs := srcs, dsts := dsts }] = [] := by
    refine firstTrap_none fun k hk f hf => ?_
    rcases List.mem_cons.mp hk with rfl | hk
    · exact State.winCheck_none (h1 f hf)
    · rw [List.mem_singleton.mp hk]; exact State.pendCheck_none (h2 f hf)
  simp only [State.withOperands, this, h3]

/-- What reading the sources leaves alone. -/
theorem State.Operands.same {s s1 : State} {fs : List Nat} {srcs : List (Nat × Src)} {dsts : List (Nat × Dst)}
    {ls : List Lane} (h : s.Operands fs srcs dsts s1 ls) :
    s1.rest = s.rest ∧ s1.regs = s.regs ∧ s1.flying = s.flying ∧ (∀ f, (s1.fibre f).seatless = (s.fibre f).seatless) ∧
    (∀ f, (NMap.find s1.fibres f).isSome = (NMap.find s.fibres f).isSome) ∧
    (∀ g ms, (NMap.find s.groups g).map Group.members = some ms → (NMap.find s1.groups g).map Group.members = some ms) ∧
    ((∀ c, NMap.wf (s.core c).queues = true) → ∀ c, NMap.wf (s1.core c).queues = true) := by
  obtain ⟨-, -, vss, h3, -⟩ := h
  exact ⟨(wakeKeeps_rest s.rest).readSrcs h3 rfl, (wakeKeeps_regs s.regs).readSrcs h3 rfl,
    (wakeKeeps_flying s.flying).readSrcs h3 rfl, fun f => (wakeKeeps_seatless f _).readSrcs h3 rfl, fun f => (wakeKeeps_present f _).readSrcs h3 rfl,
    fun g ms => (wakeKeeps_members g ms).readSrcs h3, wakeKeeps_queues.readSrcs h3⟩

theorem lanesFrom_fs (fs : List Nat) (vss : List (List (List Word))) : (lanesFrom fs vss).map Lane.f = fs := by
  simp only [lanesFrom, indexed, List.map_map]
  have : (Lane.f ∘ fun (e : Nat × Nat) => ({ f := e.2, vals := vss.map fun vs => vs.getD e.1 [] } : Lane)) = Prod.snd := rfl
  rw [this, List.map_snd_zip]
  simp

/-- The lane of a fibre among lanes of different fibres. -/
theorem laneFor_self {ls : List Lane} (nd : (ls.map Lane.f).Nodup) {l : Lane} (h : l ∈ ls) : laneFor ls l.f = l := by
  induction ls with
  | nil => cases h
  | cons x xs ih =>
    obtain ⟨na, nd'⟩ := List.nodup_cons.mp nd
    simp only [laneFor, List.find?_cons]
    rcases List.mem_cons.mp h with rfl | h
    · simp
    · have : x.f ≠ l.f := fun e => na (e ▸ List.mem_map_of_mem h)
      rw [beq_eq_false_iff_ne.mpr this]
      exact ih nd' h

end Sys2Proof.Machine
end

