-- ==== Sys2Proof/Laws/Datapath.lean ====
section
/-! SUPPORT. Laws of the frame of a fixed-latency instruction: `State.alu` and `State.cross` complete, and what they give (R128, R129, R242). -/

namespace Sys2Proof.Machine

/-- What decides where a fibre goes next, its loop stack aside. -/
def Fibre.course (x : Fibre) : Nat × Nat × Nat × List Nat := (x.pc, x.npos, x.hdr, x.pend)

theorem State.onward_view {s t : State} (h : ∀ f, (t.fibre f).course = (s.fibre f).course) (g : Nat)
    (hg : (t.group g).members = (s.group g).members) (fs : List Nat) (l : Nat → List LoopEntry) (f : Nat) :
    t.onward g fs l f = s.onward g fs l f := by
  have h1 : ∀ f, (t.fibre f).pc = (s.fibre f).pc := fun f => congrArg (fun x => x.1) (h f)
  have h2 : ∀ f, (t.fibre f).npos = (s.fibre f).npos := fun f => congrArg (fun x => x.2.1) (h f)
  have h3 : ∀ f, (t.fibre f).hdr = (s.fibre f).hdr := fun f => congrArg (fun x => x.2.2.1) (h f)
  have h4 : ∀ f, (t.fibre f).pend = (s.fibre f).pend := fun f => congrArg (fun x => x.2.2.2) (h f)
  have e1 : t.lastWord g = s.lastWord g := by simp only [State.lastWord, hg, h2, h3]
  have e2 : ∀ tgt, t.boundaryHeld fs l tgt = s.boundaryHeld fs l tgt := fun tgt => by simp only [State.boundaryHeld, h4]
  simp only [State.onward, State.landing, e1, e2, h1, h2, h3]

/-- A lane's fibre after its result is written. -/
def LaneOut.onFibre (o : LaneOut) (x : Fibre) : Fibre :=
  match o.pred with
  | some (p, b) => (x.raiseFlags o.flags).setPred p b
  | none => x.raiseFlags o.flags

theorem State.writeLane_fibres (d : Option Dst) (lat : Nat) (s : State) (e : Nat × LaneOut) :
    (State.writeLane d lat s e).fibres = (s.modFibre e.1 fun _ => e.2.onFibre (s.fibre e.1)).fibres := by
  have key : ∀ t : State, t.fibres = s.fibres →
      (t.modFibre e.1 fun y => e.2.onFibre y).fibres = (s.modFibre e.1 fun _ => e.2.onFibre (s.fibre e.1)).fibres := by
    intro t ht
    simp only [State.modFibre, NMap.edit, ht, State.fibre, NMap.get]
    cases NMap.find s.fibres e.1 <;> rfl
  unfold State.writeLane
  simp only
  refine key _ ?_
  split
  · exact State.flyRegs_same State.fibres (fun _ _ => rfl) ..
  · rfl

/-- What a lane's written result leaves alone: all but fibres and results on their way. -/
theorem State.writeLane_same {γ : Type} (p : State → γ) (h1 : ∀ (t : State) m, p { t with fibres := m } = p t)
    (h2 : ∀ (t : State) m, p { t with flying := m } = p t) (d : Option Dst) (lat : Nat) (s : State) (e : Nat × LaneOut) :
    p (State.writeLane d lat s e) = p s := by
  unfold State.writeLane
  simp only
  refine (h1 ..).trans ?_
  split
  · exact State.flyRegs_same p h2 ..
  · rfl

/-- What a lane reads after its result is written. -/
theorem State.writeLane_seen (d : Option Dst) (lat : Nat) (s : State) (e : Nat × LaneOut) (r : Nat) :
    (State.writeLane d lat s e).seen e.1 r = (lastAt (Dst.gets d (s.fibre e.1).base e.2.words) r).or (s.seen e.1 r) := by
  have k : ∀ t : State, (t.modFibre e.1 fun y => e.2.onFibre y).seen e.1 r = t.seen e.1 r := fun _ => rfl
  unfold State.writeLane
  simp only
  refine (k _).trans ?_
  split
  · exact State.seen_flyRegs ..
  · next h =>
    have : Dst.gets d (s.fibre e.1).base e.2.words = [] := by
      unfold Dst.gets; split
      · next n => exact absurd rfl (h n)
      · rfl
    rw [this]; rfl

theorem State.writeLane_flights (d : Option Dst) (lat : Nat) (s : State) (e : Nat × LaneOut) (f : Nat) (n : f ≠ e.1) :
    (State.writeLane d lat s e).flights f = s.flights f := by
  have k : ∀ t : State, (t.modFibre e.1 fun y => e.2.onFibre y).flights f = t.flights f := fun _ => rfl
  unfold State.writeLane
  simp only
  refine (k _).trans ?_
  split
  · exact State.flights_flyRegs_ne _ _ _ _ n
  · rfl

theorem LaneOut.onFibre_view (o : LaneOut) (x : Fibre) :
    (o.onFibre x).still = x.still ∧ (o.onFibre x).course = x.course ∧ (o.onFibre x).loops = x.loops ∧
    (o.onFibre x).fpctl = x.fpctl ||| Word.ofNat (o.flags % 64) ∧
    (o.onFibre x).preds = (match o.pred with | some (p, b) => (x.setPred p b).preds | none => x.preds) := by
  unfold LaneOut.onFibre
  split
  · next p b h =>
    simp only [Fibre.setPred, Fibre.raiseFlags]
    split <;> exact ⟨rfl, rfl, rfl, rfl, rfl⟩
  · exact ⟨rfl, rfl, rfl, rfl, rfl⟩

theorem Fibre.still_of_placeless {x y : Fibre} (h : x.placeless = y.placeless) :
    x.still = y.still ∧ x.preds = y.preds ∧ x.fpctl = y.fpctl := by
  have e : ∀ z : Fibre, z.still = { z.placeless with preds := 0, fpctl := 0 } := fun _ => rfl
  have a : ∀ z : Fibre, z.preds = z.placeless.preds := fun _ => rfl
  have b : ∀ z : Fibre, z.fpctl = z.placeless.fpctl := fun _ => rfl
  exact ⟨by rw [e, e y, h], by rw [a, a y, h], by rw [b, b y, h]⟩

theorem Fibre.views_of_seatless {x y : Fibre} (h : x.seatless = y.seatless) :
    x.course = y.course ∧ x.still = y.still ∧ x.loops = y.loops ∧ x.preds = y.preds ∧ x.fpctl = y.fpctl ∧ x.base = y.base := by
  have e : ∀ {γ : Type} (v : Fibre → γ), (∀ z : Fibre, v z = v z.seatless) → v x = v y := fun v hv => by rw [hv, hv y, h]
  exact ⟨e _ fun _ => rfl, e _ fun _ => rfl, e _ fun _ => rfl, e _ fun _ => rfl, e _ fun _ => rfl, e _ fun _ => rfl⟩

theorem Fibre.setPred_preds {x y : Fibre} (h : x.preds = y.preds) (p : Nat) (b : Bool) : (x.setPred p b).preds = (y.setPred p b).preds := by
  unfold Fibre.setPred; split <;> simp only [h]

/-- A group with members has an entry. -/
theorem State.group_entry {s : State} {g : Nat} (h : (s.group g).members ≠ []) :
    (NMap.find s.groups g).map Group.members = some (s.group g).members := by
  simp only [State.group, NMap.get] at h ⊢
  cases hx : NMap.find s.groups g with
  | none => rw [hx] at h; exact absurd rfl h
  | some x => rfl

theorem State.members_of_entry {s : State} {g : Nat} {ms : List Nat} (h : (NMap.find s.groups g).map Group.members = some ms) :
    (s.group g).members = ms := by
  simp only [State.group, NMap.get]
  cases hx : NMap.find s.groups g with
  | none => rw [hx] at h; cases h
  | some x => rw [hx] at h; simpa using h

/-- Writing every lane's result and moving on gives each lane its effect. -/
theorem State.writeLanes_done {s s2 : State} {g : Nat} {fs : List Nat} (d : Option Dst) (lat : Nat) (out : Nat → LaneOut)
    (hc : NMap.wf s2.regs = true) (ne : fs ≠ []) (nd : (fs.map hlOf).Nodup) (hm : byLane (s2.group g).members = fs)
    (hms : (s2.group g).members = (s.group g).members)
    (hp : ∀ f ∈ fs, (NMap.find s2.fibres f).isSome = true) (hv : ∀ f, (s2.fibre f).seatless = (s.fibre f).seatless) :
    s2.Gives (((fs.map fun f => (f, out f)).foldl (State.writeLane d lat) s2).done g) fs (s.effect g fs d out) none := by
  obtain ⟨a1, a2, a3, a4, a5, a6⟩ := State.foldl_lanes (fun e : Nat × LaneOut => e.1) (State.writeLane d lat)
    (fun e x => e.2.onFibre x) (fun _ _ => []) (fs.map fun f => (f, out f)) s2
    (by simpa [Function.comp_def] using nd) (fun t e => State.writeLane_fibres d lat t e)
    (fun t e => State.writeLane_same State.regs (fun _ _ => rfl) (fun _ _ => rfl) d lat t e) hc
  obtain ⟨z1, z2⟩ := State.foldl_flights (fun e : Nat × LaneOut => e.1) (State.writeLane d lat) (fun e x => e.2.onFibre x)
    (fun e x r y => (lastAt (Dst.gets d x.base e.2.words) r).or y) (fs.map fun f => (f, out f)) s2
    (by simpa [Function.comp_def] using nd.of_map hlOf) (fun t e => State.writeLane_fibres d lat t e)
    (fun t e r => State.writeLane_seen d lat t e r) (fun t e f n => State.writeLane_flights d lat t e f n)
  have u : ∀ {γ : Type} (p : State → γ), (∀ (t : State) m, p { t with fibres := m } = p t) → (∀ (t : State) m, p { t with flying := m } = p t) →
      p ((fs.map fun f => (f, out f)).foldl (State.writeLane d lat) s2) = p s2 := fun p h1 h2 =>
    foldl_same p (State.writeLane d lat) _ (fun t e _ => State.writeLane_same p h1 h2 d lat t e) s2
  have ug := u State.groups (fun _ _ => rfl) fun _ _ => rfl
  have ur := u State.rest (fun _ _ => rfl) fun _ _ => rfl
  have uc := u State.cores (fun _ _ => rfl) fun _ _ => rfl
  simp only [List.map_map, Function.comp_def, List.map_id'] at a2 a4 z2
  generalize (fs.map fun f => (f, out f)).foldl (State.writeLane d lat) s2 = t at a1 a2 a3 a4 a5 a6 z1 z2 ug ur uc ⊢
  have b1 : ∀ f ∈ fs, t.fibre f = (out f).onFibre (s2.fibre f) := fun f hf => a1 (f, out f) (List.mem_map.mpr ⟨f, hf, rfl⟩) (hp f hf)
  have b3 : ∀ f ∈ fs, ∀ r, t.reg (hlOf f) r = s2.reg (hlOf f) r := fun f hf r => a3 (f, out f) (List.mem_map.mpr ⟨f, hf, rfl⟩) r
  have b4 : ∀ f ∈ fs, ∀ r, t.seen f r = (lastAt (Dst.gets d (s2.fibre f).base (out f).words) r).or (s2.seen f r) :=
    fun f hf r => z1 (f, out f) (List.mem_map.mpr ⟨f, hf, rfl⟩) r
  have D := State.done_ends t g fs (by rw [State.group_congr ug]; exact hm) nd ne (fun f hf => by rw [a5]; exact hp f hf) a6
  have view : ∀ f, (t.fibre f).course = (s.fibre f).course ∧ t.loopsOf f = s.loopsOf f := by
    intro f
    have v := Fibre.views_of_seatless (hv f)
    by_cases hf : f ∈ fs
    · have w := LaneOut.onFibre_view (out f) (s2.fibre f)
      rw [State.loopsOf, b1 f hf]
      exact ⟨w.2.1.trans v.1, w.2.2.1.trans v.2.2.1⟩
    · rw [State.loopsOf, a2 f hf]
      exact ⟨v.1, v.2.2.1⟩
  have ho : ∀ f, t.onward g fs t.loopsOf f = s.onward g fs s.loopsOf f := fun f => by
    rw [State.onward_view (fun f => (view f).1) g ((State.group_congr ug g ▸ hms)), show t.loopsOf = s.loopsOf from funext fun f => (view f).2]
  refine ⟨D.rest.trans ur, fun f n => (D.others f n).trans (a2 f n), ?_, ?_, ?_, fun f n => (D.flights f n).trans (z2 f n), ?_, ?_⟩
  · intro f hf
    obtain ⟨c1, c2, c3, c4⟩ := D.lanes f hf
    rw [ho] at c2 c3 c4
    obtain ⟨d1, d2, d3⟩ := Fibre.still_of_placeless c1
    have w := LaneOut.onFibre_view (out f) (s2.fibre f)
    have v := Fibre.views_of_seatless (hv f)
    rw [b1 f hf] at d1 d2 d3
    refine ⟨d1.trans w.1, c2, c3, c4, ?_, ?_⟩
    · rw [d2, w.2.2.2.2]
      simp only [State.effect]
      cases (out f).pred with
      | none => exact v.2.2.2.1
      | some q => exact Fibre.setPred_preds v.2.2.2.1 q.1 q.2
    · rw [d3, w.2.2.2.1, v.2.2.2.2.1]; rfl
  · intro f hf r
    have v := Fibre.views_of_seatless (hv f)
    have hr := D.regs f hf r
    rw [ho, b3 f hf r] at hr
    refine ⟨?_, hr⟩
    rw [State.view_eq, State.view_eq, D.seen f hf r, ho, b4 f hf r, hr, lastAt_append, v.2.2.2.2.2]
    simp only [State.effect]
    cases lastAt (s.onward g fs s.loopsOf f).writes r with
    | some x => rfl
    | none =>
      cases lastAt (Dst.gets d (s.fibre f).base (out f).words) r with
      | some x => rfl
      | none => rfl
  · intro h n r
    rw [D.regsOthers h n r, a4 h n r]
  · intro c
    rw [(D.cores c).1]; simp only [State.core, uc]
  · intro c i
    have : ((t.done g).core c).queues = (s2.core c).queues := by rw [(D.cores c).2]; simp only [State.core, uc]
    simp only [Core.queueWords, Core.queue, this, List.append_nil]

/-! Queue destinations. -/

theorem chunk16_flatten (n : Nat) (ws : List Word) (h : ws.length ≤ n) : (chunk16 n ws).flatten = ws := by
  induction n generalizing ws with
  | zero => simp only [chunk16]; exact (List.eq_nil_of_length_eq_zero (by omega)).symm
  | succ n ih =>
    unfold chunk16
    split
    · next e => rw [List.isEmpty_iff.mp e]; rfl
    · next e =>
      have : 0 < ws.length := by
        rcases ws with _ | _
        · exact absurd rfl e
        · simp
      rw [List.flatten_cons, ih (ws.drop 16) (by simp; omega), List.take_append_drop]

/-- A push adds its words at the end of the queue. -/
theorem pushWords_flatten (q : List (List Word) × Nat) (ws : List Word) : (pushWords q ws).1.flatten = q.1.flatten ++ ws := by
  obtain ⟨es, m⟩ := q
  unfold pushWords
  simp only
  have hmore : ∀ r, (chunk16 ws.length (ws.drop r)).flatten = ws.drop r := fun r => chunk16_flatten _ _ (by simp)
  have key : ∀ r (a : List (List Word)), (a.flatten = es.flatten ++ ws.take r) →
      (if (chunk16 ws.length (ws.drop r)).isEmpty then (a, m + (ws.take r).length)
        else (a ++ chunk16 ws.length (ws.drop r), ((chunk16 ws.length (ws.drop r)).getLastD []).length)).1.flatten = es.flatten ++ ws := by
    intro r a ha
    split
    · next e =>
      have := hmore r
      rw [List.isEmpty_iff.mp e] at this
      have h0 : ws.drop r = [] := this.symm
      rw [ha]
      conv => rhs; rw [← List.take_append_drop r ws, h0, List.append_nil]
    · rw [List.flatten_append, hmore, ha, List.append_assoc, List.take_append_drop]
  refine key _ _ ?_
  by_cases h0 : (if es.isEmpty then 0 else 16 - m) = 0
  · rw [if_pos h0, h0]; simp
  · rw [if_neg h0]
    have hne : es ≠ [] := by rintro rfl; exact h0 rfl
    obtain ⟨a, x, rfl⟩ : ∃ a x, es = a ++ [x] := ⟨es.dropLast, es.getLast hne, (List.dropLast_append_getLast hne).symm⟩
    simp [List.flatten_append, List.getLastD_eq_getLast?]

theorem State.poolTake_views (s : State) (c i n c' : Nat) :
    ((s.poolTake c i n).core c').still = (s.core c').still ∧ ((s.poolTake c i n).core c').queues = (s.core c').queues := by
  simp only [State.poolTake, State.core_modCore]
  split
  · next e => subst e; exact ⟨rfl, rfl⟩
  · exact ⟨rfl, rfl⟩

/-- Granted requests take entries one after the other, and nothing else. -/
theorem State.poolGrants_keep (P : State → Prop) (s : State) (g c : Nat) (h : ∀ t i n, P t → P (State.poolTake t c i n)) (rs : List (Nat × Nat)) :
    ∀ t u, s.poolGrants g c t rs = .ok u → P t → P u := by
  induction rs with
  | nil => intro t u e p; cases e; exact p
  | cons r rs ih =>
    intro t u e p
    simp only [State.poolGrants] at e
    split at e
    · exact ih t u e p
    · split at e
      · cases e
      · exact ih _ u e (h _ _ _ p)

/-- What a granted pool request leaves alone. -/
theorem State.poolAsk_ok {s t : State} {g c : Nat} {rs : List (Nat × Nat)} (h : s.poolAsk g c rs = .ok t) :
    (t.rest = s.rest ∧ t.fibres = s.fibres ∧ t.groups = s.groups ∧ t.regs = s.regs ∧ t.flying = s.flying) ∧
    ∀ c', (t.core c').still = (s.core c').still ∧ (t.core c').queues = (s.core c').queues := by
  unfold State.poolAsk at h
  split at h
  · next u e =>
    cases h
    exact State.poolGrants_keep (fun t => (t.rest = s.rest ∧ t.fibres = s.fibres ∧ t.groups = s.groups ∧ t.regs = s.regs ∧ t.flying = s.flying) ∧
        ∀ c', (t.core c').still = (s.core c').still ∧ (t.core c').queues = (s.core c').queues) s g c
      (fun t i n p => ⟨p.1, fun c' => ⟨(State.poolTake_views t c i n c').1.trans (p.2 c').1, (State.poolTake_views t c i n c').2.trans (p.2 c').2⟩⟩)
      rs _ _ e ⟨⟨rfl, rfl, rfl, rfl, rfl⟩, fun _ => ⟨rfl, rfl⟩⟩
  · cases h

/-- Results whose destination is no queue register are written and the group moves on. -/
theorem State.finish_plain (s s1 : State) (g : Nat) (d : Option Dst) (time : Nat × Nat) (outs : List (Nat × LaneOut)) (h : ∀ k, d ≠ some (.q k)) :
    s.finish s1 g d time outs = .next ((outs.foldl (State.writeLane d (landsAfter time (outs.map Prod.fst))) s1).done g) := by
  unfold State.finish
  split
  · next k f x r => exact absurd rfl (h k)
  · rfl

/-- The end of an instruction of the datapath: the lanes' results are written or pushed. -/
theorem State.finish_completes {s s1 : State} {g : Nat} {fs : List Nat} (d : Option Dst) (time : Nat × Nat) (words : Nat) (out : Nat → LaneOut)
    (hc : NMap.wf s.regs = true) (hq : ∀ c, NMap.wf (s.core c).queues = true) (hi : s.Issues g fs)
    (same : s1.rest = s.rest ∧ s1.regs = s.regs ∧ s1.flying = s.flying ∧ (∀ f, (s1.fibre f).seatless = (s.fibre f).seatless) ∧
      (∀ f, (NMap.find s1.fibres f).isSome = (NMap.find s.fibres f).isSome) ∧
      (∀ g ms, (NMap.find s.groups g).map Group.members = some ms → (NMap.find s1.groups g).map Group.members = some ms) ∧
      ((∀ c, NMap.wf (s.core c).queues = true) → ∀ c, NMap.wf (s1.core c).queues = true))
    (room : s1.Room g fs d words) (hw : ∀ f ∈ fs, (out f).words.length = words) :
    ∃ t, s.finish s1 g d time (fs.map fun f => (f, out f)) = .next t ∧ s.Completes s1 t g fs d out := by
  obtain ⟨-, hm, ne, nd, hp⟩ := hi
  obtain ⟨-, s2, -, s3, s4, s5, s6⟩ := same
  have mne : (s.group g).members ≠ [] := by
    intro e; rw [e] at hm; exact ne hm.symm
  have hms : (s1.group g).members = (s.group g).members := State.members_of_entry (s5 g _ (State.group_entry mne))
  have hc1 : NMap.wf s1.regs = true := s2 ▸ hc
  have hp1 : ∀ f ∈ fs, (NMap.find s1.fibres f).isSome = true := fun f hf => (s4 f).trans (hp f hf)
  have hq1 := s6 hq
  by_cases hd : ∀ k, d ≠ some (.q k)
  · refine ⟨_, State.finish_plain s s1 g d time _ hd, ?_⟩
    have : pushed fs d out = none := by
      unfold pushed; split
      · next k f r => exact absurd rfl (hd k)
      · rfl
    unfold State.Completes; rw [this]
    exact State.writeLanes_done d _ out hc1 ne nd (by rw [hms]; exact hm) hms hp1 s3
  · simp only [not_forall, not_not] at hd
    obtain ⟨k, rfl⟩ := hd
    obtain ⟨f0, fs', rfl⟩ : ∃ f r, fs = f :: r := ⟨fs.head ne, fs.tail, (List.cons_head_tail ne).symm⟩
    obtain ⟨s2', hask⟩ := room
    have hl : (((f0 :: fs').map fun f => (f, out f)).flatMap fun e => e.2.words).length = words * (f0 :: fs').length := by
      rw [List.length_flatMap, List.map_map]
      have : ∀ xs : List Nat, (∀ f ∈ xs, (out f).words.length = words) →
          (xs.map ((fun e : Nat × LaneOut => e.2.words.length) ∘ fun f => (f, out f))).sum = words * xs.length := by
        intro xs
        induction xs with
        | nil => intro _; simp
        | cons x xs ih =>
          intro h
          rw [List.map_cons, List.sum_cons, ih fun f hf => h f (List.mem_cons_of_mem _ hf)]
          simp only [Function.comp, h x (List.mem_cons_self ..), List.length_cons]; ring
      exact this _ hw
    obtain ⟨⟨p1, p2, p3, p4, p6⟩, p5⟩ := State.poolAsk_ok hask
    have hfin : s.finish s1 g (some (.q k)) time ((f0 :: fs').map fun f => (f, out f)) =
        .next ((((f0 :: fs').map fun f => (f, out f)).foldl (State.writeLane (some (.q k)) (landsAfter time (((f0 :: fs').map fun f => (f, out f)).map Prod.fst)))
          (s2'.modCore (coreOf f0) fun c => c.setQueue (pushIdx (qcOf f0 % 4) k)
            (pushWords ((s2'.core (coreOf f0)).queue (pushIdx (qcOf f0 % 4) k)) (((f0 :: fs').map fun f => (f, out f)).flatMap fun e => e.2.words)))).done g) := by
      simp only [List.map_cons, State.finish]
      rw [← List.map_cons (f := fun f => (f, out f)), hl, hask]
      rfl
    refine ⟨_, hfin, ?_⟩
    have G := State.writeLanes_done (s := s) (s2 := s2'.modCore (coreOf f0) fun c => c.setQueue (pushIdx (qcOf f0 % 4) k)
        (pushWords ((s2'.core (coreOf f0)).queue (pushIdx (qcOf f0 % 4) k)) (((f0 :: fs').map fun f => (f, out f)).flatMap fun e => e.2.words)))
      (g := g) (fs := f0 :: fs') (some (.q k)) (landsAfter time (((f0 :: fs').map fun f => (f, out f)).map Prod.fst)) out (by show NMap.wf s2'.regs = true; rw [p4]; exact hc1) ne nd
      (by show byLane (s2'.group g).members = _; rw [State.group_congr p3, hms]; exact hm)
      (by show (s2'.group g).members = _; rw [State.group_congr p3, hms])
      (by intro f hf; show (NMap.find s2'.fibres f).isSome = true; rw [p2]; exact hp1 f hf)
      (by intro f; show (State.fibre s2' f).seatless = _; simp only [State.fibre, p2]; exact s3 f)
    obtain ⟨e1, e2, e3, e4, e5, e6, e7, e8⟩ := G
    have hcore : ∀ c, ((s2'.modCore (coreOf f0) fun c => c.setQueue (pushIdx (qcOf f0 % 4) k)
        (pushWords ((s2'.core (coreOf f0)).queue (pushIdx (qcOf f0 % 4) k)) (((f0 :: fs').map fun f => (f, out f)).flatMap fun e => e.2.words))).core c).still
        = (s2'.core c).still := by
      intro c; rw [State.core_modCore]; split
      · next e => subst e; rfl
      · rfl
    have hfib : ∀ f, (s2'.modCore (coreOf f0) fun c => c.setQueue (pushIdx (qcOf f0 % 4) k)
        (pushWords ((s2'.core (coreOf f0)).queue (pushIdx (qcOf f0 % 4) k)) (((f0 :: fs').map fun f => (f, out f)).flatMap fun e => e.2.words))).fibre f
        = s1.fibre f := fun f => by show s2'.fibre f = _; simp only [State.fibre, p2]
    have hreg : ∀ h r, (s2'.modCore (coreOf f0) fun c => c.setQueue (pushIdx (qcOf f0 % 4) k)
        (pushWords ((s2'.core (coreOf f0)).queue (pushIdx (qcOf f0 % 4) k)) (((f0 :: fs').map fun f => (f, out f)).flatMap fun e => e.2.words))).reg h r
        = s1.reg h r := fun h r => by show s2'.reg h r = _; simp only [State.reg, p4]
    refine ⟨e1.trans (show s2'.rest = _ from p1), fun f n => (e2 f n).trans (hfib f), ?_, ?_, fun h n r => (e5 h n r).trans (hreg h r),
      fun f n => (e6 f n).trans (State.flights_congr p6 f), fun c => (e7 c).trans ((hcore c).trans (p5 c).1), ?_⟩
    · intro f hf; have := e3 f hf; rw [hfib] at this; exact this
    · intro f hf r; have := e4 f hf r; rw [hreg] at this
      exact ⟨this.1.trans (congrArg _ (show s2'.view f r = s1.view f r by simp only [State.view, State.reg, p4, p6])), this.2⟩
    · intro c i
      rw [e8 c i, List.append_nil]
      simp only [pushed]
      rw [State.core_modCore]
      split
      · next e =>
        subst e
        by_cases hi' : i = pushIdx (qcOf f0 % 4) k
        · subst hi'
          have hwf : NMap.wf (s2'.core (coreOf f0)).queues = true := by rw [(p5 _).2]; exact hq1 _
          simp only [Core.queueWords, Core.queue, Core.setQueue, NMap.get_store _ _ _ _ hwf, if_true, and_self, pushWords_flatten]
          rw [(p5 _).2]
          congr 1
          simp only [List.flatMap_map]
        · rw [if_neg fun c => hi' c.2, List.append_nil]
          simp only [Core.queueWords, Core.queue, Core.setQueue, (p5 _).2, NMap.get_store _ _ _ _ (hq1 (coreOf f0)), if_neg hi']
      · next e =>
        rw [if_neg fun c => e c.1, List.append_nil]
        simp only [Core.queueWords, Core.queue, (p5 _).2]

theorem State.onGroup_issues {s : State} {g : Nat} {fs : List Nat} (hi : s.Issues g fs) (k : Nat → List Nat → Out) : s.onGroup k = k g fs := by
  simp only [State.onGroup, hi.1, hi.2.1]

theorem lanes_nodup {fs : List Nat} (nd : (fs.map hlOf).Nodup) (vss : List (List (List Word))) : ((lanesFrom fs vss).map Lane.f).Nodup := by
  rw [lanesFrom_fs]; exact List.Nodup.of_map _ nd

/-- A result for every lane, given by the lane, is a result for every fibre of the group. -/
theorem outs_of_lanes {fs : List Nat} (nd : (fs.map hlOf).Nodup) (vss : List (List (List Word))) (k : Lane → LaneOut) :
    ((lanesFrom fs vss).map fun l => (l.f, k l)) = fs.map fun f => (f, k (laneFor (lanesFrom fs vss) f)) := by
  conv => rhs; rw [← lanesFrom_fs fs vss]
  rw [List.map_map]
  refine List.map_congr_left fun l hl => ?_
  simp only [Function.comp, lanesFrom_fs]
  rw [laneFor_self (lanes_nodup nd vss) hl]

theorem laneFor_f {fs : List Nat} (nd : (fs.map hlOf).Nodup) (vss : List (List (List Word))) {f : Nat} (h : f ∈ fs) :
    (laneFor (lanesFrom fs vss) f).f = f := by
  have : f ∈ (lanesFrom fs vss).map Lane.f := by rw [lanesFrom_fs]; exact h
  obtain ⟨l, hl, rfl⟩ := List.mem_map.mp this
  rw [laneFor_self (lanes_nodup nd vss) hl]

/-- Only the results of the lanes that issue matter. -/
theorem State.completes_congr {s s1 t : State} {g : Nat} {fs : List Nat} {d : Option Dst} {out out' : Nat → LaneOut}
    (e : ∀ f ∈ fs, out f = out' f) (h : s.Completes s1 t g fs d out) : s.Completes s1 t g fs d out' := by
  obtain ⟨h1, h2, h3, h4, h5, h6, h7, h8⟩ := h
  have ef : ∀ f ∈ fs, s.effect g fs d out f = s.effect g fs d out' f := fun f hf => by simp only [State.effect, e f hf]
  have ep : pushed fs d out = pushed fs d out' := by
    unfold pushed
    split
    · next k f r =>
      congr 3
      exact List.flatMap_congr fun h hh => by rw [e h hh]
    · rfl
  refine ⟨h1, h2, fun f hf => ef f hf ▸ h3 f hf, fun f hf => ef f hf ▸ h4 f hf, h5, h6, h7, ?_⟩
  intro c i
  rw [h8 c i, ep]

/-- An instruction whose result looks across the lanes completes when its operands are readable and a queue destination has room (R102, R129). -/
theorem State.crossIn_completes {s s1 : State} {g : Nat} {fs : List Nat} {ls : List Lane} (time : Nat × Nat) (info : Nat) (srcs : List (Nat × Src))
    (d : Option (Nat × Dst)) (words : Nat) (k : State → List Lane → Lane → LaneOut) (hc : s.Canon) (hi : s.Issues g fs)
    (ho : s.Operands fs srcs d.toList s1 ls) (room : s1.Room g fs (d.map Prod.snd) words)
    (hw : ∀ l ∈ ls, (k s ls l).words.length = words) :
    ∃ t, s.crossIn time info srcs d k = .next t ∧ s.Completes s1 t g fs (d.map Prod.snd) fun f => k s ls (laneFor ls f) := by
  have nd := hi.2.2.2.1
  have same := ho.same
  obtain ⟨h1, h2, vss, h3, rfl⟩ := ho
  have : s.crossIn time info srcs d k = s.finish s1 g (d.map Prod.snd) time (fs.map fun f => (f, k s (lanesFrom fs vss) (laneFor (lanesFrom fs vss) f))) := by
    unfold State.crossIn
    rw [State.onGroup_issues hi, State.withOperands_ok (dsts := d.toList) ⟨h1, h2, vss, h3, rfl⟩, outs_of_lanes nd]
  rw [this]
  refine State.finish_completes _ time words (fun f => k s (lanesFrom fs vss) (laneFor (lanesFrom fs vss) f)) hc.2.1.1 (State.Canon.queues hc) hi same room ?_
  intro f hf
  refine hw _ ?_
  have : f ∈ (lanesFrom fs vss).map Lane.f := by rw [lanesFrom_fs]; exact hf
  obtain ⟨l, hl, rfl⟩ := List.mem_map.mp this
  rw [laneFor_self (lanes_nodup nd vss) hl]; exact hl

/-- An instruction that computes every lane on its own completes when its operands are readable and a queue destination has room (R129). -/
theorem State.alu_completes {s s1 : State} {g : Nat} {fs : List Nat} {ls : List Lane} (info : Nat) (srcs : List (Nat × Src))
    (d : Option (Nat × Dst)) (words : Nat) (k : Fibre → Lane → LaneOut) (hc : s.Canon) (hi : s.Issues g fs)
    (ho : s.Operands fs srcs d.toList s1 ls) (room : s1.Room g fs (d.map Prod.snd) words)
    (hw : ∀ x, ∀ l ∈ ls, (k x l).words.length = words) :
    ∃ t, s.alu info srcs d k = .next t ∧ s.Completes s1 t g fs (d.map Prod.snd) fun f => k (s.fibre f) (laneFor ls f) := by
  obtain ⟨t, h1, h2⟩ := State.crossIn_completes (resultTime info (wideShape srcs d)) info srcs d words (fun t _ l => k (t.fibre l.f) l) hc hi ho room fun l hl => hw _ l hl
  refine ⟨t, h1, ?_⟩
  obtain ⟨-, -, vss, -, rfl⟩ := ho
  have e : ∀ f ∈ fs, k (s.fibre (laneFor (lanesFrom fs vss) f).f) (laneFor (lanesFrom fs vss) f) = k (s.fibre f) (laneFor (lanesFrom fs vss) f) :=
    fun f hf => by rw [laneFor_f hi.2.2.2.1 vss hf]
  exact State.completes_congr e h2

end Sys2Proof.Machine
end

