-- ==== Sys2Proof/Laws/Memory.lean ====
section
/-! SUPPORT. Laws of memory: every operation on it keeps the canonical form, and what is read after a write. -/

namespace Sys2Proof.Machine

theorem Memory.wf_iff (m : List Host.Cell) : Memory.wf m = true ↔ NMap.wf m = true ∧ ∀ e ∈ m, e.2 ≠ blankByte := by
  simp [Memory.wf]

@[simp] theorem Memory.wf_nil : Memory.wf [] = true := rfl

/-- A write keeps the canonical form. -/
theorem Memory.wf_write {m : List Host.Cell} (a : Nat) (b : Byte) (h : Memory.wf m = true) : Memory.wf (Memory.write m a b) = true := by
  obtain ⟨hw, hn⟩ := (Memory.wf_iff m).mp h
  refine (Memory.wf_iff _).mpr ⟨NMap.wf_store _ _ _ hw, ?_⟩
  unfold Memory.write NMap.store
  split_ifs with hb
  · exact fun e he => hn e (NMap.mem_del he)
  · exact fun e he => (NMap.mem_put he).elim (fun q => q ▸ hb) (hn e)

/-- A byte written is read back, and every other byte reads as before. -/
theorem Memory.read_write {m : List Host.Cell} (a c : Nat) (b : Byte) (h : Memory.wf m = true) :
    Memory.read (Memory.write m a b) c = if c = a then b else Memory.read m c :=
  NMap.get_store a c b blankByte ((Memory.wf_iff m).mp h).1

/-- Both memories of a state in canonical form. -/
def State.MemWf (s : State) : Prop := Memory.wf s.mem = true ∧ Memory.wf s.hmem = true

theorem State.memWf_setByte {s : State} (l : Loc) (b : Byte) (h : s.MemWf) : (s.setByte l b).MemWf := by
  unfold State.setByte
  split
  · exact ⟨h.1, Memory.wf_write _ _ h.2⟩
  · exact ⟨Memory.wf_write _ _ h.1, h.2⟩

theorem State.memWf_setBytes {s : State} (l : Loc) (bs : List Byte) (h : s.MemWf) : (s.setBytes l bs).MemWf := by
  induction bs generalizing s l with
  | nil => exact h
  | cons b bs ih => exact ih _ (State.memWf_setByte l b h)

theorem State.memWf_setMap {s : State} (l : Loc) (m : NMap Byte) (h : s.MemWf) : (s.setMap l m).MemWf := by
  unfold State.setMap
  induction m generalizing s with
  | nil => exact h
  | cons e m ih => exact ih (State.memWf_setByte _ _ h)

theorem State.memWf_setHostWords {s : State} (a : Nat) (ws : List Word) (h : s.MemWf) : (s.setHostWords a ws).MemWf :=
  State.memWf_setBytes _ _ h

/-- Reset memory lists nothing. -/
theorem State.memWf_reset : State.reset.MemWf := ⟨rfl, rfl⟩

/-- Reading one byte after writing one. -/
theorem State.byteAt_setByte {s : State} (l k : Loc) (b : Byte) (h : s.MemWf) :
    (s.setByte l b).byteAt k = if k = l then b else s.byteAt k := by
  obtain ⟨lh, lp⟩ := l
  obtain ⟨kh, kp⟩ := k
  unfold State.setByte State.byteAt
  cases lh <;> cases kh <;> simp [State.heal, Memory.read_write _ _ _ h.1, Memory.read_write _ _ _ h.2]

/-- Reading one byte after writing several: one of them, or what stood there. -/
theorem State.byteAt_setBytes {s : State} (l k : Loc) (bs : List Byte) (h : s.MemWf) :
    (s.setBytes l bs).byteAt k =
      if k.host = l.host ∧ l.pa ≤ k.pa ∧ k.pa < l.pa + bs.length then bs.getD (k.pa - l.pa) 0 else s.byteAt k := by
  induction bs generalizing s l with
  | nil => rw [if_neg (by simp only [List.length_nil]; omega)]; rfl
  | cons b bs ih =>
    rw [State.setBytes, ih (l.plus 1) (State.memWf_setByte l b h), State.byteAt_setByte l k b h]
    obtain ⟨lh, lp⟩ := l
    obtain ⟨kh, kp⟩ := k
    simp only [Loc.plus, List.length_cons, Loc.mk.injEq]
    by_cases e : kh = lh
    · subst e
      by_cases e : kp = lp
      · subst e
        rw [if_neg (by omega), if_pos ⟨rfl, rfl⟩, if_pos ⟨rfl, by omega, by omega⟩]; simp
      · by_cases h1 : lp + 1 ≤ kp ∧ kp < lp + 1 + bs.length
        · rw [if_pos ⟨rfl, h1⟩, if_pos ⟨rfl, by omega, by omega⟩]
          obtain ⟨n, hn⟩ : ∃ n, kp - lp = n + 1 := ⟨kp - lp - 1, by omega⟩
          rw [hn, show kp - (lp + 1) = n by omega]; rfl
        · rw [if_neg (by tauto), if_neg (by tauto), if_neg (by rintro ⟨_, _, _⟩; omega)]
    · rw [if_neg (by tauto), if_neg (by tauto), if_neg (by tauto)]

/-- Scratchpad bytes: reading after writing one. -/
theorem State.spadAt_setSpad {s : State} (c o c' o' : Nat) (b : Byte) (h : NMap.wf s.spad = true) :
    (s.setSpad c o b).spadAt c' o' = if c' * spadBytes + o' = c * spadBytes + o then b else s.spadAt c' o' :=
  NMap.get_store _ _ b 0 h

/-- Writing the scratchpad keeps its keys sorted and both memories as they are. -/
theorem State.spadWrite_frame {s : State} (c o : Nat) (bs : List Byte) (h : NMap.wf s.spad = true) :
    NMap.wf (s.spadWrite c o bs).spad = true ∧ (s.spadWrite c o bs).mem = s.mem ∧ (s.spadWrite c o bs).hmem = s.hmem := by
  induction bs generalizing s o with
  | nil => exact ⟨h, rfl, rfl⟩
  | cons b bs ih => exact ih (o + 1) (NMap.wf_store _ _ _ h)

end Sys2Proof.Machine
end

