-- ==== Sys2Proof/Tests/Slice0.lean ====
section
/-! SUPPORT. Tests: terms the static rules refuse, words written out from the encodings of the manual, states that meet the hypotheses of the statements, and single steps whose results are taken from the manual. -/

namespace Sys2Proof.Tests

set_option Elab.async false

open Sys2Proof Sys2Proof.Machine

/-! Well-formedness: for each check a term that it refuses. -/

/-- Register fields: outside v0 to v119, misaligned pairs and quads, literals of the wrong length, queue numbers (R40, R41). -/
theorem test_refused_registers : ∀ i ∈ ([.iadd .wrap (.v 120) (.v 1) (.v 2), .iadd .b64 (.v 1) (.v 2) (.v 4), .isub .b64 (.v 2) (.v 4) (.v 5),
    .iadd .wrap (.lit []) (.v 1) (.v 2), .iadd .b64 (.v 2) (.lit [1]) (.v 4), .iadd .wrap (.q 4) (.v 1) (.v 2), .iadd .wrap (.v 1) (.v 2) (.q 4),
    .mov .b128 (.v 6) (.v 8), .unpk .s8 (.v 1) (.v 118), .brev true (.v 3) (.v 4), .lea 0 (.v 3) (.v 1) (.v 4), .brx (.v 5), .callx 1 (.v 3),
    .fork 0 (.v 1) 0, .iadd .wrap (.v 0) (.v 1) .none] : List Instr), i.wf = false := by decide +kernel

/-- Team-uniform registers stand only in a field that admits them, and below 64 (R42). -/
theorem test_refused_uniforms : ∀ i ∈ ([.iadd .wrap (.s 1) (.v 1) (.v 2), .iadd .wrap (.v 1) (.s 64) (.v 2), .mov .b64 (.s 3) (.v 2), .popc false (.s 1) (.v 2),
    .movs true (.v 2) 63, .movs false (.v 2) 64, .movs true (.v 2) 1, .ld .b32 none (.s 2) .vz (.v 4)] : List Instr), i.wf = false := by decide +kernel

/-- Carry predicates p1 to p7, selecting predicates p0 to p7, window steps from 1, an induction register in the window (R108, R110, R131, R140). -/
theorem test_refused_predicates_and_steps : ∀ i ∈ ([.iaddc 0 (.v 1) (.v 2) (.v 3), .isubb 8 (.v 1) (.v 2) (.v 3), .isel 8 (.v 1) (.v 2) (.v 3), .call 0 4, .ret 0,
    .callx 0 (.v 2), .loopi false (.v 1) (.v 2) .vz 4, .loopi false (.v 1) (.v 2) (.q 0) 4] : List Instr), i.wf = false := by decide +kernel

/-- Ordering words: orders an instruction does not admit, FADD and SGN with other operations, operations of `red`, scopes of `atoms`, `waitaddr` with an order or scope (R47, R48, R183, R189). -/
theorem test_refused_ordering_words : ∀ i ∈ ([.ld .b32 (some ⟨0, false, false, .add, .release, .team⟩) (.v 2) .vz (.v 4),
    .st .b32 (some ⟨0, false, false, .add, .acquire, .team⟩) (.v 2) .vz (.v 4), .lds .b32 (some ⟨0, true, false, .add, .relaxed, .team⟩) (.v 2) .vz (.v 4),
    .sts .b32 (some ⟨0, false, false, .min, .relaxed, .team⟩) (.v 2) .vz (.v 4), .atom false ⟨0, true, false, .min, .relaxed, .team⟩ (.v 2) .vz (.v 4),
    .atom false ⟨0, false, true, .add, .relaxed, .team⟩ (.v 2) .vz (.v 4), .red false ⟨0, false, false, .cas, .relaxed, .device⟩ (.v 2) .vz (.v 4),
    .red false ⟨0, false, false, .exch, .relaxed, .device⟩ (.v 2) .vz (.v 4), .red false ⟨0, false, false, .add, .acquire, .device⟩ (.v 2) .vz (.v 4),
    .atoms false ⟨0, false, false, .add, .relaxed, .device⟩ (.v 2) .vz (.v 4), .waitaddr false (some ⟨0, false, false, .add, .acquire, .team⟩) (.v 2) .vz (.v 4),
    .waitaddr false (some ⟨0, false, false, .add, .relaxed, .die⟩) (.v 2) .vz (.v 4), .cflush (some ⟨0, false, false, .add, .acquire, .team⟩) (.v 2) .vz,
    .cflushAll (some ⟨0, false, false, .add, .release, .team⟩)] : List Instr), i.wf = false := by decide +kernel

/-- Memory operands: queue registers in a or b, data of the wrong width, a destination of `waitaddr` in a queue (R41, R46, R189). -/
theorem test_refused_memory_operands : ∀ i ∈ ([.ld .b32 none (.q 0) .vz (.v 4), .ld .b32 none (.v 2) (.q 1) (.v 4), .ldc .b64 none (.v 2) .vz (.v 5), .st .b128 none (.v 2) .vz (.v 6),
    .sts .b64 none (.v 2) .vz (.s 2), .lds .b64 none (.v 2) .vz (.v 7), .atom true ⟨0, false, false, .cas, .relaxed, .team⟩ (.v 2) .vz (.v 6),
    .pref none (.v 3) .vz, .prefBlk none (.v 3) .vz, .waitaddr false none (.v 2) .vz (.q 0)] : List Instr), i.wf = false := by decide +kernel

/-- Special registers no chapter assigns, read-only ones written, barrier ids past their level, operands of the engines' instructions (R41, R51, R228, R331). -/
theorem test_refused_system_and_engines : ∀ i ∈ ([.csrrd 0x009 (.v 2), .csrwr 0x001 (.v 2), .csrrd 0x010 (.v 3), .csrwr 0x402 (.v 3), .bar .team 16, .bar .die 8, .barArr .pkg 4,
    .tlbiVa (.v 3), .clk .horizon (.v 3), .perf 0 (.v 3), .cpLin (.s 1), .cpStat (.v 1) .vz, .mxPass (.v 1) (.q 0), .mxBq (.v 2) (.v 1), .mxBq .vz (.v 1), .pRsv (.v 1) .none,
    .rsInit (.v 2), .rsNext (.v 1) (.v 3), .tSpawn (.v 2) (.v 1) (.v 4), .tPop (.v 2), .launch (.v 3) (.v 4), .tCntRd (.v 1) .none, .fxAdd (.v 2), .fxFence .none] : List Instr),
    i.wf = false := by decide +kernel

/-! Decoding. -/

/-- Every word list of a table decodes to its instruction. -/
def decodesTo (t : List (List Word × Instr)) : Bool := t.all fun e => match decode e.1 with | .ok i => i == e.2 | .error _ => false

/-- Words written from the layouts of R44 to R51 and the entries of R52, R130 to R146. -/
theorem test_words_integer1 : decodesTo [
    ([0x00000000], .nop),
    ([0x60808301], .iadd .b64 (.v 2) (.v 4) (.v 6)),
    ([0x3120C282], .isub .satS (.v 3) (.s 9) (.v 5)),
    ([0xEFA04103, 0xFFFFFFFF], .iaddc 7 (.v 1) (.lit [0xFFFFFFFF]) (.v 2)),
    ([0x2EE03E04], .isubb 1 (.v 0) (.v 119) .vz),
    ([0x40FE0405], .imul .wideU (.q 0) (.v 7) (.v 8)),
    ([0x40208186], .imulh .su (.v 2) (.v 1) (.v 3)),
    ([0x20A18607], .imad .wideS (.v 6) (.v 5) (.v 12)),
    ([0x61420308], .idiv .u64 (.v 8) (.v 10) (.v 6)),
    ([0x00608089], .irem .s32 (.v 2) (.v 3) (.v 1)),
    ([0x4FA0820A, 0x00000005, 0x00000006], .imin .s64 (.v 2) (.lit [5, 6]) (.v 4)),
    ([0x2060BD8B], .imax .u32 (.v 2) (.v 3) (.q 3)),
    ([0x2001430C], .iabs true (.v 5) (.v 6))] = true := by decide +kernel

/-- Words written from the layouts of R44 to R51 and the entries of R52, R130 to R146. -/
theorem test_words_integer2 : decodesTo [
    ([0x0001430D], .ineg false (.v 5) (.v 6)),
    ([0x6040400E], .lop .andn (.v 1) (.v 2) (.v 0)),
    ([0x0040C290], .shl false (.v 3) (.v 2) (.v 5)),
    ([0x20610311], .shr true (.v 4) (.v 3) (.v 6)),
    ([0x17E10312], .sar false (.v 4) (.s 63) (.v 6)),
    ([0x2F810313], .rot true (.v 4) .vz (.v 6)),
    ([0x20608094], .bfx true (.v 2) (.v 3) (.v 1)),
    ([0x00608095], .bfi (.v 2) (.v 3) (.v 1)),
    ([0x20008096], .popc true (.v 2) (.v 1)),
    ([0x0000C097], .clz false (.v 3) (.v 1)),
    ([0x0000C098], .ctz false (.v 3) (.v 1)),
    ([0x20008219], .brev true (.v 2) (.v 4)),
    ([0x4080B49A], .icmp .lt true true (.v 2) (.v 4) 9)] = true := by decide +kernel

/-- Words written from the layouts of R44 to R51 and the entries of R52, R130 to R146. -/
theorem test_words_integer3 : decodesTo [
    ([0xE060809B], .isel 7 (.v 2) (.v 3) (.v 1)),
    ([0x60A0821C], .lea 3 (.v 2) (.v 5) (.v 4)),
    ([0x4100021D], .mov .b128 (.v 8) (.v 4)),
    ([0x8000439E], .movi 0x20001 (.v 7)),
    ([0xFFFFC3A0], .movh 0x3FFFF (.v 7)),
    ([0x20C01F21], .movs true (.v 6) 62),
    ([0xA00183A2], .cvti .satU8 (.v 6) (.v 7)),
    ([0x20E182A3], .pack .satS16 (.v 6) (.v 7) (.v 5)),
    ([0x40018424], .unpk .s8 (.v 6) (.v 8)),
    ([0xC04047A5], .plop .nand 1 2 15),
    ([0x000004A6], .pmov (.v 9)),
    ([0x20024026], .pmovW (.v 9))] = true := by decide +kernel

/-- Words written from the layouts of R44 to R51 and the entries of R147 to R157, R75, R77. -/
theorem test_words_float1 : decodesTo [
    ([0x204041A7], .fmov .f32 true (.v 1) (.v 2) (.v 3)),
    ([0xC1450A28], .fadd .bf16x2 false (.v 20) (.v 10) (.v 20)),
    ([0x40808329], .fsub .f64 false (.v 2) (.v 4) (.v 6)),
    ([0xB080832A], .fmul .f16x2 true (.v 2) (.s 4) (.v 6)),
    ([0x0080C2AB], .ffma .f32 false (.v 3) (.v 4) (.v 5)),
    ([0x4FA0822C, 0x00000000, 0x3FF00000], .fmin .f64 false (.v 2) (.lit [0, 0x3FF00000]) (.v 4)),
    ([0x0080C2AD], .fmax .f32 false (.v 3) (.v 4) (.v 5)),
    ([0x8080F2AE], .fcmp .f16x2 false .un (.v 3) (.v 4) 5),
    ([0x06E08230], .fcvt .f32s32 .dyn (.v 2) (.v 4)),
    ([0x0E808230], .fcvt .f32bf16x2 .rna (.v 2) (.v 4)),
    ([0x40E08231], .frnd .f64 .dyn (.v 2) (.v 4)),
    ([0xC00081B2], .fclass .bf16x2 (.v 2) (.v 3)),
    ([0x10A081B3], .fscale .f32 (.v 2) (.s 5) (.v 3))] = true := by decide +kernel

/-- Words written from the layouts of R44 to R51 and the entries of R147 to R157, R75, R77. -/
theorem test_words_float2 : decodesTo [
    ([0x000081B4], .frcp .f32 (.v 2) (.v 3)),
    ([0x40008235], .frsq .f64 (.v 2) (.v 4)),
    ([0x800081B6], .fsqrt .f16x2 (.v 2) (.v 3)),
    ([0x208081B7], .fdiv .f32 true (.v 2) (.v 4) (.v 3)),
    ([0x000081B8], .fexp2 .f32 (.v 2) (.v 3)),
    ([0x800081B9], .flog2 .f16x2 (.v 2) (.v 3)),
    ([0xC00081BA], .fsin .bf16x2 (.v 2) (.v 3)),
    ([0x000081BB], .fcos .f32 (.v 2) (.v 3)),
    ([0x000081BC], .ftanh .f32 (.v 2) (.v 3)),
    ([0x010081BD], .lcvt .lnsf32 .rne (.v 2) (.v 3))] = true := by decide +kernel

/-- Words written from the layouts of R44 to R51 and the entries of R107 to R118, R245. -/
theorem test_words_control1 : decodesTo [
    ([0x0FFFFEC0], .bra 0x1FFFFD),
    ([0xF00002C1], .brp 15 5),
    ([0x00018042], .brx (.v 6)),
    ([0x20008043], .call 2 0x100),
    ([0x10018044], .callx 1 (.v 6)),
    ([0x30000045], .ret 3),
    ([0x00060146], .loop (.v 2) 24),
    ([0x20604147, 0x00000018], .loopi true (.v 1) (.v 3) (.v 2) 24),
    ([0x40000048], .brk 4),
    ([0x10018149], .fork 1 (.v 6) 2),
    ([0x0000004A], .exit),
    ([0x0001404B], .wbase (.v 5)),
    ([0x0000004C], .yield)] = true := by decide +kernel

/-- Words written from the layouts of R44 to R51 and the entries of R107 to R118, R245. -/
theorem test_words_control2 : decodesTo [
    ([0x000001CD], .elect 3),
    ([0x600081CE], .vote .odd 2 3),
    ([0x000083D0], .ballot 2 (.v 7)),
    ([0x200083D1], .matchAny true (.v 2) (.v 7)),
    ([0x912083D2], .shfl .ring (.v 2) (.s 9) (.v 7)),
    ([0xF0008353], .redux .xor true (.v 2) (.v 6)),
    ([0x40008354], .qswap .d (.v 2) (.v 6)),
    ([0x60008355], .qbcast 3 (.v 2) (.v 6)),
    ([0xA0008356], .qred .fmax (.v 2) (.v 6)),
    ([0x000102D7], .gset 5 4),
    ([0x200002D7], .gsetRun 5),
    ([0x400002D7], .gsetDrop 5)] = true := by decide +kernel

/-- Words written from the layouts of R44 to R51 and the entries of R46, R47, R180 to R189. -/
theorem test_words_memory1 : decodesTo [
    ([0x8F8102E0, 0xFFFC000B], .ld .b8 (some ⟨0xFFFC, false, false, .add, .acquire, .device⟩) (.v 4) .vz (.v 5)),
    ([0x4F860861], .st .b128 none (.v 24) .vz (.v 16)),
    ([0x2F818462], .lds .b32 none (.v 6) .vz (.v 8)),
    ([0xB0A18463, 0x00000011], .sts .b64 (some ⟨0, false, false, .add, .release, .cluster⟩) (.v 6) (.v 5) (.v 8)),
    ([0x1FA18464, 0x00000040], .ldc .b16 none (.v 6) (.lit [0x40]) (.v 8)),
    ([0xBF818465, 0x000000FC], .atom true ⟨0, false, false, .cas, .acqRel, .system⟩ (.v 6) .vz (.v 8)),
    ([0xAF818466, 0x00000122], .atoms false ⟨0, false, true, .min, .relaxed, .die⟩ (.v 6) .vz (.v 8)),
    ([0xAF818467, 0x00000213], .red false ⟨0, true, false, .add, .release, .device⟩ (.v 6) .vz (.v 8)),
    ([0x60000068], .fence .device),
    ([0x00E18069], .cflush none (.v 6) (.v 7)),
    ([0x1F9F0069], .cflushAll none),
    ([0x0F81806A], .pref none (.v 6) .vz),
    ([0x4F81806A], .prefBlk none (.v 6) .vz)] = true := by decide +kernel

/-- Words written from the layouts of R44 to R51 and the entries of R46, R47, R180 to R189. -/
theorem test_words_memory2 : decodesTo [
    ([0x30E1846B], .waitaddr true none (.v 6) (.v 7) (.v 8))] = true := by decide +kernel

/-- Words written from the layouts of R44 to R51 and the entries of R229 to R235, R337, R346. -/
theorem test_words_system1 : decodesTo [
    ([0x20A00070], .trap 2 5),
    ([0x00000071], .eret),
    ([0x20000071], .eretSkip),
    ([0x80400272], .csrrd 0x402 (.v 4)),
    ([0x80218073], .csrwr 0x401 (.v 6)),
    ([0x0FE00074], .bkpt 0 127),
    ([0x00020075], .tlbiVa (.v 8)),
    ([0x20000075], .tlbiCtx),
    ([0x400001F6], .clk .low (.v 3)),
    ([0x00C00277], .perf 6 (.v 4)),
    ([0x20C00277], .perfClr 6 (.v 4)),
    ([0x20E00078], .bar .die 7),
    ([0x40604078], .barArr .pkg 3)] = true := by decide +kernel

/-- Words written from the layouts of R44 to R51 and the entries of R229 to R235, R337, R346. -/
theorem test_words_system2 : decodesTo [
    ([0x00000079], .netclsBulk),
    ([0x20000079], .netclsLat)] = true := by decide +kernel

/-- Words written from the layouts of R44 to R51 and the entries of R50, R51, R253, R254, R284, R320 to R330, R358. -/
theorem test_words_engines1 : decodesTo [
    ([0xF8B3F80F], .cpTile (.v 44)),
    ([0xF803F81F], .cpStore (.v 0)),
    ([0xF807F82F], .cpLin (.v 1)),
    ([0xF80BF83F], .cpGather (.v 2)),
    ([0xF80FF84F], .cpScatter (.v 3)),
    ([0xF9E3F85F], .cpFill (.q 0)),
    ([0xF813F86F], .cpSig (.v 4)),
    ([0xF814307F], .cpStat (.v 5) (.v 6)),
    ([0xF9F3F90F], .mxCfg .vz),
    ([0xF814311F], .mxPass (.v 5) (.v 6)),
    ([0xF817F92F], .mxPair (.v 5) .none),
    ([0x2017F93F], .mxBq (.v 16) (.v 5)),
    ([0xF817F94F], .mxLut (.v 5))] = true := by decide +kernel

/-- Words written from the layouts of R44 to R51 and the entries of R50, R51, R253, R254, R284, R320 to R330, R358. -/
theorem test_words_engines2 : decodesTo [
    ([0xF9F7F95F, 0x00000003], .mxFold (.lit [3])),
    ([0xF817F96F], .mxDrain (.v 5)),
    ([0xF817F97F], .mxClr (.v 5)),
    ([0xF817F98F], .acLd (.v 5)),
    ([0xF817F99F], .acSt (.v 5)),
    ([0xF81431AF], .mxStat (.v 5) (.v 6)),
    ([0x0E17F9BF], .mxDep (.v 5) (.v 7)),
    ([0xF814330F], .pRsv (.v 5) (.v 6)),
    ([0x0E17FB1F], .pPub (.v 5) (.v 7)),
    ([0xF814332F], .pAcq (.v 5) (.v 6)),
    ([0x120FFB3F], .pRel (.v 3) (.v 9)),
    ([0xF814334F], .pOcc (.v 5) (.v 6)),
    ([0xF873FB5F], .pBind (.v 28))] = true := by decide +kernel

/-- Words written from the layouts of R44 to R51 and the entries of R50, R51, R253, R254, R284, R320 to R330, R358. -/
theorem test_words_engines3 : decodesTo [
    ([0xF823FC0F], .rsInit (.v 8)),
    ([0xF814341F], .rsNext (.v 5) (.v 6)),
    ([0x0E20342F], .tSpawn (.v 8) (.v 7) (.v 6)),
    ([0xF817FC3F], .tDec (.v 5)),
    ([0xF9F0644F], .tPop (.v 12)),
    ([0xF810345F], .launch (.v 4) (.v 6)),
    ([0xF9F7FC6F, 0x00000001], .tCntWr (.lit [1]) .vz),
    ([0xF9F0646F], .tCntRd .vz (.v 12)),
    ([0xF823FD0F], .fxAdd (.v 8)),
    ([0xF853FD1F], .fxSig (.v 20)),
    ([0xF9F0D52F], .fxFence (.v 26)),
    ([0xF814353F], .fxStat (.v 5) (.v 6))] = true := by decide +kernel

/-! Hypotheses met: for each statement a concrete state and operands that meet all its hypotheses together. -/

/-- One user-mode fibre of context 0 in group slot 0 of core 0 inside its clause, with registers of its lane. -/
def bench (regs : NMap Word) (k : Fibre → Fibre) : State :=
  { State.modFibre (State.reset.withFetchWord 32 0) 0 k with cur := some 0, agenda := [], regs := regs }

/-- A state with core 0 changed. -/
def onCore (s : State) (k : Core → Core) : State := s.modCore 0 k

/-- Readable operands of one lane: window, pending registers and queues admit them, and these are the values. -/
theorem operands_of {s s1 : State} {fs : List Nat} {srcs : List (Nat × Src)} {dsts : List (Nat × Dst)} {vss : List (List (List Word))}
    (h1 : ∀ f ∈ fs, (∀ e ∈ srcs, e.2.inWin e.1 (s.fibre f).win = true) ∧ ∀ e ∈ dsts, e.2.inWin e.1 (s.fibre f).win = true)
    (h2 : ∀ f ∈ fs, (∀ e ∈ srcs, ∀ r ∈ e.2.phys e.1 (s.fibre f).base, r ∉ (s.fibre f).pend) ∧
      ∀ e ∈ dsts, ∀ r ∈ e.2.phys e.1 (s.fibre f).base, r ∉ (s.fibre f).pend)
    (h3 : s.readSrcs fs srcs = .ok (s1, vss)) : s.Operands fs srcs dsts s1 (lanesFrom fs vss) := ⟨h1, h2, vss, h3, rfl⟩

/-- What a computation that is granted answers. -/
theorem granted {ε α : Type} : ∀ {x : Except ε α}, x.isOk = true → ∃ t, x = .ok t
  | .ok t, _ => ⟨t, rfl⟩
/-- What a computation that is refused answers: nothing. -/
theorem denied {ε α : Type} : ∀ {x : Except ε α}, x.isOk = false → ¬ ∃ t, x = .ok t
  | .error _, _ => nofun

/-- IntegerArithmetic, ExtremesBitwiseAndShifts, BitFieldsCountsAndCompares, MovesAndPacking, FloatArithmetic, SelectAndScaledAdd and every statement on the datapath: a lane issues, its operands of one word are readable, in a register, vz, a literal and a team-uniform register, and the destination has room. -/
theorem witness_datapath : (bench [(1, 5), (2, 7)] id).Canon ∧ (bench [(1, 5), (2, 7)] id).Issues 0 [0] ∧
    (bench [(1, 5), (2, 7)] id).Operands [0] [(1, .v 1), (1, .v 2)] [(1, .v 119)] (bench [(1, 5), (2, 7)] id) (lanesFrom [0] [[[5]], [[7]]]) ∧
    (bench [(1, 5), (2, 7)] id).Operands [0] [(1, .vz), (1, .s 63)] [(1, .vz)] (bench [(1, 5), (2, 7)] id) (lanesFrom [0] [[[0]], [[0]]]) ∧
    (bench [(1, 5), (2, 7)] id).Operands [0] [(1, .v 0), (1, .lit [9]), (1, .v 119)] [(1, .v 119)] (bench [(1, 5), (2, 7)] id) (lanesFrom [0] [[[0]], [[9]], [[0]]]) ∧
    (bench [(1, 5), (2, 7)] id).Room 0 [0] (some (.v 119)) 1 :=
  ⟨by decide +kernel, by decide +kernel, operands_of (by decide +kernel) (by decide +kernel) (by decide +kernel), operands_of (by decide +kernel) (by decide +kernel) (by decide +kernel),
    operands_of (by decide +kernel) (by decide +kernel) (by decide +kernel), trivial⟩

/-- The same statements in their forms of pairs and quads. -/
theorem witness_datapath_wide : (bench [(2, 5), (3, 1)] id).Canon ∧ (bench [(2, 5), (3, 1)] id).Issues 0 [0] ∧
    (bench [(2, 5), (3, 1)] id).Operands [0] [(2, .v 2), (2, .v 118)] [(2, .v 118)] (bench [(2, 5), (3, 1)] id) (lanesFrom [0] [[[5, 1]], [[0, 0]]]) ∧
    (bench [(2, 5), (3, 1)] id).Operands [0] [(4, .v 0)] [(4, .v 116)] (bench [(2, 5), (3, 1)] id) (lanesFrom [0] [[[0, 0, 5, 1]]]) :=
  ⟨by decide +kernel, by decide +kernel, operands_of (by decide +kernel) (by decide +kernel) (by decide +kernel), operands_of (by decide +kernel) (by decide +kernel) (by decide +kernel)⟩

/-- A queue with one word at its head. -/
def queued : State := onCore (bench [] id) fun c => { c with queues := [(popIdx 0 0, ([[9]], 0))], pool := [(instQreg (popIdx 0 0), 1)] }
/-- The state after the sources are read. -/
def after (s : State) (srcs : List (Nat × Src)) : State := match s.readSrcs [0] srcs with | .ok (t, _) => t | .error _ => s
/-- The same statements with a queue: one word stands in the popped queue, and the pushed queue has room. -/
theorem witness_datapath_queues : queued.Canon ∧ queued.Issues 0 [0] ∧
    queued.Operands [0] [(1, .q 0)] [(1, .q 1)] (after queued [(1, .q 0)]) (lanesFrom [0] [[[9]]]) ∧ (after queued [(1, .q 0)]).Room 0 [0] (some (.q 1)) 1 :=
  ⟨by decide +kernel, by decide +kernel, operands_of (by decide +kernel) (by decide +kernel) (by decide +kernel), granted (by decide +kernel)⟩

/-- PredicatesAndUniforms, FloatConversionsAndFunctions, CrossLaneAndQuadOperations: two lanes of different home lanes in one group. -/
def pair : State :=
  let s := bench [(1, 5), (512 + 1, 7)] id
  { s with fibres := [(0, { s.fibre 0 with preds := 2 }), (8, s.fibre 0)], groups := [(0, { s.group 0 with members := [0, 8] })],
           teams := [(0, { s.team 0 with slots := [0, 8] })] }
theorem witness_lanes : pair.Canon ∧ pair.Issues 0 [0, 8] ∧
    pair.Operands [0, 8] [(1, .v 1), (1, .v 2)] [(1, .v 3)] pair (lanesFrom [0, 8] [[[5], [7]], [[0], [0]]]) ∧
    pair.Operands [0, 8] [(2, .v 0)] [(2, .v 4)] pair (lanesFrom [0, 8] [[[0, 5], [0, 7]]]) :=
  ⟨by decide +kernel, by decide +kernel, operands_of (by decide +kernel) (by decide +kernel) (by decide +kernel), operands_of (by decide +kernel) (by decide +kernel) (by decide +kernel)⟩

/-- RoundingLaws: one of FP32, held by the format; a third, rounded; and the first power of two past FP16. -/
theorem witness_RoundingLaws : fp32 ∈ [fp16, bf16, fp32, fp64] ∧ 0x3F800000 < 2 ^ fp32.width ∧ fp32.read 0x3F800000 = .fin false (2 ^ 23) (-23) ∧
    (fp16.round .rdn false 4097 0).2 % 2 = 1 ∧ (fp16.read (fp16.round .rne false 1 16).1 = .inf false) ∧ (fp16.round .rne false 1 16).2 % 2 = 1 := by and_intros <;> decide +kernel

/-- BranchesCallsAndReturns: an aligned target, windows that stay in the file, a return address on the frame. -/
theorem witness_BranchesCallsAndReturns : let s := bench [(2, 0x100), (6, 0x200)] fun x => { x with base := 8, win := 64 }
    s.Canon ∧ s.Issues 0 [0] ∧ s.Operands [0] [(2, .v 2)] [] s (lanesFrom [0] [[[0, 0]]]) ∧
    (∀ f ∈ [0], (laneFor (lanesFrom [0] [[[0, 0]]]) f).n 0 % 4 = 0) ∧
    (∀ f ∈ [0], (s.fibre f).base + 8 * 15 + (s.fibre f).win ≤ 512 ∧ (s.fibre f).base + 8 * 15 - 2 ∉ (s.fibre f).pend ∧ (s.fibre f).base + 8 * 15 - 1 ∉ (s.fibre f).pend) ∧
    8 * 1 ≤ (s.fibre 0).base ∧ ((s.view 0 6).toNat + 2 ^ 32 * (s.view 0 7).toNat) % 4 = 0 ∧ 6 ∉ (s.fibre 0).pend ∧ 7 ∉ (s.fibre 0).pend :=
  ⟨by decide +kernel, by decide +kernel, operands_of (by decide +kernel) (by decide +kernel) (by decide +kernel), by decide +kernel, by decide +kernel, by decide +kernel, by decide +kernel, by decide +kernel, by decide +kernel⟩

/-- LoopsAndBackEdges: counts 0 and 3, a step and a bound, an end past the clause, a stack with one entry, a lane that breaks. -/
theorem witness_LoopsAndBackEdges : let s := bench [(2, 3), (3, 1)] fun x => { x with loops := [.count 0x200000 0x200040 2] }
    s.Canon ∧ s.Issues 0 [0] ∧ s.Operands [0] [(1, .v 2)] [] s (lanesFrom [0] [[[3]]]) ∧ s.Operands [0] [(1, .v 1)] [] s (lanesFrom [0] [[[0]]]) ∧
    s.Operands [0] [(1, .v 2), (1, .v 3), (1, .v 4)] [] s (lanesFrom [0] [[[3]], [[1]], [[0]]]) ∧
    (1 : Nat) ≠ 0 ∧ 3 + (s.fibre 0).hdr % 16 ≤ 24 ∧ (s.fibre 0).loops.length < 4 ∧ (s.fibre 0).pred 0 = true ∧ (s.fibre 0).loops ≠ [] :=
  ⟨by decide +kernel, by decide +kernel, operands_of (by decide +kernel) (by decide +kernel) (by decide +kernel), operands_of (by decide +kernel) (by decide +kernel) (by decide +kernel),
    operands_of (by decide +kernel) (by decide +kernel) (by decide +kernel), by decide +kernel, by decide +kernel, by decide +kernel, by decide +kernel, by decide +kernel⟩

/-- WindowsGuardsClocksAndClasses: a base that keeps the window in the file, and counters that user mode may read. -/
theorem witness_WindowsGuardsClocksAndClasses : let s := onCore (bench [(1, 392)] id) fun c => { c with perfctl := 1 }
    s.Canon ∧ s.Issues 0 [0] ∧ s.Operands [0] [(1, .v 1)] [] s (lanesFrom [0] [[[392]]]) ∧
    (∀ f ∈ [0], (laneFor (lanesFrom [0] [[[392]]]) f).n 0 % 8 = 0 ∧ (laneFor (lanesFrom [0] [[[392]]]) f).n 0 + (s.fibre f).win ≤ 512) ∧
    (s.core 0).perfctl.toNat % 2 = 1 :=
  ⟨by decide +kernel, by decide +kernel, operands_of (by decide +kernel) (by decide +kernel) (by decide +kernel), by decide +kernel, by decide +kernel⟩

/-- A core whose copy engine and queues are empty stays so wherever no core is listed. -/
theorem idle_engines (c : Nat) : let y := State.core (bench [] id) c
    y.copy.queue = [] ∧ y.pipeq = [] ∧ y.fabq = [] ∧ y.statq = [] := by
  by_cases h : c = 0
  · subst h; decide +kernel
  · have e : NMap.find (bench [] id).cores c = none := by
      rw [show (bench [] id).cores = [(0, (bench [] id).core 0)] by decide +kernel]
      simp only [NMap.find]; split_ifs <;> rfl
    simp [State.core, NMap.get, e, Core.init]

/-- ForkAndExit: a team with a FREE slot on the lane; two fibres of a team of which the first exits, is waited for, and commits. -/
theorem witness_ForkAndExit : let s := bench [] fun x => { x with win := 64 }
    let t := { s with teams := [(0, { s.team 0 with slots := [0, 1] })] }
    let u := { t with fibres := [(0, s.fibre 0), (1, s.fibre 0)] }
    let v := { t with fibres := [(0, { s.fibre 0 with wait := some .exit }), (1, s.fibre 0)] }
    t.Canon ∧ t.Issues 0 [0] ∧ t.Operands [0] [(2, .v 2)] [] t (lanesFrom [0] [[[0, 0]]]) ∧ (t.fibre 0).base + 8 * 15 + (t.fibre 0).win ≤ 512 ∧ t.freeSlot 0 = some 1 ∧
    u.Sorted ∧ u.Issues 0 [0] ∧ (u.fibre 0).wait ≠ some .exit ∧ (∀ n ∈ (u.fibre 0).flags, n = 0) ∧ (∀ e ∈ u.ops, e.2.fibre ≠ 0) ∧ u.coreRuns (coreOf 0) = true ∧
    (1 ∉ [0] ∧ (NMap.find u.fibres 1).any fun y => y.team == (u.fibre 0).team) ∧
    v.Sorted ∧ (v.fibre 0).wait = some .exit ∧ (∀ n ∈ (v.fibre 0).flags, n = 0) ∧ (∀ e ∈ v.ops, e.2.fibre ≠ 0) ∧ v.coreRuns (coreOf 0) = true ∧ (v.fibre 1).team = (v.fibre 0).team :=
  ⟨by decide +kernel, by decide +kernel, operands_of (by decide +kernel) (by decide +kernel) (by decide +kernel), by decide +kernel, by decide +kernel, by decide +kernel,
    by decide +kernel, by decide +kernel, by decide +kernel, by decide +kernel, by decide +kernel, by decide +kernel, by decide +kernel, by decide +kernel, by decide +kernel, by decide +kernel,
    by decide +kernel, by decide +kernel⟩

/-- A lane whose p1 holds, in user mode with a handler window size. -/
def trapping : State := bench [] fun x => { x with preds := 2 }
def waiting : TrapInfo := { cls := 1, pos := 1, kind := 0, info := 0, addr := none, npos := 2 }
/-- A lane that waits for its handler window, and one with a SUMP_FULL to take. -/
def trapPending : State := bench [] fun x => { x with wait := some (.handlerWindow waiting) }
def sumpPending : State := bench [] fun x => { x with sump := [4] }
/-- A lane in handler mode that holds its window. -/
def handling : State :=
  { bench [] (fun x => { x with mode := .handler, base := 480, win := 32 }) with hwins := [(0, { holder := 0, tpc := 0x1000, tcause := 0x00050101, taddr := 0, tbase := 8, tpred := 2, loops := [], win := 64, npos := 2, sump := false })] }

/-- Traps: a lane with its handler window free, on which p1 holds and p2 does not; a lane in handler mode; one without a handler window size; a delivered trap; a SUMP_FULL; a leased stage. -/
theorem witness_Traps : trapping.Canon ∧ trapping.Issues 0 [0] ∧ (trapping.fibre 0).mode = .user ∧ trapping.hws 0 ≠ 0 ∧ NMap.find trapping.hwins (hlOf 0) = none ∧
    (trapping.fibre 0).pred 1 = true ∧ (trapping.fibre 0).pred 2 = false ∧ handling.Issues 0 [0] ∧ (handling.fibre 0).mode = .handler ∧
    (trapping.modCtx 0 fun c => { c with hctl := 0 }).hws 0 = 0 ∧ trapPending.Canon ∧ (trapPending.fibre 0).wait = some (.handlerWindow waiting) ∧ trapPending.windowFree 0 = true ∧
    sumpPending.Canon ∧ (sumpPending.fibre 0).sump = [4] ∧ (sumpPending.fibre 0).wait = none ∧ (sumpPending.fibre 0).pos ≠ arriving ∧ sumpPending.hws 0 ≠ 0 ∧
    sumpPending.windowFree 0 = true ∧ trapping.stage? 0 0 = some placedStage ∧ ∀ r ∈ placedStage.leases, r.2 ≠ 0 → trapping.rangeResident 0 r = true := by and_intros <;> decide +kernel

/-- ReturnFromHandler and TranslationsDropped: a lane in handler mode whose window is its own, with a return address that is aligned and a position for `eret.skip`. -/
theorem witness_ReturnFromHandler : handling.Canon ∧ handling.Issues 0 [0] ∧ (∀ f ∈ [0], (handling.fibre f).mode = .handler ∧ (handling.fibre f).wait = none) ∧
    ((NMap.find handling.hwins (hlOf 0)).any fun w => w.tpc % 4 == 0 && w.tcause.toNat / 2 ^ 8 % 16 != 0) = true := by and_intros <;> decide +kernel

/-- PrivilegedInstructions: a lane in user mode, a register from 0x400 on, UEN 0. -/
theorem witness_PrivilegedInstructions : trapping.Issues 0 [0] ∧ (∀ f ∈ [0], (trapping.fibre f).mode = .user) ∧ 0x400 ≤ (0x400 : BitVec 11).toNat ∧
    (trapping.core 0).perfctl.toNat % 2 = 0 := by and_intros <;> decide +kernel

/-- SpecialRegisterReads: the last register user mode reads, and the first of handler mode in handler mode. -/
theorem witness_SpecialRegisterReads : trapping.Canon ∧ trapping.Issues 0 [0] ∧ (0x3FF : BitVec 11).toNat < 0x400 ∧ handling.Canon ∧ handling.Issues 0 [0] ∧
    ∃ f ∈ [0], (handling.fibre f).mode = .handler := by and_intros <;> decide +kernel

/-- SpecialRegisterWrites: a value of SPALLOC that no row refuses, in handler mode, with the context, team and window there. -/
theorem witness_SpecialRegisterWrites : handling.Canon ∧ handling.Issues 0 [0] ∧ csrWritable 0x40A = true ∧ (∃ f ∈ [0], (handling.fibre f).mode = .handler) ∧
    handling.Operands [0] [(csrWords 0x40A, .lit [0x100])] [] handling (lanesFrom [0] [[[0x100]]]) ∧
    (∀ f ∈ [0], handling.csrBad 0x40A (coreOf f) ((laneFor (lanesFrom [0] [[[0x100]]]) f).n 0) = false) ∧ csrWritable 0 = true ∧ handling.csrBad 0 0 0x100 = false ∧
    (NMap.find handling.hwins (hlOf 0)).isSome ∧ (NMap.find handling.ctxs (handling.ctxOf 0)).isSome ∧ (NMap.find handling.teams 0).isSome ∧
    (handling.core 0).perfsel.length = 8 ∧ (handling.core 0).poolcfg.length = 7 ∧ (handling.core 0).starved = [] :=
  ⟨by decide +kernel, by decide +kernel, by decide +kernel, by decide +kernel, operands_of (by decide +kernel) (by decide +kernel) (by decide +kernel), by decide +kernel, by decide +kernel, by decide +kernel,
    by decide +kernel, by decide +kernel, by decide +kernel, by decide +kernel, by decide +kernel, by decide +kernel⟩

/-- A lane whose team has 64 KiB of scratchpad and 8 tiles, with values in v1 to v7. -/
def spadBench (v1 v2 v3 : Word) : State :=
  let s := bench [(1, v1), (2, v2), (3, v3)] id
  { s with regs := s.regs.filter (fun e => e.2 != 0), teams := [(0, { s.team 0 with spalloc := 0x1000, acalloc := 0x800 })] }

/-- ScratchpadAccess: the last aligned word of the allotment fits, the word past it does not, and nothing holds the instruction. -/
theorem witness_ScratchpadAccess : (spadBench 0 0xFFFC 7).Canon ∧ (spadBench 0 0xFFFC 7).Issues 0 [0] ∧
    (spadBench 0 0xFFFC 7).Operands [0] [(1, .v 1), (1, .v 2)] [(1, .v 3)] (spadBench 0 0xFFFC 7) (lanesFrom [0] [[[0]], [[0xFFFC]]]) ∧
    (spadBench 0 0xFFFC 7).Operands [0] [(1, .v 1), (1, .v 2), (1, .v 3)] [] (spadBench 0 0xFFFC 7) (lanesFrom [0] [[[0]], [[0xFFFC]], [[7]]]) ∧
    (spadBench 0 0xFFFC 7).Operands [0] [(1, .v 1), (1, .v 2), (1, .v 3)] [(1, .v 3)] (spadBench 0 0xFFFC 7) (lanesFrom [0] [[[0]], [[0xFFFC]], [[7]]]) ∧
    spadOff 0 0xFFFC 0 + 4 = (spadBench 0 0xFFFC 7).spSize 0 ∧ spadOff 0 0xFFFC 0 % 4 = 0 ∧ ((spadBench 0 0xFFFC 7).spSize 0 : Int) < spadOff 0 0x10000 0 + 4 ∧
    (spadBench 0 0xFFFC 7).spadFree 0 [0] = true ∧ (spadBench 0 0xFFFC 7).spadBad 0 0xFFFC 4 = false ∧
    (∀ st : Bool, (spadBench 0 0xFFFC 7).Ready (spadBench 0 0xFFFC 7) 0 [0] st []) :=
  ⟨by decide +kernel, by decide +kernel, operands_of (by decide +kernel) (by decide +kernel) (by decide +kernel), operands_of (by decide +kernel) (by decide +kernel) (by decide +kernel),
    operands_of (by decide +kernel) (by decide +kernel) (by decide +kernel), by decide +kernel, by decide +kernel, by decide +kernel, by decide +kernel, by decide +kernel,
    fun st => by cases st <;> exact ⟨by decide +kernel, by decide +kernel, granted (by decide +kernel)⟩⟩

/-- WaitOnScratchpad: the word reads 0, which is not 7 and is 0; a fibre that sleeps on its word. -/
theorem witness_WaitOnScratchpad : (spadBench 0 8 7).Canon ∧ (spadBench 0 8 7).Issues 0 [0] ∧
    (spadBench 0 8 7).Operands [0] [(1, .v 1), (1, .v 2), (1, .v 3)] [(1, .v 3)] (spadBench 0 8 7) (lanesFrom [0] [[[0]], [[8]], [[7]]]) ∧
    (spadBench 0 8 0).Operands [0] [(1, .v 1), (1, .v 2), (1, .v 3)] [(1, .v 3)] (spadBench 0 8 0) (lanesFrom [0] [[[0]], [[8]], [[0]]]) ∧
    (spadBench 0 8 7).allReady [0] false = true ∧ (spadBench 0 8 7).spadFree 0 [0] = true ∧ (spadBench 0 8 7).spadBad 0 8 4 = false ∧ (spadBench 0 8 7).spadNum 0 8 4 ≠ 7 ∧ (spadBench 0 8 0).spadNum 0 8 4 = 0 ∧ ((spadBench 0 8 7).fibre 0).wait = none ∧
    (spadBench 0 8 7).groupOf 0 = some 0 ∧ (((spadBench 0 8 7).modFibre 0 fun x => { x with wait := some (.waitaddr 8) }).fibre 0).wait = some (.waitaddr 8) :=
  ⟨by decide +kernel, by decide +kernel, operands_of (by decide +kernel) (by decide +kernel) (by decide +kernel), operands_of (by decide +kernel) (by decide +kernel) (by decide +kernel),
    by decide +kernel, by decide +kernel, by decide +kernel, by decide +kernel, by decide +kernel, by decide +kernel, by decide +kernel, by decide +kernel⟩

/-- A page of data held by the lane's last-page register: reading and writing in user mode. -/
def dataPage : PageEntry := { ctx := 0, va := 0x200000, size := 0x200000, loc := ⟨false, 0x400000⟩, x := false, w := true, rd := true, us := true, home := 0 }
/-- A lane with an address in v2 and v3, an offset in v4 and data in v5, whose page is cached. -/
def memBench (a o : Word) : State :=
  let s := bench [(2, a), (4, o), (5, 7)] id
  { s with regs := s.regs.filter (fun e => e.2 != 0), lprs := [(0, dataPage)] }
/-- The reads of a memory instruction of one word. -/
def memReads (a o : Word) : List Lane := lanesFrom [0] [[[a, 0]], [[o]]]
def memStores (a o : Word) : List Lane := lanesFrom [0] [[[a, 0]], [[o]], [[7]]]

/-- MemoryLoads: an aligned word of the last line of the page, and a misaligned word; nothing holds them, in a state whose L1 holds nothing. -/
theorem witness_MemoryLoads : (memBench 0x3FFFC0 60).Canon ∧ (memBench 0x3FFFC0 60).Issues 0 [0] ∧ [0].head? = some 0 ∧
    (memBench 0x3FFFC0 60).Operands [0] [(2, .v 2), (1, .v 4)] [(1, .v 6)] (memBench 0x3FFFC0 60) (memReads 0x3FFFC0 60) ∧
    ((memBench 0x3FFFC0 60).route 0 (addrOf 0x3FFFC0 60 0) 4 .read).reaches = true ∧
    (∀ far : Bool, (memBench 0x3FFFC0 60).readWaits 0 0 far 4 ((memBench 0x3FFFC0 60).route 0 (addrOf 0x3FFFC0 60 0) 4 .read) = false) ∧
    (memBench 0x3FFFC0 60).route 0 (addrOf 0x3FFFC0 61 0) 4 .read = .trap (Cond.offset clsMisaligned .read) ∧
    (memBench 0x3FFFC0 60).Ready (memBench 0x3FFFC0 60) 0 [0] false [(instLdret 0, entriesFor [0] 4)] ∧
    (memBench 0x3FFFC0 60).Ready (memBench 0x3FFFC0 60) 0 [0] false [(instLdret 0, 1)] :=
  ⟨by decide +kernel, by decide +kernel, rfl, operands_of (by decide +kernel) (by decide +kernel) (by decide +kernel), by decide +kernel, by decide +kernel, by decide +kernel,
    ⟨by decide +kernel, by decide +kernel, granted (by decide +kernel)⟩, ⟨by decide +kernel, by decide +kernel, granted (by decide +kernel)⟩⟩

/-- MemoryStores: a word, and an atomic of a word, at the page's last place. -/
theorem witness_MemoryStores : (memBench 0x3FFFC0 60).Canon ∧ (memBench 0x3FFFC0 60).Issues 0 [0] ∧
    (memBench 0x3FFFC0 60).Operands [0] [(2, .v 2), (1, .v 4), (1, .v 5)] [] (memBench 0x3FFFC0 60) (memStores 0x3FFFC0 60) ∧
    (memBench 0x3FFFC0 60).Operands [0] [(2, .v 2), (1, .v 4), (1, .v 5)] [(1, .v 5)] (memBench 0x3FFFC0 60) (memStores 0x3FFFC0 60) ∧
    (∀ k ∈ [AccKind.write, .atomic], ((memBench 0x3FFFC0 60).route 0 (addrOf 0x3FFFC0 60 0) 4 k).reaches = true) ∧
    (memBench 0x3FFFC0 60).txWindow ((memBench 0x3FFFC0 60).partOf 0) (addrOf 0x3FFFC0 60 0) = none ∧
    ((memBench 0x3FFFC0 60).core 0).wcb.length + 1 ≤ wcCapacity ∧
    (memBench 0x3FFFC0 60).Ready (memBench 0x3FFFC0 60) 0 [0] true [(instStore 0, entriesFor [0] 4), (instLdret 0, entriesFor [0] 4)] ∧
    (memBench 0x3FFFC0 60).Ready (memBench 0x3FFFC0 60) 0 [0] true [(instStore 0, entriesFor [0] 4)] :=
  ⟨by decide +kernel, by decide +kernel, operands_of (by decide +kernel) (by decide +kernel) (by decide +kernel), operands_of (by decide +kernel) (by decide +kernel) (by decide +kernel),
    by decide +kernel, by decide +kernel, by decide +kernel, ⟨by decide +kernel, by decide +kernel, granted (by decide +kernel)⟩, ⟨by decide +kernel, by decide +kernel, granted (by decide +kernel)⟩⟩

/-- A lane whose fence waits for nothing more, and a flush whose write-backs are over. -/
def fencing (wide : Bool) : State := bench [] fun x => { x with wait := some .fence, fence := some { waits := [], wide := wide, flush := some [] } }
/-- An operation of fibre 0 that gives v6 its word. -/
def anOp : Op :=
  { fibre := 0, hand := false, flag := some 0, holds := [], dst := .regs [6], marks := [6], value := some [9], left := 0, acc := none, isMem := true, isLoad := true,
    isStore := false, acquire := false, release := false, prefetch := false, rel := none, todo := none, peers := [], poisoned := none, tag := none, at_ := (0, 0) }
/-- A state in which it is outstanding. -/
def opBench (o : Op) : State := { bench [] (fun x => { x with pend := [6], flags := x.flags.set 0 1 }) with ops := [(4, o)], nextId := 5 }
/-- In the bench no request carries bytes, and the L1 holds none. -/
theorem carriers_known : (memBench 0x200000 0).CarriersKnown := by
  refine ⟨by decide +kernel, fun c b hb => ?_⟩
  have e : ((memBench 0x200000 0).core c).l1 = [] := by
    by_cases h : c = 0
    · subst h; decide +kernel
    · have e : NMap.find (memBench 0x200000 0).cores c = none := by
        rw [show (memBench 0x200000 0).cores = [(0, (memBench 0x200000 0).core 0)] by decide +kernel]
        simp only [NMap.find]; split_ifs <;> rfl
      unfold State.core NMap.get
      rw [e]; rfl
  rw [e] at hb
  exact absurd hb List.not_mem_nil

/-- FencesFlushesAndPrefetches: a lane that waits for nothing and one with an instruction outstanding, a fence of each width whose work is over, a flush and a prefetch with their entry. -/
theorem witness_FencesFlushesAndPrefetches : (memBench 0x200000 0).Canon ∧ (memBench 0x200000 0).Issues 0 [0] ∧ ((memBench 0x200000 0).fibre 0).wait = none ∧
    (memBench 0x200000 0).memOps 0 = [] ∧ (memBench 0x200000 0).fenceTime 0 0 ≤ (memBench 0x200000 0).horizon ∧ (∀ b ∈ ((memBench 0x200000 0).core 0).l1, b.isDirty = false) ∧
    (∀ e ∈ (memBench 0x200000 0).reqs, e.2.core = 0 → e.2.isWrite = false) ∧ (opBench anOp).Canon ∧ (opBench anOp).Issues 0 [0] ∧ ((opBench anOp).fibre 0).wait = none ∧ (opBench anOp).memOps 0 ≠ [] ∧
    (∀ w : Bool, (fencing w).Canon ∧ ((fencing w).fibre 0).wait = some .fence ∧ (fencing w).groupOf 0 = some 0 ∧ (fencing w).fenceTime 0 0 ≤ (fencing w).horizon ∧
      (fencing w).writesOpen 0 0 = false ∧ ∀ h ∈ ((fencing w).group 0).members, h = 0) ∧
    coreOf 0 = 0 / 64 ∧ (memBench 0x200000 0).CarriersKnown ∧ (memBench 0x200000 0).Operands [0] [(2, .v 2), (1, .v 4)] [] (memBench 0x200000 0) (memReads 0x200000 0) ∧ addrOf 0x200000 0 0 % 4 = 0 ∧
    (∀ st : Bool, (memBench 0x200000 0).Ready (memBench 0x200000 0) 0 [0] st [(instStore 0, 1)]) :=
  ⟨by decide +kernel, by decide +kernel, by decide +kernel, by decide +kernel, by decide +kernel, by decide +kernel, by decide +kernel, by decide +kernel, by decide +kernel, by decide +kernel, by decide +kernel,
    fun w => by cases w <;> and_intros <;> decide +kernel, rfl, carriers_known,
    operands_of (by decide +kernel) (by decide +kernel) (by decide +kernel), by decide +kernel,
    fun st => by cases st <;> exact ⟨by decide +kernel, by decide +kernel, granted (by decide +kernel)⟩⟩

/-- TranslationsDropped: an address pair in handler mode, and a context that drops translations and waits for no access. -/
theorem witness_TranslationsDropped : handling.Canon ∧ handling.Issues 0 [0] ∧ (∀ f ∈ [0], (handling.fibre f).mode = .handler ∧ (handling.fibre f).wait = none) ∧
    handling.Operands [0] [(2, .v 2)] [] handling (lanesFrom [0] [[[0, 0]]]) ∧ handling.ops = [] ∧ handling.reqs = [] ∧
    ((handling.modCtx 0 fun c => { c with dropping := true }).ctx? 0).any (fun c => c.dropping && c.dropOp.isEmpty) = true :=
  ⟨by decide +kernel, by decide +kernel, by decide +kernel, operands_of (by decide +kernel) (by decide +kernel) (by decide +kernel), by decide +kernel, by decide +kernel, by decide +kernel⟩

/-- A lane at a team barrier of unit 0: before its arrival, with its fence work done, and with its arrival recorded. -/
def barBench (k : Fibre → Fibre) (phase : Bool) (arr : List Nat) : State :=
  onCore { bench [] k with teams := [(0, { (bench [] k).team 0 with units := [(3, 0)] })] } fun c => { c with units := [(0, (0, phase, arr))] }
def arrived : Fibre → Fibre := fun x => { x with bars := [(x.pc, x.pos, 3, false)] }
def atBar : Fibre → Fibre := fun x => { x with wait := some .barrier }
/-- A message that has reached its instance of the die, and the instance. -/
def dieBar : State :=
  { barBench id false [] with nextId := 1, bmsgs := [(0, { level := .die, id := 0, stage := 0, die := 0, step := .die, teams := [0], at_ := 0, there := true })],
                              sbars := [{ level := .die, id := 0, part := 0, die := 0, stage := 0, phase := false, points := [0], top := 0, arrived := [], sent := [0], inCluster := [], reported := [], counted := [0], diesSent := [], dies := [], late := [] }] }

/-- Barriers: each state of a lane at a team barrier, a RESIDENT stage and another, a message, an instance that everything has reached. -/
theorem witness_Barriers : (barBench id false []).Canon ∧ (barBench id false []).Issues 0 [0] ∧ ((barBench id false []).fibre 0).barEntry .team 3 = none ∧
    ((barBench id false []).barNow 0 .team 3).2 = false ∧ ((barBench id false []).fibre 0).wait = none ∧ (barBench atBar false []).Canon ∧ (barBench atBar false []).Issues 0 [0] ∧
    ((barBench atBar false []).fibre 0).wait = some .barrier ∧ ((barBench atBar false []).fibre 0).fence = none ∧ ((barBench atBar false []).fibre 0).barEntry .team 3 = none ∧
    NMap.find ((barBench atBar false []).team 0).units 3 = some 0 ∧ NMap.find ((barBench atBar false []).core 0).units 0 = some (0, false, []) ∧
    (barBench arrived true [0]).barOver .team 3 true 0 = true ∧ (barBench arrived false [0]).barOver .team 3 false 0 = true ∧
    (barBench id false []).teamResident 0 = false ∧ dieBar.Canon ∧ NMap.wf dieBar.bmsgs = true ∧ (NMap.find dieBar.bmsgs 0).any BarMsg.there ∧ 0 < dieBar.nextId ∧ (dieBar.sbars.all fun b => b.late.isEmpty && dieBar.barOpen b) = true ∧
    (barBench id false [0]).liveIn 0 = [0] ∧ (dieBar.sbars.any fun b => !b.sent.isEmpty) = true := by and_intros <;> decide +kernel

/-- OperationCompletes: an operation with its value, and one that met poison. -/
theorem witness_OperationCompletes : (opBench anOp).Canon ∧ NMap.find (opBench anOp).ops 4 = some anOp ∧ anOp.left = 0 ∧ anOp.poisoned = none ∧
    (opBench { anOp with poisoned := some 2 }).Canon ∧ NMap.find (opBench { anOp with poisoned := some 2 }).ops 4 = some { anOp with poisoned := some 2 } ∧
    (opBench { anOp with dst := .queue 0, marks := [] }).Canon ∧
    ((opBench { anOp with dst := .queue 0, marks := [] }).poolAsk (waiterOp 4) 0 [(instQreg 0, freshEntries (((opBench { anOp with dst := .queue 0, marks := [] }).core 0).queue 0) 1)]).isOk = true := by
  and_intros <;> decide +kernel

/-- A request of core 0 to line 2. -/
def aReq (k : ReqKind) (st : ReqStage) (line home : Nat) : Req :=
  { core := 0, line := line, home := home, kind := k, stage := st, ops := [4], fibres := [0], back := false, lat := false, low := false, ctx := 0, part := 0, begun := false, eng := none, via := 0, newer := [], mine := [], ahead := [], void := false, data := [], bad := [], fixed := false, results := [], comp := 0, settle := 0, refused := false }
def reqBench (q : Req) : State :=
  { opBench { anOp with left := 1, value := none, acc := some ⟨2, 0, 4⟩ } with reqs := [(1, q)], mesh := { Mesh.empty with remap := [(0, 0), (1, 1)] } }
def anItem : AtomicItem := { op := 4, off := 60, wide := false, fadd := false, sgn := false, atop := .add, operand := 1, expected := 0 }

/-- RequestsAtHome: a fill, a write and an atomic of the line's last word at their home, their answers at the core, and requests to a scratchpad. -/
theorem witness_RequestsAtHome : (∀ k ∈ [ReqKind.read 4 1 true, .write [(63, 1)], .atomic [anItem]], (reqBench (aReq k .home 2 1)).Canon ∧
      (reqBench (aReq k .home 2 1)).atHome 1 (aReq k .home 2 1) = true ∧ NMap.find (reqBench (aReq k .home 2 1)).reqs 1 = some (aReq k .home 2 1)) ∧
    (reqBench (aReq (.atomic [anItem]) .home 2 1)).poisonedIn 2 60 4 = false ∧ NMap.wf ([(63, 1)] : NMap Byte) = true ∧
    (∀ k ∈ [ReqKind.read 4 1 true, .write [(63, 1)]], (reqBench (aReq k .done 2 1)).Canon ∧ (aReq k .done 2 1).stage = .done ∧ (aReq k .done 2 1).ops = [4] ∧
      NMap.find (reqBench (aReq k .done 2 1)).reqs 1 = some (aReq k .done 2 1)) ∧
    (aReq (.write [(63, 1)]) .done 2 1).fibres = [0] ∧ (NMap.find (reqBench (aReq (.write [(63, 1)]) .done 2 1)).fibres 0).isSome = true ∧
    (aReq (.read 4 1 true) .done 2 1).eng = none ∧ (aReq (.read 4 1 true) .done 2 1).bad = [] ∧
    (NMap.find (reqBench (aReq (.read 4 1 true) .done 2 1)).ops 4).any (fun y => y.todo.isNone && y.acc.isSome && y.poisoned.isNone) = true ∧
    ∀ k ∈ [ReqKind.winRead 0 4, .winWrite [(63, 1)], .winAtomic [anItem]], (reqBench (aReq k .home (winLine 1 0) 1)).Canon ∧
      (reqBench (aReq k .home (winLine 1 0) 1)).winFirst 1 (aReq k .home (winLine 1 0) 1) = true ∧
      (reqBench (aReq k .home (winLine 1 0) 1)).remap? 0 1 = some 1 ∧ (1 : Nat) ≠ (aReq k .home (winLine 1 0) 1).core ∧
      (reqBench (aReq k .home (winLine 1 0) 1)).spadBad 1 60 4 = false := by and_intros <;> decide +kernel

/-- OperandChecks: the window's last register and the one past it, a pending register, a queue without words, a queue without room, waits that are over. -/
def full : State := onCore (bench [] id) fun c => { c with poolcfg := c.poolcfg.set 2 0 }
def pushWait : State := { queued with groups := [(0, { queued.group 0 with stall := some (.pop (popIdx 0 0) 1) })] }
def poolWait : State := { bench [] id with poolq := [{ core := 0, inst := instPipe, n := 1, who := 0 }] }
theorem witness_OperandChecks : (bench [] id).Canon ∧ (bench [] id).Issues 0 [0] ∧ Src.inWin 1 ((bench [] id).fibre 0).win (.v 120) = false ∧ Src.inWin 1 ((bench [] id).fibre 0).win (.v 119) = true ∧
    (∃ r ∈ Src.phys 1 0 (.v 6), r ∈ ((opBench anOp).fibre 0).pend) ∧ ((bench [] id).core 0).queueWords (popIdx 0 0) = [] ∧
    full.Canon ∧ full.Operands [0] [(1, .v 1), (1, .v 2)] [(1, .q 0)] full (lanesFrom [0] [[[0]], [[0]]]) ∧ ¬ full.Room 0 [0] (some (.q 0)) 1 ∧
    pushWait.Sorted ∧ pushWait.groupOf 0 = some 0 ∧ pushWait.queueOver 0 1 (.pop (popIdx 0 0) 1) = true ∧
    poolWait.Sorted ∧ (NMap.find poolWait.groups 0).isSome ∧ (pushWait.group 0).stall = some (.pop (popIdx 0 0) 1) ∧ (poolWait.core 0).admits instPipe 1 = true := by
  refine ⟨by decide +kernel, by decide +kernel, by decide +kernel, by decide +kernel, by decide +kernel, by decide +kernel, by decide +kernel,
    operands_of (by decide +kernel) (by decide +kernel) (by decide +kernel), ?_, by decide +kernel, by decide +kernel, by decide +kernel, by decide +kernel, by decide +kernel, by decide +kernel, by decide +kernel⟩
  exact denied (by decide +kernel)

/-- A lane at the start of its clause whose words stand in its executable page. -/
def clauseBench (flags : List Nat) (hdr : Nat) : State :=
  let s := (bench [] fun x => { x with status := .running, pos := 0, flags := flags }).setBytes ⟨false, 0x100000⟩ (Byte.split 4 hdr ++ Byte.split 4 0)
  { s with lprs := [(0, { dataPage with va := 0x100000, size := 4096, loc := ⟨false, 0x100000⟩, x := true })],
           cores := s.cores.map fun e => (e.1, { e.2 with tlb := [{ dataPage with va := 0x100000, size := 4096, loc := ⟨false, 0x100000⟩, x := true }] }) }
/-- What the fetch of its clause answers. -/
def fetched (s : State) : Option (Nat × List Loc) := match s.fetchClause 0 with | (_, .ok h code) => some (h, code) | _ => none
/-- A held group beside a READY fibre that finds no slot. -/
def crowdedBench : State :=
  let s := bench [] id
  { s with groups := (List.range 16).map fun k => (k, { members := [8 * k], stall := if k = 0 then some .fence else none, waited := 256, ready := 4096, starts := 4096, boosted := false }),
           fibres := (List.range 17).map fun k => (8 * k, { s.fibre 0 with status := if k < 16 then .running else .ready, pos := 0 }) }
/-- A group of two quads of which one is ready. -/
def halfReady : State :=
  let s := clauseBench (List.replicate 12 0) 0x00FF0011
  { s with groups := [(0, { members := [0, 32], stall := some .flags, waited := 64, ready := 0, starts := 0, boosted := false })],
           fibres := [(0, { s.fibre 0 with hdr := 0x00FF0011 }), (32, { s.fibre 0 with hdr := 0x00FF0011, flags := (List.replicate 12 0).set 0 1 })] }

/-- ClausesAndGroupSlots: a clause that starts, one that waits for f0, an illegal one, and the thresholds 256, 4096 and 64 reached. -/
theorem witness_ClausesAndGroupSlots : (clauseBench (List.replicate 12 0) 0x00FF0001).Canon ∧ (clauseBench (List.replicate 12 0) 0x00FF0001).mayIssue 0 = true ∧
    (clauseBench (List.replicate 12 0) 0x00FF0001).atBoundary 0 = true ∧ fetched (clauseBench (List.replicate 12 0) 0x00FF0001) = some (0x00FF0001, [⟨false, 0x100000⟩, ⟨false, 0x100004⟩]) ∧
    clauseLegal 0x00FF0001 [0] = true ∧ clauseLegal 0 [] = false ∧ ((clauseBench (List.replicate 12 0) 0x00FF0001).fibre 0).waitClear 0x00FF0001 = true ∧
    ((clauseBench ((List.replicate 12 0).set 0 1) 0x00FF0011).fibre 0).waitClear 0x00FF0011 = false ∧
    (∀ f ∈ ((clauseBench (List.replicate 12 0) 0x00FF0001).group 0).members, (clauseBench (List.replicate 12 0) 0x00FF0001).waitedTags f 0x00FF0001 = [] ∧ (NMap.find (clauseBench (List.replicate 12 0) 0x00FF0001).fibres f).isSome = true) ∧
    ((clauseBench (List.replicate 12 0) 0x00FF0001).group 0).starts < 4096 ∧ (clauseBench (List.replicate 12 0) 0x00FF0001).groups.length = 1 ∧ (clauseBench (List.replicate 12 0) 0x00FF0001).fibres.length = 1 ∧
    (byLane ((clauseBench (List.replicate 12 0) 0x00FF0001).group 0).members).head? = some 0 ∧
    crowdedBench.Canon ∧ crowdedBench.crowded 0 = true ∧ (crowdedBench.group 0).stall = some .fence ∧ Wait.fence.releases = true ∧ (∀ k < 16, (∀ f ∈ (crowdedBench.group k).members, (NMap.find crowdedBench.fibres f).isSome = true) ∧ (k ≠ 0 → 0 ∉ (crowdedBench.group k).members)) ∧ (crowdedBench.group 1).members ≠ [] ∧ 256 ≤ (crowdedBench.group 0).waited ∧
    4096 ≤ (crowdedBench.group 1).ready ∧ 4096 ≤ (crowdedBench.group 1).starts ∧ crowdedBench.atBoundary 1 = true ∧
    halfReady.Canon ∧ halfReady.mayIssue 0 = true ∧ halfReady.atBoundary 0 = true ∧ fetched halfReady = some (0x00FF0011, [⟨false, 0x100000⟩, ⟨false, 0x100004⟩]) ∧
    clauseLegal 0x00FF0011 [0] = true ∧ (halfReady.fibre 0).waitClear 0x00FF0011 = true ∧ (halfReady.fibre 32).waitClear 0x00FF0011 = false ∧
    (∀ f ∈ [0, 32], halfReady.waitedTags f 0x00FF0011 = [] ∧ (halfReady.fibre f).hdr = 0x00FF0011 ∧ (NMap.find halfReady.fibres f).isSome = true) ∧ (halfReady.group 0).stall = some .flags ∧ 64 ≤ (halfReady.group 0).waited ∧
    ([0, 32].map hlOf).Nodup ∧ (∀ f ∈ [0, 32], qcOf f = 0) ∧ byLane [0, 32] = [0, 32] ∧ halfReady.fibres.length = 2 ∧ halfReady.groups.length = 1 := by and_intros <;> decide +kernel

/-- CopyInstructions: a descriptor at the end of the allotment, nothing in the way; control 0, RESUME of a halted head, and a control value outside the rules. -/
def aCopy (fn : Nat) (started : Bool) (step : Nat) (halt : Option Nat := none) : CopyCmd :=
  { fn := fn, desc := [0x01400000, 0, 0, 0, 0, 0, 128, 0, 96, 0, 0, 0, 0, 0, 0, 0], team := 0, op := 4, guard := none, header := 0, started := started, step := step, held := none, put := 0,
    fault := none, comp := 0, ot := 0, rel := none, halt := halt, quit := false }
def copyBench (v : Word) (c : CopyCmd) : State :=
  { onCore (spadBench v 0 7) (fun k => { k with copy := { queue := [c], parked := none, done := 0 } }) with nextId := 5, ops := [(4, { anOp with dst := .none, marks := [], left := 1 })] }
theorem witness_CopyInstructions : (copyBench 0xFFC0 (aCopy 2 false 0)).Canon ∧ (copyBench 0xFFC0 (aCopy 2 false 0)).Issues 0 [0] ∧ coreOf 0 = 0 / 64 ∧
    (copyBench 0xFFC0 (aCopy 2 false 0)).Operands [0] [(1, .v 1)] [] (copyBench 0xFFC0 (aCopy 2 false 0)) (lanesFrom [0] [[[0xFFC0]]]) ∧
    0xFFC0 + 64 ≤ (copyBench 0xFFC0 (aCopy 2 false 0)).spSize 0 ∧ (copyBench 0xFFC0 (aCopy 2 false 0)).spadBad 0 0xFFC0 64 = false ∧ (copyBench 0xFFC0 (aCopy 2 false 0)).spadFree 0 [0] = true ∧ 0xFFC0 % 64 = 0 ∧
    (copyBench 0xFFC0 (aCopy 2 false 0)).Ready (copyBench 0xFFC0 (aCopy 2 false 0)) 0 [0] false [(instCopy, 1)] ∧
    (copyBench 1 (aCopy 2 false 0 (some 3))).Operands [0] [(1, .v 1)] [(1, .v 6)] (copyBench 1 (aCopy 2 false 0 (some 3))) (lanesFrom [0] [[[1]]]) ∧
    (copyBench 2 (aCopy 2 false 0)).Operands [0] [(1, .v 1)] [(1, .v 6)] (copyBench 2 (aCopy 2 false 0)) (lanesFrom [0] [[[2]]]) ∧
    (copyBench 1 (aCopy 2 false 0 (some 3))).flagStop [0] = none ∧ (copyBench 1 (aCopy 2 false 0 (some 3))).guardOf 0 = none ∧
    ((copyBench 1 (aCopy 2 false 0 (some 3))).core 0).copy.halt = some 3 ∧ ((copyBench 1 (aCopy 2 false 0 (some 3))).core 0).copy.queue = [aCopy 2 false 0 (some 3)] ∧ (4 : Nat) < 5 :=
  ⟨by decide +kernel, by decide +kernel, rfl, operands_of (by decide +kernel) (by decide +kernel) (by decide +kernel), by decide +kernel, by decide +kernel, by decide +kernel, by decide +kernel,
    ⟨by decide +kernel, by decide +kernel, granted (by decide +kernel)⟩, operands_of (by decide +kernel) (by decide +kernel) (by decide +kernel),
    operands_of (by decide +kernel) (by decide +kernel) (by decide +kernel), by decide +kernel, by decide +kernel, by decide +kernel, by decide +kernel, by decide +kernel⟩

/-- CopyEngine: a well-formed and an ill-formed head, a step of a linear copy and of a fill, a head whose steps are done. -/
theorem witness_CopyEngine : (∀ fn ∈ [2, 5], (copyBench 0 (aCopy fn false 0)).Canon ∧ (copyBench 0 (aCopy fn false 0)).copyNow 0 = some (aCopy fn false 0)) ∧
    (copyBench 0 (aCopy 2 false 0)).relPerformed none = true ∧ (copyBench 0 (aCopy 2 false 0)).copyReason 0 0 (aCopy 2 false 0).d = 0 ∧
    (copyBench 0 (aCopy 0 false 0)).copyReason 0 0 (aCopy 0 false 0).d ≠ 0 ∧ (aCopy 2 true 1).step < (aCopy 2 true 1).d.steps ∧ (aCopy 2 true 1).d.sk = 1 ∧ (aCopy 2 true 1).d.dk = 1 ∧
    (copyBench 0 (aCopy 2 true 1)).copyNow 0 = some (aCopy 2 true 1) ∧ (copyBench 0 (aCopy 2 true 1)).heldAct 0 5 = false ∧
    (aCopy 2 true 1).quit = false ∧ (copyBench 0 (aCopy 2 true 1)).spadBad 0 ((aCopy 2 true 1).d.src + ((aCopy 2 true 1).d.block 1).1) ((aCopy 2 true 1).d.block 1).2 = false ∧
    (copyBench 0 (aCopy 2 true 2)).copyNow 0 = some (aCopy 2 true 2) ∧ (copyBench 0 (aCopy 2 true 2)).engBusy 0 4 = false ∧ ((copyBench 0 (aCopy 2 true 2)).core 0).copy.queue = [aCopy 2 true 2] ∧ (aCopy 2 true 2).d.steps ≤ 2 ∧ (aCopy 2 true 2).d.releases = false := by and_intros <;> decide +kernel

/-- MatrixCommands: a block at the end of the allotment and tile 63, in user mode and in handler mode with HANDLERMX. -/
def handlingMx : State := (handling.modCtx 0 fun c => { c with hctl := 0x102 }).modTeam 0 fun t => { t with spalloc := 0x1000 }
/-- No tile of the bench is INVALID. -/
theorem tiles_valid (n : Nat) : (spadBench 0xFFE0 63 3).tileInvalid 0 n = none := by
  have h (t : Nat) : ((spadBench 0xFFE0 63 3).tile (coreOf 0) t).inv = false := by
    simp only [State.tile, show ((spadBench 0xFFE0 63 3).core (coreOf 0)).arr.tiles = [] by decide +kernel]; rfl
  unfold State.tileInvalid State.tileState
  simp only [h]
  split
  · split_ifs <;> first | rfl | omega
  · rfl

theorem witness_MatrixCommands : (spadBench 0xFFE0 63 3).Canon ∧ (spadBench 0xFFE0 63 3).Issues 0 [0] ∧ (spadBench 0xFFE0 63 3).handling 0 = false ∧
    handlingMx.Canon ∧ handlingMx.Issues 0 [0] ∧ handlingMx.handling 0 = true ∧ handlingMx.handlerMx 0 = true ∧
    (∀ n, (spadBench 0xFFE0 63 3).tileInvalid 0 n = none) ∧ (spadBench 0xFFE0 63 3).spadFree 0 [0] = true ∧ (spadBench 0xFFE0 63 3).spadBad 0 0xFFE0 32 = false ∧ (spadBench 0xFFE0 63 3).flagStop [0] = none ∧
    (∃ u, (spadBench 0xFFE0 63 3).poolAsk 0 0 [(instMxpost, 1)] = .ok u) ∧
    (spadBench 0xFFE0 63 3).Operands [0] [(1, .v 1)] [] (spadBench 0xFFE0 63 3) (lanesFrom [0] [[[0xFFE0]]]) ∧
    (spadBench 0xFFE0 63 3).Operands [0] [(1, .v 1)] [(1, .v 6)] (spadBench 0xFFE0 63 3) (lanesFrom [0] [[[0xFFE0]]]) ∧
    0xFFE0 + 32 ≤ (spadBench 0xFFE0 63 3).spSize 0 ∧ 0xFFE0 % 32 = 0 ∧ (spadBench 0xFFE0 63 3).Ready (spadBench 0xFFE0 63 3) 0 [0] false [(instMxpost, 1)] ∧
    (spadBench 0xFFE0 63 3).Operands [0] [(1, .v 2), (1, .v 3)] [] (spadBench 0xFFE0 63 3) (lanesFrom [0] [[[63]], [[3]]]) :=
  ⟨by decide +kernel, by decide +kernel, by decide +kernel, by decide +kernel, by decide +kernel, by decide +kernel, by decide +kernel, tiles_valid, by decide +kernel, by decide +kernel, by decide +kernel, granted (by decide +kernel),
    operands_of (by decide +kernel) (by decide +kernel) (by decide +kernel), operands_of (by decide +kernel) (by decide +kernel) (by decide +kernel), by decide +kernel, by decide +kernel,
    ⟨by decide +kernel, by decide +kernel, granted (by decide +kernel)⟩, operands_of (by decide +kernel) (by decide +kernel) (by decide +kernel)⟩

/-- A matrix command of fibre 0, and a state with the team's queue. -/
def aMx (fn : Nat) (block : List Word) (ctl : Nat) (waiting : Bool) : MxCmd :=
  { fn := fn, block := block, ctl := ctl, arg := 0, ops := [4], fibre := 0, guard := none, header := 0, waiting := waiting, asked := none, rel := none }
def mxBench (q : MxQueue) : State :=
  { spadBench 0 2 3 with mxq := [(0, q)], nextId := 5, ops := [(4, { anOp with dst := .none, marks := [], left := 1 })] }
def mxQueueOf (cmds : List MxCmd) : MxQueue := { MxQueue.empty with cmds := cmds, mctl := 0x20000000 }
/-- A pass unit of the cell array of core 0 on tile 0: zero operands in mode 2. -/
def aUnit (cyc : Nat) : PassUnit :=
  { entry := 0, leader := 0, mate := none, index := 0, cyc := cyc, last := 16, paused := false, grantAt := 0, isLut := false, mode := 2, rate := 1, plane := 0, ea := [], eb := [], rows := List.replicate 64 [2],
    cols := List.replicate 64 [3], kept := [], rowBad := [], colBad := [], tile := 0, queue := 0, scale := 0, owner := 0, outAt := 0, void := false }
/-- A post of a pass with LAST, in the reservation table. -/
def aPost (granted : Nat) : Post :=
  { core := 0, queue := 0, cmd := aMx 0x11 [0x40000000, 0, 1, 0] 0 false, tile := 0, mctl := 0x20000000, granted := granted, retired := 0, since := some 0, prio := 0, folds := 0, discarded := false }
def arrBench (a : ArrayUnit) (t : NMap Post) : State := { onCore (mxBench (mxQueueOf [])) (fun c => { c with arr := a }) with cycle := 1024, tables := t }
/-- The same with SUMP_FULL paused on the array, its fibre in the handler. -/
def pausedBench : State :=
  { onCore handlingMx (fun c => { c with arr := { ArrayUnit.empty with units := [{ aUnit 0 with paused := true }], resident := some (0, 0, 0) } }) with
    cycle := 1024, tables := [(0, aPost 1)], fibres := [(0, { handlingMx.fibre 0 with sump := [0] })],
    hwins := handlingMx.hwins.map fun e => (e.1, { e.2 with sump := true }) }

/-- MatrixOffersAndStatus: registers for an offer at the window's end; a status read of a tile, a RESUME of a halted head; a handler with its array paused. -/
theorem witness_MatrixOffersAndStatus : (mxBench { mxQueueOf [aMx 0x10 [] 0 false] with halts := [(1, none)] }).Canon ∧
    (mxBench { mxQueueOf [aMx 0x10 [] 0 false] with halts := [(1, none)] }).Issues 0 [0] ∧ qcOf 0 = 0 / 16 ∧
    NMap.wf (mxBench { mxQueueOf [aMx 0x10 [] 0 false] with halts := [(1, none)] }).mxq = true ∧
    (mxBench { mxQueueOf [aMx 0x10 [] 0 false] with halts := [(1, none)] }).flagStop [0] = none ∧ 112 % 4 = 0 ∧ 112 + (mxQueueOf []).regs ≤ 120 ∧ (mxQueueOf []).claims = [] ∧ ((mxBench (mxQueueOf [])).readSrc ([0].filter (laneOf · < 16)) 1 (.v 119)).isOk = true ∧
    (mxBench (mxQueueOf [])).guardOf 0 = none ∧
    (∃ ls, (mxBench (mxQueueOf [])).Operands [0] [(8, .v 112)] [] (mxBench (mxQueueOf [])) ls) ∧
    (mxBench (mxQueueOf [])).Operands [0] [(1, .v 2)] [(1, .v 6)] (mxBench (mxQueueOf [])) (lanesFrom [0] [[[2]]]) ∧ (mxBench (mxQueueOf [])).tileAt 0 0 = some 0 ∧
    pausedBench.Canon ∧ pausedBench.Issues 0 [0] ∧ pausedBench.handling 0 = true ∧ pausedBench.handlerMx 0 = true ∧ pausedBench.holdsSump 0 = true ∧ (pausedBench.poolAsk 0 0 [(instMxpost, 1)]).isOk = true ∧ pausedBench.pausedFor 0 = some 0 ∧ (pausedBench.sumpFold 0 []).isSome = true :=
  ⟨by decide +kernel, by decide +kernel, by decide +kernel, by decide +kernel, by decide +kernel, by decide +kernel, by decide +kernel, by decide +kernel, by decide +kernel, by decide +kernel,
    ⟨lanesFrom [0] [[List.replicate 8 0]], operands_of (by decide +kernel) (by decide +kernel) (by decide +kernel)⟩,
    operands_of (by decide +kernel) (by decide +kernel) (by decide +kernel), by decide +kernel, by decide +kernel, by decide +kernel, by decide +kernel, by decide +kernel, by decide +kernel, by decide +kernel, by decide +kernel, by decide +kernel⟩

/-- MatrixQueueHeads: each kind of head: ill-formed, a post, `mx.cfg`, `mx.clr`, a drain of one row and a store at work. -/
theorem witness_MatrixQueueHeads : (∀ c ∈ [aMx 0x17 [1] 0 false, aMx 0x11 [0x40000000, 0, 1, 0] 0 false, aMx 0x10 [0x20000000, 0, 0, 0, 0, 0, 0, 0] 0 false, aMx 0x17 [] 7 false, aMx 0x17 [] 8 false],
      (mxBench (mxQueueOf [c])).Canon ∧ (mxBench (mxQueueOf [c])).mxHead 0 = some c ∧ c.waiting = false) ∧
    (∀ c ∈ [aMx 0x11 [0x40000000, 0, 1, 0] 0 false, aMx 0x10 [0x20000000, 0, 0, 0, 0, 0, 0, 0] 0 false, aMx 0x17 [] 7 false], (mxBench (mxQueueOf [c])).mxReason 0 c = 0) ∧
    (mxBench (mxQueueOf [aMx 0x17 [] 8 false])).mxReason 0 (aMx 0x17 [] 8 false) ≠ 0 ∧ (mxBench (mxQueueOf [])).freeKey 0 = some 0 ∧ (mxBench (mxQueueOf [])).tableAdmits 0 = true ∧
    NMap.wf ((mxBench (mxQueueOf [])).arr 0).tiles = true ∧ (mxBench (mxQueueOf [aMx 0x11 [0x40000000, 0, 1, 0] 0 false])).postBehind 0 (aMx 0x11 [0x40000000, 0, 1, 0] 0 false) = false ∧
    (mxBench (mxQueueOf [])).tilePosted 0 7 = false ∧ (mxBench (mxQueueOf [aMx 0x17 [] 8 false])).tilePosted 0 8 = false ∧ (mxBench (mxQueueOf [])).tile 0 0 = Tile.clear ∧ (mxBench (mxQueueOf [])).tileAt 0 7 = some 7 ∧
    (mxBench (mxQueueOf [aMx 0x16 [0x00002200] 0 true])).mxAtWork 0 [0x16] = some (aMx 0x16 [0x00002200] 0 true, 0) ∧ bits 0x00002200 19 13 = 1 ∧
    (mxBench (mxQueueOf [aMx 0x16 [0x00002200] 0 true])).rowsDone 0 = 0 ∧ ((mxBench (mxQueueOf [aMx 0x16 [0x00002200] 0 true])).poolAsk (waiterDrain 0) 0 [(instQreg 9, freshEntries (((mxBench (mxQueueOf [])).core 0).queue 9) 64)]).isOk = true ∧
    (mxBench (mxQueueOf [aMx 0x19 [0x00002000, 0, 0] 0 true])).mxAtWork 0 [0x18, 0x19] = some (aMx 0x19 [0x00002000, 0, 0] 0 true, 0) := by and_intros <;> decide +kernel

/-- Four offers of zeros for the post in entry 0. -/
def offered : MxQueue :=
  { mxQueueOf [] with offers := (List.range 4).map fun p => { qc := p, count := 8, fibre := 0, exps := List.replicate 16 0, lanes := List.replicate 32 (List.replicate 8 0), ops := [], guard := none },
                      claims := [(some 0, [1, 1, 1, 1])] }
def grantBench : State := { arrBench ArrayUnit.empty [(0, aPost 0)] with mxq := [(0, offered)] }
def runBench : State := arrBench { ArrayUnit.empty with units := [aUnit 0] } []
def foldBench : State := arrBench { ArrayUnit.empty with units := [aUnit 16], resident := some (0, 0, 0) } [(0, aPost 1)]
def shadowBench : State :=
  arrBench { ArrayUnit.empty with shadow := some { tile := 0, float := false, sums := (List.range 4096).map (fun k => (k, 0, false)), scale := 0, ea := [], eb := [], ready := 1024, ops := [] } } []
def retireBench : State := arrBench { ArrayUnit.empty with units := [aUnit 18] } [(0, aPost 1)]

/-- ArraysAtWork: a candidate with its offers and an open slot; a candidacy of 1024 cycles; a unit's first cycle; a unit to fold; a shadow whose time has come; a unit that retires. -/
theorem witness_ArraysAtWork : grantBench.Canon ∧ (grantBench.choice 0).isSome = true ∧ grantBench.slotOpen 0 = true ∧
    grantBench.draftReason (grantBench.draft 0 (aPost 0) (0, 0, (aPost 0).cmd.block)) = 0 ∧ 0 + 1024 * (0 - (grantBench.team 0).prio + 1) ≤ grantBench.cycle ∧
    runBench.Canon ∧ (runBench.arr 0).running = some (aUnit 0) ∧ runBench.unitArrays 0 = [(0, aUnit 0)] ∧ runBench.unitTraps (aUnit 0) = false ∧ runBench.cellsFree 0 = true ∧
    (runBench.arr 0).mustSwitch (aUnit 0) = false ∧ (((runBench.pauseOn 0 false).arr 0).apply 1024 (aUnit 0)).isSome = true ∧ (aUnit 0).cols.length = 64 ∧
    foldBench.Canon ∧ foldBench.unitToFold 0 = some (aUnit 16) ∧ (foldBench.arr 0).shadow = none ∧ shadowBench.Canon ∧ (shadowBench.tile 0 0).sigma = none ∧
    retireBench.Canon ∧ retireBench.mayRetire (aUnit 18) = true ∧ (aPost 0).cmd.fn = 0x11 ∧ cfgMode (aPost 0).mctl.toNat ≠ 5 ∧ grantBench.postSpoiled (aPost 0) = false ∧ (aUnit 16).void = false ∧ (foldBench.arr 0).resident = some (0, 0, 0) ∧ (aPost 1).discarded = false ∧
    (aPost 1).retired + 1 = (aPost 1).units ∧ (aPost 1).cmd.ops.Nodup := by and_intros <;> decide +kernel

/-- Nothing stands before a command of a queue. -/
theorem sends_of {s s1 : State} {g inst n : Nat} {fs : List Nat} {q : XQueue} (h1 : s.flagStop fs = none) (h2 : (s1.poolAsk g (g / 64) [(inst, n)]).isOk = true)
    (h3 : ∀ f ∈ fs, s.guardOf f = none ∧ coreOf f = g / 64) (h4 : (s.core (g / 64)).xq q = []) : s.Sends s1 g fs inst n q := ⟨h1, granted h2, h3, h4⟩

/-- A pipe of two slots of 64 bytes from stage 0 to itself, with an outbox and an inbox of team 0. -/
def aPipe (desc0 : Word) (tiles : List PipeTile) (out inn : List (Nat × Nat)) : Pipe :=
  { Pipe.start [desc0, 2, 64, 0, 0x00010000, 1] with
    rings := [{ inbox := false, team := 0, base := 0, seqAt := 0, seq := 0, slots := out }, { inbox := true, team := 0, base := 128, seqAt := 256, seq := 0, slots := inn }], tiles := tiles }
def aTile (n : Nat) (data : Option (List Byte)) (src : Option (Nat × Nat × List Nat)) : PipeTile := { num := n, data := data, src := src, spill := false, delivered := false, counted := false, moving := false, lines := 0 }
def pipeBench (v1 v2 : Word) (p : Pipe) : State := { spadBench v1 v2 7 with pipes := [(0, p)], nextId := 5, ops := [(4, { anOp with dst := .none, marks := [], left := 1 })] }

/-- PipeInstructions: a reservation and an acquisition that can be served and ones that cannot, a reserved and an acquired slot, control values outside the rules. -/
theorem witness_PipeInstructions : (pipeBench 0 0 (aPipe 0 [] [(0, 0), (0, 0)] [(1, 0), (0, 0)])).Canon ∧ (pipeBench 0 0 (aPipe 0 [] [(0, 0), (0, 0)] [(1, 0), (0, 0)])).Issues 0 [0] ∧
    (pipeBench 0 0 (aPipe 0 [] [(0, 0), (0, 0)] [(1, 0), (0, 0)])).Operands [0] [(1, .v 1)] [(1, .v 6)] (pipeBench 0 0 (aPipe 0 [] [(0, 0), (0, 0)] [(1, 0), (0, 0)])) (lanesFrom [0] [[[0]]]) ∧
    (∀ b : Bool, ((pipeBench 0 0 (aPipe 0 [] [(0, 0), (0, 0)] [(1, 0), (0, 0)])).ringOf 0 0 b).isSome = true ∧
      ((pipeBench 0 0 (aPipe 0 [] [(0, 0), (0, 0)] [(1, 0), (0, 0)])).ringOf 0 1 b).isSome = false) ∧
    ((aPipe 0 [] [(0, 0), (0, 0)] [(1, 0), (0, 0)]).reserve 0).isSome = true ∧ ((aPipe 0 [] [(0, 0), (0, 0)] [(1, 0), (0, 0)]).acquire 0).isSome = true ∧
    ((aPipe 0 [] [(1, 0), (1, 0)] [(0, 0)]).reserve 0).isSome = false ∧ ((aPipe 0 [] [(1, 0), (1, 0)] [(0, 0)]).acquire 0).isSome = false ∧
    (pipeBench 0 0 (aPipe 0 [] [(0, 0), (0, 0)] [(1, 0), (0, 0)])).Sends (pipeBench 0 0 (aPipe 0 [] [(0, 0), (0, 0)] [(1, 0), (0, 0)])) 0 [0] instPipe 1 .pipe ∧
    (pipeBench 0 64 (aPipe 0 [] [(0, 0), (1, 0)] [(0, 0), (2, 0)])).slotFor 0 0 64 false = some 1 ∧ (pipeBench 0 192 (aPipe 0 [] [(0, 0), (1, 0)] [(0, 0), (2, 0)])).slotFor 0 0 192 true = some 1 ∧
    (pipeBench 0 64 (aPipe 0 [] [(0, 0), (1, 0)] [(0, 0), (2, 0)])).slotFor 0 0 0 false = none ∧
    (pipeBench 0 64 (aPipe 0 [] [(0, 0), (1, 0)] [(0, 0), (2, 0)])).Operands [0] [(1, .v 1), (1, .v 2)] [] (pipeBench 0 64 (aPipe 0 [] [(0, 0), (1, 0)] [(0, 0), (2, 0)])) (lanesFrom [0] [[[0]], [[64]]]) ∧
    (pipeBench 0 0 (aPipe 0 [] [] [])).pipeAt 0 4096 = none :=
  ⟨by decide +kernel, by decide +kernel, operands_of (by decide +kernel) (by decide +kernel) (by decide +kernel), by decide +kernel, by decide +kernel, by decide +kernel, by decide +kernel,
    by decide +kernel, sends_of (by decide +kernel) (by decide +kernel) (by decide +kernel) (by decide +kernel), by decide +kernel, by decide +kernel, by decide +kernel,
    operands_of (by decide +kernel) (by decide +kernel) (by decide +kernel), by decide +kernel⟩

/-- A block of zeros at offset 0 binds an outbox of no slots, which R322 refuses; one with a slot count is bound. -/
def bindBench (rings : Bool) : State := (pipeBench 0 0 (if rings then aPipe 0 [] [(0, 0), (0, 0)] [(0, 0), (0, 0)] else Pipe.start [0, 2, 64, 0, 0, 0])).spadWrite 0 8 [2]
def rangeBench (r : RangeSlot) (v : Word) : State := onCore (spadBench v 0 1) fun c => { c with ranges := if r.chunk = 0 then [] else [(0, r)] }

/-- BindingsAndRanges: a block that binds, one of a bound ring with UNB, one outside the rules; a range with a chunk left, one exhausted, one never set; `rs.init` of slot 3 and of slot 4. -/
theorem witness_BindingsAndRanges : (bindBench false).Canon ∧ (bindBench false).Issues 0 [0] ∧ (bindBench false).Operands [0] [(1, .v 1)] [] (bindBench false) (lanesFrom [0] [[[0]]]) ∧
    (bindBench false).bindBad 0 ⟨0, 0, 2, 0⟩ = false ∧ (bindBench false).bindPlace 0 ⟨0, 0, 2, 0⟩ = none ∧ (pipeBench 0 0 (aPipe 0 [] [(0, 0), (0, 0)] [(0, 0), (0, 0)])).bindBad 0 ⟨2 ^ 30, 0, 0, 0⟩ = false ∧
    (bindBench true).bindBad 0 ⟨0, 0, 2, 0⟩ = true ∧ ((bindBench false).spadFree 0 [0] = true ∧ (bindBench false).spadBad 0 0 16 = false ∧ (bindBench false).allReady [0] false = true) ∧ (bindBench false).Sends (bindBench false) 0 [0] instPipe 1 .pipe ∧
    (∀ r ∈ [(⟨0, 8, 4, 0⟩ : RangeSlot), ⟨8, 8, 4, 0⟩, ⟨0, 0, 0, 0⟩], (rangeBench r 0).Canon ∧ ((rangeBench r 0).core 0).rangeq = [] ∧ ((rangeBench r 0).core 0).range 0 = r) ∧
    (rangeBench ⟨0, 8, 4, 0⟩ 0).Operands [0] [(1, .v 1)] [(2, .v 6)] (rangeBench ⟨0, 8, 4, 0⟩ 0) (lanesFrom [0] [[[0]]]) ∧
    (rangeBench ⟨0, 8, 4, 0⟩ 0).Operands [0] [(4, .lit [0, 8, 4, 3])] [] (rangeBench ⟨0, 8, 4, 0⟩ 0) (lanesFrom [0] [[[0, 8, 4, 3]]]) ∧
    (rangeBench ⟨0, 8, 4, 0⟩ 0).Sends (rangeBench ⟨0, 8, 4, 0⟩ 0) 0 [0] instPipe 1 .pipe :=
  ⟨by decide +kernel, by decide +kernel, operands_of (by decide +kernel) (by decide +kernel) (by decide +kernel), by decide +kernel, by decide +kernel, by decide +kernel, by decide +kernel,
    by decide +kernel, sends_of (by decide +kernel) (by decide +kernel) (by decide +kernel) (by decide +kernel), by decide +kernel,
    operands_of (by decide +kernel) (by decide +kernel) (by decide +kernel), operands_of (by decide +kernel) (by decide +kernel) (by decide +kernel),
    sends_of (by decide +kernel) (by decide +kernel) (by decide +kernel) (by decide +kernel)⟩

/-- A stage with a task queue and two counters, one team of one fibre with 8 registers. -/
def taskStage (cap : Word) : Stage :=
  { placedStage with rec_ := [0, 0, 0x00200001, 0x00F00081, 1, cap, 2] ++ List.replicate 57 0, tasks := [{ entry := 0x100, arg := 7, dep := none, readyAt := some 0 }], counters := [1, 0] }
def taskBench (cap v1 v3 : Word) : State := { spadBench v1 0 v3 with plans := [(0, { placedPlan with stages := [taskStage cap] })] }

/-- TaskInstructions: a queue with room and one without, with TRY and without, counter 1 of two, a READY task. -/
theorem witness_TaskInstructions : (taskBench 2 1 1).Canon ∧ (taskBench 2 1 1).Issues 0 [0] ∧ (taskBench 2 1 1).stage? ((taskBench 2 1 1).planOf 0) ((taskBench 2 1 1).stageOf 0) = some (taskStage 2) ∧
    (taskBench 2 1 1).Operands [0] [(4, .lit [0x100, 0, 5, 0]), (1, .lit [0x80000FFF])] [(1, .v 6)] (taskBench 2 1 1) (lanesFrom [0] [[[0x100, 0, 5, 0]], [[0x80000FFF]]]) ∧
    (taskStage 2).room 1 = true ∧ (taskStage 1).room 1 = false ∧ (taskBench 2 1 1).Sends (taskBench 2 1 1) 0 [0] instPipe 1 .pipe ∧
    (taskBench 2 1 1).Operands [0] [(1, .v 1), (1, .v 3)] [] (taskBench 2 1 1) (lanesFrom [0] [[[1]], [[1]]]) ∧ 1 < (taskStage 2).depn ∧
    (taskBench 2 1 1).Operands [0] [] [(4, .v 8)] (taskBench 2 1 1) (lanesFrom [0] []) ∧ ((taskStage 2).held = [] ∧ (taskBench 2 1 1).planOf 0 = 0 ∧ (taskBench 2 1 1).stageOf 0 = 0) ∧ (taskStage 2).oldestReady = some 0 :=
  ⟨by decide +kernel, by decide +kernel, by decide +kernel, operands_of (by decide +kernel) (by decide +kernel) (by decide +kernel), by decide +kernel, by decide +kernel,
    sends_of (by decide +kernel) (by decide +kernel) (by decide +kernel) (by decide +kernel), operands_of (by decide +kernel) (by decide +kernel) (by decide +kernel), by decide +kernel,
    operands_of (by decide +kernel) (by decide +kernel) (by decide +kernel), by decide +kernel, by decide +kernel⟩

/-- A transmit window of 1 MiB at the data page, one destination; and a receive entry. -/
def txEntry (ps : List SentPacket) (st : WinState) (reason : Nat) : WinEntry :=
  { WinEntry.empty with words := [0x40000000, 0x100000, 0x200000, 0, 0x00010002] ++ List.replicate 11 0, state := st, reason := reason, nextSeq := [0], packets := ps }
def rxEntry : WinEntry := { WinEntry.empty with words := [0x80040000, 0x100000, 0x200000, 0, 0x80000000] ++ List.replicate 11 0, state := .live }
def aPacket (sent : Bool) (body : PacketBody) : SentPacket :=
  { dest := 0, seq := 0, body := body, fibres := [0], cmds := [], op := some 4, core := 0, entries := 1, sent := sent, acked := false, stamp := 0, at_ := 0, ctx := 0 }
def winBench (ps : List SentPacket) (st : WinState) (reason : Nat) : State :=
  { memBench 0x200000 0 with wins := [(1, txEntry ps st reason), (2, rxEntry)], cycle := 2100000, nextId := 5, ops := [(4, { anOp with dst := .none, marks := [], left := 1 })] }

/-- A fence of the fibre at a window in ERROR. -/
def failing : State := { winBench [] .error 3 with fxf := [{ fibre := 0, op := 4, failed := [1], covered := [1], since := 0 }] }
/-- FabricInstructions: a word of a transmit window and a reply place; a fence with nothing owed and one that owes; a fence of 1 ms at a window in ERROR; status of entry 255 and of 256. -/
theorem witness_FabricInstructions : (winBench [] .live 0).Canon ∧ (winBench [] .live 0).Issues 0 [0] ∧
    (winBench [] .live 0).Operands [0] [(4, .lit [0x200000, 0, 5, 0x02000000])] [] (winBench [] .live 0) (lanesFrom [0] [[[0x200000, 0, 5, 0x02000000]]]) ∧ ((winBench [] .live 0).allReady [0] false = true ∧ (winBench [] .live 0).spadFree 0 [0] = true ∧ (winBench [] .live 0).fxf = [] ∧ (∀ c ∈ (winBench [] .live 0).cores, c.2.copy.queue = [])) ∧
    (winBench [] .live 0).Sends (winBench [] .live 0) 0 [0] instFabric 1 .fab ∧ (winBench [] .live 0).txWindow 0 0x200000 = some 1 ∧ ((winBench [] .live 0).win 1).dests.length = 1 ∧
    ((winBench [] .live 0).route 0 0x200000 4 .write).reaches = true ∧ (winBench [] .live 0).fxReplyBad 0 0x02000000 = false ∧
    (winBench [] .live 0).Operands [0] [(4, .lit [0x200000, 0, 5, 0])] [] (winBench [] .live 0) (lanesFrom [0] [[[0x200000, 0, 5, 0]]]) ∧
    (winBench [] .live 0).fxOwed 0 = [] ∧ (winBench [aPacket true (.sig 0 1)] .live 0).fxOwed 0 = [1] ∧
    (winBench [] .live 0).Operands [0] [(1, .lit [255])] [(1, .v 6)] (winBench [] .live 0) (lanesFrom [0] [[[255]]]) ∧ ((failing.fxf.find? fun x => x.fibre == 0 && !x.failed.isEmpty && decide (x.since + oneMs ≤ failing.horizon)).isSome = true ∧ failing.Sorted) :=
  ⟨by decide +kernel, by decide +kernel, operands_of (by decide +kernel) (by decide +kernel) (by decide +kernel), by decide +kernel,
    sends_of (by decide +kernel) (by decide +kernel) (by decide +kernel) (by decide +kernel), by decide +kernel, by decide +kernel, by decide +kernel, by decide +kernel,
    operands_of (by decide +kernel) (by decide +kernel) (by decide +kernel), by decide +kernel, by decide +kernel, operands_of (by decide +kernel) (by decide +kernel) (by decide +kernel), by decide +kernel⟩

/-- TransmitWindows: a packet to leave, one that is acknowledged, refused and overdue after 1 ms, and a window to rebind. -/
theorem witness_TransmitWindows : (winBench [aPacket false (.sig 0 1)] .live 0).Canon ∧ ((winBench [aPacket false (.sig 0 1)] .live 0).win 1).kind = 1 ∧
    (winBench [aPacket false (.sig 0 1)] .live 0).heldAct 0 4 = false ∧ (winBench [aPacket false (.sig 0 1)] .live 0).egressHeads 1 ≠ [] ∧
    ((winBench [aPacket true (.sig 0 1)] .live 0).win 1).packets.find? (·.named 0 0) = some (aPacket true (.sig 0 1)) ∧ (aPacket true (.sig 0 1)).body.isAdd = false ∧
    (aPacket true (.sig 0 1)).at_ + oneMs ≤ (winBench [aPacket true (.sig 0 1)] .live 0).horizon ∧ 0 < ((winBench [] .live 0).win 1).dests.length ∧ (NMap.find (winBench [] .error 3).wins 1).isSome = true ∧ (NMap.find (winBench [] .error 3).wins 2).isSome = true ∧ ((winBench [] .error 3).win 1).kind = 1 ∧ ((winBench [] .error 3).win 1).reason = 3 ∧
    ((winBench [] .error 3).win 1).state = .error ∧ ((winBench [] .error 3).win 2).kind = 2 ∧ (∃ p < 8, p ∉ (winBench [] .error 3).planesDown) := by and_intros <;> decide +kernel

/-- A page table of context 0 whose entry of level 2 is a leaf of 1 GiB at 0. -/
def mapped (s : State) : State :=
  (((s.setBytes ⟨false, 0x10000⟩ (Byte.split 8 0x11001)).setBytes ⟨false, 0x11000⟩ (Byte.split 8 0x12001)).setBytes ⟨false, 0x12000⟩ (Byte.split 8 0x7A)).modCtx 0 fun c => { c with troot0 := 0x10001 }
def rxBench (q : List Packet) : State := { mapped (winBench [aPacket true (.add 0 1 2 0)] .live 0) with inbox := q, mem := (mapped (winBench [] .live 0)).mem }
def incoming (seq : Nat) (b : PacketBody) : Packet := { entry := 2, device := 1, sender := 3, seq := seq, body := b }

/-- The consuming end of a pipe from device 1 whose tiles arrive by window 2. -/
def fedBench : State := { rxBench [] with pipes := [(0, Pipe.start [0xC000, 2, 64, 0, 0x00010000, 2])] }
/-- PacketArrivals: no receive entry, a packet in sequence that is admitted at the window's last byte and one past it, one ahead, one behind, and each body applied. -/
theorem witness_PacketArrivals : (rxBench []).Canon ∧ ((rxBench []).win 3).state = .free ∧ ((rxBench []).win 2).kind = 2 ∧ ((rxBench []).win 2).state ≠ .free ∧
    (rxBench []).rxAdmits ((rxBench []).win 2) (incoming 0 (.store [(0xFFFFF, 1)])) = true ∧ (rxBench []).rxAdmits ((rxBench []).win 2) (incoming 0 (.store [(0x100000, 1)])) = false ∧
    (((rxBench []).win 2).stream 1 3).1 = 0 ∧ (5 + 2 ^ 32 - 0 % 2 ^ 32) % 2 ^ 32 < 2 ^ 31 ∧ 2 ^ 31 ≤ (0xFFFFFFFF + 2 ^ 32 - 0 % 2 ^ 32) % 2 ^ 32 ∧
    (∀ b ∈ [PacketBody.store [(0, 1)], .add 0 1 1 0, .sig 0 1, .reply 0 7], (rxBench [incoming 0 b]).inbox.find? (fun q => q.device == 1 && q.sender == 3 && q.entry == 2) = some (incoming 0 b)) ∧
    ((rxBench []).rxPlace ((rxBench []).win 2) .atomic 0).isSome = true ∧ ((rxBench []).addFor (incoming 0 (.reply 0 7)) 0).isSome = true ∧
    (((rxBench []).win 2).stream 1 3).2 ≤ (rxBench []).horizon ∧ (∀ b ∈ [PacketBody.store [(0, 1)], .publish 0 1], (rxBench []).peerSays (incoming 0 b) = none) ∧
    ((rxBench []).rxStore ((rxBench []).win 2) [(0, 1)]).isSome = true ∧ ((winBench [] .live 0).rxStore ((winBench [] .live 0).win 2) [(0, 1)]).isSome = false ∧ (NMap.find (winBench [] .live 0).wins 2).isSome = true ∧
    ((rxBench []).rxStore ((rxBench []).win 2) ((indexed (Byte.split 8 (7 % 2 ^ 32 + 2 ^ 32))).map fun b => (8 * 0 + b.1, b.2))).isSome = true ∧
    fedBench.pipesFrom (fedBench.win 2) 2 1 0 = [0] ∧ (fedBench.pipe? 0).isSome = true ∧ (fedBench.rxLoad (fedBench.win 2) (1 % 2 * 64) 64).isSome = true := by and_intros <;> decide +kernel

/-- A flit of a message from core 0 to core 4, two hops of one router from its end; links and remap tables as they are. -/
def meshBench (at_ : Nat) (links : NMap Nat) : State :=
  { State.reset with mesh := { Mesh.empty with msgs := [(0, { src := 0, dst := 4, lat := false, flits := 1, got := 0, layer := 0, ctx := 0, part := 0, body := .barrier 0 })],
                                               flits := [{ msg := 0, num := 0, layer := 0, at_ := at_, age := 0, moved := false }], links := links } }
/-- MeshEvents: one flit at a router on its way and one at its end, a context that is quiesced, a link in service and one retraining for the third time. -/
theorem witness_MeshEvents : (meshBench 0 []).Canon ∧ NMap.wf (meshBench 0 []).mesh.links = true ∧ NMap.wf (meshBench 0 []).mesh.remap = true ∧ (meshBench 0 []).FlitsApart ∧
    ((meshBench 0 []).flitsAt 0 0).length = 1 ∧ ((meshBench 1 []).flitsAt 0 1).all (fun x => x.2.router == 1 && (meshBench 1 []).localTakes 1 x) = true ∧
    ((meshBench 0 []).productive 0 0 1).head?.isSome = true ∧ (meshBench 0 []).quiesced 1 = true ∧ (meshBench 0 []).quiesced 0 = false ∧ crossesDies 3 1 = true ∧ (meshBench 0 []).linkState 0 3 1 = 0 ∧
    (meshBench 0 [(linkKey 0 3 1, 5)]).linkState 0 3 1 = 5 := by and_intros <;> decide +kernel

/-- A device with partition 0 of every cluster, context 0 and a LOADED plan of one stage. -/
def partRec : List Word := [0x80000000] ++ List.replicate 31 0xFFFFFFFF
def aPart : Part := { rec_ := partRec, meters := List.replicate 6 0, held := List.replicate 6 false, pendingRec := none, period := 0 }
def aPlan (st : PlanState) (g : Stage) : Plan := { placedPlan with state := st, stages := [g] }
def planBench (st : PlanState) (g : Stage) : State :=
  { State.reset with plans := [(0, aPlan st g)], ctxs := [(0, placedCtx)], parts := [(0, aPart)], cores := if st = .running then (clusterCores [0]).map fun c => (c, { Core.init with ctx := some 0, plan := some (0, 0) }) else [] }
def idleStage : Stage := { taskStage 0 with clusters := [], live := [], next := 0, tasks := [], counters := [] }

/-- PlansAndTeams: an aligned record and a misaligned one, a plan that may start, a running stage with a team to launch and one with none. -/
theorem witness_PlansAndTeams : (spadBench 0 0 7).Canon ∧ (spadBench 0 0 7).Issues 0 [0] ∧ (spadBench 0 0 7).Operands [0] [(2, .lit [64, 0])] [(1, .v 6)] (spadBench 0 0 7) (lanesFrom [0] [[[64, 0]]]) ∧
    (spadBench 0 0 7).Operands [0] [(2, .lit [63, 0])] [(1, .v 6)] (spadBench 0 0 7) (lanesFrom [0] [[[63, 0]]]) ∧ (spadBench 0 0 7).Sends (spadBench 0 0 7) 0 [0] instPipe 1 .pipe ∧
    (spadBench 0 0 7).memOps 0 = [] ∧ (spadBench 0 0 7).recordSpoiled ((spadBench 0 0 7).ctxOf 0) 64 = none ∧ (planBench .loaded idleStage).Canon ∧ (planBench .loaded idleStage).frontPlan 0 = some 0 ∧ (shares [idleStage.rec_] ((planBench .loaded idleStage).freeClustersOf 0)).isSome = true ∧
    (planBench .running { idleStage with clusters := [0] }).Canon ∧ recResident idleStage.rec_ = false ∧ idleStage.saved = [] ∧ idleStage.pagesReady = true ∧
    ((planBench .running { idleStage with clusters := [0] }).launchNext 0 0).isSome = true ∧ ((planBench .running { idleStage with clusters := [0], next := 1 }).launchNext 0 0).isSome = false ∧
    recFibres idleStage.rec_ ≤ 1024 ∧ wordAt idleStage.rec_ 10 ≤ recSpan idleStage.rec_ :=
  ⟨by decide +kernel, by decide +kernel, operands_of (by decide +kernel) (by decide +kernel) (by decide +kernel), operands_of (by decide +kernel) (by decide +kernel) (by decide +kernel),
    sends_of (by decide +kernel) (by decide +kernel) (by decide +kernel) (by decide +kernel), by decide +kernel, by decide +kernel, by decide +kernel, by decide +kernel, by decide +kernel, by decide +kernel,
    by decide +kernel, by decide +kernel, by decide +kernel, by decide +kernel, by decide +kernel, by decide +kernel, by decide +kernel⟩

/-- PipeEvents: updates of each kind, with their release work performed and still owed; a tile to pull, a tile to deliver into an inbox and over a live window, a tile from another device, a release to tell, a drained pipe. -/
def updated (u there : Bool) : Pipe :=
  { aPipe 0 [] [(3, 0), (0, 0)] [(3, 0), (0, 0)] with
    updates := [{ publish := u, team := 0, slot := 0, num := 0, ops := [4], fibre := 0, rel := if there then none else some { waits := [], wide := false, flush := none }, id := 0, there := there }] }
def pulling : Pipe := aPipe 0 [aTile 0 none (some (0, 0, [4]))] [(3, 0), (0, 0)] [(0, 0), (0, 0)]
def delivering (w0 : Word) : Pipe := { aPipe w0 [aTile 0 (some (List.replicate 64 1)) none] [(0, 0)] [(0, 0), (0, 0)] with desc := [w0, 2, 64, 0, 0x00010000, 1] }
def tileBench : State := { pipeBench 0 0 (aPipe 0xC000 [] [] [(0, 0)]) with tilesIn := [(0, 0, List.replicate 64 1)] }
theorem witness_PipeEvents : (∀ u v : Bool, (pipeBench 0 0 (updated u v)).Canon ∧ (pipeBench 0 0 (updated u v)).pipe? 0 = some (updated u v) ∧ (updated u v).waiting = [] ∧ (pipeBench 0 0 (updated u v)).tilesIn = []) ∧
    (updated true false).far 0 = false ∧ (pipeBench 0 0 (updated true false)).relWaited { waits := [], wide := false, flush := none } = true ∧
    (pipeBench 0 0 pulling).Canon ∧ (pipeBench 0 0 pulling).pumpRuns 0 pulling = true ∧ pulling.nextPull = some (aTile 0 none (some (0, 0, [4]))) ∧ pulling.slotsHeld < pulling.depth ∧
    (pulling.tiles.map PipeTile.num).Nodup ∧ (pipeBench 0 0 pulling).outboxBad pulling (aTile 0 none (some (0, 0, [4]))) = false ∧
    (pulling.ring? false 0).isSome = true ∧ (pipeBench 0 0 (delivering 0)).Canon ∧ (delivering 0).nextDeliver = some (aTile 0 (some (List.replicate 64 1)) none) ∧ (delivering 0).consumes = true ∧
    (pipeBench 0 0 (delivering 0)).pumpRuns 0 (delivering 0) = true ∧ (delivering 0).inboxFor.isSome = true ∧ (delivering 0x8000).xdev = true ∧ (delivering 0x8000).xend = false ∧ (delivering 0xC000).xend = true ∧
    (delivering 0x8000).win = 1 ∧ (delivering 0x8000).nextDeliver = some (aTile 0 (some (List.replicate 64 1)) none) ∧ 0 < (delivering 0x8000).credit + (delivering 0x8000).depth ∧
    { winBench [] .live 0 with pipes := [(0, delivering 0x8000)] }.Canon ∧ { winBench [] .live 0 with pipes := [(0, delivering 0x8000)] }.pumpRuns 0 (delivering 0x8000) = true ∧
    ((winBench [] .live 0).win 1).state = .live ∧ ((winBench [] .live 0).win 1).kind = 1 ∧ (pipeBench 0 0 pulling).pumpRuns 0 { pulling with drained := true } = false ∧
    tileBench.Canon ∧ (tileBench.tilesIn.find? fun x => x.1 == 0).isSome = true ∧ (aPipe 0xC000 [] [] [(0, 0)]).drained = false ∧
    { aPipe 0xC000 [] [] [] with drained := true, rel := 1 }.told ≠ 1 := by and_intros <;> decide +kernel

/-- RangesAndTasks: an exhausted range beside one with chunks on another core and without; each kind of update. -/
def stealBench (hi : Nat) : State :=
  let s := onCore (bench [] id) fun c => { c with ranges := [(0, ⟨8, 8, 4, 0⟩)], rangeq := [(0, 4, 0)], plan := some (0, 0) }
  { s.setCore 1 { Core.init with ctx := some 0, plan := some (0, 0), ranges := [(0, ⟨0, hi, 4, 0⟩)] } with nextId := 5, ops := [(4, { anOp with left := 1, value := none })] }
def updStage (k : TaskKind) (idx : Nat) : Stage :=
  { taskStage 2 with updates := [{ ops := [4], kind := k, idx := idx, value := 0, tasks := [], rels := [], fibre := 0, core := 0, team := 0, header := 0, tile := none }] }
theorem witness_RangesAndTasks : (stealBench 16).Canon ∧ (stealBench 16).emptyRequest 0 = some (0, 4, 0) ∧ (((stealBench 16).core 0).rangeq.map fun e => e.2.1).Nodup ∧ (((stealBench 16).core 0).range 0).chunk ≠ 0 ∧
    ((stealBench 16).victim 0 0 (stealOrder 0)).isSome = true ∧ (stealBench 0).Canon ∧ ((stealBench 0).victim 0 0 (stealOrder 0)).isSome = false ∧
    (∀ k ∈ [TaskKind.spawn, .dec, .write, .fire], (planBench .running (updStage k 0)).Canon ∧ (planBench .running (updStage k 0)).stage? 0 0 = some (updStage k 0)) ∧
    0 < (updStage .fire 0).depn ∧ (updStage .fire 0).counters.getD 0 0 ≠ 0 := by and_intros <;> decide +kernel

/-- Deadlocks: a running plan with no stage blocked; one whose stage waits for a tile of another device; one of which a stage waits for itself; a draining plan; probes that are dropped, forwarded and come home without a lowest pipe, with another device's and with this device's. -/
def deadBench (blocked : Option Nat) : State :=
  { planBench .running { idleStage with clusters := [0], blocked := blocked } with pipes := [(0, aPipe 0xC000 [] [] [])], cycle := 2100000 }
/-- A fibre that waits at pipe 0 for a tile, its stage blocked since time 0. -/
def waitingBench (w0 : Word) : State :=
  let s := pipeBench 0 0 (aPipe w0 [] [(0, 0)] [(0, 0)])
  { s with groups := [(0, { s.group 0 with stall := some (.acquire 0) })], plans := s.plans.map fun e => (e.1, { e.2 with stages := e.2.stages.map fun g => { g with blocked := some 0 } }), cycle := 2100000 }
/-- What its stage waits for, from a lowest pair. -/
def awaited (low : Nat × Nat) : List (Edge × (Nat × Nat)) := (waitingBench 0xC000).markBlocked.remoteEdges 0 (((waitingBench 0xC000).markBlocked.plan? 0).getD placedPlan) 17 [] 0 low
theorem witness_Deadlocks : (deadBench none).Canon ∧ (deadBench none).grantsIn = [] ∧ ((deadBench none).markBlocked.plan? 0).any (fun x => x.state == .running) = true ∧
    (waitingBench 0).Canon ∧ ((waitingBench 0).markBlocked.plan? 0).any (fun x => !((waitingBench 0).markBlocked.cycles 0 x).isEmpty) = true ∧
    (planBench .draining idleStage).Canon ∧ ((planBench .draining idleStage).plan? 0).any (fun x => x.state == .draining) = true ∧ (planBench .draining idleStage).heldAct 0 1 = false ∧
    (waitingBench 0xC000).Canon ∧ ((waitingBench 0xC000).markBlocked.pipe? 0).any Pipe.xend = true ∧ ((waitingBench 0xC000).markBlocked.plan? 0).any (fun x => !x.drains) = true ∧ 1023 < 1024 ∧
    awaited noLow = [(⟨0, false⟩, noLow)] ∧ awaited (4096, 5) = [(⟨0, false⟩, (4096, 5))] ∧ ((waitingBench 0xC000).markBlocked.pipe? 0).any (fun q => !q.extended) = true := by and_intros <;> decide +kernel
/-- The other device of a probe is not this one; a probe with this device's pair comes home with it. -/
theorem witness_probes : 4096 ≠ ownDevice ∧ awaited (ownDevice, 0) = [(⟨0, false⟩, (ownDevice, 0))] :=
  ⟨by unfold ownDevice; omega, rfl⟩

/-- BudgetsAndPreemption: a period that has begun, a stage above MINCL, a halting core with nothing under way, one that is saved with a team, images to resume, a restoring core, a context to reset. -/
def phased (p : Phase) : State := onCore (bench [] id) fun c => { c with phase := p, ctx := some 0, plan := some (0, 0) }
def anImage (whole : Bool) (placed : Option Nat) : Image := { num := 0, ctx := 0, plan := 0, stage := 0, from_ := 0, vcore := 0, whole := whole, placed := placed, msgs := [] }
def resumeBench (whole : Bool) (placed : Option Nat) : State :=
  let s := planBench .running { idleStage with clusters := [0], saved := if whole then [] else [16 * 4096] }
  { s with images := [anImage whole placed], teams := [(16 * 4096, { Team.blank with slots := [], area := (0, 0, 0, 0) })], cores := if whole then [] else s.cores }
def restoreBench : State := { phased .restoring with images := [anImage true (some 0)] }
theorem witness_BudgetsAndPreemption : (planBench .running { idleStage with clusters := [0, 1] }).Canon ∧
    (NMap.find { (planBench .running idleStage) with cycle := 21000 * 10 }.parts 0).any (fun p => p.period < { (planBench .running idleStage) with cycle := 21000 * 10 }.horizon / 10000) = true ∧
    (planBench .running { idleStage with clusters := [0, 1] }).relhop 0 = false ∧ recMin idleStage.rec_ < [0, 1].length ∧ (planBench .running { idleStage with clusters := [0, 1] }).preempts = [] ∧ ((planBench .running { idleStage with clusters := [0, 1] }).stage? 0 0).any (fun g => g.clusters == [0, 1]) = true ∧
    (phased .halting).Canon ∧ ((phased .halting).core 0).phase = .halting ∧ (phased .halting).memBusy 0 = false ∧ (phased .halting).enginesBusy 0 = false ∧ (phased .halting).owedTime 0 ≤ (phased .halting).horizon ∧
    (phased .saving).Canon ∧ ((phased .saving).core 0).phase = .saving ∧ (phased .saving).preempts = [] ∧ ((phased .saving).core 0).plan = some (0, 0) ∧ (∃ e ∈ (phased .saving).teams, e.1 / 16 = 0) ∧ (∀ e ∈ (phased .saving).teams, e.1 / 16 = 0 → e.2.area.1 + e.2.area.2.1 ≤ 128) ∧
    (resumeBench false none).Canon ∧ (resumeBench false none).firstSaved 0 0 = some (16 * 4096) ∧ (anImage false none).shadow = 4096 ∧
    ((resumeBench false none).resumeAt 0 { idleStage with clusters := [0], saved := [16 * 4096] } (16 * 4096)).isSome = true ∧
    (resumeBench true none).mayPlace (anImage true none) 0 = true ∧ (resumeBench true none).Canon ∧ (resumeBench true none).quiesced 0 = true ∧ NMap.wf (resumeBench true none).mesh.remap = true ∧ ((resumeBench true none).core 0).l1 = [] ∧ (anImage true none).msgs = [] ∧ (phased .restoring).Canon ∧ ((phased .restoring).core 0).phase = .restoring ∧
    ((resumeBench true (some 0)).images.find? fun i => i.placed == some 0) = some (anImage true (some 0)) ∧ restoreBench.Canon ∧ (restoreBench.core 0).phase = .restoring ∧ restoreBench.images = [anImage true (some 0)] ∧ ((resumeBench true none).core 0).phase ≠ .halting ∧ (phased .running).ctx? 5 = none ∧ ((phased .running).ctx? 0).isSome = true := by and_intros <;> decide +kernel

/-- GangsAndWindlass: a gang past GRACE whose victim has left and one that has not, one past PLACE, a plan at its interval with a pair and without. -/
def gangBench (v : Option Nat) : State := { planBench .loaded idleStage with gangs := [{ ctx := 0, plan := 0, since := 0, victim := v, compacting := false }], cycle := 2 ^ 50 }
theorem witness_GangsAndWindlass : (gangBench (some 1)).Canon ∧ (gangBench (some 1)).gangs[0]? = some { ctx := 0, plan := 0, since := 0, victim := some 1, compacting := false } ∧
    0 + (gangBench none).graceOf 0 ≤ (gangBench none).horizon ∧ (gangBench none).Canon ∧ 0 + (gangBench none).placeOf 0 < (gangBench none).horizon ∧
    ((gangBench none).plan? 0).any (fun x => x.state == .loaded) = true ∧ (deadBench none).Canon ∧ ((deadBench none).plan? 0).isSome = true ∧ ((deadBench none).choosePair 0 (aPlan .running idleStage)).isSome = false := by
  and_intros <;> decide +kernel

/-- A link with one message in the submission ring at 0 and a completion ring at 4096, of 16 slots each. -/
def message (m : List Word) : State :=
  let s := { spadBench 0 0 7 with boot := .ready, host := { HostLink.init with en := true, sqlog := 4, cqlog := 4, sqtail := 1, cqbase := 4096, cqhead := 0 } }
  s.setHostWords 0 (m ++ List.replicate (16 - m.length) 0)

/-- HostMessages, ContextMessages, DeviceMessages: every kind of message at the head, with its number in sequence. -/
theorem witness_HostMessages : (∀ k ∈ List.range 12, (message [Word.ofNat (k * 2 ^ 24), 1]).Canon ∧ (message [Word.ofNat (k * 2 ^ 24), 1]).headMsg = some (Word.ofNat (k * 2 ^ 24) :: 1 :: List.replicate 14 0) ∧
      msgType (Word.ofNat (k * 2 ^ 24) :: 1 :: List.replicate 14 0) = k) ∧ (message []).host.hack = 0 ∧ (message []).cqOpen = true ∧ badHead [0x01000010] = true ∧
    (message []).ctx? 1 = none ∧ [Status.ok.code].length ≤ 12 := by and_intros <;> decide +kernel
theorem witness_ContextMessages : (∀ k ∈ [2, 3, 4, 7, 8, 9], (message [Word.ofNat (k * 2 ^ 24), 1]).Canon ∧ (message [Word.ofNat (k * 2 ^ 24), 1]).headMsg = some (Word.ofNat (k * 2 ^ 24) :: 1 :: List.replicate 14 0) ∧
      badHead [Word.ofNat (k * 2 ^ 24)] = false) ∧ (1 : Nat) = ((message []).host.hack + 1) % 2 ^ 32 ∧ ((message []).ctx? 0).any (fun x => x.part == 0) = true ∧ (message []).quiesced 0 = true ∧ (∀ e ∈ (message []).reqs, e.2.refused = false) := by and_intros <;> decide +kernel
theorem witness_DeviceMessages : (∀ k ∈ [1, 5, 6, 10, 11], (message [Word.ofNat (k * 2 ^ 24), 1]).Canon ∧ (message [Word.ofNat (k * 2 ^ 24), 1]).headMsg = some (Word.ofNat (k * 2 ^ 24) :: 1 :: List.replicate 14 0) ∧
      badHead [Word.ofNat (k * 2 ^ 24)] = false) ∧ ((message []).win 255).state = .free ∧ ((winBench [] .live 0).win 1).state = .live ∧ ((winBench [] .error 3).win 1).reason ≠ 2 ∧ (message []).quiesced 1 = true ∧ (∀ e ∈ (message []).reqs, e.2.refused = false) := by and_intros <;> decide +kernel

/-- HostRegistersAndPower: an open and a shut completion ring, an entry of each kind to write, each boot and thermal state. -/
def entryBench (r d e : List (List Word)) : State := { message [] with host := { (message []).host with replay := r, due := d, events := e } }
theorem witness_HostRegistersAndPower : (∀ x ∈ [entryBench [List.replicate 16 1] [] [], entryBench [] [List.replicate 16 1] [], entryBench [] [] [List.replicate 16 1]], x.Canon ∧ x.cqOpen = true) ∧
    State.reset.Canon ∧ State.reset.cqOpen = false ∧ State.reset.host.restart = false ∧ State.reset.host.sqlog < 16 ∧ State.reset.host.cqlog < 16 ∧
    { State.reset with host := { State.reset.host with restart := true, written := [0x08, 0x10, 0x3C] } }.Canon ∧ (trapping.ctx? 0).isSome = true ∧ { State.reset with throttle := 3 }.Canon ∧ State.reset.boot = .reset ∧ { State.reset with boot := .recovery, throttle := 3 }.Canon := by and_intros <;> decide +kernel

/-- DecodeEncode: an instruction with an extension word that is encoded and well formed; an event is not encoded. -/
theorem witness_DecodeEncode : (Instr.iadd .b64 (.v 118) (.lit [1, 2]) (.v 0)).encoded = true ∧ (Instr.iadd .b64 (.v 118) (.lit [1, 2]) (.v 0)).wf = true ∧ (Instr.clauseStart 0).encoded = false := by decide +kernel

/-- StepRunsTheDecodedInstruction: a group that may issue, inside its clause, before a `movi`. -/
def fetchBench : State := State.withFetchWord State.reset 32 0x11E
theorem witness_StepRunsTheDecodedInstruction : fetchBench.mayIssue 0 = true ∧ (fetchBench.group 0).members = [0] ∧ (fetchBench.fibre 0).pos = 1 ∧
    (((fetchBench.fibre 0).code.drop 1).map fetchBench.wordAtLoc).head? = some 0x11E ∧ fetchBench.agenda = [.issue 0] := by and_intros <;> decide +kernel

/-- EveryStepKeepsCanonicalForms: the reset state is canonical, and it steps. -/
theorem witness_EveryStepKeepsCanonicalForms : State.reset.Canon ∧ (match step { State.reset with agenda := [.elapse 1] } with | .next _ => true | _ => false) = true := by and_intros <;> decide +kernel

/-! Single steps. Expected values are worked out by hand from the rules cited. -/

/-- Register n as fibre 0 reads it after one instruction from the given registers of its lane. -/
def regAfter (regs : NMap Word) (i : Instr) (n : Nat) : Option Nat :=
  match exec i (bench regs id) with
  | .next t => some (t.view 0 n).toNat
  | _ => none

/-- The predicates of the fibre after one instruction, from predicates ps. -/
def predsAfter (regs : NMap Word) (ps : BitVec 16) (i : Instr) : Option Nat :=
  match exec i (bench regs fun f => { f with preds := ps }) with
  | .next t => some (t.fibre 0).preds.toNat
  | _ => none

/-- What a function reads of the state after one instruction. -/
def afterIn {α : Type} (s : State) (i : Instr) (r : State → α) : Option α := match exec i s with | .next t => some (r t) | _ => none

/-- R130: wrapping, saturating signed and unsigned sums, and a pair's carry into its high word. -/
theorem test_iadd : regAfter [(1, 0x7FFFFFFF), (2, 1)] (.iadd .wrap (.v 1) (.v 2) (.v 3)) 3 = some 0x80000000 ∧
    regAfter [(1, 0x7FFFFFFF), (2, 1)] (.iadd .satS (.v 1) (.v 2) (.v 3)) 3 = some 0x7FFFFFFF ∧
    regAfter [(1, 0xFFFFFFFF), (2, 2)] (.iadd .satU (.v 1) (.v 2) (.v 3)) 3 = some 0xFFFFFFFF ∧
    regAfter [(2, 0xFFFFFFFF), (3, 6), (4, 1)] (.iadd .b64 (.v 2) (.v 4) (.v 2)) 3 = some 7 := by and_intros <;> decide +kernel

/-- R130: a difference below 0 wraps, and saturates at 0 unsigned. -/
theorem test_isub : regAfter [(1, 1), (2, 2)] (.isub .wrap (.v 1) (.v 2) (.v 3)) 3 = some 0xFFFFFFFF ∧
    regAfter [(1, 1), (2, 2)] (.isub .satU (.v 1) (.v 2) (.v 3)) 3 = some 0 := by and_intros <;> decide +kernel

/-- R131: the carry and the borrow pass through pk, read before it is written. -/
theorem test_carry_and_borrow : regAfter [(1, 0xFFFFFFFF)] (.iaddc 2 (.v 1) .vz (.v 3)) 3 = some 0xFFFFFFFF ∧
    predsAfter [(1, 0xFFFFFFFF)] 5 (.iaddc 2 (.v 1) .vz (.v 3)) = some 5 ∧ predsAfter [(2, 1)] 1 (.isubb 2 .vz (.v 2) (.v 3)) = some 5 := by
  and_intros <;> decide +kernel

/-- R132: the low word, the exact wide product of -2 and 3, and the high words of mixed signs. -/
theorem test_imul : regAfter [(1, 0x10000), (2, 0x10000)] (.imul .lo (.v 1) (.v 2) (.v 4)) 4 = some 0 ∧
    regAfter [(1, 0xFFFFFFFE), (2, 3)] (.imul .wideS (.v 1) (.v 2) (.v 4)) 5 = some 0xFFFFFFFF ∧
    regAfter [(1, 0xFFFFFFFE), (2, 3)] (.imul .wideU (.v 1) (.v 2) (.v 4)) 5 = some 2 ∧
    regAfter [(1, 0xFFFFFFFF), (2, 0xFFFFFFFF)] (.imulh .su (.v 1) (.v 2) (.v 4)) 4 = some 0xFFFFFFFF := by and_intros <;> decide +kernel

/-- R133: division by 0, the overflow of the most negative number, and truncation toward 0 with the dividend's sign. -/
theorem test_idiv : regAfter [(1, 5)] (.idiv .s32 (.v 1) (.v 2) (.v 3)) 3 = some 0xFFFFFFFF ∧
    regAfter [(1, 0x80000000), (2, 0xFFFFFFFF)] (.idiv .s32 (.v 1) (.v 2) (.v 3)) 3 = some 0x80000000 ∧
    regAfter [(1, 0xFFFFFFF9), (2, 2)] (.idiv .s32 (.v 1) (.v 2) (.v 3)) 3 = some 0xFFFFFFFD := by and_intros <;> decide +kernel
theorem test_irem : regAfter [(1, 5)] (.irem .s32 (.v 1) (.v 2) (.v 3)) 3 = some 5 ∧
    regAfter [(1, 0x80000000), (2, 0xFFFFFFFF)] (.irem .s32 (.v 1) (.v 2) (.v 3)) 3 = some 0 ∧
    regAfter [(1, 0xFFFFFFF9), (2, 2)] (.irem .s32 (.v 1) (.v 2) (.v 3)) 3 = some 0xFFFFFFFF := by and_intros <;> decide +kernel

/-- R134: signed and unsigned order differ, and the most negative number wraps or saturates. -/
theorem test_imin_iabs : regAfter [(1, 0x80000000), (2, 1)] (.imin .s32 (.v 1) (.v 2) (.v 3)) 3 = some 0x80000000 ∧
    regAfter [(1, 0x80000000), (2, 1)] (.imin .u32 (.v 1) (.v 2) (.v 3)) 3 = some 1 ∧ regAfter [(1, 0x80000000)] (.iabs false (.v 1) (.v 3)) 3 = some 0x80000000 ∧
    regAfter [(1, 0x80000000)] (.iabs true (.v 1) (.v 3)) 3 = some 0x7FFFFFFF := by and_intros <;> decide +kernel

/-- R135: andn keeps the bits of A that B does not hold, orn adds the complement of B. -/
theorem test_lop : regAfter [(1, 0xF0), (2, 0x30)] (.lop .andn (.v 1) (.v 2) (.v 3)) 3 = some 0xC0 ∧
    regAfter [(1, 0xF0), (2, 0xFFFFFF00)] (.lop .orn (.v 1) (.v 2) (.v 3)) 3 = some 0xFF := by and_intros <;> decide +kernel

/-- R136: amounts of the full width and more; the rotation takes its amount modulo n. -/
theorem test_shifts : regAfter [(1, 1), (2, 32)] (.shl false (.v 1) (.v 2) (.v 3)) 3 = some 0 ∧
    regAfter [(1, 0x80000000), (2, 100)] (.sar false (.v 1) (.v 2) (.v 3)) 3 = some 0xFFFFFFFF ∧
    regAfter [(1, 0x80000000), (2, 31)] (.shr false (.v 1) (.v 2) (.v 3)) 3 = some 1 ∧
    regAfter [(1, 0x80000001), (2, 33)] (.rot false (.v 1) (.v 2) (.v 3)) 3 = some 3 := by and_intros <;> decide +kernel

/-- R137: a signed field, a field past bit 31, an inserted field. -/
theorem test_bit_fields : regAfter [(1, 0xF0), (2, 0x0404)] (.bfx true (.v 1) (.v 2) (.v 3)) 3 = some 0xFFFFFFFF ∧
    regAfter [(1, 0xF0000000), (2, 0x081C)] (.bfx false (.v 1) (.v 2) (.v 3)) 3 = some 0xF ∧
    regAfter [(1, 0xAB), (2, 0x0408), (3, 0xFFFFFFFF)] (.bfi (.v 1) (.v 2) (.v 3)) 3 = some 0xFFFFFBFF := by and_intros <;> decide +kernel

/-- R138: counts of zero give n, and bit 0 moves to bit 31. -/
theorem test_counts : regAfter [] (.clz true (.v 2) (.v 4)) 4 = some 64 ∧ regAfter [(2, 0x10)] (.ctz false (.v 2) (.v 4)) 4 = some 4 ∧
    regAfter [(2, 1)] (.brev false (.v 2) (.v 4)) 4 = some 0x80000000 ∧ regAfter [(2, 0xFF), (3, 1)] (.popc true (.v 2) (.v 4)) 4 = some 9 := by
  and_intros <;> decide +kernel

/-- R139, R140: a signed and an unsigned comparison differ; `isel` takes b where its predicate is false. -/
theorem test_icmp : predsAfter [(1, 0xFFFFFFFF), (2, 1)] 1 (.icmp .lt false false (.v 1) (.v 2) 3) = some 9 ∧
    predsAfter [(1, 0xFFFFFFFF), (2, 1)] 9 (.icmp .lt true false (.v 1) (.v 2) 3) = some 1 := by and_intros <;> decide +kernel
theorem test_isel : regAfter [(1, 5), (2, 6)] (.isel 3 (.v 1) (.v 2) (.v 3)) 3 = some 6 := by decide +kernel

/-- R142, R144, R145: `movi` extends its sign; narrowing saturates or extends; halves are packed, bytes unpacked. -/
theorem test_moves : regAfter [] (.movi 0x3FFFF (.v 3)) 3 = some 0xFFFFFFFF ∧ regAfter [(1, 0x8000)] (.cvti .satS16 (.v 1) (.v 3)) 3 = some 0x7FFF ∧
    regAfter [(1, 0x8000)] (.cvti .s16 (.v 1) (.v 3)) 3 = some 0xFFFF8000 ∧ regAfter [(1, 0x11112222), (2, 0x33334444)] (.pack .b16 (.v 1) (.v 2) (.v 3)) 3 = some 0x44442222 ∧
    regAfter [(1, 0x80FF0102)] (.unpk .s8 (.v 1) (.v 4)) 7 = some 0xFFFFFF80 := by and_intros <;> decide +kernel

/-- R148: 1 + 2 = 3; Inf - Inf is the default NaN with NV; one rounding in `ffma` (1 + 2^-24 rounds to even). -/
theorem test_fadd : regAfter [(1, 0x3F800000), (2, 0x40000000)] (.fadd .f32 false (.v 1) (.v 2) (.v 3)) 3 = some 0x40400000 ∧
    regAfter [(1, 0x7F800000), (2, 0x7F800000)] (.fsub .f32 false (.v 1) (.v 2) (.v 3)) 3 = some 0x7FC00000 := by and_intros <;> decide +kernel
theorem test_ffma : regAfter [(1, 0x39800000), (2, 0x39800000), (3, 0x3F800000)] (.ffma .f32 false (.v 1) (.v 2) (.v 3)) 3 = some 0x3F800000 ∧
    regAfter [(1, 0x39800000), (2, 0x3A000000), (3, 0x3F800000)] (.ffma .f32 false (.v 1) (.v 2) (.v 3)) 3 = some 0x3F800001 := by and_intros <;> decide +kernel

/-- R150: the zeros are equal, and a NaN makes ne true. -/
theorem test_fcmp : predsAfter [(1, 0x80000000)] 1 (.fcmp .f32 false .eq (.v 1) (.v 2) 3) = some 9 ∧
    predsAfter [(1, 0x7FC00000)] 1 (.fcmp .f32 false .ne (.v 1) (.v 2) 3) = some 9 ∧ predsAfter [(1, 0x7FC00000)] 9 (.fcmp .f32 false .lt (.v 1) (.v 2) 3) = some 1 := by
  and_intros <;> decide +kernel

/-- R75: 1.5 narrows to FP16 and widens to FP64, and 2.5 truncates to 2. -/
theorem test_float_conversions : regAfter [(1, 0x3FC00000)] (.fcvt .f32f16 .rne (.v 1) (.v 4)) 4 = some 0x3E00 ∧
    regAfter [(1, 0x3FC00000)] (.fcvt .f32f64 .rne (.v 1) (.v 4)) 5 = some 0x3FF80000 ∧ regAfter [(1, 0x40200000)] (.fcvt .f32s32 .rtz (.v 1) (.v 4)) 4 = some 2 := by
  and_intros <;> decide +kernel
/-- R156, R157: roots, quotients and powers of exact cases. -/
theorem test_float_quotients : regAfter [(1, 0x40800000)] (.fsqrt .f32 (.v 1) (.v 4)) 4 = some 0x40000000 ∧
    regAfter [(1, 0x40C00000), (2, 0x40000000)] (.fdiv .f32 false (.v 1) (.v 2) (.v 4)) 4 = some 0x40400000 ∧
    regAfter [(1, 0x40000000)] (.frcp .f32 (.v 1) (.v 4)) 4 = some 0x3F000000 ∧ regAfter [(1, 0x40400000)] (.fexp2 .f32 (.v 1) (.v 4)) 4 = some 0x41000000 := by
  and_intros <;> decide +kernel

/-- R116, R117, R118: the mask of active lanes where the predicate holds; the quad sum counts helpers, four times a lone member. -/
theorem test_ballot : afterIn { pair with fibres := [(0, { pair.fibre 0 with preds := 3 }), (8, { pair.fibre 8 with preds := 1 })] } (.ballot 1 (.v 3))
    (fun t => (t.view 8 3).toNat) = some 1 := by decide +kernel
theorem test_qred : regAfter [(1, 5)] (.qred .add (.v 1) (.v 3)) 3 = some 20 := by decide +kernel
theorem test_redux : afterIn pair (.redux .add false (.v 1) (.v 3)) (fun t => (t.view 8 3).toNat) = some 12 := by decide +kernel

/-- A `trap` whose predicate is false leaves the fibre running; `csrrd` reads FIBREID of a launched fibre, its number in the team (R89). -/
theorem test_trap_not_taken : afterIn (bench [] id) (.trap 3 5) (fun t => (t.fibre 0).wait) = some none := by decide +kernel
theorem test_csrrd_fibreid : afterIn (bench [(3, 9)] fun f => { f with fibreId := 6 }) (.csrrd 0x003 (.v 3)) (fun t => (t.view 0 3).toNat) = some 6 := by decide +kernel

/-- R60: `sts` of two bytes puts the low byte at the lower address. -/
theorem test_sts : afterIn (spadBench 0x10 0 0xAABB) (.sts .b16 none (.v 1) .vz (.v 3)) (fun t => (t.spadAt 0 0x10, t.spadAt 0 0x11, t.spadAt 0 0x12)) = some (0xBB, 0xAA, 0) := by
  decide +kernel

end Sys2Proof.Tests
end

section
/-! SUPPORT. Privilege (R9): what a group in user mode gets from an instruction of handler mode, and the statement PrivilegedInstructions. -/

namespace Sys2Proof.Machine

section
variable {s : State} {g : Nat} {fs : List Nat} (hi : s.Issues g fs) (hu : ∀ f ∈ fs, (s.fibre f).mode = .user)

include hu in
theorem State.userGroup_of_user : s.userGroup fs = true := by simpa [State.userGroup] using hu

include hu in
/-- The numbers from 0x400 on are closed to user mode (R9, R228). -/
theorem State.csrShut_of_user {n : Nat} (hn : 0x400 ≤ n) : s.csrShut fs n = true := by
  simp [State.csrShut, hn, State.userGroup_of_user hu]

include hi hu

/-- R231: a read of a privileged register. -/
theorem execCsrrd_of_user {n : BitVec 11} (hn : 0x400 ≤ n.toNat) (d : Dst) : execCsrrd n d s = s.privilege g fs := by
  rw [execCsrrd, State.onGroup_issues hi, if_pos (State.csrShut_of_user hu hn)]

/-- R231: a write of a privileged register traps in the lanes that would write it. -/
theorem State.writeCsr_of_user {n : Nat} (hn : 0x400 ≤ n) (a : Src) :
    s.writeCsr n a = s.privilege g (if csrPerLane n then fs else fs.take 1) := by
  rw [State.writeCsr, State.onGroup_issues hi, if_pos (State.csrShut_of_user hu hn)]

/-- R231, log 28: the registers past TPRED are written once, and the elected lane alone traps. -/
theorem State.writeCsr_once_of_user {n : Nat} (hn : 0x406 < n) (a : Src) : s.writeCsr n a = s.privilege g (fs.take 1) := by
  have once : csrPerLane n = false := by simp only [csrPerLane, decide_eq_false_iff_not]; omega
  rw [State.writeCsr_of_user hi hu (by omega), once, if_neg Bool.false_ne_true]

/-- R232: `tlbi` in both forms. -/
theorem State.tlbiAs_of_user (srcs : List (Nat × Src)) (p : List Lane → PageEntry → Bool) : s.tlbiAs srcs p = s.privilege g fs := by
  rw [State.tlbiAs, State.onGroup_issues hi, if_pos (State.userGroup_of_user hu)]

/-- R230: `eret` and `eret.skip`. -/
theorem State.eretAs_of_user (skip : Bool) : s.eretAs skip = s.privilege g fs := by
  rw [State.eretAs, State.onGroup_issues hi, if_pos (State.userGroup_of_user hu), State.privilege]

/-- R235: `perf` and `perf.clr` while UEN, bit 0 of PERFCTL, is 0. -/
theorem State.perfAs_of_user (huen : (s.core (g / 64)).perfctl.toNat % 2 = 0) (c : Nat) (clear : Bool) (d : Dst) :
    s.perfAs c clear d = s.privilege g fs := by
  have shut : (s.userGroup fs && !bit (s.core (g / 64)).perfctl.toNat 0) = true := by simp [State.userGroup_of_user hu, bit, huen]
  rw [State.perfAs, State.onGroup_issues hi, if_pos shut]

end

/-- Settles O16: each instruction of the statement is one of five shared operations, and each of these asks the mode before it does anything. -/
theorem privilegedInstructions : Obligations.PrivilegedInstructions := by
  unfold Obligations.PrivilegedInstructions
  intro s g fs hi hu refusedIn refused once
  have writesOnce {n : Nat} (hn : 0x406 < n) (a : Src) := State.writeCsr_once_of_user hi hu hn a
  refine ⟨fun n a d hn => ⟨execCsrrd_of_user hi hu hn d, ?_⟩,
    fun k h a => ⟨writesOnce (by omega) a, writesOnce (by omega) a, writesOnce (by split <;> omega) a, writesOnce (by omega) a,
      writesOnce (by omega) a, State.tlbiAs_of_user hi hu _ _⟩,
    State.tlbiAs_of_user hi hu _ _, State.eretAs_of_user hi hu false, State.eretAs_of_user hi hu true,
    fun huen c d => ⟨State.perfAs_of_user hi hu huen c.val false d, State.perfAs_of_user hi hu huen c.val true d⟩⟩
  have write := State.writeCsr_of_user hi hu hn a
  split
  case isTrue perLane => rw [if_pos perLane] at write; exact write
  case isFalse perLane => rw [if_neg perLane] at write; exact write

end Sys2Proof.Machine
end

section
/-! SUPPORT. Selection and scaled addition (R140, R141): the word of an integer instruction whose operands are registers and what the decoder reads from it, the integers an instruction reads and stores, and the statement SelectAndScaledAdd. -/

namespace Sys2Proof.Machine

/-- The number of an R-format word: opcode, d, a, b, U and the code m[31:29] (R44). -/
def rWord (op d a b : Nat) (u : Bool) (c : Nat) : Nat :=
  op + 2 ^ 7 * d + 2 ^ 14 * a + 2 ^ 21 * b + (if u then 2 ^ 28 else 0) + 2 ^ 29 * c

section
variable {op d a b c : Nat} {u : Bool}

/-! Each field reads back; the bounds are the widths of the fields below it. -/

theorem opOf_rWord (hop : op < 128) : opOf (rWord op d a b u c) = op := by
  simp only [opOf, rWord]; split <;> omega

theorem isX_rWord (hx : op % 16 ≠ 15) : isX (rWord op d a b u c) = false := by
  simp only [isX, rWord, beq_eq_false_iff_ne]; split <;> omega

theorem fieldD_rWord (hop : op < 128) (hd : d < 128) : fieldD (rWord op d a b u c) = d := by
  simp only [fieldD, bits, rWord]; split <;> omega

theorem fieldA_rWord (hop : op < 128) (hd : d < 128) (ha : a < 128) : fieldA (rWord op d a b u c) = a := by
  simp only [fieldA, bits, rWord]; split <;> omega

theorem fieldB_rWord (hop : op < 128) (hd : d < 128) (ha : a < 128) (hb : b < 128) : fieldB (rWord op d a b u c) = b := by
  simp only [fieldB, bits, rWord]; split <;> omega

theorem fieldU_rWord (hop : op < 128) (hd : d < 128) (ha : a < 128) (hb : b < 128) : fieldU (rWord op d a b u c) = u := by
  simp only [fieldU, bit, rWord]
  cases u
  case false => simp only [Bool.false_eq_true, if_false, beq_eq_false_iff_ne]; omega
  case true => simp only [if_true, beq_iff_eq]; omega

theorem fieldC_rWord (hop : op < 128) (hd : d < 128) (ha : a < 128) (hb : b < 128) (hc : c < 8) : fieldC (rWord op d a b u c) = c := by
  simp only [fieldC, bits, rWord]; split <;> omega

theorem rWord_lt (hop : op < 128) (hd : d < 128) (ha : a < 128) (hb : b < 128) (hc : c < 8) : rWord op d a b u c < 2 ^ 32 := by
  simp only [rWord]; split <;> omega

/-- A field that names a register asks for no literal words (R28). -/
theorem litCount_register {n : Nat} (h : n < 120) (words : Nat) : litCount n words = 0 := if_neg (by omega)

theorem srcField_register {n : Nat} (h : n < 120) (lit : List Word) : srcField n lit = some (.v n) := if_pos h

theorem dstField_register {n : Nat} (h : n < 120) : dstField n = some (.v n) := if_pos h

theorem finField_of_lt {n f : Nat} (h : f < n) : finField n f = some ⟨f, h⟩ := dif_pos h

/-! The integer words: an opcode of 0x00 to 0x1E, and registers in the fields. -/

section
variable (hop : op < 32) (hd : d < 120) (ha : a < 120) (hb : b < 120)
include hop hd ha hb

/-- The operands are the registers the fields name, b among the team-uniform ones where U is set (R40, R42). -/
theorem opABD_integerWord (ext : List Word) (k : Src → Src → Dst → Instr) :
    opABD (partsOf (rWord op d a b u c) ext) k = some (k (.v a) (if u then .s b else .v b) (.v d)) := by
  simp (disch := omega) only [opABD, Parts.a, Parts.bU, Parts.b, Parts.d, partsOf, fieldA_rWord, fieldB_rWord, fieldD_rWord, fieldU_rWord,
    srcField_register, dstField_register]
  cases u <;> rfl

variable (hx : op % 16 ≠ 15)
include hx

/-- A word of registers stands alone (R28). -/
theorem extCount_integerWord : extCount (rWord op d a b u c) = 0 := by
  have notM : isM (rWord op d a b u c) = false := by
    simp (disch := omega) only [isM, opOf_rWord, decide_eq_false_iff_not]; omega
  have notLoopi : (op == 0x47) = false := by simp only [beq_eq_false_iff_ne]; omega
  simp (disch := omega) only [extCount, leadWords, regFields, isX_rWord, notM, opOf_rWord, notLoopi, fieldD_rWord, fieldA_rWord, fieldB_rWord,
    litCount_register, Bool.false_eq_true, if_false, b2n]

/-- An integer word whose code is below a bound decodes to what its opcode builds of the code and the registers (R38). -/
theorem decode_integerWord {n : Nat} {k : Fin n} (hk : k.val < 8) {make : Fin n → Src → Src → Dst → Instr}
    (built : ∀ p, opOf p.w = op → buildInt p = coded (finField n (fieldC p.w)) fun q => opABD p (make q))
    (wf : (make k (.v a) (if u then .s b else .v b) (.v d)).wf = true) :
    decode [Word.ofNat (rWord op d a b u k.val)] = .ok (make k (.v a) (if u then .s b else .v b) (.v d)) := by
  have number : (Word.ofNat (rWord op d a b u k.val)).toNat = rWord op d a b u k.val :=
    BitVec.toNat_ofNat .. ▸ Nat.mod_eq_of_lt (rWord_lt (by omega) (by omega) (by omega) (by omega) hk)
  have known : reservedCode (rWord op d a b u k.val) = false := by
    simp (disch := omega) only [reservedCode, isX_rWord, opOf_rWord, Bool.false_eq_true, if_false, decide_eq_false_iff_not]; omega
  have opcode : opOf (partsOf (rWord op d a b u k.val) []).w = op := opOf_rWord (by omega)
  have code : fieldC (partsOf (rWord op d a b u k.val) []).w = k.val := fieldC_rWord (by omega) (by omega) (by omega) (by omega) hk
  have notX : isX (partsOf (rWord op d a b u k.val) []).w = false := isX_rWord hx
  have integer : build (partsOf (rWord op d a b u k.val) []) = .ok (make k (.v a) (if u then .s b else .v b) (.v d)) := by
    rw [build, notX, opcode, Nat.div_eq_of_lt hop]
    simp only [Bool.false_eq_true, if_false, built _ opcode, code, coded, finField_of_lt k.isLt, opABD_integerWord hop hd ha hb]
  simp only [decode, number, known, extCount_integerWord hop hd ha hb hx, List.length_nil, integer, wf, Bool.false_eq_true, if_false, if_true,
    Nat.lt_irrefl]

end

/-! The static rules of a register, team-uniform where U is set (R40 to R42). -/

theorem fits_v (words n : Nat) (v : Bool) : (Src.v n).fits words v = regFits words n := rfl

theorem dst_fits_v (words n : Nat) : (Dst.v n).fits words = regFits words n := rfl

theorem regFits_one {n : Nat} (h : n < 120) : regFits 1 n = true := by
  simp only [regFits, Nat.mod_one, beq_self_eq_true, Bool.and_true, decide_eq_true_eq]; omega

theorem regFits_two {n : Nat} (h : n < 120) (even : n % 2 = 0) : regFits 2 n = true := by
  simp only [regFits, even, beq_self_eq_true, Bool.and_true, decide_eq_true_eq]; omega

theorem fits_registerU (hb : if u then b < 64 else b < 120) : (if u then Src.s b else Src.v b).fits 1 true = true := by
  cases u
  case false => exact regFits_one hb
  case true =>
    have inFile : b + 1 ≤ 64 := hb
    simp only [if_true, Src.fits, inFile, decide_true, Nat.mod_one, beq_self_eq_true, Bool.and_self]

/-! What the two opcodes build and run. -/

theorem buildInt_isel (p : Parts) (h : opOf p.w = 0x1B) : buildInt p = coded (finField 16 (fieldC p.w)) fun q => opABD p (.isel q) := by
  rw [buildInt, h]; rfl

theorem buildInt_lea (p : Parts) (h : opOf p.w = 0x1C) : buildInt p = coded (finField 8 (fieldC p.w)) fun k => opABD p (.lea k) := by
  rw [buildInt, h]; rfl

theorem exec_isel (p : Pred) (x y : Src) (z : Dst) (s : State) : exec (.isel p x y z) s =
    s.alu 0x1B [(1, x), (1, y)] (some (1, z)) fun f l => LaneOut.num 1 (if f.pred p.val then l.n 0 else l.n 1) := rfl

theorem exec_lea (k : Fin 8) (x y : Src) (z : Dst) (s : State) : exec (.lea k x y z) s =
    s.alu 0x1C [(2, x), (1, y)] (some (2, z)) fun _ l => LaneOut.num 2 (narrow ((l.n 0 : Int) + sext (l.n 1) 32 * 2 ^ k.val) 64) := rfl

section
variable (hd : d < 120) (ha : a < 120) (hb : if u then b < 64 else b < 120)

include hb in
theorem fieldB_lt : b < 120 := by split at hb <;> omega

include hd ha hb

/-- R140: the word of `isel` on one of p0 to p7. -/
theorem decode_isel (k : Fin 8) :
    decode [Word.ofNat (rWord 0x1B d a b u k.val)] = .ok (.isel (k.castLE (by decide)) (.v a) (if u then .s b else .v b) (.v d)) :=
  decode_integerWord (n := 16) (k := k.castLE (by decide)) (make := .isel) (by decide) hd ha (fieldB_lt hb) (by decide) k.isLt buildInt_isel <| by
    simp only [Instr.wf, Fin.val_castLE, k.isLt, fits_v, dst_fits_v, regFits_one hd, regFits_one ha, fits_registerU hb, decide_true, Bool.and_self]

/-- R141: the word of `lea`, whose a and d are pairs. -/
theorem decode_lea (evenA : a % 2 = 0) (evenD : d % 2 = 0) (k : Fin 8) :
    decode [Word.ofNat (rWord 0x1C d a b u k.val)] = .ok (.lea k (.v a) (if u then .s b else .v b) (.v d)) :=
  decode_integerWord (by decide) hd ha (fieldB_lt hb) (by decide) k.isLt buildInt_lea <| by
    simp only [Instr.wf, fits_v, dst_fits_v, regFits_two hd evenD, regFits_two ha evenA, fits_registerU hb, Bool.and_self]

end
end

/-! The integers of R60 and R129. -/

/-- Both say the sign of the low n bits: one by their top bit, the other by a comparison with half the range. -/
theorem signed_eq_sext {n : Nat} (hn : 0 < n) (x : Nat) : signed n x = sext x n := by
  have double : 2 ^ n = 2 * 2 ^ (n - 1) := by rw [mul_comm, Nat.two_pow_pred_mul_two hn]
  rw [signed, BitVec.toInt_eq_toNat_cond, BitVec.toNat_ofNat, sext]
  by_cases h : x % 2 ^ n < 2 ^ (n - 1)
  · rw [if_pos h, if_pos (by omega)]
  · rw [if_neg h, if_neg (by omega)]

theorem stored_eq_narrow (n : Nat) (x : Int) : stored n x = narrow x n := BitVec.toNat_ofInt ..

theorem split_length (n x : Nat) : (Word.split n x).length = n := by
  induction n generalizing x with
  | zero => rfl
  | succ n ih => rw [Word.split, List.length_cons, ih]

theorem num_words_length (n x : Nat) : (LaneOut.num n x).words.length = n := split_length n x

/-- p0 reads as true (R126). -/
theorem pred_iff (x : Fibre) (p : Nat) : x.pred p = true ↔ p = 0 ∨ x.preds.getLsbD p = true := by
  rw [Fibre.pred, Bool.or_eq_true, beq_iff_eq]

/-- An instruction of the datapath does what its lane function says, where the function writes a number of w words (R129). -/
theorem State.does_of_alu {s : State} {g : Nat} {fs : List Nat} (hc : s.Canon) (hi : s.Issues g fs) {i : Instr} {info w : Nat} {srcs : List (Nat × Src)}
    {d : Dst} {k : Fibre → Lane → Nat} (run : exec i s = s.alu info srcs (some (w, d)) fun x l => LaneOut.num w (k x l)) :
    s.Does g fs i srcs (some (w, d)) fun ls f => LaneOut.num w (k (s.fibre f) (laneFor ls f)) :=
  fun _ _ readable room => run ▸ State.alu_completes info srcs (some (w, d)) w (fun x l => LaneOut.num w (k x l)) hc hi readable room
    fun _ _ _ => num_words_length ..

/-- Settles O59: the two words decode field by field, and both instructions are lane functions of the datapath. -/
theorem selectAndScaledAdd : Obligations.SelectAndScaledAdd := by
  unfold Obligations.SelectAndScaledAdd
  refine ⟨fun k u a b d ha hd hb => ⟨decode_isel hd ha hb k, fun evenA evenD => decode_lea hd ha hb evenA evenD k⟩,
    fun s g fs hc hi a b d => ⟨fun p => ?_, fun k => ?_⟩⟩
  · simpa only [pred_iff, Fin.val_eq_zero_iff] using State.does_of_alu hc hi (exec_isel p a b d s)
  · simpa only [stored_eq_narrow, signed_eq_sext (show 0 < 32 by decide)] using State.does_of_alu hc hi (exec_lea k a b d s)

end Sys2Proof.Machine
end
